-- ==== Sys2Proof/Word.lean ====
section
/-! DEFINITION. The words of the Tevuro 24J16: the bit patterns the spec names by width (00_scope.md, Key Figures;
12_stored_and_link_formats.md). -/

namespace Sys2Proof

/-- One byte lane of a memory word, or one byte on the service link. -/
abbrev Byte := BitVec 8

/-- A 32-bit word of the upstream port, the memory port, a record or the journal header. -/
abbrev Word := BitVec 32

/-- A data memory word address, UA[21:0] and MA[21:0] (R1, R19). -/
abbrev DataAddr := BitVec 22

/-- A journal memory word address, MA[15:0] under JCS# (R47). -/
abbrev JournalAddr := BitVec 16

/-- A line number, 20 bits: a data word address divided by 4 (R1). -/
abbrev Line := BitVec 20

/-- An epoch number, 0 to 524 287, wrapping to 0 (R61). -/
abbrev Epoch := BitVec 19

/-- Byte lanes UBE or MBE; lane 0 is bits 7 to 0 (00_scope.md, Byte order). -/
abbrev Lanes := BitVec 4

/-- A supply level in millivolts, as the supply monitor compares it (R143). -/
abbrev Millivolts := Nat

end Sys2Proof
end

