-- ==== Sys2Proof/Syntax.lean ====
section
/-! DEFINITION. The commands of the block: one constructor of `Instr` for each row of spec/opcode_table.json, with the
operands the rule of that row gives the step from outside. -/

namespace Sys2Proof

/-- What the microcontroller presents on UWR, UBL and UA while it asserts USTB (R1). -/
structure Strobe where
  write : Bool
  burst : Bool
  addr  : DataAddr
  deriving DecidableEq, Repr

/-- The upstream bus as the microcontroller holds it while a word operation completes. R1 and R15 take the data and lanes
of a write beat when the beat moves; every other word operation ignores UD and UBE. -/
structure UpstreamBus where
  data  : Word
  lanes : Lanes
  /-- USTB, if it is asserted (R3; log entry 12) -/
  ustb  : Option Strobe
  deriving DecidableEq, Repr

/-- What caused a hardware reset (R33). -/
inductive ResetCause where
  /-- an assertion of RSTI#: a word operation that has begun completes (R21) -/
  | pin
  /-- power-on after a loss of power: a word write that had begun may not have completed (R152) -/
  | powerOn
  deriving DecidableEq, Repr

/-- The straps, pins and supply that the part reads when a hardware reset ends (R3, R20, R126, R153, R163, R171). -/
structure ReleasePins where
  mspd   : BitVec 2
  la     : BitVec 2
  rcva   : Bool
  /-- PFAIL# asserted (low at the pin) -/
  pfail  : Bool
  supply : Millivolts
  ckpt   : Bool
  abrt   : Bool
  /-- USTB, if it is asserted (R3, R18) -/
  ustb   : Option Strobe
  deriving DecidableEq, Repr

/-- A write frame of one named command, ended by STOP: the 7-bit address sent after START, and the data bytes after
the command code (R172, R175, R190). -/
structure LinkFrame where
  addr : BitVec 7
  args : List Byte
  deriving DecidableEq, Repr

/-- The write frame of RESET, with USTB as the microcontroller holds it when the command is taken: with no job in progress
the link reset acts at once (R32), and a USTB present then is a new assertion (R3; log entry 12). -/
structure ResetFrame extends LinkFrame where
  ustb : Option Strobe
  deriving DecidableEq, Repr

/-- A read frame (R174): the address sent, how many bytes the master clocked, whether a STOP ended it (otherwise a
repeated START), and whether the response only became ready after the address byte. -/
structure ReadFrame where
  addr  : BitVec 7
  count : Nat
  stop  : Bool
  late  : Bool
  deriving DecidableEq, Repr

/-- The commands: one constructor per row of spec/opcode_table.json. -/
inductive Instr where
  /-- ACCEPTANCE (R3): an assertion of USTB with UWR, UBL and UA -/
  | acceptance (write burst : Bool) (addr : DataAddr)
  /-- JOB_GRANT (R28) -/
  | jobGrant
  /-- WORD_OPERATION_COMPLETE (R21) -/
  | wordOperationComplete (bus : UpstreamBus)
  /-- HALTED_ENTRY (R145) -/
  | haltedEntry
  /-- DEFERRED_REQUEST_TAKEN (R72) -/
  | deferredRequestTaken
  /-- HARDWARE_RESET (R33); `begun`: the next word operation of the job in progress had begun when it took effect -/
  | hardwareReset (cause : ResetCause) (begun : Bool) (bus : UpstreamBus)
  /-- RESET_RELEASE (R34) -/
  | resetRelease (pins : ReleasePins)
  /-- PFAIL_ASSERTED (R144) -/
  | pfailAsserted
  /-- PFAIL_DEASSERTED (R146) -/
  | pfailDeasserted
  /-- MONITOR_TRIP (R143): the level to which the supply has fallen -/
  | monitorTrip (supply : Millivolts)
  /-- MONITOR_CLEAR (R143): the level to which the supply has risen -/
  | monitorClear (supply : Millivolts)
  /-- RETURN_TO_NORMAL (R147) -/
  | returnToNormal
  /-- LINK_RESET_ACTS (R32) -/
  | linkResetActs
  /-- SAMPLE_INSTANT (R156): the levels read at the pins; `abrtFirst`: of two requests posted at this instant the
  rollback request reaches the EC first (R162) -/
  | sampleInstant (ckpt abrt abrtFirst : Bool)
  /-- TICK (R164) -/
  | tick
  /-- RSTO_PULSE_END (R168) -/
  | rstoPulseEnd
  /-- READ_FRAME (R174) -/
  | readFrame (f : ReadFrame)
  /-- WRITE_FRAME_ABANDONED (R172), after these whole data bytes -/
  | writeFrameAbandoned (addr : BitVec 7) (data : List Byte)
  /-- WRITE_FRAME_NAK (R173), with these data bytes -/
  | writeFrameNak (addr : BitVec 7) (data : List Byte)
  /-- EMPTY_WRITE_FRAME (R172) -/
  | emptyWriteFrame (addr : BitVec 7)
  /-- UNKNOWN_COMMAND_CODE (R175) -/
  | unknownCommandCode (code : Byte) (f : LinkFrame)
  /-- GET_STATUS (R176) -/
  | getStatus (f : LinkFrame)
  /-- SET_WINDOW (R38) -/
  | setWindow (f : LinkFrame)
  /-- GET_WINDOW (R39) -/
  | getWindow (f : LinkFrame)
  /-- SET_POLICY (R177), with the supply as the monitor sees it at execution (R143) -/
  | setPolicy (f : LinkFrame) (supply : Millivolts)
  /-- GET_POLICY (R177) -/
  | getPolicy (f : LinkFrame)
  /-- COMMIT (R178) -/
  | commit (f : LinkFrame)
  /-- ROLLBACK (R178) -/
  | rollback (f : LinkFrame)
  /-- DISCARD (R135) -/
  | discard (f : LinkFrame)
  /-- FORMAT (R137) -/
  | format (f : LinkFrame)
  /-- READ_RECORD (R179) -/
  | readRecord (f : LinkFrame)
  /-- GET_STATS (R185) -/
  | getStats (f : LinkFrame)
  /-- CLEAR_STATS (R185) -/
  | clearStats (f : LinkFrame)
  /-- SET_ALERT_MASK (R183) -/
  | setAlertMask (f : LinkFrame)
  /-- CLEAR_FLAGS (R182) -/
  | clearFlags (f : LinkFrame)
  /-- RESET (R180) -/
  | reset (f : ResetFrame)
  deriving DecidableEq, Repr

end Sys2Proof
end

