-- ==== Sys2Proof/Decode.lean ====
section
/-! DEFINITION. Decoding. No row of spec/opcode_table.json gives its command bits, so no word spells a command and
`decodeTableWord` answers none (log entry 35). What the spec does encode is the bytes of a link frame: R190 gives the
command codes, and `decodeFrame` reads from the bytes of a write frame which row it is. -/

namespace Sys2Proof

/-- The command that a word spells by the table's bits: none, since the table gives no row bits. -/
def decodeTableWord (_nbits _w : Nat) : Option Instr := none

/-- The command codes of R190, in the table's order. -/
def commandCodes : List Byte :=
  [0x01, 0x02, 0x03, 0x04, 0x05, 0x10, 0x11, 0x12, 0x13, 0x20, 0x30, 0x31, 0x32, 0x33, 0x3F]

/-- R175 step 1: the code names a command. -/
def knownCode (code : Byte) : Bool := commandCodes.contains code

/-- The row that a write frame ended by STOP is, from its data bytes (R172, R175, R190). `supply` is the level that
SET_POLICY's comparison meets, `ustb` what RESET finds on USTB. -/
def decodeFrame (addr : BitVec 7) (supply : Millivolts) (ustb : Option Strobe) : List Byte → Instr
  | [] => .emptyWriteFrame addr
  | code :: args =>
    let f : LinkFrame := ⟨addr, args⟩
    if code = 0x01 then .getStatus f
    else if code = 0x02 then .setWindow f
    else if code = 0x03 then .getWindow f
    else if code = 0x04 then .setPolicy f supply
    else if code = 0x05 then .getPolicy f
    else if code = 0x10 then .commit f
    else if code = 0x11 then .rollback f
    else if code = 0x12 then .discard f
    else if code = 0x13 then .format f
    else if code = 0x20 then .readRecord f
    else if code = 0x30 then .getStats f
    else if code = 0x31 then .clearStats f
    else if code = 0x32 then .setAlertMask f
    else if code = 0x33 then .clearFlags f
    else if code = 0x3F then .reset ⟨f, ustb⟩
    else .unknownCommandCode code f

/-- The address and data bytes of the write frame ended by STOP that a row is; none for a row that is no such frame. -/
def encodeFrame : Instr → Option (BitVec 7 × List Byte)
  | .emptyWriteFrame a => some (a, [])
  | .unknownCommandCode c f => some (f.addr, c :: f.args)
  | .getStatus f => some (f.addr, 0x01 :: f.args)
  | .setWindow f => some (f.addr, 0x02 :: f.args)
  | .getWindow f => some (f.addr, 0x03 :: f.args)
  | .setPolicy f _ => some (f.addr, 0x04 :: f.args)
  | .getPolicy f => some (f.addr, 0x05 :: f.args)
  | .commit f => some (f.addr, 0x10 :: f.args)
  | .rollback f => some (f.addr, 0x11 :: f.args)
  | .discard f => some (f.addr, 0x12 :: f.args)
  | .format f => some (f.addr, 0x13 :: f.args)
  | .readRecord f => some (f.addr, 0x20 :: f.args)
  | .getStats f => some (f.addr, 0x30 :: f.args)
  | .clearStats f => some (f.addr, 0x31 :: f.args)
  | .setAlertMask f => some (f.addr, 0x32 :: f.args)
  | .clearFlags f => some (f.addr, 0x33 :: f.args)
  | .reset f => some (f.addr, 0x3F :: f.args)
  | .acceptance .. | .jobGrant | .wordOperationComplete _ | .haltedEntry | .deferredRequestTaken
  | .hardwareReset .. | .resetRelease _ | .pfailAsserted | .pfailDeasserted | .monitorTrip _ | .monitorClear _
  | .returnToNormal | .linkResetActs | .sampleInstant .. | .tick | .rstoPulseEnd | .readFrame _
  | .writeFrameAbandoned .. | .writeFrameNak .. => none

end Sys2Proof
end

