-- ==== Sys2Proof/Config.lean ====
section
/-! DEFINITION. What is fixed for the machine, and the free values: what the spec leaves open and no proof may see. -/

namespace Sys2Proof

/-- What a byte of memory that nothing has written reads as: the spec gives no contents of a fresh memory chip.
DESIGN CHOICE, unsafe, log entry 6. -/
def Config.blankByte : Byte := 0

/-- FREE VALUE: what a memory word holds after its write was cut by a loss of power. R152: 'Such a word may hold any
value afterwards.' No body: nothing evaluates it. Log entry 8. -/
opaque Config.cutWord : Nat → Word

end Sys2Proof
end

