-- ==== Sys2Proof/Machine/State.lean ====
section
/-! DEFINITION. The state of the 24J16, grouped by the block that owns each item (00_scope.md, State Ownership), the
outcomes' reason types, and the machine right after reset. -/

namespace Sys2Proof.Machine

/-- No rule of the spec stops the part with a fault: FAULT and RETRY are responses, BROKEN is a state. Nothing raises
a fault, so the type has no constructor (safe: nothing is claimed by one). -/
inductive Fault where
  deriving DecidableEq, Repr

/-- Why a command is refused. -/
inductive Refusal where
  /-- raised by exec's arm of a command that has no meaning yet; none is left. Safe. -/
  | notModelled (mnemonic : String)
  /-- raised by the meaning of a command whose operands are not those of its row (`Instr.wellFormed` is false): an
  UNKNOWN_COMMAND_CODE whose code names a command. Safe: no such event exists (log entry 33). -/
  | illFormed (mnemonic : String)
  deriving DecidableEq, Repr

/-- The outcome of one step. -/
abbrev Out (σ : Type) := Host.Outcome σ Fault Refusal

/-! ## Memory port targets -/

/-- A memory chip's contents as cells (4 × word address + lane, byte), rising addresses, no blank byte (log entry 6). -/
abbrev Memory := List Host.Cell

/-! ## Window table (R35) -/

/-- The mode of a window (R35). -/
inductive WindowMode where
  | off | opened | journal | guarded
  deriving DecidableEq, Repr

/-- One entry of the window table (R35). -/
structure Window where
  mode     : WindowMode
  sizeCode : Fin 17
  base     : DataAddr
  deriving DecidableEq, Repr

/-- The class of a transaction, with the number of the window that decided it (R5). -/
inductive LineClass where
  | journal (window : Fin 8)
  | guarded (window : Fin 8)
  | opened (window : Fin 8)
  | unmapped
  deriving DecidableEq, Repr

/-! ## Upstream Port Unit -/

/-- The captured fields of the held transaction (R1, R5, R8). -/
structure Transaction where
  write : Bool
  burst : Bool
  addr  : DataAddr
  cls   : LineClass
  deriving DecidableEq, Repr

/-- The response of a transaction (R4). -/
inductive Response where
  | ok | retry | fault
  deriving DecidableEq, Repr

/-- The three states of the UPU, with the transaction it holds (R3). -/
inductive UpuPhase where
  | idle
  | waiting (t : Transaction)
  | inJob (t : Transaction)
  deriving DecidableEq, Repr

/-- What URDY marked in the last step: the response given with a first beat, and the word a read beat carried on UD
(R4, R14, R15). -/
structure Beat where
  response : Option Response
  data     : Option Word
  deriving DecidableEq, Repr

/-- The UPU: its phase, and the beat the last step moved, if it moved one (log entry 10). -/
structure Upu where
  phase : UpuPhase
  beat  : Option Beat
  deriving DecidableEq, Repr

/-! ## Memory Port Arbiter -/

/-- The three requesters, in the order of the rotation (R28). -/
inductive Requester where
  | up | ec | lk
  deriving DecidableEq, Repr

/-- One word operation of a job (R19, R24). The operations of an append whose data is not known at the grant name
where the data comes from. -/
inductive WordOp where
  /-- a data read of an append, taking an old word of the line -/
  | readOld (addr : DataAddr)
  /-- a data read of an upstream read: a beat; `first`: the beat that carries the response -/
  | readBeat (addr : DataAddr) (first : Bool)
  /-- a data write of an upstream write: a beat, with the word and lanes of UD and UBE -/
  | writeBeat (addr : DataAddr) (first : Bool)
  /-- a journal read -/
  | readJournal (addr : JournalAddr)
  /-- a journal write of a word fixed at the grant -/
  | writeJournal (addr : JournalAddr) (word : Word)
  /-- a journal write of the k-th old word the append has read -/
  | writeOld (addr : JournalAddr) (k : Fin 4)
  /-- the journal write of the append's check word (R58) -/
  | writeCheck (addr : JournalAddr)
  /-- the tag write of an append, the step at which the record joins the epoch (R75) -/
  | writeTag (addr : JournalAddr) (tag : Word)
  /-- a data write of a restore, all lanes -/
  | restoreWord (addr : DataAddr) (word : Word)
  deriving DecidableEq, Repr

/-- What an appending job fixes at its grant (R73): the slot, its tag word, and record words 1 and 6. -/
structure RecordHead where
  slot  : Nat
  tag   : Word
  line  : Line
  stamp : Word
  deriving DecidableEq, Repr

/-- The purpose of a job (R24), with what the requester formed at the grant and takes at the end. -/
inductive JobKind where
  | upRead
  /-- an upstream write that needs no record; `journaled`: of class JOURNAL, a JLT hit -/
  | upWrite (journaled : Bool)
  | append (r : RecordHead)
  | headerRead
  | scanStep
  | commit (base : Nat) (epoch : Epoch) (released : Nat)
  | restore
  | close (epoch : Epoch)
  | format (code : Fin 5)
  | discard (base : Nat) (epoch : Epoch) (discarded : Nat)
  | readRecord
  deriving DecidableEq, Repr

/-- The job in progress: its purpose, the word operations still to be made, the one in progress first, and the words
its reads have returned, oldest first. -/
structure Job where
  kind  : JobKind
  todo  : List WordOp
  reads : List Word
  deriving DecidableEq, Repr

/-- The MPA: request places (R27), rotation (R28), job in progress (R23), link reset awaiting action (R32), MSPD as
sampled (R20). -/
structure Mpa where
  up        : Bool
  ec        : Bool
  lk        : Bool
  last      : Requester
  job       : Option Job
  linkReset : Bool
  mspd      : BitVec 2
  deriving DecidableEq, Repr

/-! ## Epoch Controller -/

/-- The EC states (00_scope.md, State Names). -/
inductive EcState where
  | unformatted | scanning | recoveryHold | active | committing | rollingBack | formatting | broken
  deriving DecidableEq, Repr

/-- The origin of a rollback (R107). -/
inductive Origin where
  | live | recovery
  deriving DecidableEq, Repr

/-- The source of a commit or rollback request (R90, R108). -/
inductive Source where
  | line | link | age | full | recovery
  deriving DecidableEq, Repr

/-- A set of sources: each at most once (R89). -/
structure Sources where
  line     : Bool
  link     : Bool
  age      : Bool
  full     : Bool
  recovery : Bool
  deriving DecidableEq, Repr

/-- The empty set of sources. -/
def Sources.empty : Sources := ⟨false, false, false, false, false⟩

/-- A request that reaches the EC (R90, R108, R178). -/
inductive EcRequest where
  | commit (src : Source)
  | rollback (src : Source)
  | format (code : Fin 5)
  | discard
  deriving DecidableEq, Repr

/-- The EC: its state and origin, its copy of the journal quantities (R54, R67), the scan's flag and count (R126), the
sets of R89, a FORMAT's code, RCVA as sampled, and the requests R72 defers. -/
structure Ec where
  state        : EcState
  origin       : Option Origin
  code         : Fin 5
  base         : Nat
  usage        : Nat
  epoch        : Epoch
  endSlot      : Nat
  headerRead   : Bool
  scanCount    : Nat
  formatCode   : Fin 5
  inProgress   : Sources
  commitSlot   : Sources
  rollbackSlot : Sources
  deferred     : List EcRequest
  rcva         : Bool
  deriving DecidableEq, Repr

/-! ## Write Journaling Unit -/

/-- One set of the JLT: ways 0 to 3, each empty or holding a line (R68). -/
abbrev JltSet := Vector (Option Line) 4

/-- The journaled-line table: sets 0 to 15 (R68). -/
abbrev Jlt := Vector JltSet 16

/-- The full policy (R82). -/
inductive FullPolicy where
  | refuse | autocommit
  deriving DecidableEq, Repr

/-- The WJU: JLT, replacement sequence (R80), full policy and watermark (R82, R86). -/
structure Wju where
  jlt       : Jlt
  sequence  : BitVec 16
  policy    : FullPolicy
  watermark : Fin 4096
  deriving DecidableEq, Repr

/-- The JLT with all 64 entries empty (R87). -/
def Jlt.empty : Jlt := Vector.replicate 16 (Vector.replicate 4 none)

/-! ## Time Base and Age Unit, Request Line Unit -/

/-- The tick divider setting, in REFCLK periods (R164). -/
inductive TickDivider where
  | d32 | d256 | d2048 | d32768
  deriving DecidableEq, Repr

/-- The age action (R167). -/
inductive AgeAction where
  | off | alert | commit | rollback
  deriving DecidableEq, Repr

/-- The RSTO width setting, in REFCLK periods (R168). -/
inductive RstoWidth where
  | w32 | w256 | w2048
  deriving DecidableEq, Repr

/-- The filter period, in REFCLK periods (R155). -/
inductive FilterPeriod where
  | p1 | p8 | p64
  deriving DecidableEq, Repr

/-- A running RSTO# pulse: its count and the length fixed at the trigger (R168). -/
structure Pulse where
  count  : Nat
  length : Nat
  deriving DecidableEq, Repr

/-- The TAU (R164 to R168). -/
structure Tau where
  divider  : TickDivider
  divCount : Nat
  age      : BitVec 16
  running  : Bool
  limit    : BitVec 16
  action   : AgeAction
  width    : RstoWidth
  pulse    : Option Pulse
  deriving DecidableEq, Repr

/-- One request line: the level at the pin, the last sample, the filtered level and the acknowledge (R155, R159). -/
structure RequestLine where
  pin      : Bool
  last     : Bool
  filtered : Bool
  ack      : Bool
  deriving DecidableEq, Repr

/-- The RLU (R155). -/
structure Rlu where
  ckpt        : RequestLine
  abrt        : RequestLine
  sampleCount : Nat
  period      : FilterPeriod
  deriving DecidableEq, Repr

/-! ## Power Unit -/

/-- The PWU states (section 9.2). -/
inductive PwuState where
  | normal | halting | halted
  deriving DecidableEq, Repr

/-- The supply threshold setting (R143). -/
inductive Threshold where
  | off | v285 | v295 | v305
  deriving DecidableEq, Repr

/-- The PWU: state, PFAIL# level as held (R142), monitor trip state and threshold (R143), release counter (R146), and
whether the hardware reset under way is a power-on reset (R153, log entry 39). -/
structure Pwu where
  state        : PwuState
  pfail        : Bool
  tripped      : Bool
  threshold    : Threshold
  releaseCount : Nat
  powerOn      : Bool
  deriving DecidableEq, Repr

/-! ## Service Link, Status and Alert Unit -/

/-- A waiting command in EXECUTING (R175). -/
inductive WaitingCommand where
  | commit | rollback | discard | format
  | readRecord (offset : Nat)
  | reset
  deriving DecidableEq, Repr

/-- The mailbox state (section 11.2). RECEIVING lies inside the step of a write frame (log entry 14). -/
inductive Mailbox where
  | idle
  | receiving
  | executing (c : WaitingCommand)
  | responseReady
  deriving DecidableEq, Repr

/-- The SLK: mailbox, command and response buffers, LA as sampled (R171), and what the target put on SDA in the last
frame: its acknowledge bits and the bytes it sent. -/
structure Slk where
  mailbox  : Mailbox
  command  : List Byte
  response : List Byte
  la       : BitVec 2
  acks     : List Bool
  sent     : List Byte
  deriving DecidableEq, Repr

/-- The SAU: flags and alert mask in the bit order of R190, and the six statistics (R184). -/
structure Sau where
  flags         : BitVec 10
  mask          : BitVec 10
  commits       : BitVec 32
  rollbacks     : BitVec 32
  recoveries    : BitVec 32
  appended      : BitVec 32
  peak          : Nat
  lastCommitAge : BitVec 16
  deriving DecidableEq, Repr

/-! ## The whole part -/

/-- The state of the 24J16 and of the two memories on its port, the queue of commands, and the count of free values
used. -/
structure State where
  upu        : Upu
  mpa        : Mpa
  ec         : Ec
  wju        : Wju
  windows    : Vector Window 8
  tau        : Tau
  rlu        : Rlu
  pwu        : Pwu
  slk        : Slk
  sau        : Sau
  dataMem    : Memory
  journalMem : Memory
  /-- RSTI# asserted, or power-on reset not yet complete -/
  rsti       : Bool
  /-- USTB with UWR, UBL and UA as last presented; none when deasserted (R1, R3, log entry 12) -/
  ustb       : Option Strobe
  /-- the model's own: how many free values have been used (log entry 8) -/
  freeCount  : Nat
  /-- the commands waiting, first in first out -/
  pending    : List Instr
  deriving DecidableEq, Repr

/-! ## Reset values -/

/-- R18. -/
def Upu.reset : Upu := { phase := .idle, beat := none }

/-- R34. -/
def Mpa.reset (mspd : BitVec 2) : Mpa :=
  { up := false, ec := false, lk := false, last := .lk, job := none, linkReset := false, mspd := mspd }

/-- R67, R106, R125, R126. -/
def Ec.reset (rcva : Bool) : Ec :=
  { state := .scanning, origin := none, code := 0, base := 0, usage := 0, epoch := 0, endSlot := 0,
    headerRead := false, scanCount := 0, formatCode := 0, inProgress := .empty, commitSlot := .empty,
    rollbackSlot := .empty, deferred := [], rcva := rcva }

/-- R88. -/
def Wju.reset : Wju := { jlt := .empty, sequence := 0x0001, policy := .refuse, watermark := 0 }

/-- R46. -/
def Window.reset : Window := { mode := .off, sizeCode := 0, base := 0 }

/-- R170. -/
def Tau.reset : Tau :=
  { divider := .d32, divCount := 0, age := 0, running := false, limit := 65535, action := .off, width := .w256,
    pulse := none }

/-- R163, for a line whose pin is at `pin`. -/
def RequestLine.reset (pin : Bool) : RequestLine := { pin := pin, last := false, filtered := false, ack := false }

/-- R163. -/
def Rlu.reset (ckpt abrt : Bool) : Rlu :=
  { ckpt := .reset ckpt, abrt := .reset abrt, sampleCount := 0, period := .p8 }

/-- R186. -/
def Slk.reset (la : BitVec 2) : Slk :=
  { mailbox := .idle, command := [], response := [], la := la, acks := [], sent := [] }

/-- R186. -/
def Sau.reset : Sau :=
  { flags := 0, mask := 0x3FF, commits := 0, rollbacks := 0, recoveries := 0, appended := 0, peak := 0,
    lastCommitAge := 0 }

/-- The machine at the end of a hardware reset: RSTI# released with the straps and request lines low, USTB
deasserted, PFAIL# high and the supply good (log entry 21), so the PWU starts NORMAL (R153) and the header read is posted
(R126). -/
def State.reset : State where
  upu := .reset
  mpa := { Mpa.reset 0 with ec := true }
  ec := .reset false
  wju := .reset
  windows := Vector.replicate 8 .reset
  tau := .reset
  rlu := .reset false false
  pwu := { state := .normal, pfail := false, tripped := false, threshold := .v295, releaseCount := 0, powerOn := false }
  slk := .reset 0
  sau := .reset
  dataMem := []
  journalMem := []
  rsti := false
  ustb := none
  freeCount := 0
  pending := []

end Sys2Proof.Machine
end

