-- ==== Sys2Proof/Machine/Ops.lean ====
section
/-! DEFINITION. The shared operations: memory by byte and by word, the outcome of a step, the upstream response, the
request places, and the responses of the mailbox. -/

namespace Sys2Proof.Machine

/-! ## Memory -/

/-- The byte at a cell address; an unlisted cell reads as the blank byte (log entry 6). -/
def Memory.read : Memory → Nat → Byte
  | [], _ => Config.blankByte
  | (k, b) :: m, a => if a = k then b else Memory.read m a

/-- Write one byte, keeping the canonical form: a blank byte leaves no cell. -/
def Memory.write : Memory → Nat → Byte → Memory
  | [], a, b => if b = Config.blankByte then [] else [(a, b)]
  | (k, v) :: m, a, b =>
    if a < k then (if b = Config.blankByte then (k, v) :: m else (a, b) :: (k, v) :: m)
    else if a = k then (if b = Config.blankByte then m else (a, b) :: m)
    else (k, v) :: Memory.write m a b

/-- The canonical form: addresses strictly rising, no blank byte listed. -/
def Memory.wf : Memory → Bool
  | [] => true
  | (k, v) :: m => v != Config.blankByte && m.all (fun c => k < c.1) && Memory.wf m

/-- The 32-bit word at a word address: lane 0 is bits 7 to 0 (00_scope.md, Byte order). -/
def Memory.readWord (m : Memory) (w : Nat) : Word :=
  m.read (4 * w + 3) ++ m.read (4 * w + 2) ++ m.read (4 * w + 1) ++ m.read (4 * w)

/-- The bits of one lane of a word. -/
def laneByte (d : Word) (lane : Nat) : Byte := d.extractLsb' (8 * lane) 8

/-- Write one lane of a word if it is enabled. -/
def Memory.writeLane (m : Memory) (w : Nat) (lanes : Lanes) (d : Word) (lane : Nat) : Memory :=
  if lanes.getLsbD lane then m.write (4 * w + lane) (laneByte d lane) else m

/-- Write the enabled lanes of a word; the other bytes stay as they were (R2, R19). -/
def Memory.writeWord (m : Memory) (w : Nat) (lanes : Lanes) (d : Word) : Memory :=
  (((m.writeLane w lanes d 0).writeLane w lanes d 1).writeLane w lanes d 2).writeLane w lanes d 3

/-- One word write on the memory port (R19). -/
structure MemWrite where
  /-- under JCS#, journal memory; otherwise under DCS#, data memory -/
  toJournal : Bool
  addr      : Nat
  word      : Word
  lanes     : Lanes
  deriving DecidableEq, Repr

/-- A word write made on the port (R19, R21). -/
def State.store (s : State) (w : MemWrite) : State :=
  if w.toJournal then { s with journalMem := s.journalMem.writeWord w.addr w.lanes w.word }
  else { s with dataMem := s.dataMem.writeWord w.addr w.lanes w.word }

/-! ## The step -/

/-- URDY marks the beats of one step only: every command begins with URDY deasserted (log entry 10). -/
def State.settle (s : State) : State := { s with upu := { s.upu with beat := none } }

/-- The microcontroller presents a level of USTB, with UWR, UBL and UA (R1, log entry 12). -/
def State.present (s : State) (ustb : Option Strobe) : State := { s with ustb := ustb }

/-- The outcome of a command that has an effect: the next state. -/
def done (s : State) : Out State := .next s

/-! ## The upstream port -/

/-- A response that ends the transaction on its first beat, moving no data (R4). -/
def State.answer (s : State) (r : Response) : State :=
  { s with upu := { phase := .idle, beat := some { response := some r, data := none } } }

/-- A transaction in WAITING is answered RETRY and its UP request withdrawn (R16, R17); otherwise nothing. -/
def State.retryWaiting (s : State) : State :=
  match s.upu.phase with
  | .waiting _ => { s with mpa := { s.mpa with up := false } }.answer .retry
  | .idle | .inJob _ => s

/-! ## Request places (R27) -/

/-- The EC posts a request for its next job. -/
def State.postEc (s : State) : State := { s with mpa := { s.mpa with ec := true } }

/-- The SLK posts a request for a record read. -/
def State.postLk (s : State) : State := { s with mpa := { s.mpa with lk := true } }

/-- The UPU enters WAITING and posts its request (R8). -/
def State.postUp (s : State) (t : Transaction) : State :=
  { s with upu := { s.upu with phase := .waiting t }, mpa := { s.mpa with up := true } }

/-! ## The mailbox -/

/-- The status codes of R190. -/
def statusOk : Byte := 0x00
def statusRefusedState : Byte := 0x02
def statusRefusedArg : Byte := 0x03
def statusRefusedCode : Byte := 0x04
def statusNotReady : Byte := 0xFF

/-- A response is made ready: it stands in the response buffer and the mailbox enters RESPONSE_READY (R175). The
command buffer holds no command from then on (log entry 16). -/
def State.respond (s : State) (status : Byte) (payload : List Byte) : State :=
  { s with slk := { s.slk with mailbox := .responseReady, response := status :: payload, command := [] } }

/-- A waiting command stays in EXECUTING until its outcome (R175). -/
def State.await (s : State) (c : WaitingCommand) : State :=
  { s with slk := { s.slk with mailbox := .executing c } }

/-! ## Sets of sources (R89) -/

/-- The set of one source. -/
def Sources.of : Source → Sources
  | .line => { Sources.empty with line := true }
  | .link => { Sources.empty with link := true }
  | .age => { Sources.empty with age := true }
  | .full => { Sources.empty with full := true }
  | .recovery => { Sources.empty with recovery := true }

/-- The union of two sets; a source held twice is held once. -/
def Sources.union (a b : Sources) : Sources :=
  ⟨a.line || b.line, a.link || b.link, a.age || b.age, a.full || b.full, a.recovery || b.recovery⟩

/-- A set with one more source. -/
def Sources.add (a : Sources) (x : Source) : Sources := a.union (.of x)

/-- Whether the set, and so the slot that holds it, is empty. -/
def Sources.isEmpty (a : Sources) : Bool := !(a.line || a.link || a.age || a.full || a.recovery)

/-! ## Ring arithmetic (R49, R53, R54) -/

/-- S for a slot-count code (R49). -/
def ringSize (code : Fin 5) : Nat := 256 * 2 ^ code.val

/-- S as the EC holds it. -/
def Ec.size (e : Ec) : Nat := ringSize e.code

/-- The slot of the record of index i (R53). -/
def Ec.slotOf (e : Ec) (i : Nat) : Nat := (e.base + i) % e.size

/-- Head, the slot after the last record (R54). -/
def Ec.head (e : Ec) : Nat := e.slotOf e.usage

/-- The number of slots from base to the end slot, modulo S (R107, R119). -/
def Ec.spanToEnd (e : Ec) : Nat := (e.endSlot + e.size - e.base) % e.size

end Sys2Proof.Machine
end

