-- ==== Sys2Proof/Machine/Flags.lean ====
section
/-! DEFINITION. The ten sticky flags, the alert line and the statistics of the SAU (section 11.4, R190). -/

namespace Sys2Proof.Machine

/-- The flags, in the bit order of R190. -/
inductive Flag where
  | guardFlag | nofmt | jfull | wmark | age | reqref | pfail | broken | recov | lkerr
  deriving DecidableEq, Repr

/-- The bit position of a flag (R190). -/
def Flag.bit : Flag → Nat
  | .guardFlag => 0
  | .nofmt => 1
  | .jfull => 2
  | .wmark => 3
  | .age => 4
  | .reqref => 5
  | .pfail => 6
  | .broken => 7
  | .recov => 8
  | .lkerr => 9

/-- The mask with that one bit. -/
def Flag.mask (f : Flag) : BitVec 10 := 1#10 <<< f.bit

/-- An event of a flag's kind sets it, whether or not it is already set (R181). -/
def State.raise (s : State) (f : Flag) : State := { s with sau := { s.sau with flags := s.sau.flags ||| f.mask } }

/-- Whether a flag is set. -/
def Sau.has (u : Sau) (f : Flag) : Bool := u.flags.getLsbD f.bit

/-- CLEAR_FLAGS clears the flags whose position is 1 (R182). -/
def State.clearFlagBits (s : State) (m : BitVec 10) : State :=
  { s with sau := { s.sau with flags := s.sau.flags &&& ~~~m } }

/-- ALRT# is asserted while a set flag has its enable on (R183). -/
def Sau.alert (u : Sau) : Bool := u.flags &&& u.mask != 0

/-- A 10-bit flag mask as the 16-bit mask of R190: bits 10 to 15 are 0. -/
def flagMaskBytes (m : BitVec 10) : List Byte := [m.setWidth 8, (m.extractLsb' 8 2).setWidth 8]

/-- The ten flag positions of a 16-bit mask; positions that name no flag are ignored (R182, R183). -/
def flagMaskOf (lo hi : Byte) : BitVec 10 := (hi ++ lo).setWidth 10

/-- A refusal notice for a request line: REQREF is set once for each notice (R160). -/
def State.refusalNotice (s : State) : State := s.raise .reqref

end Sys2Proof.Machine
end

