-- ==== Sys2Proof/Machine/Operands.lean ====
section
/-! DEFINITION. The operand forms: a transaction's line, offset and beat order (R1, R2), little-endian values on the
link (R190), and the codes of the enumerated arguments (R190). -/

namespace Sys2Proof.Machine

/-! ## Upstream operands -/

/-- The line of a word address: the address divided by 4 (R1). -/
def lineOf (a : DataAddr) : Line := a.extractLsb' 2 20

/-- The word address of an offset within a line. -/
def wordOfLine (l : Line) (offset : BitVec 2) : DataAddr := l ++ offset

/-- The word addresses of the beats, in beat order: one at the start address, or four stepping through the line's
offsets from the start offset, wrapping from 3 to 0 (R2). -/
def Transaction.beats (t : Transaction) : List DataAddr :=
  if t.burst then
    let l := lineOf t.addr
    let o := t.addr.extractLsb' 0 2
    [wordOfLine l o, wordOfLine l (o + 1), wordOfLine l (o + 2), wordOfLine l (o + 3)]
  else [t.addr]

/-- The first beat of a list carries the response (R4). -/
def markFirst {α : Type} (f : α → Bool → WordOp) : List α → List WordOp
  | [] => []
  | a :: rest => f a true :: rest.map (fun b => f b false)

/-- The word operations of an upstream read (R9). -/
def Transaction.readOps (t : Transaction) : List WordOp := markFirst .readBeat t.beats

/-- The data write word operations of an upstream write (R10). -/
def Transaction.writeOps (t : Transaction) : List WordOp := markFirst .writeBeat t.beats

/-- The window number a transaction carries; 0 for UNMAPPED, which no record stores (R5). -/
def LineClass.windowNumber : LineClass → Fin 8
  | .journal w | .guarded w | .opened w => w
  | .unmapped => 0

/-- Whether the class is JOURNAL. -/
def LineClass.isJournal : LineClass → Bool
  | .journal _ => true
  | .guarded _ | .opened _ | .unmapped => false

/-- Whether the class is GUARD. -/
def LineClass.isGuard : LineClass → Bool
  | .guarded _ => true
  | .journal _ | .opened _ | .unmapped => false

/-! ## Values on the link -/

/-- A value of several bytes, least significant byte first (R190). -/
def leValue : List Byte → Nat
  | [] => 0
  | b :: rest => b.toNat + 256 * leValue rest

/-- A value in n bytes, least significant byte first, its unused high bits 0 (R190). -/
def leBytes : Nat → Nat → List Byte
  | 0, _ => []
  | n + 1, v => BitVec.ofNat 8 v :: leBytes n (v / 256)

/-- Argument byte k of a frame; the length check has been made. -/
def arg (args : List Byte) (k : Nat) : Byte := args.getD k 0

/-- The value of n argument bytes from position k. -/
def argValue (args : List Byte) (k n : Nat) : Nat := leValue ((args.drop k).take n)

/-! ## Codes of enumerated arguments (R190) -/

/-- Window mode. -/
def WindowMode.code : WindowMode → Byte
  | .off => 0
  | .opened => 1
  | .journal => 2
  | .guarded => 3

def WindowMode.ofCode (b : Byte) : Option WindowMode :=
  if b = 0 then some .off else if b = 1 then some .opened else if b = 2 then some .journal
  else if b = 3 then some .guarded else none

/-- Full policy. -/
def FullPolicy.code : FullPolicy → Byte
  | .refuse => 0
  | .autocommit => 1

def FullPolicy.ofCode (b : Byte) : Option FullPolicy :=
  if b = 0 then some .refuse else if b = 1 then some .autocommit else none

/-- Tick divider. -/
def TickDivider.code : TickDivider → Byte
  | .d32 => 0
  | .d256 => 1
  | .d2048 => 2
  | .d32768 => 3

def TickDivider.ofCode (b : Byte) : Option TickDivider :=
  if b = 0 then some .d32 else if b = 1 then some .d256 else if b = 2 then some .d2048
  else if b = 3 then some .d32768 else none

def TickDivider.periods : TickDivider → Nat
  | .d32 => 32
  | .d256 => 256
  | .d2048 => 2048
  | .d32768 => 32768

/-- Age action. -/
def AgeAction.code : AgeAction → Byte
  | .off => 0
  | .alert => 1
  | .commit => 2
  | .rollback => 3

def AgeAction.ofCode (b : Byte) : Option AgeAction :=
  if b = 0 then some .off else if b = 1 then some .alert else if b = 2 then some .commit
  else if b = 3 then some .rollback else none

/-- Filter period. -/
def FilterPeriod.code : FilterPeriod → Byte
  | .p1 => 0
  | .p8 => 1
  | .p64 => 2

def FilterPeriod.ofCode (b : Byte) : Option FilterPeriod :=
  if b = 0 then some .p1 else if b = 1 then some .p8 else if b = 2 then some .p64 else none

def FilterPeriod.periods : FilterPeriod → Nat
  | .p1 => 1
  | .p8 => 8
  | .p64 => 64

/-- RSTO width. -/
def RstoWidth.code : RstoWidth → Byte
  | .w32 => 0
  | .w256 => 1
  | .w2048 => 2

def RstoWidth.ofCode (b : Byte) : Option RstoWidth :=
  if b = 0 then some .w32 else if b = 1 then some .w256 else if b = 2 then some .w2048 else none

def RstoWidth.periods : RstoWidth → Nat
  | .w32 => 32
  | .w256 => 256
  | .w2048 => 2048

/-- Supply threshold. -/
def Threshold.code : Threshold → Byte
  | .off => 0
  | .v285 => 1
  | .v295 => 2
  | .v305 => 3

def Threshold.ofCode (b : Byte) : Option Threshold :=
  if b = 0 then some .off else if b = 1 then some .v285 else if b = 2 then some .v295
  else if b = 3 then some .v305 else none

/-- The level below which the monitor trips; none for OFF (R143). -/
def Threshold.tripLevel : Threshold → Option Millivolts
  | .off => none
  | .v285 => some 2850
  | .v295 => some 2950
  | .v305 => some 3050

/-- Slot-count code of FORMAT: 0 to 4 (R137). -/
def slotCodeOf (b : Byte) : Option (Fin 5) := if h : b.toNat < 5 then some ⟨b.toNat, h⟩ else none

end Sys2Proof.Machine
end

