-- ==== Sys2Proof/Machine/Journal.lean ====
section
/-! DEFINITION. The journal's stored formats: header words (R187), record words (R188), check word (R189), and the
classification of a slot (R59). -/

namespace Sys2Proof.Machine

/-! ## Addresses (R47) -/

/-- The journal word addresses of the layout, commit and complement words. -/
def layoutAddr : JournalAddr := 0
def commitAddr : JournalAddr := 1
def complementAddr : JournalAddr := 2

/-- Word w of slot s is at journal word address 8 + 8s + w (R47). -/
def slotAddr (slot w : Nat) : JournalAddr := BitVec.ofNat 16 (8 + 8 * slot + w)

/-- The reads of the eight words of a slot, word 0 first (R24, R25). -/
def slotReads (slot : Nat) : List WordOp := (List.range 8).map (fun w => .readJournal (slotAddr slot w))

/-! ## Header words (R187) -/

/-- The layout word of version 1 and slot-count code c. -/
def layoutWord (c : Fin 5) : Word := BitVec.ofNat 32 (c.val * 256 + 1)

/-- The commit word of a base and an epoch: bit 31 zero, epoch in bits 30 to 12, base in bits 11 to 0. -/
def commitWord (base : Nat) (e : Epoch) : Word := 0#1 ++ e ++ BitVec.ofNat 12 base

/-- The layout version, bits 7 to 0 of the layout word. -/
def layoutVersion (w : Word) : BitVec 8 := w.extractLsb' 0 8

/-- The slot-count code as the layout word holds it, bits 11 to 8. -/
def layoutCode (w : Word) : BitVec 4 := w.extractLsb' 8 4

/-- The base field of a commit word, bits 11 to 0. -/
def commitBase (w : Word) : Nat := (w.extractLsb' 0 12).toNat

/-- The epoch field of a commit word, bits 30 to 12. -/
def commitEpoch (w : Word) : Epoch := w.extractLsb' 12 19

/-- The slot-count code, base and epoch of a valid header, none of an invalid one (R52). -/
def headerTest (layout commit complement : Word) : Option (Fin 5 × Nat × Epoch) :=
  if h : (layoutCode layout).toNat < 5 then
    let c : Fin 5 := ⟨(layoutCode layout).toNat, h⟩
    if complement = ~~~layout ∧ layoutVersion layout = 1 ∧ commitBase commit < ringSize c then
      some (c, commitBase commit, commitEpoch commit)
    else none
  else none

/-! ## Record words (R188) -/

/-- The tag word of a record: marker set, epoch, index. -/
def tagWord (e : Epoch) (index : Nat) : Word := 1#1 ++ e ++ BitVec.ofNat 12 index

/-- Record word 1: the line number, bits 31 to 20 zero. -/
def lineWord (l : Line) : Word := l.setWidth 32

/-- The line a record word 1 names: bits 19 to 0. -/
def wordLine (w : Word) : Line := w.setWidth 20

/-- Record word 6: age value in bits 15 to 0, window number in bits 18 to 16. -/
def stampWord (age : BitVec 16) (window : Fin 8) : Word := 0#13 ++ BitVec.ofNat 3 window.val ++ age

/-- The age value of a record word 6. -/
def stampAge (w : Word) : BitVec 16 := w.extractLsb' 0 16

/-- The window number of a record word 6. -/
def stampWindow (w : Word) : BitVec 3 := w.extractLsb' 16 3

/-- The check word over record words 0 to 6: the complement of their exclusive OR (R58, R189). -/
def checkWord (words : List Word) : Word := ~~~((words.take 7).foldl (· ^^^ ·) 0)

/-- Word k of a slot that has been read. -/
def slotWord (reads : List Word) (k : Nat) : Word := reads.getD k 0

/-- The three classes of a slot read for a known epoch and index (R59). -/
inductive SlotClass where
  | ending | good | bad
  deriving DecidableEq, Repr

/-- The classification of R59. -/
def classifySlot (e : Epoch) (index : Nat) (reads : List Word) : SlotClass :=
  let tag := slotWord reads 0
  if tag = 0 then .ending
  else if tag.getLsbD 31 ∧ tag.extractLsb' 12 19 = e ∧ (tag.extractLsb' 0 12).toNat = index
      ∧ slotWord reads 7 = checkWord reads then .good
  else .bad

/-- The four data writes of a restore: the record's line, offsets 0 to 3, old data words 2 to 5 (R115). -/
def restoreWrites (reads : List Word) : List WordOp :=
  let l := wordLine (slotWord reads 1)
  [.restoreWord (wordOfLine l 0) (slotWord reads 2), .restoreWord (wordOfLine l 1) (slotWord reads 3),
   .restoreWord (wordOfLine l 2) (slotWord reads 4), .restoreWord (wordOfLine l 3) (slotWord reads 5)]

/-- The fields of a record as READ_RECORD returns them (R191): line, old data, age value, window number. -/
def recordPayload (reads : List Word) : List Byte :=
  leBytes 3 (wordLine (slotWord reads 1)).toNat
    ++ leBytes 4 (slotWord reads 2).toNat ++ leBytes 4 (slotWord reads 3).toNat
    ++ leBytes 4 (slotWord reads 4).toNat ++ leBytes 4 (slotWord reads 5).toNat
    ++ leBytes 2 (stampAge (slotWord reads 6)).toNat ++ leBytes 1 (stampWindow (slotWord reads 6)).toNat

/-! ## The append (R73, R74) -/

/-- The word operations of an append before its data writes: the line read, the slot after head cleared, record words
1 to 7 at head, the tag at head. -/
def appendOps (r : RecordHead) (nextSlot : Nat) : List WordOp :=
  [.readOld (wordOfLine r.line 0), .readOld (wordOfLine r.line 1), .readOld (wordOfLine r.line 2),
   .readOld (wordOfLine r.line 3),
   .writeJournal (slotAddr nextSlot 0) 0,
   .writeJournal (slotAddr r.slot 1) (lineWord r.line),
   .writeOld (slotAddr r.slot 2) 0, .writeOld (slotAddr r.slot 3) 1,
   .writeOld (slotAddr r.slot 4) 2, .writeOld (slotAddr r.slot 5) 3,
   .writeJournal (slotAddr r.slot 6) r.stamp,
   .writeCheck (slotAddr r.slot 7),
   .writeTag (slotAddr r.slot 0) r.tag]

/-- The check word an append writes, from the tag fixed at the grant, the line, the old words read and the stamp. -/
def appendCheck (r : RecordHead) (old : List Word) : Word :=
  checkWord [r.tag, lineWord r.line, slotWord old 0, slotWord old 1, slotWord old 2, slotWord old 3, r.stamp]

end Sys2Proof.Machine
end

