-- ==== Sys2Proof/Machine/Journaling.lean ====
section
/-! DEFINITION. The journaled-line table and the replacement sequence of the WJU (sections 5.1 and 5.4), and what the
tag write of an append brings about (R75, R86). -/

namespace Sys2Proof.Machine

/-- The set of a line: its number modulo 16 (R68). -/
def jltSetOf (l : Line) : Fin 16 := (l.setWidth 4).toFin

/-- A hit: one of the four ways of the line's set holds the line (R69). -/
def Jlt.hit (j : Jlt) (l : Line) : Bool := j[jltSetOf l].toList.contains (some l)

/-- One step of the replacement sequence (R80). -/
def sequenceStep (v : BitVec 16) : BitVec 16 := if v.getLsbD 0 then (v >>> 1) ^^^ 0xB400#16 else v >>> 1

/-- The lowest-numbered empty way of a set (R79). -/
def JltSet.emptyWay (t : JltSet) : Option (Fin 4) :=
  if t[0] = none then some 0 else if t[1] = none then some 1 else if t[2] = none then some 2
  else if t[3] = none then some 3 else none

/-- The way a stepped sequence chooses: its two lowest bits (R79, R80). -/
def sequenceWay (v : BitVec 16) : Fin 4 := (v.setWidth 2).toFin

/-- Put a line in one way of its set. -/
def Jlt.put (j : Jlt) (l : Line) (way : Fin 4) : Jlt :=
  j.set (jltSetOf l) (j[jltSetOf l].set way (some l))

/-- Insertion at the tag write: the lowest empty way, or the way the stepped sequence chooses (R79). -/
def Wju.insert (w : Wju) (l : Line) : Wju :=
  match JltSet.emptyWay w.jlt[jltSetOf l] with
  | some way => { w with jlt := w.jlt.put l way }
  | none =>
    let v := sequenceStep w.sequence
    { w with sequence := v, jlt := w.jlt.put l (sequenceWay v) }

/-- The WJU empties the JLT; the sequence is not changed (R87). -/
def State.emptyJlt (s : State) : State := { s with wju := { s.wju with jlt := .empty } }

/-- The watermark is met when an append makes usage equal to it; 0 turns it off (R86). -/
def State.meetWatermark (s : State) : State :=
  if s.wju.watermark.val ≠ 0 ∧ s.wju.watermark.val = s.ec.usage then s.raise .wmark else s

/-- The effects of an append's tag write (R75): usage and head, the JLT, the age counter's start, the
records-appended and peak-usage statistics, the watermark. -/
def State.recordJoins (s : State) (r : RecordHead) : State :=
  let usage := s.ec.usage + 1
  let s := { s with
    ec := { s.ec with usage := usage, endSlot := s.ec.slotOf usage },
    wju := s.wju.insert r.line,
    tau := { s.tau with running := s.tau.running || s.ec.usage == 0 },
    sau := { s.sau with appended := s.sau.appended + 1, peak := max s.sau.peak usage } }
  s.meetWatermark

end Sys2Proof.Machine
end

