-- ==== Sys2Proof/Machine/Epoch.lean ====
section
/-! DEFINITION. The Epoch Controller: how each EC state treats a commit or rollback request, FORMAT and DISCARD
(chapters 6 to 8), the taking of commits and rollbacks, the serving of the slots, and the completions. -/

namespace Sys2Proof.Machine

/-! ## Taking -/

/-- The EC takes a commit with a set of sources: the set becomes the in-progress set, the EC enters COMMITTING and
posts its commit job request (R91, R103). -/
def State.takeCommit (s : State) (set : Sources) : State :=
  { s with ec := { s.ec with state := .committing, inProgress := set } }.postEc

/-- The EC takes a rollback: the in-progress set formed, the end slot fixed at head, ROLLING_BACK entered, the JLT
emptied, the age counter stopped, the first job requested (R109, R113, R131). -/
def State.takeRollback (s : State) (o : Origin) (set : Sources) : State :=
  ({ s with
    ec := { s.ec with state := .rollingBack, origin := some o, inProgress := set, endSlot := s.ec.head },
    tau := { s.tau with running := false } }.emptyJlt).postEc

/-! ## Refusing -/

/-- A request of one source is refused: LINE gets the refusal notice, LINK the response REFUSED_STATE, the others are
discarded (R90, R108). -/
def State.refuseSource (s : State) : Source → State
  | .line => s.refusalNotice
  | .link => s.respond statusRefusedState []
  | .age | .full | .recovery => s

/-- Every source of a set is refused. -/
def State.refuseSet (s : State) (set : Sources) : State :=
  let s := if set.line then s.refusalNotice else s
  if set.link then s.respond statusRefusedState [] else s

/-- The requests held in both slots are refused and the slots become empty (R94, R112, R130). -/
def State.refuseHeld (s : State) : State :=
  let t := (s.refuseSet s.ec.commitSlot).refuseSet s.ec.rollbackSlot
  { t with ec := { t.ec with commitSlot := .empty, rollbackSlot := .empty } }

/-! ## Requests -/

/-- A source is added to the commit slot (R93). -/
def State.holdCommit (s : State) (x : Source) : State :=
  { s with ec := { s.ec with commitSlot := s.ec.commitSlot.add x } }

/-- A source is added to the rollback slot (R111). -/
def State.holdRollback (s : State) (x : Source) : State :=
  { s with ec := { s.ec with rollbackSlot := s.ec.rollbackSlot.add x } }

/-- A source joins the operation in progress (R92, R110). -/
def State.join (s : State) (x : Source) : State :=
  { s with ec := { s.ec with inProgress := s.ec.inProgress.add x } }

/-- Before the epoch is known to software, only LINE is held; LINK is refused, the others discarded (R94, R95). -/
def State.commitWhileUnknown (s : State) : Source → State
  | .line => s.holdCommit .line
  | .link => s.refuseSource .link
  | .age => s.refuseSource .age
  | .full => s.refuseSource .full
  | .recovery => s

/-- A commit request is taken by the EC (R91 to R96). -/
def State.commitRequest (s : State) (x : Source) : State :=
  match s.ec.state with
  | .active => s.takeCommit (.of x)
  | .committing => s.join x
  | .rollingBack => if s.ec.origin = some .recovery then s.commitWhileUnknown x else s.holdCommit x
  | .formatting => s.holdCommit x
  | .scanning => s.commitWhileUnknown x
  | .recoveryHold | .unformatted | .broken => s.refuseSource x

/-- A rollback request in SCANNING: LINE held, LINK refused, AGE discarded (R112). -/
def State.rollbackInScanning (s : State) : Source → State
  | .line => s.holdRollback .line
  | .link => s.refuseSource .link
  | .age | .full | .recovery => s

/-- A rollback request is taken by the EC (R109 to R113). -/
def State.rollbackRequest (s : State) (x : Source) : State :=
  match s.ec.state with
  | .active => s.takeRollback .live (.of x)
  | .committing | .formatting => s.holdRollback x
  | .rollingBack => s.join x
  | .scanning => s.rollbackInScanning x
  | .recoveryHold => if x = .link then s.takeRollback .recovery ((Sources.of .recovery).add .link) else s.refuseSource x
  | .unformatted | .broken => s.refuseSource x

/-- FORMAT is taken: FORMATTING entered and the format job requested (R137). -/
def State.takeFormat (s : State) (c : Fin 5) : State :=
  { s with ec := { s.ec with state := .formatting, formatCode := c } }.postEc

/-- A FORMAT with an accepted code reaches the EC (R137). -/
def State.formatRequest (s : State) (c : Fin 5) : State :=
  match s.ec.state with
  | .unformatted | .broken | .recoveryHold => s.takeFormat c
  | .active => if s.ec.usage = 0 then s.takeFormat c else s.respond statusRefusedState []
  | .scanning | .committing | .rollingBack | .formatting => s.respond statusRefusedState []

/-- A DISCARD reaches the EC: in RECOVERY_HOLD its job is requested, in every other state it is refused (R135). -/
def State.discardRequest (s : State) : State :=
  match s.ec.state with
  | .recoveryHold => s.postEc
  | .unformatted | .scanning | .active | .committing | .rollingBack | .formatting | .broken =>
    s.respond statusRefusedState []

/-- The EC takes one request by the rules of its state. -/
def State.ecTake (s : State) : EcRequest → State
  | .commit x => s.commitRequest x
  | .rollback x => s.rollbackRequest x
  | .format c => s.formatRequest c
  | .discard => s.discardRequest

/-- Whether a job is a JOURNAL-write job granted in ACTIVE or COMMITTING (R72). -/
def JobKind.isJournalWrite : JobKind → Bool
  | .append _ => true
  | .upWrite journaled => journaled
  | .upRead | .headerRead | .scanStep | .commit .. | .restore | .close _ | .format _ | .discard .. | .readRecord =>
    false

/-- A request that reaches the EC now is taken later: a JOURNAL-write job is in progress, or earlier requests still
wait to be taken (R72, log entry 17). -/
def State.defers (s : State) : Bool :=
  (match s.mpa.job with
   | some j => j.kind.isJournalWrite
   | none => false) || !s.ec.deferred.isEmpty

/-- A request reaches the EC: taken at once, or at the end of the JOURNAL-write job in progress (R72, R90, R108). -/
def State.ecPost (s : State) (r : EcRequest) : State :=
  if s.defers then { s with ec := { s.ec with deferred := s.ec.deferred ++ [r] } } else s.ecTake r

/-- The deferred requests are taken in the order in which they arrived (R72). -/
def State.takeDeferred (s : State) : State :=
  s.ec.deferred.foldl State.ecTake { s with ec := { s.ec with deferred := [] } }

/-! ## Serving (R103) -/

/-- After a completion the EC serves the rollback slot, then the commit slot, or enters ACTIVE; while a link reset
awaits action it serves neither (R103). No origin and no in-progress set outlives the completion. -/
def State.serve (s : State) : State :=
  let t := { s with ec := { s.ec with state := .active, origin := none, inProgress := .empty } }
  if t.mpa.linkReset then t
  else if !t.ec.rollbackSlot.isEmpty then
    { t with ec := { t.ec with rollbackSlot := .empty } }.takeRollback .live t.ec.rollbackSlot
  else if !t.ec.commitSlot.isEmpty then
    { t with ec := { t.ec with commitSlot := .empty } }.takeCommit t.ec.commitSlot
  else t

/-! ## Notices -/

/-- A completion notice for a request line: its acknowledge rises if the filtered line is high (R159). -/
def RequestLine.complete (l : RequestLine) : RequestLine := if l.filtered then { l with ack := true } else l

/-- The completion notice for CKPT (R102). -/
def State.ckptNotice (s : State) : State := { s with rlu := { s.rlu with ckpt := s.rlu.ckpt.complete } }

/-- The completion notice for ABRT (R119). -/
def State.abrtNotice (s : State) : State := { s with rlu := { s.rlu with abrt := s.rlu.abrt.complete } }

/-- The payload of COMMIT, ROLLBACK and DISCARD: new epoch number (3), count (2) (R191). -/
def epochPayload (e : Epoch) (count : Nat) : List Byte := leBytes 3 e.toNat ++ leBytes 2 count

/-- A trigger of the RSTO# pulse: in idle it starts a pulse of the width set; while active it is ignored (R168). -/
def Tau.trigger (t : Tau) : Tau :=
  match t.pulse with
  | none => { t with pulse := some { count := 0, length := t.width.periods } }
  | some _ => t

/-- The notices of a commit's completion (R102). -/
def State.commitNotices (s : State) (set : Sources) (e : Epoch) (released : Nat) : State :=
  let s := if set.line then s.ckptNotice else s
  if set.link then s.respond statusOk (epochPayload e released) else s

/-- The notices of a rollback's completion (R119). -/
def State.rollbackNotices (s : State) (set : Sources) (e : Epoch) (restored : Nat) : State :=
  let s := if set.line then s.abrtNotice else s
  let s := if set.link then s.respond statusOk (epochPayload e restored) else s
  let s := if set.age then { s with tau := s.tau.trigger } else s
  if set.recovery then s.raise .recov else s

/-! ## Completions -/

/-- The age counter is cleared to 0 and stopped (R165). -/
def State.clearAge (s : State) : State := { s with tau := { s.tau with age := 0, running := false } }

/-- An epoch begins: base, epoch number, usage 0, end slot at base (R100, R118, R135, R139). -/
def State.openEpoch (s : State) (base : Nat) (e : Epoch) : State :=
  { s with ec := { s.ec with base := base, usage := 0, epoch := e, endSlot := base } }

/-- The commit completes (R100 to R103). -/
def State.commitCompletes (s : State) (base : Nat) (e : Epoch) (released : Nat) : State :=
  let set := s.ec.inProgress
  let s := (s.openEpoch base e).emptyJlt
  let s := { s with sau := { s.sau with commits := s.sau.commits + 1, lastCommitAge := s.tau.age } }.clearAge
  (s.commitNotices set e released).serve

/-- The completion of a rollback is counted by its origin (R118). -/
def State.countRollback (s : State) : State :=
  if s.ec.origin = some .recovery then { s with sau := { s.sau with recoveries := s.sau.recoveries + 1 } }
  else { s with sau := { s.sau with rollbacks := s.sau.rollbacks + 1 } }

/-- The close job ends and the rollback completes (R118, R119, R103). -/
def State.rollbackCompletes (s : State) (e : Epoch) : State :=
  let set := s.ec.inProgress
  let restored := s.ec.spanToEnd
  let s := (s.openEpoch s.ec.base e).clearAge.countRollback
  (s.rollbackNotices set e restored).serve

/-- A restore has written its line: usage becomes i, and the next restore or the close is requested (R115). -/
def State.restoreEnds (s : State) : State := { s with ec := { s.ec with usage := s.ec.usage - 1 } }.postEc

/-- A restore found a bad record: the walk stops in BROKEN, its sources and a held commit are refused (R116, R103). -/
def State.restoreBreaks (s : State) : State :=
  let set := s.ec.inProgress
  let held := s.ec.commitSlot
  let s := { s with ec := { s.ec with state := .broken, inProgress := .empty, commitSlot := .empty } }.raise .broken
  (s.refuseSet set).refuseSet held

/-- DISCARD completes (R135). -/
def State.discardCompletes (s : State) (base : Nat) (e : Epoch) (discarded : Nat) : State :=
  let s := (s.openEpoch base e).emptyJlt.clearAge
  (s.respond statusOk (epochPayload e discarded)).serve

/-- FORMAT completes (R139). -/
def State.formatCompletes (s : State) (c : Fin 5) : State :=
  let s := ({ s with ec := { s.ec with code := c } }.openEpoch 0 0).emptyJlt.clearAge
  (s.respond statusOk (leBytes 1 c.val ++ leBytes 3 0)).serve

/-! ## The start-up scan -/

/-- The EC posts the header read if it is in SCANNING with the header not yet read, RSTI# is released and the PWU is
NORMAL (R126). -/
def State.postHeaderRead (s : State) : State :=
  if s.ec.state = .scanning ∧ s.ec.headerRead = false ∧ s.rsti = false ∧ s.pwu.state = .normal then s.postEc else s

/-- The EC enters SCANNING with the copy of R67, empty slots, and no deferred request (R126). -/
def State.enterScanning (s : State) : State := { s with ec := .reset s.ec.rcva }

/-- The outcome of a scan that ends without BROKEN: ACTIVE with the slots served, recovery, or RECOVERY_HOLD (R130,
R131). -/
def State.scanEnds (s : State) : State :=
  if s.ec.usage = 0 then s.serve
  else if s.ec.rcva then
    let set := (Sources.of .recovery).union s.ec.rollbackSlot
    { s with ec := { s.ec with rollbackSlot := .empty } }.takeRollback .recovery set
  else { s with ec := { s.ec with state := .recoveryHold } }.refuseHeld

/-- A scan that ends in BROKEN: the flag is set and held requests are refused (R130). -/
def State.scanBreaks (s : State) : State :=
  ({ s with ec := { s.ec with state := .broken } }.raise .broken).refuseHeld

/-- The end of the header read (R127): a valid header is loaded and the first scan step requested; an invalid one
leaves UNFORMATTED. -/
def State.headerReadEnds (s : State) (reads : List Word) : State :=
  match headerTest (slotWord reads 0) (slotWord reads 1) (slotWord reads 2) with
  | some (c, base, e) =>
    { s with ec := { s.ec with
        code := c, base := base, epoch := e, endSlot := base, usage := 0, scanCount := 0, headerRead := true } }.postEc
  | none => { s with ec := { s.ec with state := .unformatted } }.refuseHeld

/-- The count and usage become n + 1, the end slot follows, and the next step is requested (R67, R128). -/
def State.scanCounts (s : State) : State :=
  let n := s.ec.scanCount + 1
  { s with ec := { s.ec with scanCount := n, usage := n, endSlot := s.ec.slotOf n } }.postEc

/-- The end of a scan step (R128), or of the closing step when the count is S − 1 (R129). -/
def State.scanStepEnds (s : State) (reads : List Word) : State :=
  match classifySlot s.ec.epoch s.ec.scanCount reads with
  | .ending => s.scanEnds
  | .good => if s.ec.scanCount + 1 < s.ec.size then s.scanCounts else s.scanBreaks
  | .bad => s.scanBreaks

end Sys2Proof.Machine
end

