-- ==== Sys2Proof/Machine/Windows.lean ====
section
/-! DEFINITION. The window table's lookup (R36) and checks (R37). -/

namespace Sys2Proof.Machine

/-- The size of a window in words: 64 × 2^k (R35). -/
def windowWords (k : Fin 17) : Nat := 64 * 2 ^ k.val

/-- Whether a line lies inside a window: its first word address and the base fall in the same block of the window's
size, and the mode is not OFF (R36). -/
def Window.contains (w : Window) (l : Line) : Bool :=
  w.mode != .off && 4 * l.toNat / windowWords w.sizeCode == w.base.toNat / windowWords w.sizeCode

/-- The class a window gives a line inside it. -/
def Window.classAt (w : Window) (i : Fin 8) : LineClass :=
  match w.mode with
  | .off => .unmapped
  | .opened => .opened i
  | .journal => .journal i
  | .guarded => .guarded i

/-- The first window of a list of window numbers that contains the line. -/
def firstWindow (ws : Vector Window 8) (l : Line) : List (Fin 8) → Option (Fin 8)
  | [] => none
  | i :: rest => if ws[i].contains l then some i else firstWindow ws l rest

/-- The lookup: the class given by the lowest-numbered window that contains the line, or UNMAPPED (R5, R36). -/
def classify (ws : Vector Window 8) (l : Line) : LineClass :=
  match firstWindow ws l (List.finRange 8) with
  | some i => ws[i].classAt i
  | none => .unmapped

/-- The entry a SET_WINDOW's arguments name, with its window number; none if an argument is out of range (R37). -/
def windowArgs (args : List Byte) : Option (Fin 8 × Window) :=
  let number := (arg args 0).toNat
  let k := (arg args 2).toNat
  let base := argValue args 3 3
  match WindowMode.ofCode (arg args 1) with
  | none => none
  | some mode =>
    if h : number < 8 ∧ k < 17 then
      if base < 4194304 ∧ base % windowWords ⟨k, h.2⟩ = 0 then
        some (⟨number, h.1⟩, { mode := mode, sizeCode := ⟨k, h.2⟩, base := BitVec.ofNat 22 base })
      else none
    else none

/-- The mode, size code and base of an entry as GET_WINDOW returns them (R39, R191). -/
def windowPayload (w : Window) : List Byte := w.mode.code :: (leBytes 1 w.sizeCode.val ++ leBytes 3 w.base.toNat)

end Sys2Proof.Machine
end

