-- ==== Sys2Proof/Machine/Upstream.lean ====
section
/-! DEFINITION. The Upstream Port Unit: acceptance and classification (sections 1.2 to 1.4), and what the granted UP job
does (section 1.5). -/

namespace Sys2Proof.Machine

/-- The EC states of the last row of section 1.5's table, in which no transaction is served (R6, R9, R10, R13). -/
def Ec.unserved (e : Ec) : Bool :=
  match e.state with
  | .scanning | .recoveryHold => true
  | .rollingBack => e.origin == some .recovery
  | .unformatted | .active | .committing | .formatting | .broken => false

/-- The conditions under which every transaction is answered RETRY at acceptance (R6). The start-up condition lasts
exactly while the EC is in SCANNING (R126, R141; log entry 31). -/
def State.retryAtAcceptance (s : State) : Bool :=
  s.pwu.state != .normal || s.mpa.linkReset || s.ec.unserved

/-- The acceptance checks of R6 to R8 on a classified transaction. -/
def State.accept (s : State) (t : Transaction) : State :=
  if s.retryAtAcceptance then s.answer .retry
  else if t.write && t.cls.isGuard then (s.answer .fault).raise .guardFlag
  else s.postUp t

/-- An assertion of USTB (R3, R5): accepted in IDLE, with the line classified; ignored in WAITING and IN_JOB. -/
def State.strobe (s : State) (u : Strobe) : State :=
  match s.upu.phase with
  | .idle => s.accept { write := u.write, burst := u.burst, addr := u.addr, cls := classify s.windows (lineOf u.addr) }
  | .waiting _ | .inJob _ => s

/-- A USTB found asserted when a reset ends counts as a new assertion (R3, R18; log entry 12). -/
def State.findUstb (s : State) : State :=
  match s.ustb with
  | some u => s.strobe u
  | none => s

/-- ACCEPTANCE (R3): an assertion of USTB, which the part does not accept while RSTI# is asserted (R18). -/
def execAcceptance (write burst : Bool) (addr : DataAddr) (s : State) : Out State :=
  let s := s.settle.present (some ⟨write, burst, addr⟩)
  done (if s.rsti then s else s.strobe ⟨write, burst, addr⟩)

/-! ## The granted UP job -/

/-- The UP job begins: its transaction is in IN_JOB and its word operations hold the port (R8, R23). -/
def State.beginUp (s : State) (t : Transaction) (kind : JobKind) (ops : List WordOp) : State :=
  { s with upu := { s.upu with phase := .inJob t }, mpa := { s.mpa with job := some { kind := kind, todo := ops, reads := [] } } }

/-- The record an append fixes at its grant (R73): slot head, tag of the live epoch and the index usage, the line, and
the age stamp with the window number the transaction carries. -/
def State.recordFor (s : State) (t : Transaction) : RecordHead :=
  { slot := s.ec.head, tag := tagWord s.ec.epoch s.ec.usage, line := lineOf t.addr,
    stamp := stampWord (if s.ec.usage = 0 then 0 else s.tau.age) t.cls.windowNumber }

/-- The UPU returns from an AUTOCOMMIT empty job: it posts the re-request, or answers RETRY if a halt or a link reset
is present (R12). -/
def State.returnToWaiting (s : State) (t : Transaction) : State :=
  if s.pwu.state != .normal || s.mpa.linkReset then s.answer .retry else s.postUp t

/-- The full case (R12, R82 to R84): an empty job that sets JFULL; FAULT under REFUSE, a FULL commit request and the
re-request under AUTOCOMMIT. -/
def State.fullCase (s : State) (t : Transaction) : State :=
  let s := s.raise .jfull
  match s.wju.policy with
  | .refuse => s.answer .fault
  | .autocommit => (s.ecPost (.commit .full)).returnToWaiting t

/-- A granted JOURNAL write in ACTIVE or COMMITTING: hit, append or full case (R11, R71). -/
def State.grantJournaling (s : State) (t : Transaction) : State :=
  if s.wju.jlt.hit (lineOf t.addr) then s.beginUp t (.upWrite true) t.writeOps
  else if s.ec.usage + 1 < s.ec.size then
    let r := s.recordFor t
    s.beginUp t (.append r) (appendOps r (s.ec.slotOf (s.ec.usage + 1)) ++ t.writeOps)
  else s.fullCase t

/-- A granted JOURNAL write, by the EC state at the grant (R11, R13). -/
def State.grantJournalWrite (s : State) (t : Transaction) : State :=
  match s.ec.state with
  | .active | .committing => s.grantJournaling t
  | .unformatted | .broken => (s.answer .fault).raise .nofmt
  | .rollingBack | .formatting | .scanning | .recoveryHold => s.answer .retry

/-- A granted write (R10, R13). A GUARD write never reaches a grant (R7); it is answered as at acceptance (log entry
24). -/
def State.grantWrite (s : State) (t : Transaction) : State :=
  match t.cls with
  | .journal _ => s.grantJournalWrite t
  | .guarded _ => (s.answer .fault).raise .guardFlag
  | .opened _ | .unmapped => s.beginUp t (.upWrite false) t.writeOps

/-- A granted read: performed, but for a JOURNAL read in ROLLING_BACK with origin LIVE (R9). -/
def State.grantRead (s : State) (t : Transaction) : State :=
  if t.cls.isJournal && s.ec.state == .rollingBack then s.answer .retry else s.beginUp t .upRead t.readOps

/-- The outcome of a UP job's grant, from the class, the kind and the EC state (section 1.5). -/
def State.grantUp (s : State) : State :=
  match s.upu.phase with
  | .waiting t =>
    if s.ec.unserved then s.answer .retry
    else if t.write then s.grantWrite t
    else s.grantRead t
  | .idle | .inJob _ => s

end Sys2Proof.Machine
end

