-- ==== Sys2Proof/Machine/Port.lean ====
section
/-! DEFINITION. The Memory Port Arbiter: the rotation and the grant of a job (sections 2.2 to 2.4), the word operations
of a job, and what its end brings about (R25, R26). -/

namespace Sys2Proof.Machine

/-! ## Grants -/

/-- Whether a request place is waiting (R27). -/
def Mpa.waits (m : Mpa) : Requester → Bool
  | .up => m.up
  | .ec => m.ec
  | .lk => m.lk

/-- The order in which waiting requesters are taken after the last one granted (R28). -/
def rotation : Requester → List Requester
  | .up => [.ec, .lk, .up]
  | .ec => [.lk, .up, .ec]
  | .lk => [.up, .ec, .lk]

/-- The requester the next decision grants, if a place is waiting (R28). -/
def Mpa.chosen (m : Mpa) : Option Requester := (rotation m.last).find? m.waits

/-- The grant of a request empties its place and makes the requester the last granted (R27, R28). -/
def Mpa.grant (m : Mpa) : Requester → Mpa
  | .up => { m with up := false, last := .up }
  | .ec => { m with ec := false, last := .ec }
  | .lk => { m with lk := false, last := .lk }

/-- The port is given to a job of the EC or the SLK. -/
def State.beginJob (s : State) (kind : JobKind) (ops : List WordOp) : State :=
  { s with mpa := { s.mpa with job := some { kind := kind, todo := ops, reads := [] } } }

/-- The five writes of a format job (R138). -/
def formatOps (c : Fin 5) : List WordOp :=
  [.writeJournal layoutAddr 0, .writeJournal (slotAddr 0 0) 0, .writeJournal commitAddr (commitWord 0 0),
   .writeJournal complementAddr (~~~(layoutWord c)), .writeJournal layoutAddr (layoutWord c)]

/-- The EC forms its job at the grant from its own state: header read or scan step (R126 to R128), commit (R97),
restore (R114) or close (R117), format (R138), discard (R135). In no other state has it a request (R27). -/
def State.grantEc (s : State) : State :=
  let e := s.ec
  match e.state with
  | .scanning =>
    if e.headerRead then s.beginJob .scanStep (slotReads (e.slotOf e.scanCount))
    else s.beginJob .headerRead [.readJournal layoutAddr, .readJournal commitAddr, .readJournal complementAddr]
  | .committing =>
    s.beginJob (.commit e.head (e.epoch + 1) e.usage) [.writeJournal commitAddr (commitWord e.head (e.epoch + 1))]
  | .rollingBack =>
    if e.usage = 0 then
      s.beginJob (.close (e.epoch + 1))
        [.writeJournal (slotAddr e.base 0) 0, .writeJournal commitAddr (commitWord e.base (e.epoch + 1))]
    else s.beginJob .restore (slotReads (e.slotOf (e.usage - 1)))
  | .formatting => s.beginJob (.format e.formatCode) (formatOps e.formatCode)
  | .recoveryHold =>
    s.beginJob (.discard e.head (e.epoch + 1) e.usage) [.writeJournal commitAddr (commitWord e.head (e.epoch + 1))]
  | .unformatted | .active | .broken => s

/-- The SLK forms a record read at the grant, or answers REFUSED_ARG with an empty job (R24, R179). -/
def State.grantLk (s : State) : State :=
  match s.slk.mailbox with
  | .executing (.readRecord offset) =>
    if offset < s.ec.usage then s.beginJob .readRecord (slotReads (s.ec.slotOf offset))
    else s.respond statusRefusedArg []
  | .executing .commit | .executing .rollback | .executing .discard | .executing .format | .executing .reset
  | .idle | .receiving | .responseReady => s

/-- One grant to a requester. -/
def State.grantTo (s : State) (r : Requester) : State :=
  let s := { s with mpa := s.mpa.grant r }
  match r with
  | .up => s.grantUp
  | .ec => s.grantEc
  | .lk => s.grantLk

/-- The conditions of a grant decision but for a waiting place (R28); the deferred requests of R72 are in place first
(log entry 17). -/
def State.mayGrant (s : State) : Bool :=
  s.mpa.job.isNone && s.pwu.state == .normal && !s.mpa.linkReset && !s.rsti && s.ec.deferred.isEmpty

/-- A grant decision (R28). -/
def State.grantDecision (s : State) : State :=
  if s.mayGrant then
    match s.mpa.chosen with
    | some r => s.grantTo r
    | none => s
  else s

/-- JOB_GRANT (R28). -/
def execJobGrant (s : State) : Out State := done s.settle.grantDecision

/-! ## Word operations -/

/-- The word a word operation reads, if it is a read (R19). -/
def WordOp.reads? (op : WordOp) (s : State) : Option Word :=
  match op with
  | .readOld a | .readBeat a _ => some (s.dataMem.readWord a.toNat)
  | .readJournal a => some (s.journalMem.readWord a.toNat)
  | .writeBeat .. | .writeJournal .. | .writeOld .. | .writeCheck _ | .writeTag .. | .restoreWord .. => none

/-- A journal write uses all four lanes (R19). -/
def journalWrite (a : JournalAddr) (w : Word) : MemWrite := { toJournal := true, addr := a.toNat, word := w, lanes := 0xF }

/-- The write a word operation of a job makes, if it is a write (R19, R74). -/
def WordOp.write? (op : WordOp) (j : Job) (bus : UpstreamBus) : Option MemWrite :=
  match op with
  | .writeBeat a _ => some { toJournal := false, addr := a.toNat, word := bus.data, lanes := bus.lanes }
  | .writeJournal a w | .writeTag a w => some (journalWrite a w)
  | .writeOld a k => some (journalWrite a (slotWord j.reads k.val))
  | .writeCheck a =>
    match j.kind with
    | .append r => some (journalWrite a (appendCheck r j.reads))
    | .upRead | .upWrite _ | .headerRead | .scanStep | .commit .. | .restore | .close _ | .format _ | .discard ..
    | .readRecord => none
  | .restoreWord a w => some { toJournal := false, addr := a.toNat, word := w, lanes := 0xF }
  | .readOld _ | .readBeat .. | .readJournal _ => none

/-- The memory after a word operation (R21). -/
def State.storeOp (s : State) (op : WordOp) (j : Job) (bus : UpstreamBus) : State :=
  match op.write? j bus with
  | some w => s.store w
  | none => s

/-- A beat moves with URDY, the first with URSP = OK (R14, R15). -/
def State.beat (s : State) (first : Bool) (data : Option Word) : State :=
  { s with upu := { s.upu with beat := some { response := if first then some .ok else none, data := data } } }

/-- What the completion of a word operation brings about beside its read or write: a beat (R14, R15), or the record's
joining the epoch at an append's tag write (R75). -/
def State.opEffects (s : State) (op : WordOp) (j : Job) (word : Option Word) : State :=
  match op with
  | .readBeat _ first => s.beat first word
  | .writeBeat _ first => s.beat first none
  | .writeTag .. =>
    match j.kind with
    | .append r => s.recordJoins r
    | .upRead | .upWrite _ | .headerRead | .scanStep | .commit .. | .restore | .close _ | .format _ | .discard ..
    | .readRecord => s
  | .readOld _ | .readJournal _ | .writeJournal .. | .writeOld .. | .writeCheck _ | .restoreWord .. => s

/-- Whether a restore's slot, read whole, is good for the live epoch and the index usage − 1 (R114). -/
def Ec.restoreGood (e : Ec) (reads : List Word) : Bool := classifySlot e.epoch (e.usage - 1) reads == .good

/-- The operations still to be made after one has completed: a restore goes on with its four data writes once its
eighth word has been read and found good (R25, R115, R116). -/
def Job.remaining (j : Job) (op : WordOp) (rest : List WordOp) (reads : List Word) (e : Ec) : List WordOp :=
  match j.kind, op with
  | .restore, .readJournal _ => if rest.isEmpty && e.restoreGood reads then restoreWrites reads else rest
  | _, _ => rest

/-- The transaction ends and the UPU returns to IDLE (R14, R15). -/
def State.endTransaction (s : State) : State := { s with upu := { s.upu with phase := .idle } }

/-- The end of a job: the MPA is free and the requester takes the job's results (R26). -/
def State.jobEnds (s : State) (kind : JobKind) (reads : List Word) : State :=
  let s := { s with mpa := { s.mpa with job := none } }
  match kind with
  | .upRead | .upWrite _ | .append _ => s.endTransaction
  | .headerRead => s.headerReadEnds reads
  | .scanStep => s.scanStepEnds reads
  | .commit base e released => s.commitCompletes base e released
  | .restore => if s.ec.restoreGood reads then s.restoreEnds else s.restoreBreaks
  | .close e => s.rollbackCompletes e
  | .format c => s.formatCompletes c
  | .discard base e discarded => s.discardCompletes base e discarded
  | .readRecord => s.respond statusOk (recordPayload reads)

/-- The word operation in progress completes; the job goes on, or ends with its last one (R21, R23, R26). -/
def State.completeOp (s : State) (j : Job) (op : WordOp) (rest : List WordOp) (bus : UpstreamBus) : State :=
  let word := op.reads? s
  let reads := j.reads ++ word.toList
  let s := (s.storeOp op j bus).opEffects op j word
  let todo := j.remaining op rest reads s.ec
  if todo.isEmpty then s.jobEnds j.kind reads
  else { s with mpa := { s.mpa with job := some { j with todo := todo, reads := reads } } }

/-- WORD_OPERATION_COMPLETE (R21), with USTB as it stands then. With no job in progress no word operation can complete. -/
def execWordOperationComplete (bus : UpstreamBus) (s : State) : Out State :=
  let s := s.settle
  done (match s.mpa.job with
    | none => s
    | some j =>
      let s := s.present bus.ustb
      match j.todo with
      | [] => s.jobEnds j.kind j.reads
      | op :: rest => s.completeOp j op rest bus)

/-- DEFERRED_REQUEST_TAKEN (R72): at the end of the JOURNAL-write job the requests that reached the EC during it are
taken, in arrival order; while the job is in progress none is. -/
def execDeferredRequestTaken (s : State) : Out State :=
  let s := s.settle
  done (if s.mpa.job.isNone then s.takeDeferred else s)

end Sys2Proof.Machine
end

