-- ==== Sys2Proof/Machine/Power.lean ====
section
/-! DEFINITION. The Power Unit: halt inputs, the supply monitor, HALTING, HALTED and the return to NORMAL (chapter 9). -/

namespace Sys2Proof.Machine

/-- The release delay in REFCLK periods (R146). -/
def releasePeriods : Nat := 2048

/-- The hysteresis of the supply monitor (R143). -/
def clearAbove : Millivolts := 50

/-- The PWU enters HALTED with the release counter at 0 (R145, R146). -/
def State.enterHalted (s : State) : State := { s with pwu := { s.pwu with state := .halted, releaseCount := 0 } }

/-- The PWU leaves NORMAL: the waiting transaction is answered RETRY, PFAIL is set, and the PWU enters HALTING, or
HALTED at once if no job is in progress (R144, R16). -/
def State.leaveNormal (s : State) : State :=
  let s := (s.raise .pfail).retryWaiting
  if s.mpa.job.isNone then s.enterHalted else { s with pwu := { s.pwu with state := .halting } }

/-- An assertion of a halt input reaches the PWU: it leaves NORMAL, or the release counter returns to 0 in HALTED
(R144, R146). While RSTI# is asserted the PWU's state is not used (R153). -/
def State.haltInput (s : State) : State :=
  if s.rsti then s else
  match s.pwu.state with
  | .normal => s.leaveNormal
  | .halting => s
  | .halted => { s with pwu := { s.pwu with releaseCount := 0 } }

/-- Whether the halt condition is present (section 9.1). -/
def Pwu.haltCondition (p : Pwu) : Bool := p.pfail || p.tripped

/-- Whether the release counter counts this period: HALTED and the halt condition absent (R146). -/
def Pwu.counts (p : Pwu) : Bool := p.state == .halted && !p.pfail && !p.tripped

/-- The monitor's trip state after it compares the supply with the levels of its threshold: it trips below the
threshold, clears at the clear level or above, and keeps its state between; OFF never trips (R143). -/
def monitorAfter (t : Threshold) (tripped : Bool) (supply : Millivolts) : Bool :=
  match t.tripLevel with
  | none => false
  | some level => if supply < level then true else if supply ≥ level + clearAbove then false else tripped

/-- The monitor compares the supply and the PWU takes a trip as an event (R143, R144). -/
def State.compareSupply (s : State) (supply : Millivolts) : State :=
  let now := monitorAfter s.pwu.threshold s.pwu.tripped supply
  let t := { s with pwu := { s.pwu with tripped := now } }
  if now && !s.pwu.tripped then t.haltInput else t

/-- PFAIL_ASSERTED (R142, R144). -/
def execPfailAsserted (s : State) : Out State :=
  let s := s.settle
  done { s with pwu := { s.pwu with pfail := true } }.haltInput

/-- PFAIL_DEASSERTED (R142, R145, R146): the input leaves the halt condition; the PWU state does not change. -/
def execPfailDeasserted (s : State) : Out State :=
  let s := s.settle
  done { s with pwu := { s.pwu with pfail := false } }

/-- MONITOR_TRIP (R143): the supply has fallen to `supply`; the monitor trips if that is below the threshold. -/
def execMonitorTrip (supply : Millivolts) (s : State) : Out State :=
  let s := s.settle
  done (match s.pwu.threshold.tripLevel with
    | some level => if supply < level then s.compareSupply supply else s
    | none => s)

/-- MONITOR_CLEAR (R143): the supply has risen to `supply`; the monitor clears at the clear level or above. -/
def execMonitorClear (supply : Millivolts) (s : State) : Out State :=
  let s := s.settle
  done (match s.pwu.threshold.tripLevel with
    | some level => if supply < level then s else s.compareSupply supply
    | none => s)

end Sys2Proof.Machine
end

