-- ==== Sys2Proof/Machine/Lines.lean ====
section
/-! DEFINITION. The Request Line Unit and the Time Base and Age Unit: filters and handshakes, ticks, the age counter and
its action, the RSTO# pulse (chapter 10), and the counting of REFCLK periods. -/

namespace Sys2Proof.Machine

/-- Whether a rise is recognized at a sample instant that reads `now` (R156). -/
def RequestLine.rises (l : RequestLine) (now : Bool) : Bool := now && l.last && !l.filtered

/-- A line after a sample instant (R156): the filtered level takes a level read twice; a fall recognized lowers the
acknowledge in the same step (R159). -/
def RequestLine.sample (l : RequestLine) (now : Bool) : RequestLine :=
  if now == l.last && now != l.filtered then
    { pin := now, last := now, filtered := now, ack := l.ack && now }
  else { l with pin := now, last := now }

/-- A LINE request is posted if its line's rise was recognized (R158). -/
def State.postIf (s : State) (rise : Bool) (r : EcRequest) : State := if rise then s.ecPost r else s

/-- SAMPLE_INSTANT (R155, R156, R158, R162): both pins are sampled at the same instant, the sample counter restarts,
and the requests of the rises recognized reach the EC in the order `abrtFirst` says. -/
def execSampleInstant (ckpt abrt abrtFirst : Bool) (s : State) : Out State :=
  let s := s.settle
  if s.rsti then done s else
  let c := s.rlu.ckpt.rises ckpt
  let a := s.rlu.abrt.rises abrt
  let s := { s with rlu := { s.rlu with
    ckpt := s.rlu.ckpt.sample ckpt, abrt := s.rlu.abrt.sample abrt, sampleCount := 0 } }
  done (if abrtFirst then (s.postIf a (.rollback .line)).postIf c (.commit .line)
    else (s.postIf c (.commit .line)).postIf a (.rollback .line))

/-- The age action fires (R167). -/
def State.fireAgeAction (s : State) : State :=
  match s.tau.action with
  | .off => s
  | .alert => s.raise .age
  | .commit => (s.raise .age).ecPost (.commit .age)
  | .rollback => (s.raise .age).ecPost (.rollback .age)

/-- A tick reaches the age counter: counted while it is running and the PWU is NORMAL, and compared with the limit
after the increment (R150, R165, R166). -/
def State.countTick (s : State) : State :=
  if s.tau.running && s.pwu.state == .normal then
    let s := { s with tau := { s.tau with age := s.tau.age + 1 } }
    if s.tau.age = s.tau.limit then s.fireAgeAction else s
  else s

/-- TICK (R164): the divider count reaches its setting and restarts from 0; the tick is delivered to the age counter.
While RSTI# is asserted the count has not started (R164). -/
def execTick (s : State) : Out State :=
  let s := s.settle
  done (if s.rsti then s else { s with tau := { s.tau with divCount := 0 } }.countTick)

/-- RSTO_PULSE_END (R168): the running pulse ends. -/
def execRstoPulseEnd (s : State) : Out State :=
  let s := s.settle
  done { s with tau := { s.tau with pulse := none } }

/-! ## One REFCLK period (log entry 2) -/

/-- The pulse after one REFCLK period (R168). -/
def Pulse.advance (p : Pulse) : Pulse := { p with count := p.count + 1 }

/-- Whether the pulse count has reached its fixed length (R168). -/
def Pulse.complete (p : Pulse) : Bool := p.length ≤ p.count

/-- The counters after one REFCLK period: sample counter (R155), divider count (R164), pulse count (R168), release
counter (R146). -/
def State.countPeriod (s : State) : State :=
  { s with
    rlu := { s.rlu with sampleCount := s.rlu.sampleCount + 1 }
    tau := { s.tau with divCount := s.tau.divCount + 1, pulse := s.tau.pulse.map Pulse.advance }
    pwu := if s.pwu.counts then { s.pwu with releaseCount := min (s.pwu.releaseCount + 1) releasePeriods } else s.pwu }

/-- The events whose count this period completes, as commands: sample instant, tick, end of pulse, return to NORMAL.
The order among them is the model's (log entry 3). -/
def State.dueEvents (s : State) : List Instr :=
  (if s.rlu.period.periods ≤ s.rlu.sampleCount then [.sampleInstant s.rlu.ckpt.pin s.rlu.abrt.pin false] else [])
    ++ (if s.tau.divider.periods ≤ s.tau.divCount then [.tick] else [])
    ++ (if s.tau.pulse.any Pulse.complete then [.rstoPulseEnd] else [])
    ++ (if s.pwu.counts && decide (releasePeriods ≤ s.pwu.releaseCount) then [.returnToNormal] else [])

/-- What passes on an empty queue: one REFCLK period, whose completed counts put their events in the queue. While RSTI#
is asserted nothing counts (R155, R163, R164, R169). -/
def State.refclkPeriod (s : State) : State :=
  let s := s.settle
  if s.rsti then s else
  let s := s.countPeriod
  { s with pending := s.pending ++ s.dueEvents }

end Sys2Proof.Machine
end

