-- ==== Sys2Proof/Machine/Link.lean ====
section
/-! DEFINITION. The service link's mailbox: frames (R171 to R175), and the commands that read or clear status,
statistics and flags, that write windows, and that hand requests to the EC or the MPA (R176, R178 to R185). -/

namespace Sys2Proof.Machine

/-! ## Frames -/

/-- The 7-bit address the target answers to: 0x58 plus LA as sampled (R171). -/
def Slk.address (l : Slk) : BitVec 7 := 0x58#7 + l.la.setWidth 7

/-- Whether the target acknowledges an address byte: its own, and RSTI# released (R171). -/
def State.addressed (s : State) (addr : BitVec 7) : Bool := !s.rsti && addr == s.slk.address

/-- The acknowledge bits the target gives in a frame, address byte first. -/
def State.acknowledge (s : State) (acks : List Bool) : State := { s with slk := { s.slk with acks := acks } }

/-- The acknowledges of a collected frame: the first 16 data bytes are acknowledged, a 17th or later is not (R172). -/
def collectedAcks (bytes : List Byte) : List Bool := true :: (List.range bytes.length).map (fun k => decide (k < 16))

/-- A write frame that is not collected: its address is acknowledged and its data bytes are not (R173). -/
def State.refuseBytes (s : State) (bytes : List Byte) : State := s.acknowledge (true :: bytes.map (fun _ => false))

/-- A write frame is collected (R172): the mailbox enters RECEIVING and up to 16 bytes stand in the command buffer. -/
def State.collect (s : State) (bytes : List Byte) : State :=
  let s := s.acknowledge (collectedAcks bytes)
  { s with slk := { s.slk with mailbox := .receiving, command := bytes.take 16 } }

/-- A write frame with data bytes reaches the target (R171 to R173): another address is not acknowledged; in EXECUTING
and RESPONSE_READY nothing is stored; otherwise the frame is collected and `k` says what becomes of it. -/
def State.writeFrame (s : State) (addr : BitVec 7) (bytes : List Byte) (k : State → State) : State :=
  if s.addressed addr then
    match s.slk.mailbox with
    | .idle | .receiving => k (s.collect bytes)
    | .executing _ | .responseReady => s.refuseBytes bytes
  else s.acknowledge [false]

/-- A frame of a known code of the wrong length is answered REFUSED_ARG and sets LKERR; no fixed length is above 16, so
an overrun frame is one of them (R175 step 2). -/
def State.refuseLength (s : State) : State := (s.raise .lkerr).respond statusRefusedArg []

/-- The write frame of one command, ended by STOP: its length is checked (R175 step 2), then `k` carries it out. -/
def State.command (s : State) (code : Byte) (length : Nat) (f : LinkFrame) (k : State → State) : State :=
  s.writeFrame f.addr (code :: f.args) fun s => if f.args.length + 1 = length then k s else s.refuseLength

/-- READ_FRAME (R174). In RESPONSE_READY at its address byte the frame returns the response and then zeros, and a STOP
after the last byte consumes it; otherwise every byte is NOTREADY. -/
def execReadFrame (f : ReadFrame) (s : State) : Out State :=
  let s := s.settle
  done (if s.addressed f.addr then
    let s := s.acknowledge [true]
    if s.slk.mailbox = .responseReady ∧ f.late = false then
      let response := s.slk.response
      let t := { s with slk := { s.slk with sent := (List.range f.count).map (fun k => response.getD k 0) } }
      if f.stop ∧ response.length ≤ f.count then { t with slk := { t.slk with mailbox := .idle, response := [] } } else t
    else { s with slk := { s.slk with sent := List.replicate f.count statusNotReady } }
  else { s with slk := { s.slk with acks := [false], sent := [] } })

/-- WRITE_FRAME_ABANDONED (R172): the command buffer is emptied, the mailbox returns to IDLE, LKERR is set. -/
def execWriteFrameAbandoned (addr : BitVec 7) (data : List Byte) (s : State) : Out State :=
  done (s.settle.writeFrame addr data fun s =>
    { s with slk := { s.slk with mailbox := .idle, command := [] } }.raise .lkerr)

/-- WRITE_FRAME_NAK (R173). In IDLE the frame is not refused, and this event does not arise. -/
def execWriteFrameNak (addr : BitVec 7) (data : List Byte) (s : State) : Out State :=
  let s := s.settle
  done (if s.addressed addr then
    match s.slk.mailbox with
    | .executing _ | .responseReady => s.refuseBytes data
    | .idle | .receiving => s
  else s.acknowledge [false])

/-- EMPTY_WRITE_FRAME (R172): acknowledged at its address; no command, no flag. -/
def execEmptyWriteFrame (addr : BitVec 7) (s : State) : Out State :=
  let s := s.settle
  done (s.acknowledge [s.addressed addr])

/-- UNKNOWN_COMMAND_CODE (R175 step 1): REFUSED_CODE, and LKERR is set. -/
def execUnknownCommandCode (code : Byte) (f : LinkFrame) (s : State) : Out State :=
  if knownCode code then .refused (.illFormed "UNKNOWN_COMMAND_CODE")
  else done (s.settle.writeFrame f.addr (code :: f.args) fun s => (s.raise .lkerr).respond statusRefusedCode [])

/-! ## Status -/

/-- The codes of GET_STATUS (R192). -/
def EcState.code : EcState → Byte
  | .unformatted => 0
  | .scanning => 1
  | .recoveryHold => 2
  | .active => 3
  | .committing => 4
  | .rollingBack => 5
  | .formatting => 6
  | .broken => 7

def originCode : Option Origin → Byte
  | none => 0
  | some .live => 1
  | some .recovery => 2

def PwuState.code : PwuState → BitVec 2
  | .normal => 0
  | .halting => 1
  | .halted => 2

/-- The 'power and straps' byte (R192): age running, RCVA, monitor tripped, PFAIL# asserted, PWU state. -/
def State.powerByte (s : State) : Byte :=
  0#2 ++ BitVec.ofBool s.tau.running ++ BitVec.ofBool s.ec.rcva ++ BitVec.ofBool s.pwu.tripped
    ++ BitVec.ofBool s.pwu.pfail ++ s.pwu.state.code

/-- The status record (R176, R192), bytes 1 to 17 of the response. -/
def State.statusRecord (s : State) : List Byte :=
  [s.ec.state.code, originCode s.ec.origin] ++ leBytes 3 s.ec.epoch.toNat ++ leBytes 1 s.ec.code.val
    ++ leBytes 2 s.ec.base ++ leBytes 2 s.ec.usage ++ [s.powerByte]
    ++ flagMaskBytes s.sau.flags ++ flagMaskBytes s.sau.mask ++ leBytes 2 s.tau.age.toNat

/-- GET_STATUS (R176). -/
def execGetStatus (f : LinkFrame) (s : State) : Out State :=
  done (s.settle.command 0x01 1 f fun s => s.respond statusOk s.statusRecord)

/-! ## Windows -/

/-- SET_WINDOW (R37, R38). -/
def execSetWindow (f : LinkFrame) (s : State) : Out State :=
  done (s.settle.command 0x02 7 f fun s =>
    match windowArgs f.args with
    | some (i, w) => { s with windows := s.windows.set i w }.respond statusOk []
    | none => s.respond statusRefusedArg [])

/-- GET_WINDOW (R39). -/
def execGetWindow (f : LinkFrame) (s : State) : Out State :=
  done (s.settle.command 0x03 2 f fun s =>
    if h : (arg f.args 0).toNat < 8 then s.respond statusOk (windowPayload s.windows[(arg f.args 0).toNat])
    else s.respond statusRefusedArg [])

/-! ## Epoch commands (R178) -/

/-- COMMIT (R178): a commit request of source LINK. -/
def execCommit (f : LinkFrame) (s : State) : Out State :=
  done (s.settle.command 0x10 1 f fun s => (s.await .commit).ecPost (.commit .link))

/-- ROLLBACK (R178): a rollback request of source LINK. -/
def execRollback (f : LinkFrame) (s : State) : Out State :=
  done (s.settle.command 0x11 1 f fun s => (s.await .rollback).ecPost (.rollback .link))

/-- DISCARD (R135, R178). -/
def execDiscard (f : LinkFrame) (s : State) : Out State :=
  done (s.settle.command 0x12 1 f fun s => (s.await .discard).ecPost .discard)

/-- FORMAT (R137, R178): the slot-count code is checked first. -/
def execFormat (f : LinkFrame) (s : State) : Out State :=
  done (s.settle.command 0x13 2 f fun s =>
    match slotCodeOf (arg f.args 0) with
    | some c => (s.await .format).ecPost (.format c)
    | none => s.respond statusRefusedArg [])

/-- READ_RECORD (R179): the offset is compared with usage, and an LK job is requested. -/
def execReadRecord (f : LinkFrame) (s : State) : Out State :=
  done (s.settle.command 0x20 3 f fun s =>
    let offset := argValue f.args 0 2
    if offset < s.ec.usage then (s.await (.readRecord offset)).postLk else s.respond statusRefusedArg [])

/-! ## Statistics, flags and the alert mask -/

/-- The six statistics (R184, R191). -/
def Sau.payload (u : Sau) : List Byte :=
  leBytes 4 u.commits.toNat ++ leBytes 4 u.rollbacks.toNat ++ leBytes 4 u.recoveries.toNat
    ++ leBytes 4 u.appended.toNat ++ leBytes 2 u.peak ++ leBytes 2 u.lastCommitAge.toNat

/-- GET_STATS (R185). -/
def execGetStats (f : LinkFrame) (s : State) : Out State :=
  done (s.settle.command 0x30 1 f fun s => s.respond statusOk s.sau.payload)

/-- The statistics after CLEAR_STATS at a usage (R185). -/
def Sau.clearStats (u : Sau) (usage : Nat) : Sau :=
  { u with commits := 0, rollbacks := 0, recoveries := 0, appended := 0, lastCommitAge := 0, peak := usage }

/-- CLEAR_STATS (R185). -/
def execClearStats (f : LinkFrame) (s : State) : Out State :=
  done (s.settle.command 0x31 1 f fun s => { s with sau := s.sau.clearStats s.ec.usage }.respond statusOk [])

/-- SET_ALERT_MASK (R183). -/
def execSetAlertMask (f : LinkFrame) (s : State) : Out State :=
  done (s.settle.command 0x32 3 f fun s =>
    { s with sau := { s.sau with mask := flagMaskOf (arg f.args 0) (arg f.args 1) } }.respond statusOk [])

/-- CLEAR_FLAGS (R182): the response carries the flags after the clear. -/
def execClearFlags (f : LinkFrame) (s : State) : Out State :=
  done (s.settle.command 0x33 3 f fun s =>
    let s := s.clearFlagBits (flagMaskOf (arg f.args 0) (arg f.args 1))
    s.respond statusOk (flagMaskBytes s.sau.flags))

/-- RESET (R17, R32, R169, R180): the link reset awaits action, a waiting transaction is answered RETRY, a running RSTO#
pulse ends, and the mailbox stays in EXECUTING until the link reset acts. -/
def execReset (f : ResetFrame) (s : State) : Out State :=
  done (s.settle.command 0x3F 1 f.toLinkFrame fun s =>
    { s.retryWaiting with
      mpa := { s.retryWaiting.mpa with linkReset := true }
      tau := { s.tau with pulse := none }
      ustb := f.ustb }.await .reset)

end Sys2Proof.Machine
end

