-- ==== Sys2Proof/Machine/Policy.lean ====
section
/-! DEFINITION. SET_POLICY and GET_POLICY (R177): the eight settings, their checks, and how each takes effect. -/

namespace Sys2Proof.Machine

/-- The eight values a SET_POLICY frame carries, as their owners would hold them; none marks a value out of range
(R177, R190). -/
structure PolicyValues where
  policy    : Option FullPolicy
  watermark : Option (Fin 4096)
  divider   : Option TickDivider
  limit     : Option (BitVec 16)
  action    : Option AgeAction
  period    : Option FilterPeriod
  width     : Option RstoWidth
  threshold : Option Threshold
  deriving DecidableEq, Repr

/-- A watermark of 0 to 4095 (R177). -/
def watermarkOf (v : Nat) : Option (Fin 4096) := if h : v < 4096 then some ⟨v, h⟩ else none

/-- An age limit of 1 to 65 535 (R166, R177). -/
def ageLimitOf (v : Nat) : Option (BitVec 16) := if v = 0 then none else some (BitVec.ofNat 16 v)

/-- The values of a frame's argument bytes, the select mask being byte 0 (R190). -/
def policyValues (args : List Byte) : PolicyValues :=
  { policy := FullPolicy.ofCode (arg args 1)
    watermark := watermarkOf (argValue args 2 2)
    divider := TickDivider.ofCode (arg args 4)
    limit := ageLimitOf (argValue args 5 2)
    action := AgeAction.ofCode (arg args 7)
    period := FilterPeriod.ofCode (arg args 8)
    width := RstoWidth.ofCode (arg args 9)
    threshold := Threshold.ofCode (arg args 10) }

/-- Keep the values whose select bit is 1 (R177). -/
def selected {α : Type} (bit : Bool) (v : Option α) : Option α := if bit then v else none

/-- Whether every selected value is inside its accepted values; the others are not checked (R177). -/
def policyAccepted (mask : Byte) (v : PolicyValues) : Bool :=
  (!mask.getLsbD 0 || v.policy.isSome) && (!mask.getLsbD 1 || v.watermark.isSome)
    && (!mask.getLsbD 2 || v.divider.isSome) && (!mask.getLsbD 3 || v.limit.isSome)
    && (!mask.getLsbD 4 || v.action.isSome) && (!mask.getLsbD 5 || v.period.isSome)
    && (!mask.getLsbD 6 || v.width.isSome) && (!mask.getLsbD 7 || v.threshold.isSome)

/-- The WJU's two settings (R82, R86). -/
def Wju.setPolicy (w : Wju) (mask : Byte) (v : PolicyValues) : Wju :=
  { w with
    policy := (selected (mask.getLsbD 0) v.policy).getD w.policy
    watermark := (selected (mask.getLsbD 1) v.watermark).getD w.watermark }

/-- The TAU's four settings; a tick divider written sets the divider count to 0 (R164, R166 to R168). -/
def Tau.setPolicy (t : Tau) (mask : Byte) (v : PolicyValues) : Tau :=
  { t with
    divider := (selected (mask.getLsbD 2) v.divider).getD t.divider
    divCount := if mask.getLsbD 2 then 0 else t.divCount
    limit := (selected (mask.getLsbD 3) v.limit).getD t.limit
    action := (selected (mask.getLsbD 4) v.action).getD t.action
    width := (selected (mask.getLsbD 6) v.width).getD t.width }

/-- The RLU's setting; a filter period written sets the sample counter to 0 (R157). -/
def Rlu.setPolicy (r : Rlu) (mask : Byte) (v : PolicyValues) : Rlu :=
  { r with
    period := (selected (mask.getLsbD 5) v.period).getD r.period
    sampleCount := if mask.getLsbD 5 then 0 else r.sampleCount }

/-- The settings of every owner in one step (R177). -/
def State.setPolicy (s : State) (mask : Byte) (v : PolicyValues) : State :=
  { s with
    wju := s.wju.setPolicy mask v
    tau := s.tau.setPolicy mask v
    rlu := s.rlu.setPolicy mask v
    pwu := { s.pwu with threshold := (selected (mask.getLsbD 7) v.threshold).getD s.pwu.threshold } }

/-- SET_POLICY (R177): every selected value is checked, then all are written; a supply threshold written makes the
monitor compare the supply at once (R143). -/
def execSetPolicy (f : LinkFrame) (supply : Millivolts) (s : State) : Out State :=
  done (s.settle.command 0x04 12 f fun s =>
    let mask := arg f.args 0
    let v := policyValues f.args
    if policyAccepted mask v then
      let s := s.setPolicy mask v
      (if mask.getLsbD 7 then s.compareSupply supply else s).respond statusOk []
    else s.respond statusRefusedArg [])

/-- The eight settings as GET_POLICY returns them (R191). -/
def State.policyPayload (s : State) : List Byte :=
  [s.wju.policy.code] ++ leBytes 2 s.wju.watermark.val ++ [s.tau.divider.code] ++ leBytes 2 s.tau.limit.toNat
    ++ [s.tau.action.code, s.rlu.period.code, s.tau.width.code, s.pwu.threshold.code]

/-- GET_POLICY (R177). -/
def execGetPolicy (f : LinkFrame) (s : State) : Out State :=
  done (s.settle.command 0x05 1 f fun s => s.respond statusOk s.policyPayload)

end Sys2Proof.Machine
end

