-- ==== Sys2Proof/Machine/Reset.lean ====
section
/-! DEFINITION. Hardware reset and its release (R18, R33, R34, R153), the link reset's acting (R32), the entry to HALTED
and the return to NORMAL (R145, R147). -/

namespace Sys2Proof.Machine

/-- A word write cut by a loss of power: the whole word holds a free value (R152, log entry 8). -/
def State.cutWrite (s : State) (w : MemWrite) : State :=
  { s.store { w with word := Config.cutWord s.freeCount, lanes := 0xF } with freeCount := s.freeCount + 1 }

/-- What the word operation in progress leaves in memory when a hardware reset takes effect: under RSTI# it completes
(R21, R33), under a loss of power a write that had begun may hold anything (R152). -/
def State.cutJob (s : State) (cause : ResetCause) (begun : Bool) (bus : UpstreamBus) : State :=
  match begun, s.mpa.job with
  | true, some j =>
    match j.todo with
    | op :: _ =>
      match cause, op.write? j bus with
      | .pin, some w => s.store w
      | .powerOn, some w => s.cutWrite w
      | .pin, none => s
      | .powerOn, none => s
    | [] => s
  | true, none => s
  | false, _ => s

/-- Every block takes its reset value and holds it while RSTI# is asserted (R18, R34, R46, R67, R88, R106, R125, R126,
R163, R170, R186). The memories, the levels at the pins and the straps sampled last are kept; the monitor takes its
threshold and counts as tripped (R153, log entries 22 and 39). -/
def State.resetBlocks (s : State) (cause : ResetCause) : State :=
  { s with
    upu := .reset
    mpa := .reset s.mpa.mspd
    ec := .reset s.ec.rcva
    wju := .reset
    windows := Vector.replicate 8 .reset
    tau := .reset
    rlu := .reset s.rlu.ckpt.pin s.rlu.abrt.pin
    pwu := { state := .normal, pfail := s.pwu.pfail, tripped := true, threshold := .v295, releaseCount := 0,
             powerOn := cause == .powerOn }
    slk := .reset s.slk.la
    sau := .reset
    rsti := true }

/-- HARDWARE_RESET (R33): the job is cut after the word operation in progress, and every block is reset. -/
def execHardwareReset (cause : ResetCause) (begun : Bool) (bus : UpstreamBus) (s : State) : Out State :=
  done (((s.settle.present bus.ustb).cutJob cause begun bus).resetBlocks cause)

/-- The monitor's trip state as a hardware reset ends (R153): after an RSTI# reset it is tripped unless the supply is at
or above the clear level; at power-on it has followed the supply since the power came, and its trip state stands. -/
def Pwu.trippedAtRelease (p : Pwu) (supply : Millivolts) : Bool := monitorAfter .v295 (p.tripped || !p.powerOn) supply

/-- The straps and levels sampled at the release, and the PWU's state from its inputs (R20, R126, R153, R171). -/
def State.sampleRelease (s : State) (p : ReleasePins) : State :=
  let tripped := s.pwu.trippedAtRelease p.supply
  let halt := p.pfail || tripped
  let t := { s with
    rsti := false
    ustb := p.ustb
    mpa := { s.mpa with mspd := p.mspd }
    ec := { s.ec with rcva := p.rcva }
    slk := { s.slk with la := p.la }
    rlu := { s.rlu with ckpt := { s.rlu.ckpt with pin := p.ckpt }, abrt := { s.rlu.abrt with pin := p.abrt } }
    pwu := { s.pwu with
      state := if halt then .halted else .normal, pfail := p.pfail, tripped := tripped, releaseCount := 0,
      powerOn := false } }
  if halt then t.raise .pfail else t

/-- RESET_RELEASE (R34): RSTI# is released or power-on reset completes, the header read is posted once the PWU is NORMAL
(R126), and a USTB found asserted is a new assertion (R18). With RSTI# not asserted there is nothing to release. -/
def execResetRelease (pins : ReleasePins) (s : State) : Out State :=
  let s := s.settle
  done (if s.rsti then ((s.sampleRelease pins).postHeaderRead).findUstb else s)

/-! ## Link reset -/

/-- The RLU at a link reset's acting: filters and acknowledges low, the filter period kept (R163). -/
def Rlu.linkReset (r : Rlu) : Rlu :=
  { r with ckpt := .reset r.ckpt.pin, abrt := .reset r.abrt.pin, sampleCount := 0 }

/-- The link reset acts (R32, R67, R87, R88, R105, R123, R125, R163, R165, R180): request places emptied and LK last
granted, the EC in SCANNING with the copy of R67 and no held or deferred request, JLT empty, sequence 0x0001, request
lines low, age counter 0 and stopped, the UPU in IDLE (R17), and the response OK to RESET made ready. A USTB found
asserted is a new assertion (R3). -/
def State.linkResetActs (s : State) : State :=
  (({ s.enterScanning with
    upu := .reset
    mpa := .reset s.mpa.mspd
    wju := { s.wju with jlt := .empty, sequence := 0x0001 }
    rlu := s.rlu.linkReset }.clearAge.respond statusOk []).postHeaderRead).findUstb

/-- Whether a link reset that awaits action acts now: no job is in progress (R32). -/
def State.linkResetDue (s : State) : Bool := s.mpa.linkReset && s.mpa.job.isNone && !s.rsti

/-- Whether the PWU leaves HALTING now: the job in progress has ended (R145). -/
def State.haltedDue (s : State) : Bool := s.pwu.state == .halting && s.mpa.job.isNone && !s.rsti

/-- The end of a job seen by the PWU and the link reset: a halt and a link reset that both wait for it take effect in
the same step (R32, R145, R154; log entry 19). -/
def State.atJobEnd (s : State) : State :=
  let s := if s.haltedDue then s.enterHalted else s
  if s.linkResetDue then s.linkResetActs else s

/-- HALTED_ENTRY (R145): the PWU leaves HALTING for HALTED, with the release counter from 0. -/
def execHaltedEntry (s : State) : Out State :=
  let s := s.settle
  done (if s.haltedDue then s.atJobEnd else s)

/-- LINK_RESET_ACTS (R32). -/
def execLinkResetActs (s : State) : Out State :=
  let s := s.settle
  done (if s.linkResetDue then s.atJobEnd else s)

/-! ## Return to NORMAL -/

/-- The return in one step (R147): NORMAL, the header read posted if the scan waits for it (R126), and a grant decision
over the requests waiting. -/
def State.returnToNormal (s : State) : State :=
  ({ s with pwu := { s.pwu with state := .normal, releaseCount := releasePeriods } }.postHeaderRead).grantDecision

/-- RETURN_TO_NORMAL (R146, R147): the release counter reaches 2048, which it can only while the PWU is HALTED and the
halt condition absent. -/
def execReturnToNormal (s : State) : Out State :=
  let s := s.settle
  done (if s.pwu.counts && !s.rsti then s.returnToNormal else s)

end Sys2Proof.Machine
end

