-- ==== Sys2Proof/Machine/Dispatch.lean ====
section
/-! DEFINITION. One arm per row of spec/opcode_table.json: each calls its row's meaning. -/

namespace Sys2Proof.Machine

def exec (i : Instr) (s : State) : Host.Outcome State Fault Refusal :=
  match i with
  | .acceptance write burst addr => Sys2Proof.Machine.execAcceptance write burst addr s
  | .jobGrant => Sys2Proof.Machine.execJobGrant s
  | .wordOperationComplete bus => Sys2Proof.Machine.execWordOperationComplete bus s
  | .haltedEntry => Sys2Proof.Machine.execHaltedEntry s
  | .deferredRequestTaken => Sys2Proof.Machine.execDeferredRequestTaken s
  | .hardwareReset cause begun bus => Sys2Proof.Machine.execHardwareReset cause begun bus s
  | .resetRelease pins => Sys2Proof.Machine.execResetRelease pins s
  | .pfailAsserted => Sys2Proof.Machine.execPfailAsserted s
  | .pfailDeasserted => Sys2Proof.Machine.execPfailDeasserted s
  | .monitorTrip supply => Sys2Proof.Machine.execMonitorTrip supply s
  | .monitorClear supply => Sys2Proof.Machine.execMonitorClear supply s
  | .returnToNormal => Sys2Proof.Machine.execReturnToNormal s
  | .linkResetActs => Sys2Proof.Machine.execLinkResetActs s
  | .sampleInstant ckpt abrt abrtFirst => Sys2Proof.Machine.execSampleInstant ckpt abrt abrtFirst s
  | .tick => Sys2Proof.Machine.execTick s
  | .rstoPulseEnd => Sys2Proof.Machine.execRstoPulseEnd s
  | .readFrame f => Sys2Proof.Machine.execReadFrame f s
  | .writeFrameAbandoned addr data => Sys2Proof.Machine.execWriteFrameAbandoned addr data s
  | .writeFrameNak addr data => Sys2Proof.Machine.execWriteFrameNak addr data s
  | .emptyWriteFrame addr => Sys2Proof.Machine.execEmptyWriteFrame addr s
  | .unknownCommandCode code f => Sys2Proof.Machine.execUnknownCommandCode code f s
  | .getStatus f => Sys2Proof.Machine.execGetStatus f s
  | .setWindow f => Sys2Proof.Machine.execSetWindow f s
  | .getWindow f => Sys2Proof.Machine.execGetWindow f s
  | .setPolicy f supply => Sys2Proof.Machine.execSetPolicy f supply s
  | .getPolicy f => Sys2Proof.Machine.execGetPolicy f s
  | .commit f => Sys2Proof.Machine.execCommit f s
  | .rollback f => Sys2Proof.Machine.execRollback f s
  | .discard f => Sys2Proof.Machine.execDiscard f s
  | .format f => Sys2Proof.Machine.execFormat f s
  | .readRecord f => Sys2Proof.Machine.execReadRecord f s
  | .getStats f => Sys2Proof.Machine.execGetStats f s
  | .clearStats f => Sys2Proof.Machine.execClearStats f s
  | .setAlertMask f => Sys2Proof.Machine.execSetAlertMask f s
  | .clearFlags f => Sys2Proof.Machine.execClearFlags f s
  | .reset f => Sys2Proof.Machine.execReset f s

end Sys2Proof.Machine
end

