-- ==== Sys2Proof/Machine/Pins.lean ====
section
/-! DEFINITION. The output pins, as views of the state (00_scope.md, Signal Summary): each shows what the owner holds,
so nothing is stored twice. -/

namespace Sys2Proof.Machine

/-- UWAIT is asserted from acceptance to the end of the transaction (R3). -/
def State.uwait (s : State) : Bool :=
  match s.upu.phase with
  | .idle => false
  | .waiting _ | .inJob _ => true

/-- URDY marks a beat (R4). -/
def State.urdy (s : State) : Bool := s.upu.beat.isSome

/-- The code of a response on URSP (R4). -/
def Response.code : Response → BitVec 2
  | .ok => 0
  | .retry => 1
  | .fault => 2

/-- URSP, meaningful only with a first beat (R4); 00 otherwise (R18). -/
def State.ursp (s : State) : BitVec 2 :=
  match s.upu.beat with
  | some b => (b.response.map Response.code).getD 0
  | none => 0

/-- The word of a read beat on UD (R14); none when UD carries nothing the microcontroller may use (R4). -/
def State.ud (s : State) : Option Word :=
  match s.upu.beat with
  | some b => b.data
  | none => none

/-- The memory port during a word operation (R19): true is asserted. -/
structure PortPins where
  dcs : Bool
  jcs : Bool
  mwe : Bool
  moe : Bool
  ma  : BitVec 22
  mbe : Lanes
  md  : Option Word
  deriving DecidableEq, Repr

/-- The idle port (R22): nothing asserted, MD not driven; MA and MBE mean nothing and are shown as 0. -/
def PortPins.idle : PortPins :=
  { dcs := false, jcs := false, mwe := false, moe := false, ma := 0, mbe := 0, md := none }

/-- The port under a read: MOE# and all lanes (R19). -/
def PortPins.read (journal : Bool) (ma : BitVec 22) : PortPins :=
  { dcs := !journal, jcs := journal, mwe := false, moe := true, ma := ma, mbe := 0xF, md := none }

/-- The port under a write: MWE#, the word's lanes, the word on MD (R19). -/
def PortPins.write (w : MemWrite) : PortPins :=
  { dcs := !w.toJournal, jcs := w.toJournal, mwe := true, moe := false, ma := BitVec.ofNat 22 w.addr,
    mbe := w.lanes, md := some w.word }

/-- The port during one word operation of a job (R19). -/
def WordOp.pins (op : WordOp) (j : Job) (bus : UpstreamBus) : PortPins :=
  match op with
  | .readOld a | .readBeat a _ => .read false a
  | .readJournal a => .read true (a.setWidth 22)
  | .writeBeat .. | .writeJournal .. | .writeOld .. | .writeCheck _ | .writeTag .. | .restoreWord .. =>
    match op.write? j bus with
    | some w => .write w
    | none => .idle

/-- The memory port: the word operation in progress of the job in progress, or idle (R19, R22). -/
def State.portPins (s : State) (bus : UpstreamBus) : PortPins :=
  match s.mpa.job with
  | some j =>
    match j.todo with
    | op :: _ => op.pins j bus
    | [] => .idle
  | none => .idle

/-- The word operation time in CLK periods for the MSPD code sampled (R20). -/
def wordOpClocks (mspd : BitVec 2) : Nat := if mspd = 0 then 2 else if mspd = 1 then 3 else if mspd = 2 then 4 else 6

/-- The hold-up time the board must give, in CLK periods (R151). -/
def holdUpClocks (mspd : BitVec 2) : Nat := 17 * wordOpClocks mspd + 4

/-- CKACK and ABACK (R159). -/
def State.ckack (s : State) : Bool := s.rlu.ckpt.ack
def State.aback (s : State) : Bool := s.rlu.abrt.ack

/-- RSTO# is asserted while a pulse runs (R168). -/
def State.rsto (s : State) : Bool := s.tau.pulse.isSome

/-- ALRT# (R183). -/
def State.alrt (s : State) : Bool := s.sau.alert

end Sys2Proof.Machine
end

