-- ==== Sys2Proof/WellFormed.lean ====
section
/-! DEFINITION. Which commands are commands of their row: the operands a row's own name already rules out. -/

namespace Sys2Proof

/-- UNKNOWN_COMMAND_CODE carries a code that names no command (R175); WRITE_FRAME_NAK carries a data byte to refuse
(R173: 'refused at its first data byte'). Every other operand of every row may take any value. -/
def Instr.wellFormed : Instr → Bool
  | .unknownCommandCode code _ => !knownCode code
  | .writeFrameNak _ data => !data.isEmpty
  | .acceptance .. | .jobGrant | .wordOperationComplete _ | .haltedEntry | .deferredRequestTaken
  | .hardwareReset .. | .resetRelease _ | .pfailAsserted | .pfailDeasserted | .monitorTrip _ | .monitorClear _
  | .returnToNormal | .linkResetActs | .sampleInstant .. | .tick | .rstoPulseEnd | .readFrame _
  | .writeFrameAbandoned .. | .emptyWriteFrame _ | .getStatus _ | .setWindow _ | .getWindow _ | .setPolicy ..
  | .getPolicy _ | .commit _ | .rollback _ | .discard _ | .format _ | .readRecord _ | .getStats _ | .clearStats _
  | .setAlertMask _ | .clearFlags _ | .reset _ => true

end Sys2Proof
end

