-- ==== Sys2Proof/Safety.lean ====
section
/-! DEFINITION. What claims are stated in: when a link frame finds the mailbox ready, the state a whole response leaves,
and the invariants that every step keeps. -/

namespace Sys2Proof.Machine

/-! ## The link -/

/-- A write frame to this address is collected: RSTI# released, the target's own address, the mailbox IDLE (R171,
R172). -/
def LinkReady (s : State) (addr : BitVec 7) : Prop :=
  s.rsti = false ∧ addr = s.slk.address ∧ s.slk.mailbox = .idle

/-- The state after a frame of n acknowledged data bytes that is answered at once: nothing else has changed, but that
URDY is deasserted. -/
def State.replied (s : State) (n : Nat) (status : Byte) (payload : List Byte) : State :=
  { s with
    upu := { s.upu with beat := none }
    slk := { mailbox := .responseReady, command := [], response := status :: payload, la := s.slk.la,
             acks := List.replicate (n + 1) true, sent := s.slk.sent } }

/-- The state after a frame of these data bytes (at most 16) whose command waits in EXECUTING. -/
def State.executing (s : State) (bytes : List Byte) (c : WaitingCommand) : State :=
  { s with
    upu := { s.upu with beat := none }
    slk := { s.slk with mailbox := .executing c, command := bytes,
                        acks := List.replicate (bytes.length + 1) true } }

/-- The state in which a collected frame of these data bytes (at most 16) is carried out: the mailbox in RECEIVING, the
bytes in the command buffer, all acknowledged. -/
def State.received (s : State) (bytes : List Byte) : State :=
  { s with
    upu := { s.upu with beat := none }
    slk := { s.slk with mailbox := .receiving, command := bytes, acks := List.replicate (bytes.length + 1) true } }

/-- What no taking of a request, no grant, no end of a job and no halt touches: the windows, both memories, RSTI#, the
count of free values, the queue and USTB. -/
def State.outer (s : State) : Vector Window 8 × Memory × Memory × Bool × Nat × List Instr × Option Strobe :=
  (s.windows, s.dataMem, s.journalMem, s.rsti, s.freeCount, s.pending, s.ustb)

/-! ## Grants -/

/-- A grant decision can be made for a requester: the port is free, the PWU NORMAL, no link reset awaits action, RSTI#
is released, no deferred request stands before it, and the rotation comes to it first (R28). -/
def Grants (s : State) (r : Requester) : Prop := s.mayGrant = true ∧ s.mpa.chosen = some r

/-- The checks of R6 pass: none of its conditions holds. -/
def PassesAcceptance (s : State) : Prop :=
  s.pwu.state = .normal ∧ s.mpa.linkReset = false ∧ s.ec.state ≠ .scanning ∧ s.ec.state ≠ .recoveryHold ∧
    ¬(s.ec.state = .rollingBack ∧ s.ec.origin = some .recovery)

/-- A line lies inside a window: the mode is not OFF and the line's first word address lies between the base and the
last covered word (R35, R36). -/
def Covers (w : Window) (l : Line) : Prop :=
  w.mode ≠ .off ∧ w.base.toNat ≤ 4 * l.toNat ∧ 4 * l.toNat ≤ w.base.toNat + 64 * 2 ^ w.sizeCode.val - 1

/-- A request that reaches the EC is taken at once (R72). -/
def TakenAtOnce (s : State) : Prop := s.defers = false

/-! ## Jobs -/

/-- Whether an operation is the tag write of an append. -/
def WordOp.isTag : WordOp → Bool
  | .writeTag .. => true
  | .readOld _ | .readBeat .. | .writeBeat .. | .readJournal _ | .writeJournal .. | .writeOld .. | .writeCheck _
  | .restoreWord .. => false

/-- How many tag writes a job still has to make. -/
def Job.tagsToWrite (j : Job) : Nat := (j.todo.filter WordOp.isTag).length

/-- Whether a job is a UP job (R24). -/
def JobKind.isUp : JobKind → Bool
  | .upRead | .upWrite _ | .append _ => true
  | .headerRead | .scanStep | .commit .. | .restore | .close _ | .format _ | .discard .. | .readRecord => false

/-- Whether the EC is in ACTIVE or COMMITTING, where a live epoch takes records. -/
def EcState.isLive : EcState → Bool
  | .active | .committing => true
  | .unformatted | .scanning | .recoveryHold | .rollingBack | .formatting | .broken => false

/-- The EC state a job in progress goes with (R24, R72): the EC holds its state through a JOURNAL-write job, a scan job
runs in SCANNING, a restore or close in ROLLING_BACK. -/
def JobKind.fits (k : JobKind) (st : EcState) : Bool :=
  match k with
  | .append _ => st.isLive
  | .upWrite journaled => !journaled || st.isLive
  | .headerRead | .scanStep => st == .scanning
  | .restore | .close _ => st == .rollingBack
  | .upRead | .commit .. | .format _ | .discard .. | .readRecord => true

/-- The word operation in progress is `op`, with `rest` still to be made after it, in the job j. -/
def InProgress (s : State) (j : Job) (op : WordOp) (rest : List WordOp) : Prop := s.mpa.job = some j ∧ j.todo = op :: rest

/-- The state after as many word operations as there are bus values, each completed (R21). -/
def State.afterOps (s : State) : List UpstreamBus → State
  | [] => s
  | b :: rest =>
    match exec (.wordOperationComplete b) s with
    | .next t => t.afterOps rest
    | .fault _ | .refused _ => s

/-- A line after a sample instant that reads `now`, as R156 and R159 say it. -/
def sampled (l : RequestLine) (now : Bool) : RequestLine :=
  if now = l.last ∧ now ≠ l.filtered then
    { pin := now, last := now, filtered := now, ack := if now then l.ack else false }
  else { pin := now, last := now, filtered := l.filtered, ack := l.ack }

/-- A rise is recognized at a sample instant that reads `now` (R156). -/
def Rises (l : RequestLine) (now : Bool) : Prop := now = true ∧ l.last = true ∧ l.filtered = false

/-! ## Invariants -/

/-- Both memories are in their canonical form. -/
def MemoryInv (s : State) : Prop := Memory.wf s.dataMem = true ∧ Memory.wf s.journalMem = true

/-- Every window's base is a multiple of its size in words (R35). -/
def WindowInv (s : State) : Prop := ∀ i : Fin 8, s.windows[i].base.toNat % (64 * 2 ^ s.windows[i].sizeCode.val) = 0

/-- An acknowledge is high only while its filtered line is high (R159). -/
def AckInv (s : State) : Prop :=
  (s.rlu.ckpt.ack = true → s.rlu.ckpt.filtered = true) ∧ (s.rlu.abrt.ack = true → s.rlu.abrt.filtered = true)

/-- The release counter does not pass 2048 (R146), and while RSTI# is released a PWU in NORMAL has no halt condition
(R144, R147, R153). -/
def PwuInv (s : State) : Prop :=
  s.pwu.releaseCount ≤ releasePeriods ∧ (s.rsti = false → s.pwu.state = .normal → s.pwu.haltCondition = false)

/-- While RSTI# is asserted the UPU is in IDLE and holds nothing, and the MPA and the EC hold their reset values (R18,
R34, R67, R126). -/
def HeldInv (s : State) : Prop :=
  s.rsti = true → s.upu.phase = .idle ∧ s.mpa = .reset s.mpa.mspd ∧ s.ec = .reset s.ec.rcva

/-- The UP place is waiting exactly while the UPU is in WAITING, and the UPU is in IN_JOB exactly while a UP job holds
the port (R3, R8, R27). -/
def UpuInv (s : State) : Prop :=
  (s.mpa.up = true ↔ ∃ t, s.upu.phase = .waiting t) ∧
  ((∃ t, s.upu.phase = .inJob t) ↔ ∃ j, s.mpa.job = some j ∧ j.kind.isUp = true)

/-- What a job in progress has fixed agrees with the EC's copy: an append has a slot for each tag it still writes, and
commit, discard and close carry head, usage and the next epoch number (R55, R97, R117, R135). -/
def JobValues (e : Ec) (j : Job) : Prop :=
  match j.kind with
  | .append _ => e.usage + j.tagsToWrite < e.size
  | .commit base epoch n | .discard base epoch n => base = e.head ∧ epoch = e.epoch + 1 ∧ n = e.usage
  | .close epoch => epoch = e.epoch + 1
  | .upRead | .upWrite _ | .headerRead | .scanStep | .restore | .format _ | .readRecord => True

/-- Base, usage and end slot are slots of the ring (R54, R55, R56), and a job in progress agrees with them. -/
def RingInv (s : State) : Prop :=
  s.ec.base < s.ec.size ∧ s.ec.usage < s.ec.size ∧ s.ec.endSlot < s.ec.size ∧ ∀ j, s.mpa.job = some j → JobValues s.ec j

/-- The EC state goes with the job in progress. -/
def JobInv (s : State) : Prop := ∀ j, s.mpa.job = some j → j.kind.fits s.ec.state = true

/-- The age counter runs in ACTIVE and COMMITTING while usage is at least 1, and is stopped in every other case
(R165). -/
def AgeInv (s : State) : Prop :=
  JobInv s ∧ (s.tau.running = true ↔ s.ec.state.isLive = true ∧ 1 ≤ s.ec.usage)

/-- The entries of one set in the order of their ways. -/
def Jlt.ways (j : Jlt) (i : Fin 16) : List (Option Line) := j[i].toList

/-- A line is held only in its own set, the valid entries of a set are its lowest ways, and no line is held twice
(R68, R70). -/
def Jlt.Ordered (j : Jlt) : Prop :=
  ∀ i : Fin 16, ∃ ls : List Line, j.ways i = ls.map some ++ List.replicate (4 - ls.length) none ∧ ls.Nodup ∧
    ls.length ≤ 4 ∧ ∀ l ∈ ls, jltSetOf l = i

/-- The number of valid entries of the JLT (R70). -/
def Jlt.count (j : Jlt) : Nat := (j.toList.map (fun t => t.toList.countP Option.isSome)).sum

/-- The JLT is ordered; an append still to write its tag is for a line the JLT does not hold; the valid entries are at
most usage in ACTIVE and COMMITTING, and there are none in every other state (R70, R79, R87). -/
def JltInv (s : State) : Prop :=
  JobInv s ∧ s.wju.jlt.Ordered ∧
    (if s.ec.state.isLive then s.wju.jlt.count ≤ s.ec.usage else s.wju.jlt.count = 0) ∧
    ∀ j r, s.mpa.job = some j → j.kind = .append r →
      j.tagsToWrite ≤ 1 ∧ (j.tagsToWrite = 1 → s.wju.jlt.hit r.line = false)

/-- In SCANNING, ACTIVE and COMMITTING the end slot is head (R56, R67). -/
def EndSlotInv (s : State) : Prop :=
  RingInv s ∧ JobInv s ∧ (s.ec.state.isLive = true ∨ s.ec.state = .scanning → s.ec.endSlot = s.ec.head)

/-! ### The sets of sources -/

/-- A set that holds LINE at most, as a slot does in SCANNING (R94, R112). -/
def Sources.onlyLine (x : Sources) : Bool := !x.link && !x.age && !x.full && !x.recovery

/-- The sources that post commit and rollback requests (R90, R108). -/
def EcRequest.posted : EcRequest → Bool
  | .commit x => x != .recovery
  | .rollback x => x != .recovery && x != .full
  | .format _ | .discard => true

/-- Unless a link reset awaits action: the in-progress set is non-empty exactly in COMMITTING and ROLLING_BACK; a slot
holds a set only in the states that hold requests; before the scan's outcome, and behind a recovery, only LINE is held;
RECOVERY is in progress exactly in a rollback of that origin; an origin stands only where R176 says; RECOVERY waits in no
slot, FULL not in the rollback slot (R89, R94, R95, R103, R107, R112). -/
def EcSetsInv (s : State) : Prop :=
  JobInv s ∧ (∀ r ∈ s.ec.deferred, r.posted = true) ∧ s.ec.commitSlot.recovery = false ∧
  s.ec.rollbackSlot.recovery = false ∧ s.ec.rollbackSlot.full = false ∧ (s.mpa.linkReset = false →
    (s.ec.inProgress.isEmpty = false ↔ s.ec.state = .committing ∨ s.ec.state = .rollingBack) ∧
    (s.ec.commitSlot.isEmpty = false →
      s.ec.state = .scanning ∨ s.ec.state = .rollingBack ∨ s.ec.state = .formatting) ∧
    (s.ec.rollbackSlot.isEmpty = false →
      s.ec.state = .scanning ∨ s.ec.state = .committing ∨ s.ec.state = .formatting) ∧
    (s.ec.state = .scanning → s.ec.commitSlot.onlyLine = true ∧ s.ec.rollbackSlot.onlyLine = true) ∧
    (s.ec.origin = some .recovery → s.ec.commitSlot.onlyLine = true ∨ s.ec.state = .formatting) ∧
    (s.ec.inProgress.recovery = true ↔ s.ec.state = .rollingBack ∧ s.ec.origin = some .recovery) ∧
    (s.ec.state = .rollingBack → s.ec.origin ≠ none) ∧
    (s.ec.origin ≠ none → s.ec.state = .rollingBack ∨ s.ec.state = .broken ∨ s.ec.state = .formatting))

/-! ### The commit word -/

/-- Whether the EC holds a journal's base and epoch number by its state alone (R50): every state but UNFORMATTED,
SCANNING before its header read, and FORMATTING, which holds them if the state it was entered from does. -/
def Ec.holdsJournal (e : Ec) : Bool :=
  match e.state with
  | .active | .committing | .rollingBack | .recoveryHold | .broken => true
  | .scanning => e.headerRead
  | .unformatted | .formatting => false

/-- The journal word a word operation writes, if it writes one. -/
def WordOp.journalTarget? : WordOp → Option JournalAddr
  | .writeJournal a _ | .writeOld a _ | .writeCheck a | .writeTag a _ => some a
  | .readOld _ | .readBeat .. | .writeBeat .. | .readJournal _ | .restoreWord .. => none

/-- The word operations that read the header (R127). -/
def headerOps : List WordOp := [.readJournal layoutAddr, .readJournal commitAddr, .readJournal complementAddr]

/-- What is left of a job, as far as the commit word is concerned (R48, R50): commit, discard and close end with its one
write; a format has written it as 0 once its third write is made; a header read has read the header's words as they
stand; no other job writes it. -/
def CommitPlan (s : State) (j : Job) : Prop :=
  match j.kind with
  | .commit base epoch _ | .discard base epoch _ => j.todo = [.writeJournal commitAddr (commitWord base epoch)]
  | .close epoch =>
    j.todo = [.writeJournal (slotAddr s.ec.base 0) 0, .writeJournal commitAddr (commitWord s.ec.base epoch)] ∨
    j.todo = [.writeJournal commitAddr (commitWord s.ec.base epoch)]
  | .format c =>
    s.ec.state = .formatting ∧ ∃ k < 5, j.todo = (formatOps c).drop k ∧ (3 ≤ k → s.journalMem.readWord 1 = 0)
  | .headerRead =>
    ∃ k < 3, j.todo = headerOps.drop k ∧
      j.reads = [s.journalMem.readWord 0, s.journalMem.readWord 1, s.journalMem.readWord 2].take k
  | .scanStep => s.ec.headerRead = true ∧ ∀ op ∈ j.todo, op.journalTarget? ≠ some commitAddr
  | .upRead | .upWrite _ | .append _ | .restore | .readRecord => ∀ op ∈ j.todo, op.journalTarget? ≠ some commitAddr

/-- The EC's base and epoch number are those in the commit word (R50). -/
def CommitAgrees (s : State) : Prop :=
  commitBase (s.journalMem.readWord 1) = s.ec.base ∧ commitEpoch (s.journalMem.readWord 1) = s.ec.epoch

/-- The EC's base and epoch number are those in the commit word whenever the EC holds a journal (R50, R61). -/
def CommitWordInv (s : State) : Prop :=
  MemoryInv s ∧ RingInv s ∧ JobInv s ∧ (s.ec.holdsJournal = true → CommitAgrees s) ∧
    ∀ j, s.mpa.job = some j → CommitPlan s j

/-- No format job has made its third write, the one that sets the commit word to 0 (R138). -/
def BeforeThirdWrite (s : State) : Prop := ∀ j c, s.mpa.job = some j → j.kind = .format c → 3 ≤ j.todo.length

/-! ### The journal -/

/-- The eight words of a slot as journal memory holds them (R47). -/
def slotWords (m : Memory) (slot : Nat) : List Word := (List.range 8).map (fun w => m.readWord (8 + 8 * slot + w))

/-- The first n slots from base hold records good for the live epoch and their index (R59). -/
def SpanGood (s : State) (n : Nat) : Prop :=
  ∀ i < n, classifySlot s.ec.epoch i (slotWords s.journalMem (s.ec.slotOf i)) = .good

/-- The tag word of a slot is 0. -/
def TagClear (s : State) (slot : Nat) : Prop := s.journalMem.readWord (8 + 8 * slot) = 0

/-- The EC states in which the live span and its terminator stand in the journal: ACTIVE, COMMITTING, ROLLING_BACK and
RECOVERY_HOLD (R54, R56). -/
def EcState.hasSpan : EcState → Bool
  | .active | .committing | .rollingBack | .recoveryHold => true
  | .unformatted | .scanning | .formatting | .broken => false

/-- Record word k of an append, 1 to 7, from the words it has read (R57, R73). -/
def appendWord (r : RecordHead) (old : List Word) (k : Nat) : Word :=
  if k = 1 then lineWord r.line else if k < 6 then slotWord old (k - 2) else if k = 6 then r.stamp else appendCheck r old

/-- An append before its tag write, k of its word operations made: what it fixed at the grant still is head, epoch number
and usage, the slot after head has been cleared, and the record words made so far stand in the journal (R73, R74). -/
def AppendUnderWay (s : State) (j : Job) (r : RecordHead) : Prop :=
  ∃ k ≤ 12, ∃ beats : List WordOp, (∀ op ∈ beats, op.journalTarget? = none ∧ op.isTag = false) ∧
    j.todo = (appendOps r (s.ec.slotOf (s.ec.usage + 1))).drop k ++ beats ∧ j.reads.length = min k 4 ∧
    s.ec.usage + 1 < s.ec.size ∧ r.slot = s.ec.head ∧ r.tag = tagWord s.ec.epoch s.ec.usage ∧
    (5 ≤ k → TagClear s (s.ec.slotOf (s.ec.usage + 1))) ∧
    ∀ m, 1 ≤ m → m ≤ 7 → 5 + m ≤ k → s.journalMem.readWord (8 + 8 * r.slot + m) = appendWord r j.reads m

/-- What is left of a job, as far as the slots are concerned (R24, R25, R63 to R65, R138). -/
def JournalPlan (s : State) (j : Job) : Prop :=
  match j.kind with
  | .append r => AppendUnderWay s j r ∨ ∀ op ∈ j.todo, op.journalTarget? = none ∧ op.isTag = false
  | .commit base epoch _ | .discard base epoch _ =>
    j.todo = [.writeJournal commitAddr (commitWord base epoch)] ∧ TagClear s base
  | .close epoch =>
    s.ec.usage = 0 ∧
      (j.todo = [.writeJournal (slotAddr s.ec.base 0) 0, .writeJournal commitAddr (commitWord s.ec.base epoch)] ∨
        (j.todo = [.writeJournal commitAddr (commitWord s.ec.base epoch)] ∧ TagClear s s.ec.base))
  | .format c => s.ec.state = .formatting ∧ ∃ k < 5, j.todo = (formatOps c).drop k ∧ (2 ≤ k → TagClear s 0)
  | .scanStep =>
    ∃ k < 8, j.todo = (slotReads (s.ec.slotOf s.ec.scanCount)).drop k ∧
      j.reads = (slotWords s.journalMem (s.ec.slotOf s.ec.scanCount)).take k
  | .upRead | .upWrite _ | .restore | .readRecord | .headerRead => ∀ op ∈ j.todo, op.journalTarget? = none

/-- The journal is what the EC takes it for: in the states that have a span, and in SCANNING, each of the `usage` slots
from base holds a record good for its index; in the states that have a span the end slot holds a tag word of 0
(R54, R56, R60, R63). -/
def JournalInv (s : State) : Prop :=
  MemoryInv s ∧ RingInv s ∧ JobInv s ∧
    (s.ec.state.isLive = true ∨ s.ec.state = .scanning ∨ s.ec.state = .recoveryHold → s.ec.endSlot = s.ec.head) ∧
    (s.ec.state = .scanning → s.ec.usage = s.ec.scanCount) ∧
    (s.ec.state.hasSpan = true ∨ s.ec.state = .scanning → SpanGood s s.ec.usage) ∧
    (s.ec.state.hasSpan = true → TagClear s s.ec.endSlot) ∧
    ∀ j, s.mpa.job = some j → JournalPlan s j

/-- Every line held in the JLT has a record of the live epoch in the span: a slot good for its index whose line word
names the line (R70). -/
def JltRecordsInv (s : State) : Prop :=
  ∀ (i : Fin 16) (way : Fin 4) (l : Line), s.wju.jlt[i][way] = some l → ∃ n < s.ec.usage,
    classifySlot s.ec.epoch n (slotWords s.journalMem (s.ec.slotOf n)) = .good ∧
    wordLine (slotWord (slotWords s.journalMem (s.ec.slotOf n)) 1) = l

/-- The outcome is a next state. -/
def Completes (o : Out State) : Prop := ∃ t, o = .next t

end Sys2Proof.Machine
end

