-- ==== Sys2Proof/Certificates/Slice0/Obligations.lean ====
section
/-! DEFINITION. The statements for the provers: one `def Obligations.<Name> : Prop` each, listed in OBLIGATIONS.json. -/

open Sys2Proof Sys2Proof.Machine

/-! ## The queue -/

/-- A step runs the command at the front of the queue with the queue's rest. -/
def Obligations.StepRunsTheFrontCommand : Prop :=
  ∀ (c : Instr) (rest : List Instr) (s : State), step { s with pending := c :: rest } = exec c { s with pending := rest }

/-- On an empty queue one REFCLK period passes (the model's choice, log entries 2 and 3): with RSTI# asserted nothing
counts; otherwise the sample counter, the divider count, a running pulse's count and, in HALTED with no halt condition,
the release counter increase by 1, and the events whose count is complete make the queue, each once, in the order sample
instant, tick, end of pulse, return to NORMAL. -/
def Obligations.EmptyQueueIsOnePeriod : Prop :=
  ∀ s : State, s.pending = [] →
    (s.rsti = true → step s = .next s.settle) ∧
    (s.rsti = false → step s = .next { s.settle with
        rlu := { s.rlu with sampleCount := s.rlu.sampleCount + 1 }
        tau := { s.tau with divCount := s.tau.divCount + 1
                            pulse := s.tau.pulse.map (fun p => { p with count := p.count + 1 }) }
        pwu := if s.pwu.state = .halted ∧ s.pwu.pfail = false ∧ s.pwu.tripped = false then
            { s.pwu with releaseCount := min (s.pwu.releaseCount + 1) 2048 } else s.pwu
        pending :=
          (if s.rlu.period.periods ≤ s.rlu.sampleCount + 1 then
            [.sampleInstant s.rlu.ckpt.pin s.rlu.abrt.pin false] else [])
          ++ (if s.tau.divider.periods ≤ s.tau.divCount + 1 then [.tick] else [])
          ++ (match s.tau.pulse with
              | some p => if p.length ≤ p.count + 1 then [.rstoPulseEnd] else []
              | none => [])
          ++ (if s.pwu.state = .halted ∧ s.pwu.pfail = false ∧ s.pwu.tripped = false ∧ 2048 ≤ s.pwu.releaseCount + 1 then
            [.returnToNormal] else []) })

/-- Every well-formed command answers a next state, one whose event cannot arise in the state it meets as well; an
unknown-code row whose code names a command is refused. The model's own in it: that a command without its event changes
nothing (log entries 1 and 24), and the refusal (log entry 33). -/
def Obligations.WellFormedCommandsComplete : Prop :=
  (∀ (c : Instr) (s : State), c.wellFormed = true → Completes (exec c s)) ∧
  ∀ (code : Byte) (f : LinkFrame) (s : State), code ∈ commandCodes →
    exec (.unknownCommandCode code f) s = .refused (.illFormed "UNKNOWN_COMMAND_CODE")

/-! ## Acceptance -/

/-- An assertion of USTB outside IDLE or under RSTI# is ignored; in IDLE it is answered RETRY when a check of R6 fails;
otherwise, unless it is a write of class GUARD, the UPU holds it in WAITING with its class and posts the UP request.
The level of USTB and its fields stay as presented. The model's own in it: log entries 1, 10, 11, 12 and 31. -/
def Obligations.AcceptanceOutcome : Prop :=
  ∀ (write burst : Bool) (addr : DataAddr) (s : State),
    (s.upu.phase ≠ .idle ∨ s.rsti = true →
      exec (.acceptance write burst addr) s = .next { s.settle with ustb := some ⟨write, burst, addr⟩ }) ∧
    (s.upu.phase = .idle → s.rsti = false → ¬PassesAcceptance s → exec (.acceptance write burst addr) s =
      .next { s with
        upu := { phase := .idle, beat := some { response := some .retry, data := none } }
        ustb := some ⟨write, burst, addr⟩ }) ∧
    (s.upu.phase = .idle → s.rsti = false → PassesAcceptance s →
      ¬(write = true ∧ ∃ i, classify s.windows (lineOf addr) = .guarded i) →
      exec (.acceptance write burst addr) s = .next { s with
        upu := { phase := .waiting { write := write, burst := burst, addr := addr,
                                     cls := classify s.windows (lineOf addr) }, beat := none }
        mpa := { s.mpa with up := true }
        ustb := some ⟨write, burst, addr⟩ })

/-- A GUARD write that passes R6 is answered FAULT at acceptance and sets the GUARD flag; a GUARD read goes on to R8.
The model's own in it: log entries 10, 11 and 12. -/
def Obligations.GuardWriteFaults : Prop :=
  ∀ (burst : Bool) (addr : DataAddr) (i : Fin 8) (s : State),
    s.upu.phase = .idle → s.rsti = false → PassesAcceptance s → classify s.windows (lineOf addr) = .guarded i →
    exec (.acceptance true burst addr) s = .next { s with
      upu := { phase := .idle, beat := some { response := some .fault, data := none } }
      sau := { s.sau with flags := s.sau.flags ||| 0b0000000001#10 }
      ustb := some ⟨true, burst, addr⟩ } ∧
    exec (.acceptance false burst addr) s = .next { s with
      upu := { phase := .waiting { write := false, burst := burst, addr := addr, cls := .guarded i }, beat := none }
      mpa := { s.mpa with up := true }
      ustb := some ⟨false, burst, addr⟩ }

/-- The lowest-numbered window that contains a line decides its class; a window contains it when the line's first word
address lies between the base and the last covered word, that is when both divide alike by the window's size. -/
def Obligations.LowestWindowDecides : Prop :=
  ∀ (s : State) (l : Line), WindowInv s →
    (∀ i : Fin 8, Covers s.windows[i] l ↔ s.windows[i].mode ≠ .off ∧
      4 * l.toNat / (64 * 2 ^ s.windows[i].sizeCode.val) =
        s.windows[i].base.toNat / (64 * 2 ^ s.windows[i].sizeCode.val)) ∧
    ((∀ i : Fin 8, ¬Covers s.windows[i] l) → classify s.windows l = .unmapped) ∧
    (∀ i : Fin 8, Covers s.windows[i] l → (∀ j : Fin 8, j < i → ¬Covers s.windows[j] l) →
      (s.windows[i].mode = .journal → classify s.windows l = .journal i) ∧
      (s.windows[i].mode = .guarded → classify s.windows l = .guarded i) ∧
      (s.windows[i].mode = .opened → classify s.windows l = .opened i))

/-- A burst's beats step through its own line from the start offset, wrapping from 3 to 0; a single word is one beat at
its address; the first beat carries the response. -/
def Obligations.BeatOrder : Prop :=
  ∀ t : Transaction,
    (t.burst = true → ∃ a b c d : DataAddr,
      t.readOps = [.readBeat a true, .readBeat b false, .readBeat c false, .readBeat d false] ∧
      t.writeOps = [.writeBeat a true, .writeBeat b false, .writeBeat c false, .writeBeat d false] ∧
      a.toNat = 4 * (t.addr.toNat / 4) + t.addr.toNat % 4 ∧
      b.toNat = 4 * (t.addr.toNat / 4) + (t.addr.toNat % 4 + 1) % 4 ∧
      c.toNat = 4 * (t.addr.toNat / 4) + (t.addr.toNat % 4 + 2) % 4 ∧
      d.toNat = 4 * (t.addr.toNat / 4) + (t.addr.toNat % 4 + 3) % 4) ∧
    (t.burst = false → t.readOps = [.readBeat t.addr true] ∧ t.writeOps = [.writeBeat t.addr true])

/-! ## Grants -/

/-- The grant decision: its conditions, the order after each last-granted requester, nothing when no place waits, and
the requester granted becomes the last granted. The model's own in it: log entries 1 and 17. -/
def Obligations.RotationDecides : Prop :=
  (∀ s : State, s.mayGrant = true ↔ s.mpa.job = none ∧ s.pwu.state = .normal ∧ s.mpa.linkReset = false ∧
    s.rsti = false ∧ s.ec.deferred = []) ∧
  (∀ m : Mpa, m.chosen = match m.last with
    | .up => if m.ec then some .ec else if m.lk then some .lk else if m.up then some .up else none
    | .ec => if m.lk then some .lk else if m.up then some .up else if m.ec then some .ec else none
    | .lk => if m.up then some .up else if m.ec then some .ec else if m.lk then some .lk else none) ∧
  (∀ s : State, s.mayGrant = false ∨ s.mpa.chosen = none → exec .jobGrant s = .next s.settle) ∧
  (∀ (s : State) (r : Requester), Grants s r → ∃ t, exec .jobGrant s = .next t ∧ t.mpa.last = r ∧
    (r = .ec → t.mpa.ec = false) ∧ (r = .lk → t.mpa.lk = false))

/-- A granted UP job that performs its transaction without an append: a read of any class (a JOURNAL read outside
ROLLING_BACK), an OPEN or UNMAPPED write, a JOURNAL write that hits in the JLT in ACTIVE or COMMITTING.
The model's own in it: log entry 10. -/
def Obligations.UpJobPerforms : Prop :=
  ∀ (s : State) (t : Transaction), Grants s .up → s.upu.phase = .waiting t → PassesAcceptance s →
    (t.write = false → ((∃ i, t.cls = .journal i) → s.ec.state ≠ .rollingBack) →
      exec .jobGrant s = .next { s with
        upu := { phase := .inJob t, beat := none }
        mpa := { s.mpa with up := false, last := .up, job := some { kind := .upRead, todo := t.readOps, reads := [] } } }) ∧
    (t.write = true → (t.cls = .unmapped ∨ ∃ i, t.cls = .opened i) →
      exec .jobGrant s = .next { s with
        upu := { phase := .inJob t, beat := none }
        mpa := { s.mpa with up := false, last := .up,
                            job := some { kind := .upWrite false, todo := t.writeOps, reads := [] } } }) ∧
    (t.write = true → (∃ i, t.cls = .journal i) → (s.ec.state = .active ∨ s.ec.state = .committing) →
      s.wju.jlt.hit (lineOf t.addr) = true →
      exec .jobGrant s = .next { s with
        upu := { phase := .inJob t, beat := none }
        mpa := { s.mpa with up := false, last := .up,
                            job := some { kind := .upWrite true, todo := t.writeOps, reads := [] } } })

/-- A JOURNAL write that misses with usage below S − 1 is granted an append: what it fixes at the grant, and its word
operations in order. The model's own in it: log entry 10. -/
def Obligations.AppendGranted : Prop :=
  ∀ (s : State) (t : Transaction) (i : Fin 8), Grants s .up → s.upu.phase = .waiting t → t.write = true →
    t.cls = .journal i → (s.ec.state = .active ∨ s.ec.state = .committing) → s.wju.jlt.hit (lineOf t.addr) = false →
    s.ec.usage + 1 < s.ec.size →
    let l := lineOf t.addr
    let head := (s.ec.base + s.ec.usage) % s.ec.size
    let after := (s.ec.base + (s.ec.usage + 1)) % s.ec.size
    let stamp := stampWord (if s.ec.usage = 0 then 0 else s.tau.age) i
    let tag := tagWord s.ec.epoch s.ec.usage
    exec .jobGrant s = .next { s with
      upu := { phase := .inJob t, beat := none }
      mpa := { s.mpa with up := false, last := .up, job := some {
        kind := .append { slot := head, tag := tag, line := l, stamp := stamp }
        todo := [.readOld (wordOfLine l 0), .readOld (wordOfLine l 1), .readOld (wordOfLine l 2),
            .readOld (wordOfLine l 3), .writeJournal (slotAddr after 0) 0, .writeJournal (slotAddr head 1) (lineWord l),
            .writeOld (slotAddr head 2) 0, .writeOld (slotAddr head 3) 1, .writeOld (slotAddr head 4) 2,
            .writeOld (slotAddr head 5) 3, .writeJournal (slotAddr head 6) stamp, .writeCheck (slotAddr head 7),
            .writeTag (slotAddr head 0) tag] ++ t.writeOps
        reads := [] } } }

/-- A JOURNAL write that misses with usage S − 1: an empty job that sets JFULL; FAULT under REFUSE; under AUTOCOMMIT a
FULL commit taken (ACTIVE) or joined (COMMITTING), and the re-request.
The model's own in it: log entries 10, 11 and 26. -/
def Obligations.FullCase : Prop :=
  ∀ (s : State) (t : Transaction) (i : Fin 8), Grants s .up → s.upu.phase = .waiting t → t.write = true →
    t.cls = .journal i → s.wju.jlt.hit (lineOf t.addr) = false → s.ec.usage + 1 = s.ec.size →
    (s.wju.policy = .refuse → (s.ec.state = .active ∨ s.ec.state = .committing) → exec .jobGrant s = .next { s with
      upu := { phase := .idle, beat := some { response := some .fault, data := none } }
      mpa := { s.mpa with up := false, last := .up }
      sau := { s.sau with flags := s.sau.flags ||| 0b0000000100#10 } }) ∧
    (s.wju.policy = .autocommit → s.ec.state = .active → exec .jobGrant s = .next { s with
      upu := { phase := .waiting t, beat := none }
      mpa := { s.mpa with up := true, ec := true, last := .up }
      ec := { s.ec with state := .committing, inProgress := { Sources.empty with full := true } }
      sau := { s.sau with flags := s.sau.flags ||| 0b0000000100#10 } }) ∧
    (s.wju.policy = .autocommit → s.ec.state = .committing → exec .jobGrant s = .next { s with
      upu := { phase := .waiting t, beat := none }
      mpa := { s.mpa with up := true, last := .up }
      ec := { s.ec with inProgress := { s.ec.inProgress with full := true } }
      sau := { s.sau with flags := s.sau.flags ||| 0b0000000100#10 } })

/-- A granted UP job that is turned away makes no word operation: RETRY for every transaction in SCANNING, RECOVERY_HOLD
and ROLLING_BACK with origin RECOVERY, and for JOURNAL reads and writes in ROLLING_BACK, JOURNAL writes in FORMATTING;
FAULT with NOFMT for JOURNAL writes in UNFORMATTED and BROKEN. The model's own in it: log entries 10 and 11. -/
def Obligations.UpJobTurnedAway : Prop :=
  ∀ (s : State) (t : Transaction), Grants s .up → s.upu.phase = .waiting t →
    ((¬PassesAcceptance s ∨ ((∃ i, t.cls = .journal i) ∧
        (s.ec.state = .rollingBack ∨ (s.ec.state = .formatting ∧ t.write = true)))) →
      exec .jobGrant s = .next { s with
        upu := { phase := .idle, beat := some { response := some .retry, data := none } }
        mpa := { s.mpa with up := false, last := .up } }) ∧
    ((s.ec.state = .unformatted ∨ s.ec.state = .broken) → t.write = true → (∃ i, t.cls = .journal i) →
      exec .jobGrant s = .next { s with
        upu := { phase := .idle, beat := some { response := some .fault, data := none } }
        mpa := { s.mpa with up := false, last := .up }
        sau := { s.sau with flags := s.sau.flags ||| 0b0000000010#10 } })

/-- The jobs the EC forms at the grant of its request: header read, scan step, commit, restore, close, format, discard,
from the EC's state as it stands then. The model's own in it: log entries 32 and 36. -/
def Obligations.EcFormsItsJobAtTheGrant : Prop :=
  ∀ s : State, Grants s .ec →
    let granted := fun (k : JobKind) (ops : List WordOp) => (Host.Outcome.next { s.settle with
      mpa := { s.mpa with ec := false, last := .ec, job := some { kind := k, todo := ops, reads := [] } } } : Out State)
    let head := (s.ec.base + s.ec.usage) % s.ec.size
    let slotReads := fun (n : Nat) => (List.range 8).map (fun w => WordOp.readJournal (BitVec.ofNat 16 (8 + 8 * n + w)))
    (s.ec.state = .scanning → s.ec.headerRead = false →
      exec .jobGrant s = granted .headerRead [.readJournal 0, .readJournal 1, .readJournal 2]) ∧
    (s.ec.state = .scanning → s.ec.headerRead = true →
      exec .jobGrant s = granted .scanStep (slotReads ((s.ec.base + s.ec.scanCount) % s.ec.size))) ∧
    (s.ec.state = .committing →
      exec .jobGrant s = granted (.commit head (s.ec.epoch + 1) s.ec.usage)
        [.writeJournal 1 (commitWord head (s.ec.epoch + 1))]) ∧
    (s.ec.state = .rollingBack → 0 < s.ec.usage →
      exec .jobGrant s = granted .restore (slotReads ((s.ec.base + (s.ec.usage - 1)) % s.ec.size))) ∧
    (s.ec.state = .rollingBack → s.ec.usage = 0 →
      exec .jobGrant s = granted (.close (s.ec.epoch + 1))
        [.writeJournal (slotAddr s.ec.base 0) 0, .writeJournal 1 (commitWord s.ec.base (s.ec.epoch + 1))]) ∧
    (s.ec.state = .formatting →
      exec .jobGrant s = granted (.format s.ec.formatCode)
        [.writeJournal 0 0, .writeJournal 8 0, .writeJournal 1 0,
         .writeJournal 2 (~~~(BitVec.ofNat 32 (256 * s.ec.formatCode.val + 1))),
         .writeJournal 0 (BitVec.ofNat 32 (256 * s.ec.formatCode.val + 1))]) ∧
    (s.ec.state = .recoveryHold →
      exec .jobGrant s = granted (.discard head (s.ec.epoch + 1) s.ec.usage)
        [.writeJournal 1 (commitWord head (s.ec.epoch + 1))])

/-! ## Word operations -/

/-- A word write changes the bytes of its word whose lanes are enabled, and no other byte. -/
def Obligations.WordWriteChangesItsLanes : Prop :=
  ∀ (m : Memory) (w : Nat) (lanes : Lanes) (d : Word), Memory.wf m = true → ∀ c : Nat,
    (c / 4 ≠ w → (m.writeWord w lanes d).read c = m.read c) ∧
    (c / 4 = w → lanes.getLsbD (c % 4) = false → (m.writeWord w lanes d).read c = m.read c) ∧
    (c / 4 = w → lanes.getLsbD (c % 4) = true →
      (m.writeWord w lanes d).read c = d.extractLsb' (8 * (c % 4)) 8)

/-- A beat moves as its data word operation completes, the first with URSP = OK: a read beat carries the word read and
changes no memory, a write beat writes the word of UD in the lanes of UBE to its own word; after the last beat the
transaction and the job end. The model's own in it: log entries 10 and
12. -/
def Obligations.BeatsMove : Prop :=
  ∀ (s : State) (j : Job) (a : DataAddr) (first : Bool) (rest : List WordOp) (bus : UpstreamBus),
    let response := if first then some Response.ok else none
    (j.kind = .upRead → InProgress s j (.readBeat a first) rest →
      let word := s.dataMem.readWord a.toNat
      (rest ≠ [] → exec (.wordOperationComplete bus) s = .next { s.present bus.ustb with
        upu := { s.upu with beat := some { response := response, data := some word } }
        mpa := { s.mpa with job := some { j with todo := rest, reads := j.reads ++ [word] } } }) ∧
      (rest = [] → exec (.wordOperationComplete bus) s = .next { s.present bus.ustb with
        upu := { phase := .idle, beat := some { response := response, data := some word } }
        mpa := { s.mpa with job := none } })) ∧
    (j.kind.isUp = true → j.kind ≠ .upRead → InProgress s j (.writeBeat a first) rest →
      (rest ≠ [] → exec (.wordOperationComplete bus) s = .next { s.present bus.ustb with
        dataMem := s.dataMem.writeWord a.toNat bus.lanes bus.data
        upu := { s.upu with beat := some { response := response, data := none } }
        mpa := { s.mpa with job := some { j with todo := rest } } }) ∧
      (rest = [] → exec (.wordOperationComplete bus) s = .next { s.present bus.ustb with
        dataMem := s.dataMem.writeWord a.toNat bus.lanes bus.data
        upu := { phase := .idle, beat := some { response := response, data := none } }
        mpa := { s.mpa with job := none } }))

/-- The word operations of an append before its tag write: an old word is read; a journal word is written whole, with the
word fixed at the grant, an old word read, or the check word over the seven words of the record; nothing else changes.
The model's own in it: log entry 12 (the level of USTB presented with the operation). -/
def Obligations.AppendBuildsTheRecord : Prop :=
  ∀ (s : State) (j : Job) (r : RecordHead) (op : WordOp) (rest : List WordOp) (bus : UpstreamBus),
    j.kind = .append r → InProgress s j op rest → rest ≠ [] →
    let writes := fun (a : JournalAddr) (w : Word) => (Host.Outcome.next { s.settle.present bus.ustb with
      journalMem := s.journalMem.writeWord a.toNat 0b1111#4 w
      mpa := { s.mpa with job := some { j with todo := rest } } } : Out State)
    (∀ a, op = .readOld a → exec (.wordOperationComplete bus) s = .next { s.settle.present bus.ustb with
      mpa := { s.mpa with
        job := some { j with todo := rest, reads := j.reads ++ [s.dataMem.readWord a.toNat] } } }) ∧
    (∀ a w, op = .writeJournal a w → exec (.wordOperationComplete bus) s = writes a w) ∧
    (∀ a k, op = .writeOld a k → exec (.wordOperationComplete bus) s = writes a (slotWord j.reads k.val)) ∧
    (∀ a, op = .writeCheck a → exec (.wordOperationComplete bus) s = writes a
      (~~~(r.tag ^^^ lineWord r.line ^^^ slotWord j.reads 0 ^^^ slotWord j.reads 1 ^^^ slotWord j.reads 2
        ^^^ slotWord j.reads 3 ^^^ r.stamp)))

/-- The tag write of an append: the tag stands at head, usage rises by 1 and head moves to the slot cleared, the line
enters the JLT, the age counter starts at the first record, the records-appended and peak-usage statistics follow, and
WMARK is set when usage meets the watermark. The model's own in it: log entries 12 and 37. -/
def Obligations.TagWriteJoinsTheRecord : Prop :=
  ∀ (s : State) (j : Job) (r : RecordHead) (a : JournalAddr) (tag : Word) (rest : List WordOp) (bus : UpstreamBus),
    j.kind = .append r → InProgress s j (.writeTag a tag) rest → rest ≠ [] →
    exec (.wordOperationComplete bus) s = .next { s.settle.present bus.ustb with
      journalMem := s.journalMem.writeWord a.toNat 0b1111#4 tag
      ec := { s.ec with usage := s.ec.usage + 1, endSlot := (s.ec.base + (s.ec.usage + 1)) % s.ec.size }
      wju := s.wju.insert r.line
      tau := { s.tau with running := if s.ec.usage = 0 then true else s.tau.running }
      sau := { s.sau with
        appended := s.sau.appended + 1
        peak := if s.sau.peak < s.ec.usage + 1 then s.ec.usage + 1 else s.sau.peak
        flags := if s.wju.watermark.val ≠ 0 ∧ s.ec.usage + 1 = s.wju.watermark.val then
            s.sau.flags ||| 0b0000001000#10 else s.sau.flags }
      mpa := { s.mpa with job := some { j with todo := rest } } }

/-- Lookup and insertion in the JLT: a hit is one of the four entries of the line's set holding the line; an insertion
changes one entry of that set alone, the lowest empty way with the sequence kept, or in a full set the way of the two
lowest bits of the sequence after one step; a step shifts right by one and, when a 1 is shifted out, exclusive-ORs
0xB400, and no value but 0 becomes 0. -/
def Obligations.JltLookupAndInsertion : Prop :=
  (∀ (j : Jlt) (l : Line), j.hit l = true ↔ ∃ way : Fin 4, j[jltSetOf l][way] = some l) ∧
  (∀ l : Line, (jltSetOf l).val = l.toNat % 16) ∧
  (∀ (w : Wju) (l : Line) (way : Fin 4), w.jlt[jltSetOf l][way] = none →
    (∀ k : Fin 4, k < way → w.jlt[jltSetOf l][k] ≠ none) →
    (w.insert l).sequence = w.sequence ∧
    ∀ (i : Fin 16) (k : Fin 4),
      (w.insert l).jlt[i][k] = if i = jltSetOf l ∧ k = way then some l else w.jlt[i][k]) ∧
  (∀ (w : Wju) (l : Line), (∀ k : Fin 4, w.jlt[jltSetOf l][k] ≠ none) →
    (w.insert l).sequence = sequenceStep w.sequence ∧
    ∀ (i : Fin 16) (k : Fin 4), (w.insert l).jlt[i][k] =
      if i = jltSetOf l ∧ k.val = (sequenceStep w.sequence).toNat % 4 then some l else w.jlt[i][k]) ∧
  (∀ v : BitVec 16, (sequenceStep v).toNat = if v.toNat % 2 = 1 then v.toNat / 2 ^^^ 0xB400 else v.toNat / 2) ∧
  (∀ v : BitVec 16, v ≠ 0 → sequenceStep v ≠ 0)

/-! ## Ends of jobs -/

/-- The end of the header read: a valid header is loaded and the first scan step requested; an invalid one leaves
UNFORMATTED, and a LINE source held in a slot is refused, which sets REQREF.
The model's own in it: log entries 12, 36 and 37. -/
def Obligations.HeaderReadEnds : Prop :=
  ∀ (s : State) (j : Job) (a : JournalAddr) (bus : UpstreamBus), j.kind = .headerRead →
    InProgress s j (.readJournal a) [] → j.reads.length = 2 →
    let word := s.journalMem.readWord a.toNat
    (∀ c base e, headerTest (slotWord j.reads 0) (slotWord j.reads 1) word = some (c, base, e) →
      exec (.wordOperationComplete bus) s = .next { s.settle.present bus.ustb with
        mpa := { s.mpa with job := none, ec := true }
        ec := { s.ec with code := c, base := base, epoch := e, usage := 0, scanCount := 0, endSlot := base,
                          headerRead := true } }) ∧
    (headerTest (slotWord j.reads 0) (slotWord j.reads 1) word = none → s.ec.commitSlot.onlyLine = true →
      s.ec.rollbackSlot.onlyLine = true →
      exec (.wordOperationComplete bus) s = .next { s.settle.present bus.ustb with
        mpa := { s.mpa with job := none }
        ec := { s.ec with state := .unformatted, commitSlot := .empty, rollbackSlot := .empty }
        sau := { s.sau with flags := if s.ec.commitSlot.line ∨ s.ec.rollbackSlot.line then
          s.sau.flags ||| 0b0000100000#10 else s.sau.flags } })

/-- The end of a scan step: a good slot below the last is counted and the next step requested; a good slot in the closing
step, or a bad slot, leaves BROKEN; an end gives ACTIVE with the slots served at count 0, and above it a rollback of
origin RECOVERY with RCVA high, RECOVERY_HOLD with RCVA low. The model's own in it: log entries 12, 36 and 37. -/
def Obligations.ScanStepEnds : Prop :=
  ∀ (s : State) (j : Job) (a : JournalAddr) (bus : UpstreamBus), j.kind = .scanStep →
    InProgress s j (.readJournal a) [] → s.ec.usage = s.ec.scanCount → s.ec.commitSlot.onlyLine = true →
    s.ec.rollbackSlot.onlyLine = true →
    let found := classifySlot s.ec.epoch s.ec.scanCount (j.reads ++ [s.journalMem.readWord a.toNat])
    let n := s.ec.scanCount
    let ended := { s.settle.present bus.ustb with mpa := { s.mpa with job := none } }
    let notices := if s.ec.commitSlot.line ∨ s.ec.rollbackSlot.line then 0b0000100000#10 else 0#10
    (found = .good → n + 1 < s.ec.size → exec (.wordOperationComplete bus) s = .next { ended with
      mpa := { s.mpa with job := none, ec := true }
      ec := { s.ec with scanCount := n + 1, usage := n + 1, endSlot := (s.ec.base + (n + 1)) % s.ec.size } }) ∧
    (found = .bad ∨ (found = .good ∧ s.ec.size ≤ n + 1) → exec (.wordOperationComplete bus) s = .next { ended with
      ec := { s.ec with state := .broken, commitSlot := .empty, rollbackSlot := .empty }
      sau := { s.sau with flags := s.sau.flags ||| 0b0010000000#10 ||| notices } }) ∧
    (found = .ending → n = 0 → exec (.wordOperationComplete bus) s = .next ended.serve) ∧
    (found = .ending → 0 < n → s.ec.rcva = true → exec (.wordOperationComplete bus) s = .next { ended with
      mpa := { s.mpa with job := none, ec := true }
      ec := { s.ec with
        state := .rollingBack, origin := some .recovery, rollbackSlot := .empty
        inProgress := { Sources.empty with recovery := true, line := s.ec.rollbackSlot.line }
        endSlot := (s.ec.base + n) % s.ec.size }
      wju := { s.wju with jlt := .empty }
      tau := { s.tau with running := false } }) ∧
    (found = .ending → 0 < n → s.ec.rcva = false → exec (.wordOperationComplete bus) s = .next { ended with
      ec := { s.ec with state := .recoveryHold, commitSlot := .empty, rollbackSlot := .empty }
      sau := { s.sau with flags := s.sau.flags ||| notices } })

/-- A restore: with its eighth word read, a record good for the live epoch and index usage − 1 is written to its line by
four data writes of all lanes; when the last is made usage falls by 1 and the next job is requested. A bad slot ends the
walk in BROKEN with no data write, and every source of the rollback and of a held commit is refused.
The model's own in it: log entries 12 and 16. -/
def Obligations.RestoreJob : Prop :=
  ∀ (s : State) (j : Job) (op : WordOp) (rest : List WordOp) (bus : UpstreamBus), j.kind = .restore →
    InProgress s j op rest →
    (∀ a, op = .readJournal a → rest ≠ [] → exec (.wordOperationComplete bus) s = .next { s.settle.present bus.ustb with
      mpa := { s.mpa with
        job := some { j with todo := rest, reads := j.reads ++ [s.journalMem.readWord a.toNat] } } }) ∧
    (∀ a, op = .readJournal a → rest = [] →
      let words := j.reads ++ [s.journalMem.readWord a.toNat]
      let line := (slotWord words 1).setWidth 20
      let lineRefused := s.ec.inProgress.line ∨ s.ec.commitSlot.line
      let linkRefused := s.ec.inProgress.link ∨ s.ec.commitSlot.link
      (classifySlot s.ec.epoch (s.ec.usage - 1) words = .good →
        exec (.wordOperationComplete bus) s = .next { s.settle.present bus.ustb with
          mpa := { s.mpa with job := some { j with
            todo := [.restoreWord (wordOfLine line 0) (slotWord words 2),
              .restoreWord (wordOfLine line 1) (slotWord words 3), .restoreWord (wordOfLine line 2) (slotWord words 4),
              .restoreWord (wordOfLine line 3) (slotWord words 5)]
            reads := words } } }) ∧
      (classifySlot s.ec.epoch (s.ec.usage - 1) words ≠ .good →
        exec (.wordOperationComplete bus) s = .next { s.settle.present bus.ustb with
          mpa := { s.mpa with job := none }
          ec := { s.ec with state := .broken, inProgress := .empty, commitSlot := .empty }
          sau := { s.sau with flags := s.sau.flags ||| 0b0010000000#10 |||
            (if lineRefused then 0b0000100000#10 else 0#10) }
          slk := if linkRefused then { s.slk with mailbox := .responseReady, response := [0x02], command := [] }
            else s.slk })) ∧
    (∀ a w, op = .restoreWord a w → rest ≠ [] → exec (.wordOperationComplete bus) s = .next { s.settle.present bus.ustb with
      dataMem := s.dataMem.writeWord a.toNat 0b1111#4 w
      mpa := { s.mpa with job := some { j with todo := rest } } }) ∧
    (∀ a w, op = .restoreWord a w → rest = [] → classifySlot s.ec.epoch (s.ec.usage - 1) j.reads = .good →
      exec (.wordOperationComplete bus) s = .next { s.settle.present bus.ustb with
        dataMem := s.dataMem.writeWord a.toNat 0b1111#4 w
        mpa := { s.mpa with job := none, ec := true }
        ec := { s.ec with usage := s.ec.usage - 1 } })

/-- Serving after a completion: the EC enters ACTIVE when a link reset awaits action or both slots are empty; otherwise it
takes a rollback of origin LIVE with the rollback slot's set, and only without one a commit with the commit slot's.
The model's own in it: log entry 37. -/
def Obligations.SlotsServed : Prop :=
  ∀ s : State,
    ((s.mpa.linkReset = true ∨ (s.ec.rollbackSlot.isEmpty = true ∧ s.ec.commitSlot.isEmpty = true)) →
      s.serve = { s with ec := { s.ec with state := .active, origin := none, inProgress := .empty } }) ∧
    (s.mpa.linkReset = false → s.ec.rollbackSlot.isEmpty = false → s.serve = { s with
      ec := { s.ec with state := .rollingBack, origin := some .live, inProgress := s.ec.rollbackSlot,
                        rollbackSlot := .empty, endSlot := (s.ec.base + s.ec.usage) % s.ec.size }
      wju := { s.wju with jlt := .empty }
      tau := { s.tau with running := false }
      mpa := { s.mpa with ec := true } }) ∧
    (s.mpa.linkReset = false → s.ec.rollbackSlot.isEmpty = true → s.ec.commitSlot.isEmpty = false → s.serve = { s with
      ec := { s.ec with state := .committing, origin := none, inProgress := s.ec.commitSlot, commitSlot := .empty }
      mpa := { s.mpa with ec := true } })

/-- The end of the commit job: the commit word is written; base, epoch number and usage 0 are taken, the JLT emptied, the
age captured and cleared, the commit counted; LINE raises CKACK while CKPT is high, LINK gets its response; the slots are
served. The model's own in it: log entries 12, 16 and 37. -/
def Obligations.CommitCompletes : Prop :=
  ∀ (s : State) (j : Job) (base : Nat) (e : Epoch) (n : Nat) (w : Word) (bus : UpstreamBus),
    j.kind = .commit base e n → InProgress s j (.writeJournal 1 w) [] →
    exec (.wordOperationComplete bus) s = .next ({ s.settle.present bus.ustb with
      journalMem := s.journalMem.writeWord 1 0b1111#4 w
      mpa := { s.mpa with job := none }
      ec := { s.ec with base := base, usage := 0, epoch := e, endSlot := base }
      wju := { s.wju with jlt := .empty }
      tau := { s.tau with age := 0, running := false }
      sau := { s.sau with commits := s.sau.commits + 1, lastCommitAge := s.tau.age }
      rlu := if s.ec.inProgress.line then
          { s.rlu with ckpt := { s.rlu.ckpt with ack := s.rlu.ckpt.ack || s.rlu.ckpt.filtered } } else s.rlu
      slk := if s.ec.inProgress.link then { s.slk with
          mailbox := .responseReady, response := [0x00] ++ leBytes 3 e.toNat ++ leBytes 2 n, command := [] }
        else s.slk } : State).serve

/-- The two writes of the close, and the rollback's completion at the second: epoch number and usage 0 are taken, the age
cleared, the rollback counted by its origin; LINE raises ABACK while ABRT is high, LINK gets its response, AGE triggers
the RSTO# pulse, RECOVERY sets RECOV; the slots are served. The model's own in it: log entries 12, 16 and 37. -/
def Obligations.RollbackCompletes : Prop :=
  ∀ (s : State) (j : Job) (e : Epoch) (a : JournalAddr) (w : Word) (rest : List WordOp) (bus : UpstreamBus),
    j.kind = .close e → InProgress s j (.writeJournal a w) rest →
    (rest ≠ [] → exec (.wordOperationComplete bus) s = .next { s.settle.present bus.ustb with
      journalMem := s.journalMem.writeWord a.toNat 0b1111#4 w
      mpa := { s.mpa with job := some { j with todo := rest } } }) ∧
    (rest = [] → exec (.wordOperationComplete bus) s = .next ({ s.settle.present bus.ustb with
      journalMem := s.journalMem.writeWord a.toNat 0b1111#4 w
      mpa := { s.mpa with job := none }
      ec := { s.ec with usage := 0, epoch := e, endSlot := s.ec.base }
      tau := { s.tau with
        age := 0, running := false
        pulse := if s.ec.inProgress.age ∧ s.tau.pulse = none then
          some { count := 0, length := s.tau.width.periods } else s.tau.pulse }
      sau := { s.sau with
        rollbacks := if s.ec.origin = some .recovery then s.sau.rollbacks else s.sau.rollbacks + 1
        recoveries := if s.ec.origin = some .recovery then s.sau.recoveries + 1 else s.sau.recoveries
        flags := if s.ec.inProgress.recovery then s.sau.flags ||| 0b0100000000#10 else s.sau.flags }
      rlu := if s.ec.inProgress.line then
          { s.rlu with abrt := { s.rlu.abrt with ack := s.rlu.abrt.ack || s.rlu.abrt.filtered } } else s.rlu
      slk := if s.ec.inProgress.link then { s.slk with
          mailbox := .responseReady, command := []
          response := [0x00] ++ leBytes 3 e.toNat
            ++ leBytes 2 ((s.ec.endSlot + s.ec.size - s.ec.base) % s.ec.size) }
        else s.slk } : State).serve)

/-- The completions of DISCARD and FORMAT, and the writes of a format before its last.
The model's own in it: log entries 12, 16 and 37. -/
def Obligations.DiscardAndFormatComplete : Prop :=
  ∀ (s : State) (j : Job) (a : JournalAddr) (w : Word) (rest : List WordOp) (bus : UpstreamBus),
    InProgress s j (.writeJournal a w) rest →
    (∀ c, j.kind = .format c → rest ≠ [] → exec (.wordOperationComplete bus) s = .next { s.settle.present bus.ustb with
      journalMem := s.journalMem.writeWord a.toNat 0b1111#4 w
      mpa := { s.mpa with job := some { j with todo := rest } } }) ∧
    (∀ c, j.kind = .format c → rest = [] → exec (.wordOperationComplete bus) s = .next ({ s.settle.present bus.ustb with
      journalMem := s.journalMem.writeWord a.toNat 0b1111#4 w
      mpa := { s.mpa with job := none }
      ec := { s.ec with code := c, base := 0, usage := 0, epoch := 0, endSlot := 0 }
      wju := { s.wju with jlt := .empty }
      tau := { s.tau with age := 0, running := false }
      slk := { s.slk with
        mailbox := .responseReady, response := [0x00, BitVec.ofNat 8 c.val, 0, 0, 0], command := [] } } : State).serve) ∧
    (∀ base e n, j.kind = .discard base e n → rest = [] → exec (.wordOperationComplete bus) s = .next ({ s.settle.present bus.ustb with
      journalMem := s.journalMem.writeWord a.toNat 0b1111#4 w
      mpa := { s.mpa with job := none }
      ec := { s.ec with base := base, usage := 0, epoch := e, endSlot := base }
      wju := { s.wju with jlt := .empty }
      tau := { s.tau with age := 0, running := false }
      slk := { s.slk with
        mailbox := .responseReady, response := [0x00] ++ leBytes 3 e.toNat ++ leBytes 2 n, command := [] } } :
        State).serve)

/-- READ_RECORD: at the taking an offset at or above usage is REFUSED_ARG and one below posts the LK request; at the
grant it is compared again; the job reads the eight words of its slot, and the response carries the record as stored.
The model's own in it: log entries 12, 14 and 16. -/
def Obligations.ReadRecordReadsTheSlot : Prop :=
  (∀ (s : State) (addr : BitVec 7) (lo hi : Byte), LinkReady s addr →
    let offset := lo.toNat + 256 * hi.toNat
    (offset < s.ec.usage → exec (.readRecord ⟨addr, [lo, hi]⟩) s = .next
      { s.executing [0x20, lo, hi] (.readRecord offset) with mpa := { s.mpa with lk := true } }) ∧
    (s.ec.usage ≤ offset → exec (.readRecord ⟨addr, [lo, hi]⟩) s = .next (s.replied 3 0x03 []))) ∧
  (∀ (s : State) (offset : Nat), Grants s .lk → s.slk.mailbox = .executing (.readRecord offset) →
    (offset < s.ec.usage → exec .jobGrant s = .next { s.settle with
      mpa := { s.mpa with lk := false, last := .lk, job := some {
        kind := .readRecord, reads := []
        todo := (List.range 8).map (fun w =>
          .readJournal (BitVec.ofNat 16 (8 + 8 * ((s.ec.base + offset) % s.ec.size) + w))) } } }) ∧
    (s.ec.usage ≤ offset → exec .jobGrant s = .next { s.settle with
      mpa := { s.mpa with lk := false, last := .lk }
      slk := { s.slk with mailbox := .responseReady, response := [0x03], command := [] } })) ∧
  (∀ (s : State) (j : Job) (a : JournalAddr) (rest : List WordOp) (bus : UpstreamBus), j.kind = .readRecord →
    InProgress s j (.readJournal a) rest →
    let words := j.reads ++ [s.journalMem.readWord a.toNat]
    (rest ≠ [] → exec (.wordOperationComplete bus) s = .next { s.settle.present bus.ustb with
      mpa := { s.mpa with job := some { j with todo := rest, reads := words } } }) ∧
    (rest = [] → exec (.wordOperationComplete bus) s = .next { s.settle.present bus.ustb with
      mpa := { s.mpa with job := none }
      slk := { s.slk with
        mailbox := .responseReady, command := []
        response := [0x00] ++ leBytes 3 ((slotWord words 1).extractLsb' 0 20).toNat
          ++ leBytes 4 (slotWord words 2).toNat ++ leBytes 4 (slotWord words 3).toNat
          ++ leBytes 4 (slotWord words 4).toNat ++ leBytes 4 (slotWord words 5).toNat
          ++ leBytes 2 ((slotWord words 6).extractLsb' 0 16).toNat
          ++ leBytes 1 ((slotWord words 6).extractLsb' 16 3).toNat } }))

/-! ## Requests that reach the EC -/

/-- How each EC state treats a commit request of each source: taken, joined, held, refused or discarded. -/
def Obligations.CommitRequestTreated : Prop :=
  ∀ (s : State) (x : Source), x ≠ .recovery →
    let held := { s with ec := { s.ec with commitSlot := s.ec.commitSlot.add x } }
    let refused := if x = .line then { s with sau := { s.sau with flags := s.sau.flags ||| 0b0000100000#10 } }
      else if x = .link then s.respond 0x02 [] else s
    (s.ec.state = .active → s.commitRequest x = { s with
      ec := { s.ec with state := .committing, inProgress := .of x }, mpa := { s.mpa with ec := true } }) ∧
    (s.ec.state = .committing →
      s.commitRequest x = { s with ec := { s.ec with inProgress := s.ec.inProgress.add x } }) ∧
    (s.ec.state = .formatting ∨ (s.ec.state = .rollingBack ∧ s.ec.origin ≠ some .recovery) →
      s.commitRequest x = held) ∧
    (s.ec.state = .scanning ∨ (s.ec.state = .rollingBack ∧ s.ec.origin = some .recovery) →
      s.commitRequest x = if x = .line then held else refused) ∧
    (s.ec.state = .recoveryHold ∨ s.ec.state = .unformatted ∨ s.ec.state = .broken → s.commitRequest x = refused)

/-- How each EC state treats a rollback request of each source. -/
def Obligations.RollbackRequestTreated : Prop :=
  ∀ (s : State) (x : Source), x = .line ∨ x = .link ∨ x = .age →
    let held := { s with ec := { s.ec with rollbackSlot := s.ec.rollbackSlot.add x } }
    let refused := if x = .line then { s with sau := { s.sau with flags := s.sau.flags ||| 0b0000100000#10 } }
      else if x = .link then s.respond 0x02 [] else s
    let taken := fun (o : Origin) (set : Sources) => { s with
      ec := { s.ec with state := .rollingBack, origin := some o, inProgress := set,
                        endSlot := (s.ec.base + s.ec.usage) % s.ec.size }
      wju := { s.wju with jlt := .empty }
      tau := { s.tau with running := false }
      mpa := { s.mpa with ec := true } }
    (s.ec.state = .active → s.rollbackRequest x = taken .live (.of x)) ∧
    (s.ec.state = .committing ∨ s.ec.state = .formatting → s.rollbackRequest x = held) ∧
    (s.ec.state = .rollingBack →
      s.rollbackRequest x = { s with ec := { s.ec with inProgress := s.ec.inProgress.add x } }) ∧
    (s.ec.state = .scanning → s.rollbackRequest x = if x = .line then held else refused) ∧
    (s.ec.state = .recoveryHold → s.rollbackRequest x =
      if x = .link then taken .recovery { Sources.empty with recovery := true, link := true } else refused) ∧
    (s.ec.state = .unformatted ∨ s.ec.state = .broken → s.rollbackRequest x = refused)

/-- A request that reaches the EC during a JOURNAL-write job waits, behind those that wait already; once the job has ended
the waiting requests are taken in the order in which they arrived. The model's own in it: log entry 1. -/
def Obligations.DeferredRequestsTakenInOrder : Prop :=
  (∀ (s : State) (j : Job) (r : EcRequest), s.mpa.job = some j →
    ((∃ h, j.kind = .append h) ∨ j.kind = .upWrite true) →
    s.ecPost r = { s with ec := { s.ec with deferred := s.ec.deferred ++ [r] } }) ∧
  (∀ s : State, s.mpa.job ≠ none → exec .deferredRequestTaken s = .next s.settle) ∧
  (∀ s : State, s.mpa.job = none → s.ec.deferred = [] → exec .deferredRequestTaken s = .next s.settle) ∧
  (∀ (s : State) (r : EcRequest), s.mpa.job = none → s.ec.deferred = [r] →
    exec .deferredRequestTaken s = .next (State.ecTake { s.settle with ec := { s.ec with deferred := [] } } r)) ∧
  (∀ (s : State) (r q : EcRequest), s.mpa.job = none → s.ec.deferred = [r, q] →
    exec .deferredRequestTaken s =
      .next ((State.ecTake { s.settle with ec := { s.ec with deferred := [] } } r).ecTake q)) ∧
  (∀ (s : State) (r : EcRequest) (rest : List EcRequest), s.mpa.job = none → s.ec.deferred = r :: rest →
    let taken := State.ecTake { s.settle with ec := { s.ec with deferred := [] } } r
    exec .deferredRequestTaken s =
      exec .deferredRequestTaken { taken with ec := { taken.ec with deferred := rest } }) ∧
  (∀ (s : State) (x : Source) (c : Fin 5), s.ecTake (.commit x) = s.commitRequest x ∧
    s.ecTake (.rollback x) = s.rollbackRequest x ∧ s.ecTake (.format c) = s.formatRequest c ∧
    s.ecTake .discard = s.discardRequest)

/-- COMMIT, ROLLBACK, DISCARD and FORMAT over the link: the command waits in EXECUTING and its request reaches the EC,
which takes it by its state's rules, or later when a JOURNAL-write job is in progress.
The model's own in it: log entries 14, 16 and 32. -/
def Obligations.EpochCommandsReachTheEc : Prop :=
  ∀ (s : State) (addr : BitVec 7), LinkReady s addr →
    (TakenAtOnce s → exec (.commit ⟨addr, []⟩) s = .next ((s.executing [0x10] .commit).commitRequest .link)) ∧
    (TakenAtOnce s → exec (.rollback ⟨addr, []⟩) s = .next ((s.executing [0x11] .rollback).rollbackRequest .link)) ∧
    (TakenAtOnce s → s.ec.state = .recoveryHold → exec (.discard ⟨addr, []⟩) s = .next
      { s.executing [0x12] .discard with mpa := { s.mpa with ec := true } }) ∧
    (TakenAtOnce s → s.ec.state ≠ .recoveryHold → exec (.discard ⟨addr, []⟩) s = .next (s.replied 1 0x02 [])) ∧
    (∀ c : Byte, 4 < c.toNat → exec (.format ⟨addr, [c]⟩) s = .next (s.replied 2 0x03 [])) ∧
    (∀ (c : Byte) (code : Fin 5), c.toNat = code.val → TakenAtOnce s →
      (s.ec.state = .unformatted ∨ s.ec.state = .broken ∨ s.ec.state = .recoveryHold ∨
        (s.ec.state = .active ∧ s.ec.usage = 0)) →
      exec (.format ⟨addr, [c]⟩) s = .next { s.executing [0x13, c] .format with
        ec := { s.ec with state := .formatting, formatCode := code }, mpa := { s.mpa with ec := true } }) ∧
    (∀ (c : Byte), c.toNat ≤ 4 → TakenAtOnce s →
      (s.ec.state = .scanning ∨ s.ec.state = .committing ∨ s.ec.state = .rollingBack ∨ s.ec.state = .formatting ∨
        (s.ec.state = .active ∧ s.ec.usage ≠ 0)) →
      exec (.format ⟨addr, [c]⟩) s = .next (s.replied 2 0x02 [])) ∧
    (¬TakenAtOnce s →
      exec (.commit ⟨addr, []⟩) s = .next { s.executing [0x10] .commit with
        ec := { s.ec with deferred := s.ec.deferred ++ [.commit .link] } } ∧
      exec (.rollback ⟨addr, []⟩) s = .next { s.executing [0x11] .rollback with
        ec := { s.ec with deferred := s.ec.deferred ++ [.rollback .link] } } ∧
      exec (.discard ⟨addr, []⟩) s = .next { s.executing [0x12] .discard with
        ec := { s.ec with deferred := s.ec.deferred ++ [.discard] } } ∧
      ∀ (c : Byte) (code : Fin 5), c.toNat = code.val → exec (.format ⟨addr, [c]⟩) s = .next
        { s.executing [0x13, c] .format with ec := { s.ec with deferred := s.ec.deferred ++ [.format code] } })

/-! ## Resets -/

/-- A hardware reset puts every block at its reset value and keeps the memories, but for the word operation in progress:
under RSTI# it completes; under a loss of power a write that had begun leaves a free value in its word (log entry 8).
The model's own in it: log entries 9, 10, 12, 22, 38 and 39. -/
def Obligations.HardwareResetValues : Prop :=
  ∀ (cause : ResetCause) (begun : Bool) (bus : UpstreamBus) (s : State),
    ∃ t, exec (.hardwareReset cause begun bus) s = .next t ∧
      t = { s with
        upu := { phase := .idle, beat := none }
        mpa := { up := false, ec := false, lk := false, last := .lk, job := none, linkReset := false, mspd := s.mpa.mspd }
        ec := { state := .scanning, origin := none, code := 0, base := 0, usage := 0, epoch := 0, endSlot := 0,
                headerRead := false, scanCount := 0, formatCode := 0, inProgress := .empty, commitSlot := .empty,
                rollbackSlot := .empty, deferred := [], rcva := s.ec.rcva }
        wju := { jlt := .empty, sequence := 1, policy := .refuse, watermark := 0 }
        windows := Vector.replicate 8 { mode := .off, sizeCode := 0, base := 0 }
        tau := { divider := .d32, divCount := 0, age := 0, running := false, limit := 65535, action := .off,
                 width := .w256, pulse := none }
        rlu := { ckpt := { pin := s.rlu.ckpt.pin, last := false, filtered := false, ack := false }
                 abrt := { pin := s.rlu.abrt.pin, last := false, filtered := false, ack := false }
                 sampleCount := 0, period := .p8 }
        pwu := { state := .normal, pfail := s.pwu.pfail, tripped := true, threshold := .v295, releaseCount := 0,
                 powerOn := decide (cause = .powerOn) }
        slk := { mailbox := .idle, command := [], response := [], la := s.slk.la, acks := [], sent := [] }
        sau := { flags := 0, mask := 0x3FF, commits := 0, rollbacks := 0, recoveries := 0, appended := 0, peak := 0,
                 lastCommitAge := 0 }
        rsti := true
        ustb := bus.ustb
        dataMem := t.dataMem, journalMem := t.journalMem, freeCount := t.freeCount } ∧
      (begun = false ∨ s.mpa.job = none → t.dataMem = s.dataMem ∧ t.journalMem = s.journalMem) ∧
      (∀ j op rest, InProgress s j op rest → begun = true → op.write? j bus = none →
        t.dataMem = s.dataMem ∧ t.journalMem = s.journalMem) ∧
      (∀ j op rest w, InProgress s j op rest → begun = true → op.write? j bus = some w → cause = .pin →
        t.dataMem = (s.store w).dataMem ∧ t.journalMem = (s.store w).journalMem) ∧
      (∀ j op rest w, InProgress s j op rest → begun = true → op.write? j bus = some w → cause = .powerOn →
        ∃ v : Word, t.dataMem = (s.store { w with word := v, lanes := 0b1111#4 }).dataMem ∧
          t.journalMem = (s.store { w with word := v, lanes := 0b1111#4 }).journalMem)

/-- While RSTI# is asserted every step leaves the UPU in IDLE and the MPA and the EC at their reset values. At the end of
the reset straps and levels are sampled. The monitor is tripped below 2.95 V and clear from 3.00 V; between them it is
tripped after an RSTI# reset, and after a power-on reset it keeps its trip state. The PWU starts HALTED, with PFAIL set, if
PFAIL# is asserted or the monitor tripped, and NORMAL otherwise; in NORMAL the header read is posted. A USTB found asserted
is a new assertion, answered RETRY. The model's own in it: log entries 1, 10, 12 and 39. -/
def Obligations.ResetRelease : Prop :=
  (∀ s t : State, HeldInv s → step s = .next t → HeldInv t) ∧
  ∀ (p : ReleasePins) (s : State),
    (s.rsti = false → exec (.resetRelease p) s = .next s.settle) ∧
    (s.rsti = true → HeldInv s →
      let trips := p.supply < 2950 ∨ (p.supply < 3000 ∧ (s.pwu.powerOn = false ∨ s.pwu.tripped = true))
      let sampled := { s with
        upu := { phase := .idle, beat := p.ustb.map (fun _ => { response := some .retry, data := none }) }
        rsti := false
        ustb := p.ustb
        ec := { s.ec with rcva := p.rcva }
        slk := { s.slk with la := p.la }
        rlu := { s.rlu with ckpt := { s.rlu.ckpt with pin := p.ckpt }, abrt := { s.rlu.abrt with pin := p.abrt } } }
      (p.pfail = false → ¬trips → exec (.resetRelease p) s = .next { sampled with
        pwu := { s.pwu with state := .normal, pfail := false, tripped := false, releaseCount := 0, powerOn := false }
        mpa := { s.mpa with mspd := p.mspd, ec := true } }) ∧
      (p.pfail = true ∨ trips → exec (.resetRelease p) s = .next { sampled with
        pwu := { s.pwu with state := .halted, pfail := p.pfail, tripped := decide trips, releaseCount := 0,
                            powerOn := false }
        mpa := { s.mpa with mspd := p.mspd }
        sau := { s.sau with flags := s.sau.flags ||| 0b0001000000#10 } }))

/-- The end of a job seen by the PWU and a link reset. The link reset acts when no job is in progress: every block takes
its values of the link reset, and the response OK to RESET is ready. The PWU leaves HALTING for HALTED with the release
counter from 0; where both wait for the same job end, both happen in one step (log entry 19). A USTB found asserted when
the link reset acts is a new assertion, answered RETRY. The model's own in it: log entries 1, 10, 12, 16 and 18. -/
def Obligations.HaltedEntryAndLinkReset : Prop :=
  ∀ s : State,
    let acted := { s with
      upu := { phase := .idle, beat := s.ustb.map (fun _ => { response := some .retry, data := none }) }
      mpa := { up := false, ec := decide (s.pwu.state = .normal), lk := false, last := .lk, job := none,
               linkReset := false, mspd := s.mpa.mspd }
      ec := { state := .scanning, origin := none, code := 0, base := 0, usage := 0, epoch := 0, endSlot := 0,
              headerRead := false, scanCount := 0, formatCode := 0, inProgress := .empty, commitSlot := .empty,
              rollbackSlot := .empty, deferred := [], rcva := s.ec.rcva }
      wju := { s.wju with jlt := .empty, sequence := 1 }
      tau := { s.tau with age := 0, running := false }
      rlu := { s.rlu with ckpt := { pin := s.rlu.ckpt.pin, last := false, filtered := false, ack := false }
                          abrt := { pin := s.rlu.abrt.pin, last := false, filtered := false, ack := false }
                          sampleCount := 0 }
      slk := { s.slk with mailbox := .responseReady, response := [0x00], command := [] } }
    (s.mpa.linkReset = false ∨ s.mpa.job ≠ none ∨ s.rsti = true → exec .linkResetActs s = .next s.settle) ∧
    (s.mpa.linkReset = true → s.mpa.job = none → s.rsti = false → s.pwu.state ≠ .halting →
      exec .linkResetActs s = .next acted) ∧
    (s.mpa.linkReset = true → s.mpa.job = none → s.rsti = false → s.pwu.state = .halting →
      exec .linkResetActs s = .next { acted with pwu := { s.pwu with state := .halted, releaseCount := 0 } } ∧
      exec .haltedEntry s = .next { acted with pwu := { s.pwu with state := .halted, releaseCount := 0 } }) ∧
    (s.pwu.state ≠ .halting ∨ s.mpa.job ≠ none ∨ s.rsti = true → exec .haltedEntry s = .next s.settle) ∧
    (s.pwu.state = .halting → s.mpa.job = none → s.rsti = false → s.mpa.linkReset = false →
      exec .haltedEntry s = .next { s.settle with pwu := { s.pwu with state := .halted, releaseCount := 0 } })

/-! ## Halt -/

/-- The halt inputs: an assertion of PFAIL#, or a trip of the monitor, takes a PWU in NORMAL out of it, to HALTING with a
job in progress and to HALTED without; PFAIL is set and a waiting transaction answered RETRY; in HALTED the release
counter returns to 0; a deassertion changes no PWU state. The monitor trips below its threshold and clears 50 mV above.
The model's own in it: log entries 1, 10, 11 and 23. -/
def Obligations.HaltInputs : Prop :=
  ∀ s : State,
    let left := fun (p : Pwu) (u : State) =>
      (∀ t, s.rsti = false → s.pwu.state = .normal → s.upu.phase = .waiting t → u = { s with
        upu := { phase := .idle, beat := some { response := some .retry, data := none } }
        mpa := { s.mpa with up := false }
        sau := { s.sau with flags := s.sau.flags ||| 0b0001000000#10 }
        pwu := if s.mpa.job = none then { p with state := .halted, releaseCount := 0 }
          else { p with state := .halting } }) ∧
      (s.rsti = false → s.pwu.state = .normal → (∀ t, s.upu.phase ≠ .waiting t) → u = { s.settle with
        sau := { s.sau with flags := s.sau.flags ||| 0b0001000000#10 }
        pwu := if s.mpa.job = none then { p with state := .halted, releaseCount := 0 }
          else { p with state := .halting } }) ∧
      (s.rsti = false → s.pwu.state = .halted → u = { s.settle with pwu := { p with releaseCount := 0 } }) ∧
      (s.rsti = true ∨ s.pwu.state = .halting → u = { s.settle with pwu := p })
    (∃ u, exec .pfailAsserted s = .next u ∧ left { s.pwu with pfail := true } u) ∧
    exec .pfailDeasserted s = .next { s.settle with pwu := { s.pwu with pfail := false } } ∧
    (∀ v : Millivolts, s.pwu.threshold = .off →
      exec (.monitorTrip v) s = .next s.settle ∧ exec (.monitorClear v) s = .next s.settle) ∧
    (∀ (v level : Millivolts), (s.pwu.threshold = .v285 ∧ level = 2850) ∨ (s.pwu.threshold = .v295 ∧ level = 2950) ∨
        (s.pwu.threshold = .v305 ∧ level = 3050) →
      (v < level → s.pwu.tripped = false →
        ∃ u, exec (.monitorTrip v) s = .next u ∧ left { s.pwu with tripped := true } u) ∧
      (level ≤ v ∨ s.pwu.tripped = true → exec (.monitorTrip v) s = .next s.settle) ∧
      (level + 50 ≤ v → exec (.monitorClear v) s = .next { s.settle with pwu := { s.pwu with tripped := false } }) ∧
      (v < level + 50 → exec (.monitorClear v) s = .next s.settle))

/-- The return to NORMAL: the header read is posted if the scan waits for it, and the requests waiting get a grant
decision in the same step (log entry 20). The model's own in it: log entries 1 and 4. -/
def Obligations.ReturnToNormal : Prop :=
  ∀ s : State,
    (s.pwu.state ≠ .halted ∨ s.pwu.pfail = true ∨ s.pwu.tripped = true ∨ s.rsti = true →
      exec .returnToNormal s = .next s.settle) ∧
    (s.pwu.state = .halted → s.pwu.pfail = false → s.pwu.tripped = false → s.rsti = false →
      ∃ t, exec .returnToNormal s = .next t ∧ t.pwu = { s.pwu with state := .normal, releaseCount := 2048 } ∧
        exec .jobGrant { s.settle with
          pwu := { s.pwu with state := .normal, releaseCount := 2048 }
          mpa := if s.ec.state = .scanning ∧ s.ec.headerRead = false then { s.mpa with ec := true } else s.mpa } =
            .next t)

/-! ## Request lines and time -/

/-- A sample instant: both lines take their new sample, the sample counter restarts, and each rise recognized posts its
LINE request; of two the order of the operand holds. The model's own in it: log entries 1, 4 and 27. -/
def Obligations.SampleInstant : Prop :=
  ∀ (c a first : Bool) (s : State),
    let t := { s.settle with rlu := { s.rlu with
      ckpt := sampled s.rlu.ckpt c, abrt := sampled s.rlu.abrt a, sampleCount := 0 } }
    (s.rsti = true → exec (.sampleInstant c a first) s = .next s.settle) ∧
    (s.rsti = false →
      (¬Rises s.rlu.ckpt c → ¬Rises s.rlu.abrt a → exec (.sampleInstant c a first) s = .next t) ∧
      (Rises s.rlu.ckpt c → ¬Rises s.rlu.abrt a →
        exec (.sampleInstant c a first) s = .next (t.ecPost (.commit .line))) ∧
      (¬Rises s.rlu.ckpt c → Rises s.rlu.abrt a →
        exec (.sampleInstant c a first) s = .next (t.ecPost (.rollback .line))) ∧
      (Rises s.rlu.ckpt c → Rises s.rlu.abrt a → exec (.sampleInstant c a first) s = .next
        (if first then (t.ecPost (.rollback .line)).ecPost (.commit .line)
          else (t.ecPost (.commit .line)).ecPost (.rollback .line))))

/-- A tick restarts the divider count; it is counted while the age counter runs and the PWU is NORMAL, and when the new
value equals the limit the age action fires. A trigger of the RSTO# pulse in idle starts a pulse of the width set, one
while a pulse runs is ignored; the pulse's end deasserts RSTO#. The model's own in it: log entries 1 and 4. -/
def Obligations.TicksAndPulse : Prop :=
  (∀ t : Tau, t.pulse = none → t.trigger = { t with pulse := some { count := 0, length := match t.width with
    | .w32 => 32
    | .w256 => 256
    | .w2048 => 2048 } }) ∧
  (∀ t : Tau, t.pulse ≠ none → t.trigger = t) ∧
  (∀ s : State, exec .rstoPulseEnd s = .next { s.settle with tau := { s.tau with pulse := none } }) ∧
  ∀ s : State,
    let t := { s.settle with tau := { s.tau with divCount := 0, age := s.tau.age + 1 } }
    let aged := { t with sau := { s.sau with flags := s.sau.flags ||| 0b0000010000#10 } }
    (s.rsti = true → exec .tick s = .next s.settle) ∧
    (s.rsti = false → ¬(s.tau.running = true ∧ s.pwu.state = .normal) →
      exec .tick s = .next { s.settle with tau := { s.tau with divCount := 0 } }) ∧
    (s.rsti = false → s.tau.running = true → s.pwu.state = .normal →
      (s.tau.age + 1 ≠ s.tau.limit ∨ s.tau.action = .off → exec .tick s = .next t) ∧
      (s.tau.age + 1 = s.tau.limit → s.tau.action = .alert → exec .tick s = .next aged) ∧
      (s.tau.age + 1 = s.tau.limit → s.tau.action = .commit → exec .tick s = .next (aged.ecPost (.commit .age))) ∧
      (s.tau.age + 1 = s.tau.limit → s.tau.action = .rollback →
        exec .tick s = .next (aged.ecPost (.rollback .age))))

/-! ## The service link -/

/-- A read frame returns the response and then zeros when one was ready at its address byte, and is consumed by a STOP
after its last byte; otherwise it returns NOTREADY and changes no mailbox; another address is not acknowledged.
The model's own in it: log entry 14. -/
def Obligations.ReadFrameReturns : Prop :=
  ∀ (f : ReadFrame) (s : State),
    (s.rsti = true ∨ f.addr ≠ s.slk.address →
      exec (.readFrame f) s = .next { s.settle with slk := { s.slk with acks := [false], sent := [] } }) ∧
    (s.rsti = false → f.addr = s.slk.address →
      (s.slk.mailbox ≠ .responseReady ∨ f.late = true → exec (.readFrame f) s = .next { s.settle with
        slk := { s.slk with acks := [true], sent := List.replicate f.count 0xFF } }) ∧
      (s.slk.mailbox = .responseReady → f.late = false → ∃ bytes,
        bytes = (s.slk.response ++ List.replicate f.count 0x00).take f.count ∧
        (f.stop = true → s.slk.response.length ≤ f.count → exec (.readFrame f) s = .next { s.settle with
          slk := { s.slk with acks := [true], sent := bytes, mailbox := .idle, response := [] } }) ∧
        (f.stop = false ∨ f.count < s.slk.response.length → exec (.readFrame f) s = .next { s.settle with
          slk := { s.slk with acks := [true], sent := bytes } })))

/-- Write frames that are not taken as a command. The target's address is 0x58 plus LA, and no other is acknowledged; in
EXECUTING and RESPONSE_READY every data byte is refused and nothing stored; a frame of no data byte changes nothing.
Otherwise the first 16 data bytes are acknowledged: an abandoned frame empties the buffer and sets LKERR; an unknown code
is answered REFUSED_CODE and a length that is not the command's REFUSED_ARG, each with LKERR.
The model's own in it: log entries 14, 15 and 16. -/
def Obligations.WriteFramesNotTaken : Prop :=
  ∀ (s : State) (addr : BitVec 7) (data args : List Byte) (code : Byte) (supply : Millivolts) (ustb : Option Strobe),
    (s.slk.address).toNat = 0x58 + s.slk.la.toNat ∧
    exec (.emptyWriteFrame addr) s = .next { s.settle with
      slk := { s.slk with acks := [decide (s.rsti = false ∧ addr = s.slk.address)] } } ∧
    (s.rsti = true ∨ addr ≠ s.slk.address →
      let unheard := (Host.Outcome.next { s.settle with slk := { s.slk with acks := [false] } } : Out State)
      exec (.writeFrameAbandoned addr data) s = unheard ∧ exec (.writeFrameNak addr data) s = unheard ∧
      ∀ c : Instr, c.wellFormed = true → encodeFrame c = some (addr, code :: args) → exec c s = unheard) ∧
    (s.rsti = false → addr = s.slk.address → (s.slk.mailbox = .responseReady ∨ ∃ c, s.slk.mailbox = .executing c) →
      let refused := fun (bytes : List Byte) => (Host.Outcome.next { s.settle with
        slk := { s.slk with acks := true :: List.replicate bytes.length false } } : Out State)
      exec (.writeFrameAbandoned addr data) s = refused data ∧ exec (.writeFrameNak addr data) s = refused data ∧
      ∀ c : Instr, c.wellFormed = true → encodeFrame c = some (addr, code :: args) →
        exec c s = refused (code :: args)) ∧
    (LinkReady s addr →
      let acks := fun (bytes : List Byte) => true :: (List.range bytes.length).map (fun k => decide (k < 16))
      let answered := fun (status : Byte) => (Host.Outcome.next { s.settle with
        slk := { s.slk with mailbox := .responseReady, response := [status], command := [], acks := acks (code :: args) }
        sau := { s.sau with flags := s.sau.flags ||| 0b1000000000#10 } } : Out State)
      let f : LinkFrame := ⟨addr, args⟩
      exec (.writeFrameAbandoned addr data) s = .next { s.settle with
        slk := { s.slk with mailbox := .idle, command := [], acks := acks data }
        sau := { s.sau with flags := s.sau.flags ||| 0b1000000000#10 } } ∧
      (code ∉ commandCodes → exec (.unknownCommandCode code f) s = answered 0x04) ∧
      (args.length ≠ 0 → ∀ c ∈ [Instr.getStatus f, .getPolicy f, .commit f, .rollback f, .discard f, .getStats f,
        .clearStats f, .reset ⟨f, ustb⟩], exec c s = answered 0x03) ∧
      (args.length ≠ 1 → ∀ c ∈ [Instr.getWindow f, .format f], exec c s = answered 0x03) ∧
      (args.length ≠ 2 → ∀ c ∈ [Instr.readRecord f, .setAlertMask f, .clearFlags f], exec c s = answered 0x03) ∧
      (args.length ≠ 6 → exec (.setWindow f) s = answered 0x03) ∧
      (args.length ≠ 11 → exec (.setPolicy f supply) s = answered 0x03))

/-- GET_STATUS answers OK with the status record of 17 bytes and changes nothing else.
The model's own in it: log entries 14 and 16. -/
def Obligations.GetStatusReports : Prop :=
  ∀ (s : State) (addr : BitVec 7), LinkReady s addr →
    let state : Byte := match s.ec.state with
      | .unformatted => 0
      | .scanning => 1
      | .recoveryHold => 2
      | .active => 3
      | .committing => 4
      | .rollingBack => 5
      | .formatting => 6
      | .broken => 7
    let origin : Byte := match s.ec.origin with
      | none => 0
      | some .live => 1
      | some .recovery => 2
    let pwu : Nat := match s.pwu.state with
      | .normal => 0
      | .halting => 1
      | .halted => 2
    let power : Byte := BitVec.ofNat 8 (pwu + 4 * s.pwu.pfail.toNat + 8 * s.pwu.tripped.toNat + 16 * s.ec.rcva.toNat
      + 32 * s.tau.running.toNat)
    exec (.getStatus ⟨addr, []⟩) s = .next (s.replied 1 0x00
      ([state, origin] ++ leBytes 3 s.ec.epoch.toNat ++ [BitVec.ofNat 8 s.ec.code.val] ++ leBytes 2 s.ec.base
        ++ leBytes 2 s.ec.usage ++ [power] ++ leBytes 2 s.sau.flags.toNat ++ leBytes 2 s.sau.mask.toNat
        ++ leBytes 2 s.tau.age.toNat))

/-- SET_WINDOW with every argument in range replaces all three fields of its window, and with one out of range is answered
REFUSED_ARG and changes no window; GET_WINDOW returns a window's fields, or REFUSED_ARG above 7.
The model's own in it: log entries 14 and 16. -/
def Obligations.WindowCommands : Prop :=
  ∀ (s : State) (addr : BitVec 7) (n m k b0 b1 b2 : Byte), LinkReady s addr →
    let base := b0.toNat + 256 * b1.toNat + 65536 * b2.toNat
    let ok := n.toNat < 8 ∧ m.toNat < 4 ∧ k.toNat < 17 ∧ base < 4194304 ∧ base % (64 * 2 ^ k.toNat) = 0
    (ok → ∃ (i : Fin 8) (w : Window), i.val = n.toNat ∧ w.mode.code = m ∧ w.sizeCode.val = k.toNat ∧
      w.base.toNat = base ∧ exec (.setWindow ⟨addr, [n, m, k, b0, b1, b2]⟩) s = .next
        { s.replied 7 0x00 [] with windows := s.windows.set i w }) ∧
    (¬ok → exec (.setWindow ⟨addr, [n, m, k, b0, b1, b2]⟩) s = .next (s.replied 7 0x03 [])) ∧
    (∀ i : Fin 8, i.val = n.toNat → exec (.getWindow ⟨addr, [n]⟩) s = .next (s.replied 2 0x00
      ([s.windows[i].mode.code, BitVec.ofNat 8 s.windows[i].sizeCode.val] ++ leBytes 3 s.windows[i].base.toNat))) ∧
    (8 ≤ n.toNat → exec (.getWindow ⟨addr, [n]⟩) s = .next (s.replied 2 0x03 []))

/-- SET_POLICY: with a selected value out of range it is answered REFUSED_ARG and no setting changes; otherwise each
selected setting takes its value, the filter period with its sample counter at 0 and the tick divider with its divider
count at 0, the others are kept, and a threshold written makes the monitor compare at once. GET_POLICY returns the eight
settings. The model's own in it: log entries 14, 16 and 30. -/
def Obligations.PolicyCommands : Prop :=
  ∀ (s : State) (addr : BitVec 7) (m p w0 w1 d l0 l1 a fp rw th : Byte) (supply : Millivolts), LinkReady s addr →
    let bytes := [m, p, w0, w1, d, l0, l1, a, fp, rw, th]
    let bit := fun (k : Nat) => m.getLsbD k = true
    let mark := w0.toNat + 256 * w1.toNat
    let limit := l0.toNat + 256 * l1.toNat
    let bad := (bit 0 ∧ 2 ≤ p.toNat) ∨ (bit 1 ∧ 4096 ≤ mark) ∨ (bit 2 ∧ 4 ≤ d.toNat) ∨ (bit 3 ∧ limit = 0) ∨
      (bit 4 ∧ 4 ≤ a.toNat) ∨ (bit 5 ∧ 3 ≤ fp.toNat) ∨ (bit 6 ∧ 3 ≤ rw.toNat) ∨ (bit 7 ∧ 4 ≤ th.toNat)
    (bad → exec (.setPolicy ⟨addr, bytes⟩ supply) s = .next (s.replied 12 0x03 [])) ∧
    (¬bad → ∃ (policy : FullPolicy) (watermark : Fin 4096) (divider : TickDivider) (action : AgeAction)
        (period : FilterPeriod) (width : RstoWidth) (threshold : Threshold),
      let set := { s.received (0x04 :: bytes) with
        wju := { s.wju with policy := policy, watermark := watermark }
        tau := { s.tau with divider := divider, divCount := if bit 2 then 0 else s.tau.divCount
                            limit := if bit 3 then BitVec.ofNat 16 limit else s.tau.limit
                            action := action, width := width }
        rlu := { s.rlu with period := period, sampleCount := if bit 5 then 0 else s.rlu.sampleCount }
        pwu := { s.pwu with threshold := threshold } }
      (if bit 0 then policy.code = p else policy = s.wju.policy) ∧
      (if bit 1 then watermark.val = mark else watermark = s.wju.watermark) ∧
      (if bit 2 then divider.code = d else divider = s.tau.divider) ∧
      (if bit 4 then action.code = a else action = s.tau.action) ∧
      (if bit 5 then period.code = fp else period = s.rlu.period) ∧
      (if bit 6 then width.code = rw else width = s.tau.width) ∧
      (if bit 7 then threshold.code = th else threshold = s.pwu.threshold) ∧
      (¬bit 7 → exec (.setPolicy ⟨addr, bytes⟩ supply) s = .next (set.respond 0x00 [])) ∧
      (bit 7 → threshold = .off → exec (.setPolicy ⟨addr, bytes⟩ supply) s = .next
        ({ set with pwu := { set.pwu with tripped := false } }.respond 0x00 [])) ∧
      (∀ level, bit 7 → (threshold = .v285 ∧ level = 2850) ∨ (threshold = .v295 ∧ level = 2950) ∨
          (threshold = .v305 ∧ level = 3050) →
        (supply < level → s.pwu.tripped = false → exec (.setPolicy ⟨addr, bytes⟩ supply) s = .next
          ({ set with pwu := { set.pwu with tripped := true } }.haltInput.respond 0x00 [])) ∧
        (supply < level → s.pwu.tripped = true → exec (.setPolicy ⟨addr, bytes⟩ supply) s = .next
          (set.respond 0x00 [])) ∧
        (level + 50 ≤ supply → exec (.setPolicy ⟨addr, bytes⟩ supply) s = .next
          ({ set with pwu := { set.pwu with tripped := false } }.respond 0x00 [])) ∧
        (level ≤ supply → supply < level + 50 → exec (.setPolicy ⟨addr, bytes⟩ supply) s = .next
          (set.respond 0x00 [])))) ∧
    exec (.getPolicy ⟨addr, []⟩) s = .next (s.replied 1 0x00
      ([s.wju.policy.code] ++ leBytes 2 s.wju.watermark.val ++ [s.tau.divider.code] ++ leBytes 2 s.tau.limit.toNat
        ++ [s.tau.action.code, s.rlu.period.code, s.tau.width.code, s.pwu.threshold.code]))

/-- GET_STATS answers with the six statistics; CLEAR_STATS sets five to 0 and peak usage to usage; SET_ALERT_MASK sets
each enable from its position; CLEAR_FLAGS clears each flag whose position is 1, leaves the others and answers with the
flags after the clear; in every state ALRT# is asserted exactly while a set flag has its enable on.
The model's own in it: log entries 14 and 16. -/
def Obligations.StatisticsFlagsAndAlert : Prop :=
  (∀ s : State, s.alrt = true ↔ ∃ i < 10, s.sau.flags.getLsbD i = true ∧ s.sau.mask.getLsbD i = true) ∧
  ∀ (s : State) (addr : BitVec 7), LinkReady s addr →
    exec (.getStats ⟨addr, []⟩) s = .next (s.replied 1 0x00
      (leBytes 4 s.sau.commits.toNat ++ leBytes 4 s.sau.rollbacks.toNat ++ leBytes 4 s.sau.recoveries.toNat
        ++ leBytes 4 s.sau.appended.toNat ++ leBytes 2 s.sau.peak ++ leBytes 2 s.sau.lastCommitAge.toNat)) ∧
    exec (.clearStats ⟨addr, []⟩) s = .next { s.replied 1 0x00 [] with
      sau := { s.sau with commits := 0, rollbacks := 0, recoveries := 0, appended := 0, lastCommitAge := 0,
                          peak := s.ec.usage } } ∧
    (∀ lo hi : Byte, ∃ mask : BitVec 10,
      exec (.setAlertMask ⟨addr, [lo, hi]⟩) s = .next
        { s.replied 3 0x00 [] with sau := { s.sau with mask := mask } } ∧
      ∀ i < 10, mask.getLsbD i = if i < 8 then lo.getLsbD i else hi.getLsbD (i - 8)) ∧
    (∀ lo hi : Byte, ∃ flags : BitVec 10,
      exec (.clearFlags ⟨addr, [lo, hi]⟩) s = .next
        { s.replied 3 0x00 (leBytes 2 flags.toNat) with sau := { s.sau with flags := flags } } ∧
      ∀ i < 10, flags.getLsbD i =
        (s.sau.flags.getLsbD i && !(if i < 8 then lo.getLsbD i else hi.getLsbD (i - 8))))

/-- RESET is taken in every state: the link reset awaits action, a running RSTO# pulse ends, a waiting transaction is
answered RETRY and its request withdrawn, and the command stays in EXECUTING.
The model's own in it: log entries 10, 11, 12 and 14. -/
def Obligations.ResetCommandTaken : Prop :=
  ∀ (s : State) (addr : BitVec 7) (ustb : Option Strobe), LinkReady s addr →
    (∀ t, s.upu.phase = .waiting t → exec (.reset ⟨⟨addr, []⟩, ustb⟩) s = .next { s.executing [0x3F] .reset with
      upu := { phase := .idle, beat := some { response := some .retry, data := none } }
      mpa := { s.mpa with up := false, linkReset := true }
      tau := { s.tau with pulse := none }
      ustb := ustb }) ∧
    ((∀ t, s.upu.phase ≠ .waiting t) → exec (.reset ⟨⟨addr, []⟩, ustb⟩) s = .next { s.executing [0x3F] .reset with
      mpa := { s.mpa with linkReset := true }
      tau := { s.tau with pulse := none }
      ustb := ustb })

/-! ## Whole-machine rules -/

/-- A set flag stays set through every command but CLEAR_FLAGS and a hardware reset; the windows change at SET_WINDOW and
at a hardware reset alone; the two memories change at the completion of a word operation, and at a hardware reset that
meets one, alone. -/
def Obligations.FlagsWindowsMemoriesChangeOnlyAt : Prop :=
  ∀ (c : Instr) (s t : State), exec c s = .next t → (∀ cause begun bus, c ≠ .hardwareReset cause begun bus) →
    ((∀ f, c ≠ .clearFlags f) → ∀ i, s.sau.flags.getLsbD i = true → t.sau.flags.getLsbD i = true) ∧
    ((∀ f, c ≠ .setWindow f) → t.windows = s.windows) ∧
    ((∀ bus, c ≠ .wordOperationComplete bus) → t.dataMem = s.dataMem ∧ t.journalMem = s.journalMem)

/-- The EC's epoch number and usage. The epoch number stays, or rises by exactly 1 at the end of a commit, close or
discard job, or becomes 0 at the end of a format job, or is read at the end of a header read; or a reset leaves SCANNING
with epoch number 0. Usage rises by 1 only, and only at a word operation of an append or a scan step. -/
def Obligations.EpochAndUsageSteps : Prop :=
  ∀ (c : Instr) (s t : State), RingInv s → JobInv s → (s.ec.state = .scanning → s.ec.usage = s.ec.scanCount) →
    exec c s = .next t →
    (t.ec.epoch = s.ec.epoch ∨ (t.ec.state = .scanning ∧ t.ec.epoch = 0) ∨
      ∃ bus j, c = .wordOperationComplete bus ∧ s.mpa.job = some j ∧
        (j.kind = .headerRead ∨ ((∃ f, j.kind = .format f) ∧ t.ec.epoch = 0) ∨
          (((∃ b e n, j.kind = .commit b e n ∨ j.kind = .discard b e n) ∨ ∃ e, j.kind = .close e) ∧
            t.ec.epoch = s.ec.epoch + 1))) ∧
    (s.ec.usage < t.ec.usage → t.ec.usage = s.ec.usage + 1 ∧
      ∃ bus j, c = .wordOperationComplete bus ∧ s.mpa.job = some j ∧ ((∃ r, j.kind = .append r) ∨ j.kind = .scanStep))

/-! ## Formats -/

/-- The header test: valid exactly when the complement word is the complement of the layout word, the version is 1, the
code is 0 to 4 and the base is below S for that code; a valid header gives the code, the base and the epoch number. -/
def Obligations.HeaderTest : Prop :=
  ∀ layout commit complement : Word,
    let code := layout.toNat / 256 % 16
    let base := commit.toNat % 4096
    let valid := complement = ~~~layout ∧ layout.toNat % 256 = 1 ∧ code ≤ 4 ∧ base < 256 * 2 ^ code
    (valid → ∃ (c : Fin 5) (e : Epoch), c.val = code ∧ e.toNat = commit.toNat / 4096 % 524288 ∧
      headerTest layout commit complement = some (c, base, e)) ∧
    (¬valid → headerTest layout commit complement = none)

/-- The three classes of a slot read for a live epoch and an index, by its tag word and its check word. -/
def Obligations.SlotClasses : Prop :=
  ∀ (e : Epoch) (i : Nat) (words : List Word), words.length = 8 →
    let tag := (slotWord words 0).toNat
    let marker := 2147483648 ≤ tag
    let check := slotWord words 7 = ~~~(slotWord words 0 ^^^ slotWord words 1 ^^^ slotWord words 2 ^^^ slotWord words 3
      ^^^ slotWord words 4 ^^^ slotWord words 5 ^^^ slotWord words 6)
    let good := marker ∧ tag / 4096 % 524288 = e.toNat ∧ tag % 4096 = i ∧ check
    (tag = 0 → classifySlot e i words = .ending) ∧
    (good → classifySlot e i words = .good) ∧
    (tag ≠ 0 → ¬good → classifySlot e i words = .bad)

/-- The words of the header and of a record hold their fields at the positions of the stored formats, and the record an
append writes is good for its epoch and index. -/
def Obligations.StoredWords : Prop :=
  (∀ c : Fin 5, (layoutWord c).toNat = 1 + 256 * c.val) ∧
  (∀ (e : Epoch) (base : Nat), base < 4096 → (commitWord base e).toNat = e.toNat * 4096 + base ∧
    commitBase (commitWord base e) = base ∧ commitEpoch (commitWord base e) = e) ∧
  (∀ (e : Epoch) (i : Nat), i < 4096 → (tagWord e i).toNat = 2147483648 + e.toNat * 4096 + i) ∧
  (∀ l : Line, (lineWord l).toNat = l.toNat ∧ wordLine (lineWord l) = l) ∧
  (∀ (age : BitVec 16) (w : Fin 8), (stampWord age w).toNat = age.toNat + 65536 * w.val ∧
    stampAge (stampWord age w) = age ∧ (stampWindow (stampWord age w)).toNat = w.val) ∧
  (∀ (e : Epoch) (i : Nat) (r : RecordHead) (o0 o1 o2 o3 : Word), i < 4096 → r.tag = tagWord e i →
    classifySlot e i [r.tag, lineWord r.line, o0, o1, o2, o3, r.stamp, appendCheck r [o0, o1, o2, o3]] = .good) ∧
  (∀ slot w : Nat, slot < 4096 → w < 8 → (slotAddr slot w).toNat = 8 + 8 * slot + w)

/-- A hardware reset that meets a format job between two of its writes, or during one, which it lets complete, leaves in
journal memory a header that the header read finds invalid from the first write on, and valid with the new code, base 0 and
epoch 0, and slot 0 with its tag word cleared, only after the fifth; at the fifth the EC holds that code, base and epoch.
The model's own in it: log entry 9. -/
def Obligations.FormatCutByReset : Prop :=
  ∀ (s : State) (c : Fin 5) (buses : List UpstreamBus) (begun : Bool) (bus : UpstreamBus), MemoryInv s →
    s.mpa.job = some { kind := .format c, todo := formatOps c, reads := [] } →
    let made := min 5 (buses.length + if begun then 1 else 0)
    (∃ t, exec (.hardwareReset .pin begun bus) (s.afterOps buses) = .next t ∧
      let header := headerTest (t.journalMem.readWord 0) (t.journalMem.readWord 1) (t.journalMem.readWord 2)
      (made = 0 → t.journalMem = s.journalMem) ∧
      (1 ≤ made → made ≤ 4 → header = none) ∧
      (made = 5 → header = some (c, 0, 0) ∧ t.journalMem.readWord 8 = 0)) ∧
    (buses.length = 5 → (s.afterOps buses).ec.base = 0 ∧ (s.afterOps buses).ec.usage = 0 ∧
      (s.afterOps buses).ec.epoch = 0 ∧ (s.afterOps buses).ec.code = c)

/-- Link frames: every row that is a write frame ended by STOP is read back from its bytes with all its operands, what it
meets on the supply and on USTB being given, and a value of n bytes comes back from its bytes, least significant first. -/
def Obligations.FramesDecodeToTheirRows : Prop :=
  (∀ (c : Instr) (addr : BitVec 7) (bytes : List Byte) (v : Millivolts) (u : Option Strobe), c.wellFormed = true →
    encodeFrame c = some (addr, bytes) → (∀ f w, c = .setPolicy f w → w = v) → (∀ f, c = .reset f → f.ustb = u) →
    decodeFrame addr v u bytes = c) ∧
  (∀ n v : Nat, v < 256 ^ n → leValue (leBytes n v) = v ∧ (leBytes n v).length = n)

/-! ## Invariants -/

/-- Every step keeps both memories in their canonical form, the windows' bases aligned, each acknowledge high only under a
high filtered line, and the PWU's counter and state within their bounds. The model's own in it: the canonical form, which
is the model's way to hold a memory (log entry 6). -/
def Obligations.MemoriesWindowsLinesPwuKept : Prop :=
  ∀ s t : State, step s = .next t →
    (MemoryInv s → MemoryInv t) ∧ (WindowInv s → WindowInv t) ∧ (AckInv s → AckInv t) ∧ (PwuInv s → PwuInv t)

/-- Every step keeps the UPU's state and the MPA's UP place and UP job in agreement. -/
def Obligations.UpuAndPortAgree : Prop := ∀ s t : State, UpuInv s → step s = .next t → UpuInv t

/-- Every step keeps base, usage and end slot in the ring, usage at most S − 1, and the end slot at head in SCANNING,
ACTIVE and COMMITTING. The model's own in it: log entry 37. -/
def Obligations.RingKept : Prop := ∀ s t : State, EndSlotInv s → step s = .next t → EndSlotInv t

/-- Every step keeps the age counter running exactly in ACTIVE and COMMITTING with usage at least 1. -/
def Obligations.AgeCounterRunsWithTheEpoch : Prop := ∀ s t : State, AgeInv s → step s = .next t → AgeInv t

/-- Every step keeps the JLT ordered, without duplicates, and with no more valid entries than usage; and, with the journal
as the EC takes it, every line held in the JLT keeps a record of the live epoch in the span. -/
def Obligations.JltStaysOrdered : Prop :=
  ∀ s t : State, step s = .next t → JltInv s → JltInv t ∧ (JournalInv s → JltRecordsInv s → JltRecordsInv t)

/-- Every step keeps the pending slots, the in-progress set and the origin to the EC states that may hold them. -/
def Obligations.SourceSetsFitTheState : Prop := ∀ s t : State, EcSetsInv s → step s = .next t → EcSetsInv t

/-- Every step keeps the EC's base and epoch number equal to those in the commit word whenever the EC holds a journal; and
in a FORMATTING entered from a state that holds one (ACTIVE, BROKEN or RECOVERY_HOLD) they stay equal until the format
job's third write. -/
def Obligations.CommitWordAgrees : Prop :=
  ∀ s t : State, CommitWordInv s → step s = .next t → CommitWordInv t ∧
    (t.ec.state = .formatting → BeforeThirdWrite t →
      s.ec.holdsJournal = true ∨ (s.ec.state = .formatting ∧ CommitAgrees s) → CommitAgrees t)

/-- Every step keeps the journal what the EC takes it for: a good record at each index below usage, and a tag word of 0
in the end slot. The model's own in it: log entries 36 and 37. -/
def Obligations.JournalHoldsTheLiveSpan : Prop := ∀ s t : State, JournalInv s → step s = .next t → JournalInv t

/-- The machine right after reset is in every invariant. The model's own in it: log entry 21. -/
def Obligations.ResetIsInEveryInvariant : Prop :=
  MemoryInv State.reset ∧ WindowInv State.reset ∧ AckInv State.reset ∧ PwuInv State.reset ∧ UpuInv State.reset ∧
    EndSlotInv State.reset ∧ AgeInv State.reset ∧ JltInv State.reset ∧ EcSetsInv State.reset ∧
    CommitWordInv State.reset ∧ JournalInv State.reset ∧ JltRecordsInv State.reset ∧ HeldInv State.reset
end

