-- ==== Sys2Proof/Laws/State.lean ====
section
/-! SUPPORT. What each shared operation leaves alone: one lemma per operation and field of State, so that no later proof
unfolds a record update to see a field it does not touch; and the values of the fields it writes. -/

namespace Sys2Proof.Machine

/-! ### settle changes upu alone -/
@[simp] theorem State.settle_mpa (s : State) : (s.settle).mpa = s.mpa := rfl
@[simp] theorem State.settle_ec (s : State) : (s.settle).ec = s.ec := rfl
@[simp] theorem State.settle_wju (s : State) : (s.settle).wju = s.wju := rfl
@[simp] theorem State.settle_windows (s : State) : (s.settle).windows = s.windows := rfl
@[simp] theorem State.settle_tau (s : State) : (s.settle).tau = s.tau := rfl
@[simp] theorem State.settle_rlu (s : State) : (s.settle).rlu = s.rlu := rfl
@[simp] theorem State.settle_pwu (s : State) : (s.settle).pwu = s.pwu := rfl
@[simp] theorem State.settle_slk (s : State) : (s.settle).slk = s.slk := rfl
@[simp] theorem State.settle_sau (s : State) : (s.settle).sau = s.sau := rfl
@[simp] theorem State.settle_dataMem (s : State) : (s.settle).dataMem = s.dataMem := rfl
@[simp] theorem State.settle_journalMem (s : State) : (s.settle).journalMem = s.journalMem := rfl
@[simp] theorem State.settle_rsti (s : State) : (s.settle).rsti = s.rsti := rfl
@[simp] theorem State.settle_freeCount (s : State) : (s.settle).freeCount = s.freeCount := rfl
@[simp] theorem State.settle_pending (s : State) : (s.settle).pending = s.pending := rfl
@[simp] theorem State.settle_ustb (s : State) : (s.settle).ustb = s.ustb := rfl

/-! ### present changes ustb alone -/
@[simp] theorem State.present_ustb (s : State) (u : Option Strobe) : (s.present u).ustb = u := rfl
@[simp] theorem State.present_upu (s : State) (u : Option Strobe) : (s.present u).upu = s.upu := rfl
@[simp] theorem State.present_mpa (s : State) (u : Option Strobe) : (s.present u).mpa = s.mpa := rfl
@[simp] theorem State.present_ec (s : State) (u : Option Strobe) : (s.present u).ec = s.ec := rfl
@[simp] theorem State.present_wju (s : State) (u : Option Strobe) : (s.present u).wju = s.wju := rfl
@[simp] theorem State.present_windows (s : State) (u : Option Strobe) : (s.present u).windows = s.windows := rfl
@[simp] theorem State.present_tau (s : State) (u : Option Strobe) : (s.present u).tau = s.tau := rfl
@[simp] theorem State.present_rlu (s : State) (u : Option Strobe) : (s.present u).rlu = s.rlu := rfl
@[simp] theorem State.present_pwu (s : State) (u : Option Strobe) : (s.present u).pwu = s.pwu := rfl
@[simp] theorem State.present_slk (s : State) (u : Option Strobe) : (s.present u).slk = s.slk := rfl
@[simp] theorem State.present_sau (s : State) (u : Option Strobe) : (s.present u).sau = s.sau := rfl
@[simp] theorem State.present_dataMem (s : State) (u : Option Strobe) : (s.present u).dataMem = s.dataMem := rfl
@[simp] theorem State.present_journalMem (s : State) (u : Option Strobe) : (s.present u).journalMem = s.journalMem := rfl
@[simp] theorem State.present_rsti (s : State) (u : Option Strobe) : (s.present u).rsti = s.rsti := rfl
@[simp] theorem State.present_freeCount (s : State) (u : Option Strobe) : (s.present u).freeCount = s.freeCount := rfl
@[simp] theorem State.present_pending (s : State) (u : Option Strobe) : (s.present u).pending = s.pending := rfl

/-! ### answer changes upu alone -/
@[simp] theorem State.answer_mpa (s : State) (r : Response) : (s.answer r).mpa = s.mpa := rfl
@[simp] theorem State.answer_ec (s : State) (r : Response) : (s.answer r).ec = s.ec := rfl
@[simp] theorem State.answer_wju (s : State) (r : Response) : (s.answer r).wju = s.wju := rfl
@[simp] theorem State.answer_windows (s : State) (r : Response) : (s.answer r).windows = s.windows := rfl
@[simp] theorem State.answer_tau (s : State) (r : Response) : (s.answer r).tau = s.tau := rfl
@[simp] theorem State.answer_rlu (s : State) (r : Response) : (s.answer r).rlu = s.rlu := rfl
@[simp] theorem State.answer_pwu (s : State) (r : Response) : (s.answer r).pwu = s.pwu := rfl
@[simp] theorem State.answer_slk (s : State) (r : Response) : (s.answer r).slk = s.slk := rfl
@[simp] theorem State.answer_sau (s : State) (r : Response) : (s.answer r).sau = s.sau := rfl
@[simp] theorem State.answer_dataMem (s : State) (r : Response) : (s.answer r).dataMem = s.dataMem := rfl
@[simp] theorem State.answer_journalMem (s : State) (r : Response) : (s.answer r).journalMem = s.journalMem := rfl
@[simp] theorem State.answer_rsti (s : State) (r : Response) : (s.answer r).rsti = s.rsti := rfl
@[simp] theorem State.answer_freeCount (s : State) (r : Response) : (s.answer r).freeCount = s.freeCount := rfl
@[simp] theorem State.answer_pending (s : State) (r : Response) : (s.answer r).pending = s.pending := rfl
@[simp] theorem State.answer_ustb (s : State) (r : Response) : (s.answer r).ustb = s.ustb := rfl

/-! ### postEc changes mpa alone -/
@[simp] theorem State.postEc_upu (s : State) : (s.postEc).upu = s.upu := rfl
@[simp] theorem State.postEc_ec (s : State) : (s.postEc).ec = s.ec := rfl
@[simp] theorem State.postEc_wju (s : State) : (s.postEc).wju = s.wju := rfl
@[simp] theorem State.postEc_windows (s : State) : (s.postEc).windows = s.windows := rfl
@[simp] theorem State.postEc_tau (s : State) : (s.postEc).tau = s.tau := rfl
@[simp] theorem State.postEc_rlu (s : State) : (s.postEc).rlu = s.rlu := rfl
@[simp] theorem State.postEc_pwu (s : State) : (s.postEc).pwu = s.pwu := rfl
@[simp] theorem State.postEc_slk (s : State) : (s.postEc).slk = s.slk := rfl
@[simp] theorem State.postEc_sau (s : State) : (s.postEc).sau = s.sau := rfl
@[simp] theorem State.postEc_dataMem (s : State) : (s.postEc).dataMem = s.dataMem := rfl
@[simp] theorem State.postEc_journalMem (s : State) : (s.postEc).journalMem = s.journalMem := rfl
@[simp] theorem State.postEc_rsti (s : State) : (s.postEc).rsti = s.rsti := rfl
@[simp] theorem State.postEc_freeCount (s : State) : (s.postEc).freeCount = s.freeCount := rfl
@[simp] theorem State.postEc_pending (s : State) : (s.postEc).pending = s.pending := rfl
@[simp] theorem State.postEc_ustb (s : State) : (s.postEc).ustb = s.ustb := rfl

/-! ### postLk changes mpa alone -/
@[simp] theorem State.postLk_upu (s : State) : (s.postLk).upu = s.upu := rfl
@[simp] theorem State.postLk_ec (s : State) : (s.postLk).ec = s.ec := rfl
@[simp] theorem State.postLk_wju (s : State) : (s.postLk).wju = s.wju := rfl
@[simp] theorem State.postLk_windows (s : State) : (s.postLk).windows = s.windows := rfl
@[simp] theorem State.postLk_tau (s : State) : (s.postLk).tau = s.tau := rfl
@[simp] theorem State.postLk_rlu (s : State) : (s.postLk).rlu = s.rlu := rfl
@[simp] theorem State.postLk_pwu (s : State) : (s.postLk).pwu = s.pwu := rfl
@[simp] theorem State.postLk_slk (s : State) : (s.postLk).slk = s.slk := rfl
@[simp] theorem State.postLk_sau (s : State) : (s.postLk).sau = s.sau := rfl
@[simp] theorem State.postLk_dataMem (s : State) : (s.postLk).dataMem = s.dataMem := rfl
@[simp] theorem State.postLk_journalMem (s : State) : (s.postLk).journalMem = s.journalMem := rfl
@[simp] theorem State.postLk_rsti (s : State) : (s.postLk).rsti = s.rsti := rfl
@[simp] theorem State.postLk_freeCount (s : State) : (s.postLk).freeCount = s.freeCount := rfl
@[simp] theorem State.postLk_pending (s : State) : (s.postLk).pending = s.pending := rfl
@[simp] theorem State.postLk_ustb (s : State) : (s.postLk).ustb = s.ustb := rfl

/-! ### postUp changes upu, mpa alone -/
@[simp] theorem State.postUp_ec (s : State) (t : Transaction) : (s.postUp t).ec = s.ec := rfl
@[simp] theorem State.postUp_wju (s : State) (t : Transaction) : (s.postUp t).wju = s.wju := rfl
@[simp] theorem State.postUp_windows (s : State) (t : Transaction) : (s.postUp t).windows = s.windows := rfl
@[simp] theorem State.postUp_tau (s : State) (t : Transaction) : (s.postUp t).tau = s.tau := rfl
@[simp] theorem State.postUp_rlu (s : State) (t : Transaction) : (s.postUp t).rlu = s.rlu := rfl
@[simp] theorem State.postUp_pwu (s : State) (t : Transaction) : (s.postUp t).pwu = s.pwu := rfl
@[simp] theorem State.postUp_slk (s : State) (t : Transaction) : (s.postUp t).slk = s.slk := rfl
@[simp] theorem State.postUp_sau (s : State) (t : Transaction) : (s.postUp t).sau = s.sau := rfl
@[simp] theorem State.postUp_dataMem (s : State) (t : Transaction) : (s.postUp t).dataMem = s.dataMem := rfl
@[simp] theorem State.postUp_journalMem (s : State) (t : Transaction) : (s.postUp t).journalMem = s.journalMem := rfl
@[simp] theorem State.postUp_rsti (s : State) (t : Transaction) : (s.postUp t).rsti = s.rsti := rfl
@[simp] theorem State.postUp_freeCount (s : State) (t : Transaction) : (s.postUp t).freeCount = s.freeCount := rfl
@[simp] theorem State.postUp_pending (s : State) (t : Transaction) : (s.postUp t).pending = s.pending := rfl
@[simp] theorem State.postUp_ustb (s : State) (t : Transaction) : (s.postUp t).ustb = s.ustb := rfl

/-! ### respond changes slk alone -/
@[simp] theorem State.respond_upu (s : State) (b : Byte) (p : List Byte) : (s.respond b p).upu = s.upu := rfl
@[simp] theorem State.respond_mpa (s : State) (b : Byte) (p : List Byte) : (s.respond b p).mpa = s.mpa := rfl
@[simp] theorem State.respond_ec (s : State) (b : Byte) (p : List Byte) : (s.respond b p).ec = s.ec := rfl
@[simp] theorem State.respond_wju (s : State) (b : Byte) (p : List Byte) : (s.respond b p).wju = s.wju := rfl
@[simp] theorem State.respond_windows (s : State) (b : Byte) (p : List Byte) : (s.respond b p).windows = s.windows := rfl
@[simp] theorem State.respond_tau (s : State) (b : Byte) (p : List Byte) : (s.respond b p).tau = s.tau := rfl
@[simp] theorem State.respond_rlu (s : State) (b : Byte) (p : List Byte) : (s.respond b p).rlu = s.rlu := rfl
@[simp] theorem State.respond_pwu (s : State) (b : Byte) (p : List Byte) : (s.respond b p).pwu = s.pwu := rfl
@[simp] theorem State.respond_sau (s : State) (b : Byte) (p : List Byte) : (s.respond b p).sau = s.sau := rfl
@[simp] theorem State.respond_dataMem (s : State) (b : Byte) (p : List Byte) : (s.respond b p).dataMem = s.dataMem := rfl
@[simp] theorem State.respond_journalMem (s : State) (b : Byte) (p : List Byte) : (s.respond b p).journalMem = s.journalMem := rfl
@[simp] theorem State.respond_rsti (s : State) (b : Byte) (p : List Byte) : (s.respond b p).rsti = s.rsti := rfl
@[simp] theorem State.respond_freeCount (s : State) (b : Byte) (p : List Byte) : (s.respond b p).freeCount = s.freeCount := rfl
@[simp] theorem State.respond_pending (s : State) (b : Byte) (p : List Byte) : (s.respond b p).pending = s.pending := rfl
@[simp] theorem State.respond_ustb (s : State) (b : Byte) (p : List Byte) : (s.respond b p).ustb = s.ustb := rfl

/-! ### await changes slk alone -/
@[simp] theorem State.await_upu (s : State) (c : WaitingCommand) : (s.await c).upu = s.upu := rfl
@[simp] theorem State.await_mpa (s : State) (c : WaitingCommand) : (s.await c).mpa = s.mpa := rfl
@[simp] theorem State.await_ec (s : State) (c : WaitingCommand) : (s.await c).ec = s.ec := rfl
@[simp] theorem State.await_wju (s : State) (c : WaitingCommand) : (s.await c).wju = s.wju := rfl
@[simp] theorem State.await_windows (s : State) (c : WaitingCommand) : (s.await c).windows = s.windows := rfl
@[simp] theorem State.await_tau (s : State) (c : WaitingCommand) : (s.await c).tau = s.tau := rfl
@[simp] theorem State.await_rlu (s : State) (c : WaitingCommand) : (s.await c).rlu = s.rlu := rfl
@[simp] theorem State.await_pwu (s : State) (c : WaitingCommand) : (s.await c).pwu = s.pwu := rfl
@[simp] theorem State.await_sau (s : State) (c : WaitingCommand) : (s.await c).sau = s.sau := rfl
@[simp] theorem State.await_dataMem (s : State) (c : WaitingCommand) : (s.await c).dataMem = s.dataMem := rfl
@[simp] theorem State.await_journalMem (s : State) (c : WaitingCommand) : (s.await c).journalMem = s.journalMem := rfl
@[simp] theorem State.await_rsti (s : State) (c : WaitingCommand) : (s.await c).rsti = s.rsti := rfl
@[simp] theorem State.await_freeCount (s : State) (c : WaitingCommand) : (s.await c).freeCount = s.freeCount := rfl
@[simp] theorem State.await_pending (s : State) (c : WaitingCommand) : (s.await c).pending = s.pending := rfl
@[simp] theorem State.await_ustb (s : State) (c : WaitingCommand) : (s.await c).ustb = s.ustb := rfl

/-! ### raise changes sau alone -/
@[simp] theorem State.raise_upu (s : State) (f : Flag) : (s.raise f).upu = s.upu := rfl
@[simp] theorem State.raise_mpa (s : State) (f : Flag) : (s.raise f).mpa = s.mpa := rfl
@[simp] theorem State.raise_ec (s : State) (f : Flag) : (s.raise f).ec = s.ec := rfl
@[simp] theorem State.raise_wju (s : State) (f : Flag) : (s.raise f).wju = s.wju := rfl
@[simp] theorem State.raise_windows (s : State) (f : Flag) : (s.raise f).windows = s.windows := rfl
@[simp] theorem State.raise_tau (s : State) (f : Flag) : (s.raise f).tau = s.tau := rfl
@[simp] theorem State.raise_rlu (s : State) (f : Flag) : (s.raise f).rlu = s.rlu := rfl
@[simp] theorem State.raise_pwu (s : State) (f : Flag) : (s.raise f).pwu = s.pwu := rfl
@[simp] theorem State.raise_slk (s : State) (f : Flag) : (s.raise f).slk = s.slk := rfl
@[simp] theorem State.raise_dataMem (s : State) (f : Flag) : (s.raise f).dataMem = s.dataMem := rfl
@[simp] theorem State.raise_journalMem (s : State) (f : Flag) : (s.raise f).journalMem = s.journalMem := rfl
@[simp] theorem State.raise_rsti (s : State) (f : Flag) : (s.raise f).rsti = s.rsti := rfl
@[simp] theorem State.raise_freeCount (s : State) (f : Flag) : (s.raise f).freeCount = s.freeCount := rfl
@[simp] theorem State.raise_pending (s : State) (f : Flag) : (s.raise f).pending = s.pending := rfl
@[simp] theorem State.raise_ustb (s : State) (f : Flag) : (s.raise f).ustb = s.ustb := rfl

/-! ### refusalNotice changes sau alone -/
@[simp] theorem State.refusalNotice_upu (s : State) : (s.refusalNotice).upu = s.upu := rfl
@[simp] theorem State.refusalNotice_mpa (s : State) : (s.refusalNotice).mpa = s.mpa := rfl
@[simp] theorem State.refusalNotice_ec (s : State) : (s.refusalNotice).ec = s.ec := rfl
@[simp] theorem State.refusalNotice_wju (s : State) : (s.refusalNotice).wju = s.wju := rfl
@[simp] theorem State.refusalNotice_windows (s : State) : (s.refusalNotice).windows = s.windows := rfl
@[simp] theorem State.refusalNotice_tau (s : State) : (s.refusalNotice).tau = s.tau := rfl
@[simp] theorem State.refusalNotice_rlu (s : State) : (s.refusalNotice).rlu = s.rlu := rfl
@[simp] theorem State.refusalNotice_pwu (s : State) : (s.refusalNotice).pwu = s.pwu := rfl
@[simp] theorem State.refusalNotice_slk (s : State) : (s.refusalNotice).slk = s.slk := rfl
@[simp] theorem State.refusalNotice_dataMem (s : State) : (s.refusalNotice).dataMem = s.dataMem := rfl
@[simp] theorem State.refusalNotice_journalMem (s : State) : (s.refusalNotice).journalMem = s.journalMem := rfl
@[simp] theorem State.refusalNotice_rsti (s : State) : (s.refusalNotice).rsti = s.rsti := rfl
@[simp] theorem State.refusalNotice_freeCount (s : State) : (s.refusalNotice).freeCount = s.freeCount := rfl
@[simp] theorem State.refusalNotice_pending (s : State) : (s.refusalNotice).pending = s.pending := rfl
@[simp] theorem State.refusalNotice_ustb (s : State) : (s.refusalNotice).ustb = s.ustb := rfl

/-! ### clearFlagBits changes sau alone -/
@[simp] theorem State.clearFlagBits_upu (s : State) (m : BitVec 10) : (s.clearFlagBits m).upu = s.upu := rfl
@[simp] theorem State.clearFlagBits_mpa (s : State) (m : BitVec 10) : (s.clearFlagBits m).mpa = s.mpa := rfl
@[simp] theorem State.clearFlagBits_ec (s : State) (m : BitVec 10) : (s.clearFlagBits m).ec = s.ec := rfl
@[simp] theorem State.clearFlagBits_wju (s : State) (m : BitVec 10) : (s.clearFlagBits m).wju = s.wju := rfl
@[simp] theorem State.clearFlagBits_windows (s : State) (m : BitVec 10) : (s.clearFlagBits m).windows = s.windows := rfl
@[simp] theorem State.clearFlagBits_tau (s : State) (m : BitVec 10) : (s.clearFlagBits m).tau = s.tau := rfl
@[simp] theorem State.clearFlagBits_rlu (s : State) (m : BitVec 10) : (s.clearFlagBits m).rlu = s.rlu := rfl
@[simp] theorem State.clearFlagBits_pwu (s : State) (m : BitVec 10) : (s.clearFlagBits m).pwu = s.pwu := rfl
@[simp] theorem State.clearFlagBits_slk (s : State) (m : BitVec 10) : (s.clearFlagBits m).slk = s.slk := rfl
@[simp] theorem State.clearFlagBits_dataMem (s : State) (m : BitVec 10) : (s.clearFlagBits m).dataMem = s.dataMem := rfl
@[simp] theorem State.clearFlagBits_journalMem (s : State) (m : BitVec 10) : (s.clearFlagBits m).journalMem = s.journalMem := rfl
@[simp] theorem State.clearFlagBits_rsti (s : State) (m : BitVec 10) : (s.clearFlagBits m).rsti = s.rsti := rfl
@[simp] theorem State.clearFlagBits_freeCount (s : State) (m : BitVec 10) : (s.clearFlagBits m).freeCount = s.freeCount := rfl
@[simp] theorem State.clearFlagBits_pending (s : State) (m : BitVec 10) : (s.clearFlagBits m).pending = s.pending := rfl
@[simp] theorem State.clearFlagBits_ustb (s : State) (m : BitVec 10) : (s.clearFlagBits m).ustb = s.ustb := rfl

/-! ### emptyJlt changes wju alone -/
@[simp] theorem State.emptyJlt_upu (s : State) : (s.emptyJlt).upu = s.upu := rfl
@[simp] theorem State.emptyJlt_mpa (s : State) : (s.emptyJlt).mpa = s.mpa := rfl
@[simp] theorem State.emptyJlt_ec (s : State) : (s.emptyJlt).ec = s.ec := rfl
@[simp] theorem State.emptyJlt_windows (s : State) : (s.emptyJlt).windows = s.windows := rfl
@[simp] theorem State.emptyJlt_tau (s : State) : (s.emptyJlt).tau = s.tau := rfl
@[simp] theorem State.emptyJlt_rlu (s : State) : (s.emptyJlt).rlu = s.rlu := rfl
@[simp] theorem State.emptyJlt_pwu (s : State) : (s.emptyJlt).pwu = s.pwu := rfl
@[simp] theorem State.emptyJlt_slk (s : State) : (s.emptyJlt).slk = s.slk := rfl
@[simp] theorem State.emptyJlt_sau (s : State) : (s.emptyJlt).sau = s.sau := rfl
@[simp] theorem State.emptyJlt_dataMem (s : State) : (s.emptyJlt).dataMem = s.dataMem := rfl
@[simp] theorem State.emptyJlt_journalMem (s : State) : (s.emptyJlt).journalMem = s.journalMem := rfl
@[simp] theorem State.emptyJlt_rsti (s : State) : (s.emptyJlt).rsti = s.rsti := rfl
@[simp] theorem State.emptyJlt_freeCount (s : State) : (s.emptyJlt).freeCount = s.freeCount := rfl
@[simp] theorem State.emptyJlt_pending (s : State) : (s.emptyJlt).pending = s.pending := rfl
@[simp] theorem State.emptyJlt_ustb (s : State) : (s.emptyJlt).ustb = s.ustb := rfl

/-! ### takeCommit changes ec, mpa alone -/
@[simp] theorem State.takeCommit_upu (s : State) (set : Sources) : (s.takeCommit set).upu = s.upu := rfl
@[simp] theorem State.takeCommit_wju (s : State) (set : Sources) : (s.takeCommit set).wju = s.wju := rfl
@[simp] theorem State.takeCommit_windows (s : State) (set : Sources) : (s.takeCommit set).windows = s.windows := rfl
@[simp] theorem State.takeCommit_tau (s : State) (set : Sources) : (s.takeCommit set).tau = s.tau := rfl
@[simp] theorem State.takeCommit_rlu (s : State) (set : Sources) : (s.takeCommit set).rlu = s.rlu := rfl
@[simp] theorem State.takeCommit_pwu (s : State) (set : Sources) : (s.takeCommit set).pwu = s.pwu := rfl
@[simp] theorem State.takeCommit_slk (s : State) (set : Sources) : (s.takeCommit set).slk = s.slk := rfl
@[simp] theorem State.takeCommit_sau (s : State) (set : Sources) : (s.takeCommit set).sau = s.sau := rfl
@[simp] theorem State.takeCommit_dataMem (s : State) (set : Sources) : (s.takeCommit set).dataMem = s.dataMem := rfl
@[simp] theorem State.takeCommit_journalMem (s : State) (set : Sources) : (s.takeCommit set).journalMem = s.journalMem := rfl
@[simp] theorem State.takeCommit_rsti (s : State) (set : Sources) : (s.takeCommit set).rsti = s.rsti := rfl
@[simp] theorem State.takeCommit_freeCount (s : State) (set : Sources) : (s.takeCommit set).freeCount = s.freeCount := rfl
@[simp] theorem State.takeCommit_pending (s : State) (set : Sources) : (s.takeCommit set).pending = s.pending := rfl
@[simp] theorem State.takeCommit_ustb (s : State) (set : Sources) : (s.takeCommit set).ustb = s.ustb := rfl

/-! ### takeRollback changes ec, mpa, wju, tau alone -/
@[simp] theorem State.takeRollback_upu (s : State) (o : Origin) (set : Sources) : (s.takeRollback o set).upu = s.upu := rfl
@[simp] theorem State.takeRollback_windows (s : State) (o : Origin) (set : Sources) : (s.takeRollback o set).windows = s.windows := rfl
@[simp] theorem State.takeRollback_rlu (s : State) (o : Origin) (set : Sources) : (s.takeRollback o set).rlu = s.rlu := rfl
@[simp] theorem State.takeRollback_pwu (s : State) (o : Origin) (set : Sources) : (s.takeRollback o set).pwu = s.pwu := rfl
@[simp] theorem State.takeRollback_slk (s : State) (o : Origin) (set : Sources) : (s.takeRollback o set).slk = s.slk := rfl
@[simp] theorem State.takeRollback_sau (s : State) (o : Origin) (set : Sources) : (s.takeRollback o set).sau = s.sau := rfl
@[simp] theorem State.takeRollback_dataMem (s : State) (o : Origin) (set : Sources) : (s.takeRollback o set).dataMem = s.dataMem := rfl
@[simp] theorem State.takeRollback_journalMem (s : State) (o : Origin) (set : Sources) : (s.takeRollback o set).journalMem = s.journalMem := rfl
@[simp] theorem State.takeRollback_rsti (s : State) (o : Origin) (set : Sources) : (s.takeRollback o set).rsti = s.rsti := rfl
@[simp] theorem State.takeRollback_freeCount (s : State) (o : Origin) (set : Sources) : (s.takeRollback o set).freeCount = s.freeCount := rfl
@[simp] theorem State.takeRollback_pending (s : State) (o : Origin) (set : Sources) : (s.takeRollback o set).pending = s.pending := rfl
@[simp] theorem State.takeRollback_ustb (s : State) (o : Origin) (set : Sources) : (s.takeRollback o set).ustb = s.ustb := rfl

/-! ### takeFormat changes ec, mpa alone -/
@[simp] theorem State.takeFormat_upu (s : State) (c : Fin 5) : (s.takeFormat c).upu = s.upu := rfl
@[simp] theorem State.takeFormat_wju (s : State) (c : Fin 5) : (s.takeFormat c).wju = s.wju := rfl
@[simp] theorem State.takeFormat_windows (s : State) (c : Fin 5) : (s.takeFormat c).windows = s.windows := rfl
@[simp] theorem State.takeFormat_tau (s : State) (c : Fin 5) : (s.takeFormat c).tau = s.tau := rfl
@[simp] theorem State.takeFormat_rlu (s : State) (c : Fin 5) : (s.takeFormat c).rlu = s.rlu := rfl
@[simp] theorem State.takeFormat_pwu (s : State) (c : Fin 5) : (s.takeFormat c).pwu = s.pwu := rfl
@[simp] theorem State.takeFormat_slk (s : State) (c : Fin 5) : (s.takeFormat c).slk = s.slk := rfl
@[simp] theorem State.takeFormat_sau (s : State) (c : Fin 5) : (s.takeFormat c).sau = s.sau := rfl
@[simp] theorem State.takeFormat_dataMem (s : State) (c : Fin 5) : (s.takeFormat c).dataMem = s.dataMem := rfl
@[simp] theorem State.takeFormat_journalMem (s : State) (c : Fin 5) : (s.takeFormat c).journalMem = s.journalMem := rfl
@[simp] theorem State.takeFormat_rsti (s : State) (c : Fin 5) : (s.takeFormat c).rsti = s.rsti := rfl
@[simp] theorem State.takeFormat_freeCount (s : State) (c : Fin 5) : (s.takeFormat c).freeCount = s.freeCount := rfl
@[simp] theorem State.takeFormat_pending (s : State) (c : Fin 5) : (s.takeFormat c).pending = s.pending := rfl
@[simp] theorem State.takeFormat_ustb (s : State) (c : Fin 5) : (s.takeFormat c).ustb = s.ustb := rfl

/-! ### holdCommit changes ec alone -/
@[simp] theorem State.holdCommit_upu (s : State) (x : Source) : (s.holdCommit x).upu = s.upu := rfl
@[simp] theorem State.holdCommit_mpa (s : State) (x : Source) : (s.holdCommit x).mpa = s.mpa := rfl
@[simp] theorem State.holdCommit_wju (s : State) (x : Source) : (s.holdCommit x).wju = s.wju := rfl
@[simp] theorem State.holdCommit_windows (s : State) (x : Source) : (s.holdCommit x).windows = s.windows := rfl
@[simp] theorem State.holdCommit_tau (s : State) (x : Source) : (s.holdCommit x).tau = s.tau := rfl
@[simp] theorem State.holdCommit_rlu (s : State) (x : Source) : (s.holdCommit x).rlu = s.rlu := rfl
@[simp] theorem State.holdCommit_pwu (s : State) (x : Source) : (s.holdCommit x).pwu = s.pwu := rfl
@[simp] theorem State.holdCommit_slk (s : State) (x : Source) : (s.holdCommit x).slk = s.slk := rfl
@[simp] theorem State.holdCommit_sau (s : State) (x : Source) : (s.holdCommit x).sau = s.sau := rfl
@[simp] theorem State.holdCommit_dataMem (s : State) (x : Source) : (s.holdCommit x).dataMem = s.dataMem := rfl
@[simp] theorem State.holdCommit_journalMem (s : State) (x : Source) : (s.holdCommit x).journalMem = s.journalMem := rfl
@[simp] theorem State.holdCommit_rsti (s : State) (x : Source) : (s.holdCommit x).rsti = s.rsti := rfl
@[simp] theorem State.holdCommit_freeCount (s : State) (x : Source) : (s.holdCommit x).freeCount = s.freeCount := rfl
@[simp] theorem State.holdCommit_pending (s : State) (x : Source) : (s.holdCommit x).pending = s.pending := rfl
@[simp] theorem State.holdCommit_ustb (s : State) (x : Source) : (s.holdCommit x).ustb = s.ustb := rfl

/-! ### holdRollback changes ec alone -/
@[simp] theorem State.holdRollback_upu (s : State) (x : Source) : (s.holdRollback x).upu = s.upu := rfl
@[simp] theorem State.holdRollback_mpa (s : State) (x : Source) : (s.holdRollback x).mpa = s.mpa := rfl
@[simp] theorem State.holdRollback_wju (s : State) (x : Source) : (s.holdRollback x).wju = s.wju := rfl
@[simp] theorem State.holdRollback_windows (s : State) (x : Source) : (s.holdRollback x).windows = s.windows := rfl
@[simp] theorem State.holdRollback_tau (s : State) (x : Source) : (s.holdRollback x).tau = s.tau := rfl
@[simp] theorem State.holdRollback_rlu (s : State) (x : Source) : (s.holdRollback x).rlu = s.rlu := rfl
@[simp] theorem State.holdRollback_pwu (s : State) (x : Source) : (s.holdRollback x).pwu = s.pwu := rfl
@[simp] theorem State.holdRollback_slk (s : State) (x : Source) : (s.holdRollback x).slk = s.slk := rfl
@[simp] theorem State.holdRollback_sau (s : State) (x : Source) : (s.holdRollback x).sau = s.sau := rfl
@[simp] theorem State.holdRollback_dataMem (s : State) (x : Source) : (s.holdRollback x).dataMem = s.dataMem := rfl
@[simp] theorem State.holdRollback_journalMem (s : State) (x : Source) : (s.holdRollback x).journalMem = s.journalMem := rfl
@[simp] theorem State.holdRollback_rsti (s : State) (x : Source) : (s.holdRollback x).rsti = s.rsti := rfl
@[simp] theorem State.holdRollback_freeCount (s : State) (x : Source) : (s.holdRollback x).freeCount = s.freeCount := rfl
@[simp] theorem State.holdRollback_pending (s : State) (x : Source) : (s.holdRollback x).pending = s.pending := rfl
@[simp] theorem State.holdRollback_ustb (s : State) (x : Source) : (s.holdRollback x).ustb = s.ustb := rfl

/-! ### join changes ec alone -/
@[simp] theorem State.join_upu (s : State) (x : Source) : (s.join x).upu = s.upu := rfl
@[simp] theorem State.join_mpa (s : State) (x : Source) : (s.join x).mpa = s.mpa := rfl
@[simp] theorem State.join_wju (s : State) (x : Source) : (s.join x).wju = s.wju := rfl
@[simp] theorem State.join_windows (s : State) (x : Source) : (s.join x).windows = s.windows := rfl
@[simp] theorem State.join_tau (s : State) (x : Source) : (s.join x).tau = s.tau := rfl
@[simp] theorem State.join_rlu (s : State) (x : Source) : (s.join x).rlu = s.rlu := rfl
@[simp] theorem State.join_pwu (s : State) (x : Source) : (s.join x).pwu = s.pwu := rfl
@[simp] theorem State.join_slk (s : State) (x : Source) : (s.join x).slk = s.slk := rfl
@[simp] theorem State.join_sau (s : State) (x : Source) : (s.join x).sau = s.sau := rfl
@[simp] theorem State.join_dataMem (s : State) (x : Source) : (s.join x).dataMem = s.dataMem := rfl
@[simp] theorem State.join_journalMem (s : State) (x : Source) : (s.join x).journalMem = s.journalMem := rfl
@[simp] theorem State.join_rsti (s : State) (x : Source) : (s.join x).rsti = s.rsti := rfl
@[simp] theorem State.join_freeCount (s : State) (x : Source) : (s.join x).freeCount = s.freeCount := rfl
@[simp] theorem State.join_pending (s : State) (x : Source) : (s.join x).pending = s.pending := rfl
@[simp] theorem State.join_ustb (s : State) (x : Source) : (s.join x).ustb = s.ustb := rfl

/-! ### ckptNotice changes rlu alone -/
@[simp] theorem State.ckptNotice_upu (s : State) : (s.ckptNotice).upu = s.upu := rfl
@[simp] theorem State.ckptNotice_mpa (s : State) : (s.ckptNotice).mpa = s.mpa := rfl
@[simp] theorem State.ckptNotice_ec (s : State) : (s.ckptNotice).ec = s.ec := rfl
@[simp] theorem State.ckptNotice_wju (s : State) : (s.ckptNotice).wju = s.wju := rfl
@[simp] theorem State.ckptNotice_windows (s : State) : (s.ckptNotice).windows = s.windows := rfl
@[simp] theorem State.ckptNotice_tau (s : State) : (s.ckptNotice).tau = s.tau := rfl
@[simp] theorem State.ckptNotice_pwu (s : State) : (s.ckptNotice).pwu = s.pwu := rfl
@[simp] theorem State.ckptNotice_slk (s : State) : (s.ckptNotice).slk = s.slk := rfl
@[simp] theorem State.ckptNotice_sau (s : State) : (s.ckptNotice).sau = s.sau := rfl
@[simp] theorem State.ckptNotice_dataMem (s : State) : (s.ckptNotice).dataMem = s.dataMem := rfl
@[simp] theorem State.ckptNotice_journalMem (s : State) : (s.ckptNotice).journalMem = s.journalMem := rfl
@[simp] theorem State.ckptNotice_rsti (s : State) : (s.ckptNotice).rsti = s.rsti := rfl
@[simp] theorem State.ckptNotice_freeCount (s : State) : (s.ckptNotice).freeCount = s.freeCount := rfl
@[simp] theorem State.ckptNotice_pending (s : State) : (s.ckptNotice).pending = s.pending := rfl
@[simp] theorem State.ckptNotice_ustb (s : State) : (s.ckptNotice).ustb = s.ustb := rfl

/-! ### abrtNotice changes rlu alone -/
@[simp] theorem State.abrtNotice_upu (s : State) : (s.abrtNotice).upu = s.upu := rfl
@[simp] theorem State.abrtNotice_mpa (s : State) : (s.abrtNotice).mpa = s.mpa := rfl
@[simp] theorem State.abrtNotice_ec (s : State) : (s.abrtNotice).ec = s.ec := rfl
@[simp] theorem State.abrtNotice_wju (s : State) : (s.abrtNotice).wju = s.wju := rfl
@[simp] theorem State.abrtNotice_windows (s : State) : (s.abrtNotice).windows = s.windows := rfl
@[simp] theorem State.abrtNotice_tau (s : State) : (s.abrtNotice).tau = s.tau := rfl
@[simp] theorem State.abrtNotice_pwu (s : State) : (s.abrtNotice).pwu = s.pwu := rfl
@[simp] theorem State.abrtNotice_slk (s : State) : (s.abrtNotice).slk = s.slk := rfl
@[simp] theorem State.abrtNotice_sau (s : State) : (s.abrtNotice).sau = s.sau := rfl
@[simp] theorem State.abrtNotice_dataMem (s : State) : (s.abrtNotice).dataMem = s.dataMem := rfl
@[simp] theorem State.abrtNotice_journalMem (s : State) : (s.abrtNotice).journalMem = s.journalMem := rfl
@[simp] theorem State.abrtNotice_rsti (s : State) : (s.abrtNotice).rsti = s.rsti := rfl
@[simp] theorem State.abrtNotice_freeCount (s : State) : (s.abrtNotice).freeCount = s.freeCount := rfl
@[simp] theorem State.abrtNotice_pending (s : State) : (s.abrtNotice).pending = s.pending := rfl
@[simp] theorem State.abrtNotice_ustb (s : State) : (s.abrtNotice).ustb = s.ustb := rfl

/-! ### clearAge changes tau alone -/
@[simp] theorem State.clearAge_upu (s : State) : (s.clearAge).upu = s.upu := rfl
@[simp] theorem State.clearAge_mpa (s : State) : (s.clearAge).mpa = s.mpa := rfl
@[simp] theorem State.clearAge_ec (s : State) : (s.clearAge).ec = s.ec := rfl
@[simp] theorem State.clearAge_wju (s : State) : (s.clearAge).wju = s.wju := rfl
@[simp] theorem State.clearAge_windows (s : State) : (s.clearAge).windows = s.windows := rfl
@[simp] theorem State.clearAge_rlu (s : State) : (s.clearAge).rlu = s.rlu := rfl
@[simp] theorem State.clearAge_pwu (s : State) : (s.clearAge).pwu = s.pwu := rfl
@[simp] theorem State.clearAge_slk (s : State) : (s.clearAge).slk = s.slk := rfl
@[simp] theorem State.clearAge_sau (s : State) : (s.clearAge).sau = s.sau := rfl
@[simp] theorem State.clearAge_dataMem (s : State) : (s.clearAge).dataMem = s.dataMem := rfl
@[simp] theorem State.clearAge_journalMem (s : State) : (s.clearAge).journalMem = s.journalMem := rfl
@[simp] theorem State.clearAge_rsti (s : State) : (s.clearAge).rsti = s.rsti := rfl
@[simp] theorem State.clearAge_freeCount (s : State) : (s.clearAge).freeCount = s.freeCount := rfl
@[simp] theorem State.clearAge_pending (s : State) : (s.clearAge).pending = s.pending := rfl
@[simp] theorem State.clearAge_ustb (s : State) : (s.clearAge).ustb = s.ustb := rfl

/-! ### openEpoch changes ec alone -/
@[simp] theorem State.openEpoch_upu (s : State) (b : Nat) (e : Epoch) : (s.openEpoch b e).upu = s.upu := rfl
@[simp] theorem State.openEpoch_mpa (s : State) (b : Nat) (e : Epoch) : (s.openEpoch b e).mpa = s.mpa := rfl
@[simp] theorem State.openEpoch_wju (s : State) (b : Nat) (e : Epoch) : (s.openEpoch b e).wju = s.wju := rfl
@[simp] theorem State.openEpoch_windows (s : State) (b : Nat) (e : Epoch) : (s.openEpoch b e).windows = s.windows := rfl
@[simp] theorem State.openEpoch_tau (s : State) (b : Nat) (e : Epoch) : (s.openEpoch b e).tau = s.tau := rfl
@[simp] theorem State.openEpoch_rlu (s : State) (b : Nat) (e : Epoch) : (s.openEpoch b e).rlu = s.rlu := rfl
@[simp] theorem State.openEpoch_pwu (s : State) (b : Nat) (e : Epoch) : (s.openEpoch b e).pwu = s.pwu := rfl
@[simp] theorem State.openEpoch_slk (s : State) (b : Nat) (e : Epoch) : (s.openEpoch b e).slk = s.slk := rfl
@[simp] theorem State.openEpoch_sau (s : State) (b : Nat) (e : Epoch) : (s.openEpoch b e).sau = s.sau := rfl
@[simp] theorem State.openEpoch_dataMem (s : State) (b : Nat) (e : Epoch) : (s.openEpoch b e).dataMem = s.dataMem := rfl
@[simp] theorem State.openEpoch_journalMem (s : State) (b : Nat) (e : Epoch) : (s.openEpoch b e).journalMem = s.journalMem := rfl
@[simp] theorem State.openEpoch_rsti (s : State) (b : Nat) (e : Epoch) : (s.openEpoch b e).rsti = s.rsti := rfl
@[simp] theorem State.openEpoch_freeCount (s : State) (b : Nat) (e : Epoch) : (s.openEpoch b e).freeCount = s.freeCount := rfl
@[simp] theorem State.openEpoch_pending (s : State) (b : Nat) (e : Epoch) : (s.openEpoch b e).pending = s.pending := rfl
@[simp] theorem State.openEpoch_ustb (s : State) (b : Nat) (e : Epoch) : (s.openEpoch b e).ustb = s.ustb := rfl

/-! ### beat changes upu alone -/
@[simp] theorem State.beat_mpa (s : State) (f : Bool) (d : Option Word) : (s.beat f d).mpa = s.mpa := rfl
@[simp] theorem State.beat_ec (s : State) (f : Bool) (d : Option Word) : (s.beat f d).ec = s.ec := rfl
@[simp] theorem State.beat_wju (s : State) (f : Bool) (d : Option Word) : (s.beat f d).wju = s.wju := rfl
@[simp] theorem State.beat_windows (s : State) (f : Bool) (d : Option Word) : (s.beat f d).windows = s.windows := rfl
@[simp] theorem State.beat_tau (s : State) (f : Bool) (d : Option Word) : (s.beat f d).tau = s.tau := rfl
@[simp] theorem State.beat_rlu (s : State) (f : Bool) (d : Option Word) : (s.beat f d).rlu = s.rlu := rfl
@[simp] theorem State.beat_pwu (s : State) (f : Bool) (d : Option Word) : (s.beat f d).pwu = s.pwu := rfl
@[simp] theorem State.beat_slk (s : State) (f : Bool) (d : Option Word) : (s.beat f d).slk = s.slk := rfl
@[simp] theorem State.beat_sau (s : State) (f : Bool) (d : Option Word) : (s.beat f d).sau = s.sau := rfl
@[simp] theorem State.beat_dataMem (s : State) (f : Bool) (d : Option Word) : (s.beat f d).dataMem = s.dataMem := rfl
@[simp] theorem State.beat_journalMem (s : State) (f : Bool) (d : Option Word) : (s.beat f d).journalMem = s.journalMem := rfl
@[simp] theorem State.beat_rsti (s : State) (f : Bool) (d : Option Word) : (s.beat f d).rsti = s.rsti := rfl
@[simp] theorem State.beat_freeCount (s : State) (f : Bool) (d : Option Word) : (s.beat f d).freeCount = s.freeCount := rfl
@[simp] theorem State.beat_pending (s : State) (f : Bool) (d : Option Word) : (s.beat f d).pending = s.pending := rfl
@[simp] theorem State.beat_ustb (s : State) (f : Bool) (d : Option Word) : (s.beat f d).ustb = s.ustb := rfl

/-! ### endTransaction changes upu alone -/
@[simp] theorem State.endTransaction_mpa (s : State) : (s.endTransaction).mpa = s.mpa := rfl
@[simp] theorem State.endTransaction_ec (s : State) : (s.endTransaction).ec = s.ec := rfl
@[simp] theorem State.endTransaction_wju (s : State) : (s.endTransaction).wju = s.wju := rfl
@[simp] theorem State.endTransaction_windows (s : State) : (s.endTransaction).windows = s.windows := rfl
@[simp] theorem State.endTransaction_tau (s : State) : (s.endTransaction).tau = s.tau := rfl
@[simp] theorem State.endTransaction_rlu (s : State) : (s.endTransaction).rlu = s.rlu := rfl
@[simp] theorem State.endTransaction_pwu (s : State) : (s.endTransaction).pwu = s.pwu := rfl
@[simp] theorem State.endTransaction_slk (s : State) : (s.endTransaction).slk = s.slk := rfl
@[simp] theorem State.endTransaction_sau (s : State) : (s.endTransaction).sau = s.sau := rfl
@[simp] theorem State.endTransaction_dataMem (s : State) : (s.endTransaction).dataMem = s.dataMem := rfl
@[simp] theorem State.endTransaction_journalMem (s : State) : (s.endTransaction).journalMem = s.journalMem := rfl
@[simp] theorem State.endTransaction_rsti (s : State) : (s.endTransaction).rsti = s.rsti := rfl
@[simp] theorem State.endTransaction_freeCount (s : State) : (s.endTransaction).freeCount = s.freeCount := rfl
@[simp] theorem State.endTransaction_pending (s : State) : (s.endTransaction).pending = s.pending := rfl
@[simp] theorem State.endTransaction_ustb (s : State) : (s.endTransaction).ustb = s.ustb := rfl

/-! ### beginUp changes upu, mpa alone -/
@[simp] theorem State.beginUp_ec (s : State) (t : Transaction) (k : JobKind) (o : List WordOp) : (s.beginUp t k o).ec = s.ec := rfl
@[simp] theorem State.beginUp_wju (s : State) (t : Transaction) (k : JobKind) (o : List WordOp) : (s.beginUp t k o).wju = s.wju := rfl
@[simp] theorem State.beginUp_windows (s : State) (t : Transaction) (k : JobKind) (o : List WordOp) : (s.beginUp t k o).windows = s.windows := rfl
@[simp] theorem State.beginUp_tau (s : State) (t : Transaction) (k : JobKind) (o : List WordOp) : (s.beginUp t k o).tau = s.tau := rfl
@[simp] theorem State.beginUp_rlu (s : State) (t : Transaction) (k : JobKind) (o : List WordOp) : (s.beginUp t k o).rlu = s.rlu := rfl
@[simp] theorem State.beginUp_pwu (s : State) (t : Transaction) (k : JobKind) (o : List WordOp) : (s.beginUp t k o).pwu = s.pwu := rfl
@[simp] theorem State.beginUp_slk (s : State) (t : Transaction) (k : JobKind) (o : List WordOp) : (s.beginUp t k o).slk = s.slk := rfl
@[simp] theorem State.beginUp_sau (s : State) (t : Transaction) (k : JobKind) (o : List WordOp) : (s.beginUp t k o).sau = s.sau := rfl
@[simp] theorem State.beginUp_dataMem (s : State) (t : Transaction) (k : JobKind) (o : List WordOp) : (s.beginUp t k o).dataMem = s.dataMem := rfl
@[simp] theorem State.beginUp_journalMem (s : State) (t : Transaction) (k : JobKind) (o : List WordOp) : (s.beginUp t k o).journalMem = s.journalMem := rfl
@[simp] theorem State.beginUp_rsti (s : State) (t : Transaction) (k : JobKind) (o : List WordOp) : (s.beginUp t k o).rsti = s.rsti := rfl
@[simp] theorem State.beginUp_freeCount (s : State) (t : Transaction) (k : JobKind) (o : List WordOp) : (s.beginUp t k o).freeCount = s.freeCount := rfl
@[simp] theorem State.beginUp_pending (s : State) (t : Transaction) (k : JobKind) (o : List WordOp) : (s.beginUp t k o).pending = s.pending := rfl
@[simp] theorem State.beginUp_ustb (s : State) (t : Transaction) (k : JobKind) (o : List WordOp) : (s.beginUp t k o).ustb = s.ustb := rfl

/-! ### beginJob changes mpa alone -/
@[simp] theorem State.beginJob_upu (s : State) (k : JobKind) (o : List WordOp) : (s.beginJob k o).upu = s.upu := rfl
@[simp] theorem State.beginJob_ec (s : State) (k : JobKind) (o : List WordOp) : (s.beginJob k o).ec = s.ec := rfl
@[simp] theorem State.beginJob_wju (s : State) (k : JobKind) (o : List WordOp) : (s.beginJob k o).wju = s.wju := rfl
@[simp] theorem State.beginJob_windows (s : State) (k : JobKind) (o : List WordOp) : (s.beginJob k o).windows = s.windows := rfl
@[simp] theorem State.beginJob_tau (s : State) (k : JobKind) (o : List WordOp) : (s.beginJob k o).tau = s.tau := rfl
@[simp] theorem State.beginJob_rlu (s : State) (k : JobKind) (o : List WordOp) : (s.beginJob k o).rlu = s.rlu := rfl
@[simp] theorem State.beginJob_pwu (s : State) (k : JobKind) (o : List WordOp) : (s.beginJob k o).pwu = s.pwu := rfl
@[simp] theorem State.beginJob_slk (s : State) (k : JobKind) (o : List WordOp) : (s.beginJob k o).slk = s.slk := rfl
@[simp] theorem State.beginJob_sau (s : State) (k : JobKind) (o : List WordOp) : (s.beginJob k o).sau = s.sau := rfl
@[simp] theorem State.beginJob_dataMem (s : State) (k : JobKind) (o : List WordOp) : (s.beginJob k o).dataMem = s.dataMem := rfl
@[simp] theorem State.beginJob_journalMem (s : State) (k : JobKind) (o : List WordOp) : (s.beginJob k o).journalMem = s.journalMem := rfl
@[simp] theorem State.beginJob_rsti (s : State) (k : JobKind) (o : List WordOp) : (s.beginJob k o).rsti = s.rsti := rfl
@[simp] theorem State.beginJob_freeCount (s : State) (k : JobKind) (o : List WordOp) : (s.beginJob k o).freeCount = s.freeCount := rfl
@[simp] theorem State.beginJob_pending (s : State) (k : JobKind) (o : List WordOp) : (s.beginJob k o).pending = s.pending := rfl
@[simp] theorem State.beginJob_ustb (s : State) (k : JobKind) (o : List WordOp) : (s.beginJob k o).ustb = s.ustb := rfl

/-! ### enterHalted changes pwu alone -/
@[simp] theorem State.enterHalted_upu (s : State) : (s.enterHalted).upu = s.upu := rfl
@[simp] theorem State.enterHalted_mpa (s : State) : (s.enterHalted).mpa = s.mpa := rfl
@[simp] theorem State.enterHalted_ec (s : State) : (s.enterHalted).ec = s.ec := rfl
@[simp] theorem State.enterHalted_wju (s : State) : (s.enterHalted).wju = s.wju := rfl
@[simp] theorem State.enterHalted_windows (s : State) : (s.enterHalted).windows = s.windows := rfl
@[simp] theorem State.enterHalted_tau (s : State) : (s.enterHalted).tau = s.tau := rfl
@[simp] theorem State.enterHalted_rlu (s : State) : (s.enterHalted).rlu = s.rlu := rfl
@[simp] theorem State.enterHalted_slk (s : State) : (s.enterHalted).slk = s.slk := rfl
@[simp] theorem State.enterHalted_sau (s : State) : (s.enterHalted).sau = s.sau := rfl
@[simp] theorem State.enterHalted_dataMem (s : State) : (s.enterHalted).dataMem = s.dataMem := rfl
@[simp] theorem State.enterHalted_journalMem (s : State) : (s.enterHalted).journalMem = s.journalMem := rfl
@[simp] theorem State.enterHalted_rsti (s : State) : (s.enterHalted).rsti = s.rsti := rfl
@[simp] theorem State.enterHalted_freeCount (s : State) : (s.enterHalted).freeCount = s.freeCount := rfl
@[simp] theorem State.enterHalted_pending (s : State) : (s.enterHalted).pending = s.pending := rfl
@[simp] theorem State.enterHalted_ustb (s : State) : (s.enterHalted).ustb = s.ustb := rfl

/-! ### enterScanning changes ec alone -/
@[simp] theorem State.enterScanning_upu (s : State) : (s.enterScanning).upu = s.upu := rfl
@[simp] theorem State.enterScanning_mpa (s : State) : (s.enterScanning).mpa = s.mpa := rfl
@[simp] theorem State.enterScanning_wju (s : State) : (s.enterScanning).wju = s.wju := rfl
@[simp] theorem State.enterScanning_windows (s : State) : (s.enterScanning).windows = s.windows := rfl
@[simp] theorem State.enterScanning_tau (s : State) : (s.enterScanning).tau = s.tau := rfl
@[simp] theorem State.enterScanning_rlu (s : State) : (s.enterScanning).rlu = s.rlu := rfl
@[simp] theorem State.enterScanning_pwu (s : State) : (s.enterScanning).pwu = s.pwu := rfl
@[simp] theorem State.enterScanning_slk (s : State) : (s.enterScanning).slk = s.slk := rfl
@[simp] theorem State.enterScanning_sau (s : State) : (s.enterScanning).sau = s.sau := rfl
@[simp] theorem State.enterScanning_dataMem (s : State) : (s.enterScanning).dataMem = s.dataMem := rfl
@[simp] theorem State.enterScanning_journalMem (s : State) : (s.enterScanning).journalMem = s.journalMem := rfl
@[simp] theorem State.enterScanning_rsti (s : State) : (s.enterScanning).rsti = s.rsti := rfl
@[simp] theorem State.enterScanning_freeCount (s : State) : (s.enterScanning).freeCount = s.freeCount := rfl
@[simp] theorem State.enterScanning_pending (s : State) : (s.enterScanning).pending = s.pending := rfl
@[simp] theorem State.enterScanning_ustb (s : State) : (s.enterScanning).ustb = s.ustb := rfl

/-! ### acknowledge changes slk alone -/
@[simp] theorem State.acknowledge_upu (s : State) (a : List Bool) : (s.acknowledge a).upu = s.upu := rfl
@[simp] theorem State.acknowledge_mpa (s : State) (a : List Bool) : (s.acknowledge a).mpa = s.mpa := rfl
@[simp] theorem State.acknowledge_ec (s : State) (a : List Bool) : (s.acknowledge a).ec = s.ec := rfl
@[simp] theorem State.acknowledge_wju (s : State) (a : List Bool) : (s.acknowledge a).wju = s.wju := rfl
@[simp] theorem State.acknowledge_windows (s : State) (a : List Bool) : (s.acknowledge a).windows = s.windows := rfl
@[simp] theorem State.acknowledge_tau (s : State) (a : List Bool) : (s.acknowledge a).tau = s.tau := rfl
@[simp] theorem State.acknowledge_rlu (s : State) (a : List Bool) : (s.acknowledge a).rlu = s.rlu := rfl
@[simp] theorem State.acknowledge_pwu (s : State) (a : List Bool) : (s.acknowledge a).pwu = s.pwu := rfl
@[simp] theorem State.acknowledge_sau (s : State) (a : List Bool) : (s.acknowledge a).sau = s.sau := rfl
@[simp] theorem State.acknowledge_dataMem (s : State) (a : List Bool) : (s.acknowledge a).dataMem = s.dataMem := rfl
@[simp] theorem State.acknowledge_journalMem (s : State) (a : List Bool) : (s.acknowledge a).journalMem = s.journalMem := rfl
@[simp] theorem State.acknowledge_rsti (s : State) (a : List Bool) : (s.acknowledge a).rsti = s.rsti := rfl
@[simp] theorem State.acknowledge_freeCount (s : State) (a : List Bool) : (s.acknowledge a).freeCount = s.freeCount := rfl
@[simp] theorem State.acknowledge_pending (s : State) (a : List Bool) : (s.acknowledge a).pending = s.pending := rfl
@[simp] theorem State.acknowledge_ustb (s : State) (a : List Bool) : (s.acknowledge a).ustb = s.ustb := rfl

/-! ### collect changes slk alone -/
@[simp] theorem State.collect_upu (s : State) (b : List Byte) : (s.collect b).upu = s.upu := rfl
@[simp] theorem State.collect_mpa (s : State) (b : List Byte) : (s.collect b).mpa = s.mpa := rfl
@[simp] theorem State.collect_ec (s : State) (b : List Byte) : (s.collect b).ec = s.ec := rfl
@[simp] theorem State.collect_wju (s : State) (b : List Byte) : (s.collect b).wju = s.wju := rfl
@[simp] theorem State.collect_windows (s : State) (b : List Byte) : (s.collect b).windows = s.windows := rfl
@[simp] theorem State.collect_tau (s : State) (b : List Byte) : (s.collect b).tau = s.tau := rfl
@[simp] theorem State.collect_rlu (s : State) (b : List Byte) : (s.collect b).rlu = s.rlu := rfl
@[simp] theorem State.collect_pwu (s : State) (b : List Byte) : (s.collect b).pwu = s.pwu := rfl
@[simp] theorem State.collect_sau (s : State) (b : List Byte) : (s.collect b).sau = s.sau := rfl
@[simp] theorem State.collect_dataMem (s : State) (b : List Byte) : (s.collect b).dataMem = s.dataMem := rfl
@[simp] theorem State.collect_journalMem (s : State) (b : List Byte) : (s.collect b).journalMem = s.journalMem := rfl
@[simp] theorem State.collect_rsti (s : State) (b : List Byte) : (s.collect b).rsti = s.rsti := rfl
@[simp] theorem State.collect_freeCount (s : State) (b : List Byte) : (s.collect b).freeCount = s.freeCount := rfl
@[simp] theorem State.collect_pending (s : State) (b : List Byte) : (s.collect b).pending = s.pending := rfl
@[simp] theorem State.collect_ustb (s : State) (b : List Byte) : (s.collect b).ustb = s.ustb := rfl

/-! ### scanCounts changes ec, mpa alone -/
@[simp] theorem State.scanCounts_upu (s : State) : (s.scanCounts).upu = s.upu := rfl
@[simp] theorem State.scanCounts_wju (s : State) : (s.scanCounts).wju = s.wju := rfl
@[simp] theorem State.scanCounts_windows (s : State) : (s.scanCounts).windows = s.windows := rfl
@[simp] theorem State.scanCounts_tau (s : State) : (s.scanCounts).tau = s.tau := rfl
@[simp] theorem State.scanCounts_rlu (s : State) : (s.scanCounts).rlu = s.rlu := rfl
@[simp] theorem State.scanCounts_pwu (s : State) : (s.scanCounts).pwu = s.pwu := rfl
@[simp] theorem State.scanCounts_slk (s : State) : (s.scanCounts).slk = s.slk := rfl
@[simp] theorem State.scanCounts_sau (s : State) : (s.scanCounts).sau = s.sau := rfl
@[simp] theorem State.scanCounts_dataMem (s : State) : (s.scanCounts).dataMem = s.dataMem := rfl
@[simp] theorem State.scanCounts_journalMem (s : State) : (s.scanCounts).journalMem = s.journalMem := rfl
@[simp] theorem State.scanCounts_rsti (s : State) : (s.scanCounts).rsti = s.rsti := rfl
@[simp] theorem State.scanCounts_freeCount (s : State) : (s.scanCounts).freeCount = s.freeCount := rfl
@[simp] theorem State.scanCounts_pending (s : State) : (s.scanCounts).pending = s.pending := rfl
@[simp] theorem State.scanCounts_ustb (s : State) : (s.scanCounts).ustb = s.ustb := rfl

/-! ### restoreEnds changes ec, mpa alone -/
@[simp] theorem State.restoreEnds_upu (s : State) : (s.restoreEnds).upu = s.upu := rfl
@[simp] theorem State.restoreEnds_wju (s : State) : (s.restoreEnds).wju = s.wju := rfl
@[simp] theorem State.restoreEnds_windows (s : State) : (s.restoreEnds).windows = s.windows := rfl
@[simp] theorem State.restoreEnds_tau (s : State) : (s.restoreEnds).tau = s.tau := rfl
@[simp] theorem State.restoreEnds_rlu (s : State) : (s.restoreEnds).rlu = s.rlu := rfl
@[simp] theorem State.restoreEnds_pwu (s : State) : (s.restoreEnds).pwu = s.pwu := rfl
@[simp] theorem State.restoreEnds_slk (s : State) : (s.restoreEnds).slk = s.slk := rfl
@[simp] theorem State.restoreEnds_sau (s : State) : (s.restoreEnds).sau = s.sau := rfl
@[simp] theorem State.restoreEnds_dataMem (s : State) : (s.restoreEnds).dataMem = s.dataMem := rfl
@[simp] theorem State.restoreEnds_journalMem (s : State) : (s.restoreEnds).journalMem = s.journalMem := rfl
@[simp] theorem State.restoreEnds_rsti (s : State) : (s.restoreEnds).rsti = s.rsti := rfl
@[simp] theorem State.restoreEnds_freeCount (s : State) : (s.restoreEnds).freeCount = s.freeCount := rfl
@[simp] theorem State.restoreEnds_pending (s : State) : (s.restoreEnds).pending = s.pending := rfl
@[simp] theorem State.restoreEnds_ustb (s : State) : (s.restoreEnds).ustb = s.ustb := rfl

/-! ### countPeriod changes rlu, tau, pwu alone -/
@[simp] theorem State.countPeriod_upu (s : State) : (s.countPeriod).upu = s.upu := rfl
@[simp] theorem State.countPeriod_mpa (s : State) : (s.countPeriod).mpa = s.mpa := rfl
@[simp] theorem State.countPeriod_ec (s : State) : (s.countPeriod).ec = s.ec := rfl
@[simp] theorem State.countPeriod_wju (s : State) : (s.countPeriod).wju = s.wju := rfl
@[simp] theorem State.countPeriod_windows (s : State) : (s.countPeriod).windows = s.windows := rfl
@[simp] theorem State.countPeriod_slk (s : State) : (s.countPeriod).slk = s.slk := rfl
@[simp] theorem State.countPeriod_sau (s : State) : (s.countPeriod).sau = s.sau := rfl
@[simp] theorem State.countPeriod_dataMem (s : State) : (s.countPeriod).dataMem = s.dataMem := rfl
@[simp] theorem State.countPeriod_journalMem (s : State) : (s.countPeriod).journalMem = s.journalMem := rfl
@[simp] theorem State.countPeriod_rsti (s : State) : (s.countPeriod).rsti = s.rsti := rfl
@[simp] theorem State.countPeriod_freeCount (s : State) : (s.countPeriod).freeCount = s.freeCount := rfl
@[simp] theorem State.countPeriod_pending (s : State) : (s.countPeriod).pending = s.pending := rfl
@[simp] theorem State.countPeriod_ustb (s : State) : (s.countPeriod).ustb = s.ustb := rfl

/-! ### setPolicy changes wju, tau, rlu, pwu alone -/
@[simp] theorem State.setPolicy_upu (s : State) (m : Byte) (v : PolicyValues) : (s.setPolicy m v).upu = s.upu := rfl
@[simp] theorem State.setPolicy_mpa (s : State) (m : Byte) (v : PolicyValues) : (s.setPolicy m v).mpa = s.mpa := rfl
@[simp] theorem State.setPolicy_ec (s : State) (m : Byte) (v : PolicyValues) : (s.setPolicy m v).ec = s.ec := rfl
@[simp] theorem State.setPolicy_windows (s : State) (m : Byte) (v : PolicyValues) : (s.setPolicy m v).windows = s.windows := rfl
@[simp] theorem State.setPolicy_slk (s : State) (m : Byte) (v : PolicyValues) : (s.setPolicy m v).slk = s.slk := rfl
@[simp] theorem State.setPolicy_sau (s : State) (m : Byte) (v : PolicyValues) : (s.setPolicy m v).sau = s.sau := rfl
@[simp] theorem State.setPolicy_dataMem (s : State) (m : Byte) (v : PolicyValues) : (s.setPolicy m v).dataMem = s.dataMem := rfl
@[simp] theorem State.setPolicy_journalMem (s : State) (m : Byte) (v : PolicyValues) : (s.setPolicy m v).journalMem = s.journalMem := rfl
@[simp] theorem State.setPolicy_rsti (s : State) (m : Byte) (v : PolicyValues) : (s.setPolicy m v).rsti = s.rsti := rfl
@[simp] theorem State.setPolicy_freeCount (s : State) (m : Byte) (v : PolicyValues) : (s.setPolicy m v).freeCount = s.freeCount := rfl
@[simp] theorem State.setPolicy_pending (s : State) (m : Byte) (v : PolicyValues) : (s.setPolicy m v).pending = s.pending := rfl
@[simp] theorem State.setPolicy_ustb (s : State) (m : Byte) (v : PolicyValues) : (s.setPolicy m v).ustb = s.ustb := rfl

/-! ### retryWaiting changes upu, mpa alone -/
@[simp] theorem State.retryWaiting_ec (s : State) : (s.retryWaiting).ec = s.ec := by
  unfold State.retryWaiting; split <;> rfl
@[simp] theorem State.retryWaiting_wju (s : State) : (s.retryWaiting).wju = s.wju := by
  unfold State.retryWaiting; split <;> rfl
@[simp] theorem State.retryWaiting_windows (s : State) : (s.retryWaiting).windows = s.windows := by
  unfold State.retryWaiting; split <;> rfl
@[simp] theorem State.retryWaiting_tau (s : State) : (s.retryWaiting).tau = s.tau := by
  unfold State.retryWaiting; split <;> rfl
@[simp] theorem State.retryWaiting_rlu (s : State) : (s.retryWaiting).rlu = s.rlu := by
  unfold State.retryWaiting; split <;> rfl
@[simp] theorem State.retryWaiting_pwu (s : State) : (s.retryWaiting).pwu = s.pwu := by
  unfold State.retryWaiting; split <;> rfl
@[simp] theorem State.retryWaiting_slk (s : State) : (s.retryWaiting).slk = s.slk := by
  unfold State.retryWaiting; split <;> rfl
@[simp] theorem State.retryWaiting_sau (s : State) : (s.retryWaiting).sau = s.sau := by
  unfold State.retryWaiting; split <;> rfl
@[simp] theorem State.retryWaiting_dataMem (s : State) : (s.retryWaiting).dataMem = s.dataMem := by
  unfold State.retryWaiting; split <;> rfl
@[simp] theorem State.retryWaiting_journalMem (s : State) : (s.retryWaiting).journalMem = s.journalMem := by
  unfold State.retryWaiting; split <;> rfl
@[simp] theorem State.retryWaiting_rsti (s : State) : (s.retryWaiting).rsti = s.rsti := by
  unfold State.retryWaiting; split <;> rfl
@[simp] theorem State.retryWaiting_freeCount (s : State) : (s.retryWaiting).freeCount = s.freeCount := by
  unfold State.retryWaiting; split <;> rfl
@[simp] theorem State.retryWaiting_pending (s : State) : (s.retryWaiting).pending = s.pending := by
  unfold State.retryWaiting; split <;> rfl
@[simp] theorem State.retryWaiting_ustb (s : State) : (s.retryWaiting).ustb = s.ustb := by
  unfold State.retryWaiting; split <;> rfl

/-! ### refuseSource changes sau, slk alone -/
@[simp] theorem State.refuseSource_upu (s : State) (x : Source) : (s.refuseSource x).upu = s.upu := by cases x <;> rfl
@[simp] theorem State.refuseSource_mpa (s : State) (x : Source) : (s.refuseSource x).mpa = s.mpa := by cases x <;> rfl
@[simp] theorem State.refuseSource_ec (s : State) (x : Source) : (s.refuseSource x).ec = s.ec := by cases x <;> rfl
@[simp] theorem State.refuseSource_wju (s : State) (x : Source) : (s.refuseSource x).wju = s.wju := by cases x <;> rfl
@[simp] theorem State.refuseSource_windows (s : State) (x : Source) : (s.refuseSource x).windows = s.windows := by cases x <;> rfl
@[simp] theorem State.refuseSource_tau (s : State) (x : Source) : (s.refuseSource x).tau = s.tau := by cases x <;> rfl
@[simp] theorem State.refuseSource_rlu (s : State) (x : Source) : (s.refuseSource x).rlu = s.rlu := by cases x <;> rfl
@[simp] theorem State.refuseSource_pwu (s : State) (x : Source) : (s.refuseSource x).pwu = s.pwu := by cases x <;> rfl
@[simp] theorem State.refuseSource_dataMem (s : State) (x : Source) : (s.refuseSource x).dataMem = s.dataMem := by cases x <;> rfl
@[simp] theorem State.refuseSource_journalMem (s : State) (x : Source) : (s.refuseSource x).journalMem = s.journalMem := by cases x <;> rfl
@[simp] theorem State.refuseSource_rsti (s : State) (x : Source) : (s.refuseSource x).rsti = s.rsti := by cases x <;> rfl
@[simp] theorem State.refuseSource_freeCount (s : State) (x : Source) : (s.refuseSource x).freeCount = s.freeCount := by cases x <;> rfl
@[simp] theorem State.refuseSource_pending (s : State) (x : Source) : (s.refuseSource x).pending = s.pending := by cases x <;> rfl
@[simp] theorem State.refuseSource_ustb (s : State) (x : Source) : (s.refuseSource x).ustb = s.ustb := by cases x <;> rfl

/-! ### refuseSet changes sau, slk alone -/
@[simp] theorem State.refuseSet_upu (s : State) (x : Sources) : (s.refuseSet x).upu = s.upu := by
  unfold State.refuseSet; dsimp only; split <;> split <;> rfl
@[simp] theorem State.refuseSet_mpa (s : State) (x : Sources) : (s.refuseSet x).mpa = s.mpa := by
  unfold State.refuseSet; dsimp only; split <;> split <;> rfl
@[simp] theorem State.refuseSet_ec (s : State) (x : Sources) : (s.refuseSet x).ec = s.ec := by
  unfold State.refuseSet; dsimp only; split <;> split <;> rfl
@[simp] theorem State.refuseSet_wju (s : State) (x : Sources) : (s.refuseSet x).wju = s.wju := by
  unfold State.refuseSet; dsimp only; split <;> split <;> rfl
@[simp] theorem State.refuseSet_windows (s : State) (x : Sources) : (s.refuseSet x).windows = s.windows := by
  unfold State.refuseSet; dsimp only; split <;> split <;> rfl
@[simp] theorem State.refuseSet_tau (s : State) (x : Sources) : (s.refuseSet x).tau = s.tau := by
  unfold State.refuseSet; dsimp only; split <;> split <;> rfl
@[simp] theorem State.refuseSet_rlu (s : State) (x : Sources) : (s.refuseSet x).rlu = s.rlu := by
  unfold State.refuseSet; dsimp only; split <;> split <;> rfl
@[simp] theorem State.refuseSet_pwu (s : State) (x : Sources) : (s.refuseSet x).pwu = s.pwu := by
  unfold State.refuseSet; dsimp only; split <;> split <;> rfl
@[simp] theorem State.refuseSet_dataMem (s : State) (x : Sources) : (s.refuseSet x).dataMem = s.dataMem := by
  unfold State.refuseSet; dsimp only; split <;> split <;> rfl
@[simp] theorem State.refuseSet_journalMem (s : State) (x : Sources) : (s.refuseSet x).journalMem = s.journalMem := by
  unfold State.refuseSet; dsimp only; split <;> split <;> rfl
@[simp] theorem State.refuseSet_rsti (s : State) (x : Sources) : (s.refuseSet x).rsti = s.rsti := by
  unfold State.refuseSet; dsimp only; split <;> split <;> rfl
@[simp] theorem State.refuseSet_freeCount (s : State) (x : Sources) : (s.refuseSet x).freeCount = s.freeCount := by
  unfold State.refuseSet; dsimp only; split <;> split <;> rfl
@[simp] theorem State.refuseSet_pending (s : State) (x : Sources) : (s.refuseSet x).pending = s.pending := by
  unfold State.refuseSet; dsimp only; split <;> split <;> rfl
@[simp] theorem State.refuseSet_ustb (s : State) (x : Sources) : (s.refuseSet x).ustb = s.ustb := by
  unfold State.refuseSet; dsimp only; split <;> split <;> rfl

/-! ### refuseHeld changes sau, slk, ec alone -/
@[simp] theorem State.refuseHeld_upu (s : State) : (s.refuseHeld).upu = s.upu := by
  simp [State.refuseHeld]
@[simp] theorem State.refuseHeld_mpa (s : State) : (s.refuseHeld).mpa = s.mpa := by
  simp [State.refuseHeld]
@[simp] theorem State.refuseHeld_wju (s : State) : (s.refuseHeld).wju = s.wju := by
  simp [State.refuseHeld]
@[simp] theorem State.refuseHeld_windows (s : State) : (s.refuseHeld).windows = s.windows := by
  simp [State.refuseHeld]
@[simp] theorem State.refuseHeld_tau (s : State) : (s.refuseHeld).tau = s.tau := by
  simp [State.refuseHeld]
@[simp] theorem State.refuseHeld_rlu (s : State) : (s.refuseHeld).rlu = s.rlu := by
  simp [State.refuseHeld]
@[simp] theorem State.refuseHeld_pwu (s : State) : (s.refuseHeld).pwu = s.pwu := by
  simp [State.refuseHeld]
@[simp] theorem State.refuseHeld_dataMem (s : State) : (s.refuseHeld).dataMem = s.dataMem := by
  simp [State.refuseHeld]
@[simp] theorem State.refuseHeld_journalMem (s : State) : (s.refuseHeld).journalMem = s.journalMem := by
  simp [State.refuseHeld]
@[simp] theorem State.refuseHeld_rsti (s : State) : (s.refuseHeld).rsti = s.rsti := by
  simp [State.refuseHeld]
@[simp] theorem State.refuseHeld_freeCount (s : State) : (s.refuseHeld).freeCount = s.freeCount := by
  simp [State.refuseHeld]
@[simp] theorem State.refuseHeld_pending (s : State) : (s.refuseHeld).pending = s.pending := by
  simp [State.refuseHeld]
@[simp] theorem State.refuseHeld_ustb (s : State) : (s.refuseHeld).ustb = s.ustb := by
  simp [State.refuseHeld]

/-! ### meetWatermark changes sau alone -/
@[simp] theorem State.meetWatermark_upu (s : State) : (s.meetWatermark).upu = s.upu := by
  unfold State.meetWatermark; split <;> rfl
@[simp] theorem State.meetWatermark_mpa (s : State) : (s.meetWatermark).mpa = s.mpa := by
  unfold State.meetWatermark; split <;> rfl
@[simp] theorem State.meetWatermark_ec (s : State) : (s.meetWatermark).ec = s.ec := by
  unfold State.meetWatermark; split <;> rfl
@[simp] theorem State.meetWatermark_wju (s : State) : (s.meetWatermark).wju = s.wju := by
  unfold State.meetWatermark; split <;> rfl
@[simp] theorem State.meetWatermark_windows (s : State) : (s.meetWatermark).windows = s.windows := by
  unfold State.meetWatermark; split <;> rfl
@[simp] theorem State.meetWatermark_tau (s : State) : (s.meetWatermark).tau = s.tau := by
  unfold State.meetWatermark; split <;> rfl
@[simp] theorem State.meetWatermark_rlu (s : State) : (s.meetWatermark).rlu = s.rlu := by
  unfold State.meetWatermark; split <;> rfl
@[simp] theorem State.meetWatermark_pwu (s : State) : (s.meetWatermark).pwu = s.pwu := by
  unfold State.meetWatermark; split <;> rfl
@[simp] theorem State.meetWatermark_slk (s : State) : (s.meetWatermark).slk = s.slk := by
  unfold State.meetWatermark; split <;> rfl
@[simp] theorem State.meetWatermark_dataMem (s : State) : (s.meetWatermark).dataMem = s.dataMem := by
  unfold State.meetWatermark; split <;> rfl
@[simp] theorem State.meetWatermark_journalMem (s : State) : (s.meetWatermark).journalMem = s.journalMem := by
  unfold State.meetWatermark; split <;> rfl
@[simp] theorem State.meetWatermark_rsti (s : State) : (s.meetWatermark).rsti = s.rsti := by
  unfold State.meetWatermark; split <;> rfl
@[simp] theorem State.meetWatermark_freeCount (s : State) : (s.meetWatermark).freeCount = s.freeCount := by
  unfold State.meetWatermark; split <;> rfl
@[simp] theorem State.meetWatermark_pending (s : State) : (s.meetWatermark).pending = s.pending := by
  unfold State.meetWatermark; split <;> rfl
@[simp] theorem State.meetWatermark_ustb (s : State) : (s.meetWatermark).ustb = s.ustb := by
  unfold State.meetWatermark; split <;> rfl

/-! ### recordJoins changes ec, wju, tau, sau alone -/
@[simp] theorem State.recordJoins_upu (s : State) (r : RecordHead) : (s.recordJoins r).upu = s.upu := by
  simp [State.recordJoins]
@[simp] theorem State.recordJoins_mpa (s : State) (r : RecordHead) : (s.recordJoins r).mpa = s.mpa := by
  simp [State.recordJoins]
@[simp] theorem State.recordJoins_windows (s : State) (r : RecordHead) : (s.recordJoins r).windows = s.windows := by
  simp [State.recordJoins]
@[simp] theorem State.recordJoins_rlu (s : State) (r : RecordHead) : (s.recordJoins r).rlu = s.rlu := by
  simp [State.recordJoins]
@[simp] theorem State.recordJoins_pwu (s : State) (r : RecordHead) : (s.recordJoins r).pwu = s.pwu := by
  simp [State.recordJoins]
@[simp] theorem State.recordJoins_slk (s : State) (r : RecordHead) : (s.recordJoins r).slk = s.slk := by
  simp [State.recordJoins]
@[simp] theorem State.recordJoins_dataMem (s : State) (r : RecordHead) : (s.recordJoins r).dataMem = s.dataMem := by
  simp [State.recordJoins]
@[simp] theorem State.recordJoins_journalMem (s : State) (r : RecordHead) : (s.recordJoins r).journalMem = s.journalMem := by
  simp [State.recordJoins]
@[simp] theorem State.recordJoins_rsti (s : State) (r : RecordHead) : (s.recordJoins r).rsti = s.rsti := by
  simp [State.recordJoins]
@[simp] theorem State.recordJoins_freeCount (s : State) (r : RecordHead) : (s.recordJoins r).freeCount = s.freeCount := by
  simp [State.recordJoins]
@[simp] theorem State.recordJoins_pending (s : State) (r : RecordHead) : (s.recordJoins r).pending = s.pending := by
  simp [State.recordJoins]
@[simp] theorem State.recordJoins_ustb (s : State) (r : RecordHead) : (s.recordJoins r).ustb = s.ustb := by
  simp [State.recordJoins]

/-! ### countRollback changes sau alone -/
@[simp] theorem State.countRollback_upu (s : State) : (s.countRollback).upu = s.upu := by
  unfold State.countRollback; split <;> rfl
@[simp] theorem State.countRollback_mpa (s : State) : (s.countRollback).mpa = s.mpa := by
  unfold State.countRollback; split <;> rfl
@[simp] theorem State.countRollback_ec (s : State) : (s.countRollback).ec = s.ec := by
  unfold State.countRollback; split <;> rfl
@[simp] theorem State.countRollback_wju (s : State) : (s.countRollback).wju = s.wju := by
  unfold State.countRollback; split <;> rfl
@[simp] theorem State.countRollback_windows (s : State) : (s.countRollback).windows = s.windows := by
  unfold State.countRollback; split <;> rfl
@[simp] theorem State.countRollback_tau (s : State) : (s.countRollback).tau = s.tau := by
  unfold State.countRollback; split <;> rfl
@[simp] theorem State.countRollback_rlu (s : State) : (s.countRollback).rlu = s.rlu := by
  unfold State.countRollback; split <;> rfl
@[simp] theorem State.countRollback_pwu (s : State) : (s.countRollback).pwu = s.pwu := by
  unfold State.countRollback; split <;> rfl
@[simp] theorem State.countRollback_slk (s : State) : (s.countRollback).slk = s.slk := by
  unfold State.countRollback; split <;> rfl
@[simp] theorem State.countRollback_dataMem (s : State) : (s.countRollback).dataMem = s.dataMem := by
  unfold State.countRollback; split <;> rfl
@[simp] theorem State.countRollback_journalMem (s : State) : (s.countRollback).journalMem = s.journalMem := by
  unfold State.countRollback; split <;> rfl
@[simp] theorem State.countRollback_rsti (s : State) : (s.countRollback).rsti = s.rsti := by
  unfold State.countRollback; split <;> rfl
@[simp] theorem State.countRollback_freeCount (s : State) : (s.countRollback).freeCount = s.freeCount := by
  unfold State.countRollback; split <;> rfl
@[simp] theorem State.countRollback_pending (s : State) : (s.countRollback).pending = s.pending := by
  unfold State.countRollback; split <;> rfl
@[simp] theorem State.countRollback_ustb (s : State) : (s.countRollback).ustb = s.ustb := by
  unfold State.countRollback; split <;> rfl

/-! ### commitNotices changes rlu, slk alone -/
@[simp] theorem State.commitNotices_upu (s : State) (x : Sources) (e : Epoch) (n : Nat) : (s.commitNotices x e n).upu = s.upu := by
  unfold State.commitNotices; dsimp only; split <;> split <;> rfl
@[simp] theorem State.commitNotices_mpa (s : State) (x : Sources) (e : Epoch) (n : Nat) : (s.commitNotices x e n).mpa = s.mpa := by
  unfold State.commitNotices; dsimp only; split <;> split <;> rfl
@[simp] theorem State.commitNotices_ec (s : State) (x : Sources) (e : Epoch) (n : Nat) : (s.commitNotices x e n).ec = s.ec := by
  unfold State.commitNotices; dsimp only; split <;> split <;> rfl
@[simp] theorem State.commitNotices_wju (s : State) (x : Sources) (e : Epoch) (n : Nat) : (s.commitNotices x e n).wju = s.wju := by
  unfold State.commitNotices; dsimp only; split <;> split <;> rfl
@[simp] theorem State.commitNotices_windows (s : State) (x : Sources) (e : Epoch) (n : Nat) : (s.commitNotices x e n).windows = s.windows := by
  unfold State.commitNotices; dsimp only; split <;> split <;> rfl
@[simp] theorem State.commitNotices_tau (s : State) (x : Sources) (e : Epoch) (n : Nat) : (s.commitNotices x e n).tau = s.tau := by
  unfold State.commitNotices; dsimp only; split <;> split <;> rfl
@[simp] theorem State.commitNotices_pwu (s : State) (x : Sources) (e : Epoch) (n : Nat) : (s.commitNotices x e n).pwu = s.pwu := by
  unfold State.commitNotices; dsimp only; split <;> split <;> rfl
@[simp] theorem State.commitNotices_sau (s : State) (x : Sources) (e : Epoch) (n : Nat) : (s.commitNotices x e n).sau = s.sau := by
  unfold State.commitNotices; dsimp only; split <;> split <;> rfl
@[simp] theorem State.commitNotices_dataMem (s : State) (x : Sources) (e : Epoch) (n : Nat) : (s.commitNotices x e n).dataMem = s.dataMem := by
  unfold State.commitNotices; dsimp only; split <;> split <;> rfl
@[simp] theorem State.commitNotices_journalMem (s : State) (x : Sources) (e : Epoch) (n : Nat) : (s.commitNotices x e n).journalMem = s.journalMem := by
  unfold State.commitNotices; dsimp only; split <;> split <;> rfl
@[simp] theorem State.commitNotices_rsti (s : State) (x : Sources) (e : Epoch) (n : Nat) : (s.commitNotices x e n).rsti = s.rsti := by
  unfold State.commitNotices; dsimp only; split <;> split <;> rfl
@[simp] theorem State.commitNotices_freeCount (s : State) (x : Sources) (e : Epoch) (n : Nat) : (s.commitNotices x e n).freeCount = s.freeCount := by
  unfold State.commitNotices; dsimp only; split <;> split <;> rfl
@[simp] theorem State.commitNotices_pending (s : State) (x : Sources) (e : Epoch) (n : Nat) : (s.commitNotices x e n).pending = s.pending := by
  unfold State.commitNotices; dsimp only; split <;> split <;> rfl
@[simp] theorem State.commitNotices_ustb (s : State) (x : Sources) (e : Epoch) (n : Nat) : (s.commitNotices x e n).ustb = s.ustb := by
  unfold State.commitNotices; dsimp only; split <;> split <;> rfl

/-! ### rollbackNotices changes rlu, slk, tau, sau alone -/
@[simp] theorem State.rollbackNotices_upu (s : State) (x : Sources) (e : Epoch) (n : Nat) : (s.rollbackNotices x e n).upu = s.upu := by
  unfold State.rollbackNotices; dsimp only; repeat' split
  all_goals rfl
@[simp] theorem State.rollbackNotices_mpa (s : State) (x : Sources) (e : Epoch) (n : Nat) : (s.rollbackNotices x e n).mpa = s.mpa := by
  unfold State.rollbackNotices; dsimp only; repeat' split
  all_goals rfl
@[simp] theorem State.rollbackNotices_ec (s : State) (x : Sources) (e : Epoch) (n : Nat) : (s.rollbackNotices x e n).ec = s.ec := by
  unfold State.rollbackNotices; dsimp only; repeat' split
  all_goals rfl
@[simp] theorem State.rollbackNotices_wju (s : State) (x : Sources) (e : Epoch) (n : Nat) : (s.rollbackNotices x e n).wju = s.wju := by
  unfold State.rollbackNotices; dsimp only; repeat' split
  all_goals rfl
@[simp] theorem State.rollbackNotices_windows (s : State) (x : Sources) (e : Epoch) (n : Nat) : (s.rollbackNotices x e n).windows = s.windows := by
  unfold State.rollbackNotices; dsimp only; repeat' split
  all_goals rfl
@[simp] theorem State.rollbackNotices_pwu (s : State) (x : Sources) (e : Epoch) (n : Nat) : (s.rollbackNotices x e n).pwu = s.pwu := by
  unfold State.rollbackNotices; dsimp only; repeat' split
  all_goals rfl
@[simp] theorem State.rollbackNotices_dataMem (s : State) (x : Sources) (e : Epoch) (n : Nat) : (s.rollbackNotices x e n).dataMem = s.dataMem := by
  unfold State.rollbackNotices; dsimp only; repeat' split
  all_goals rfl
@[simp] theorem State.rollbackNotices_journalMem (s : State) (x : Sources) (e : Epoch) (n : Nat) : (s.rollbackNotices x e n).journalMem = s.journalMem := by
  unfold State.rollbackNotices; dsimp only; repeat' split
  all_goals rfl
@[simp] theorem State.rollbackNotices_rsti (s : State) (x : Sources) (e : Epoch) (n : Nat) : (s.rollbackNotices x e n).rsti = s.rsti := by
  unfold State.rollbackNotices; dsimp only; repeat' split
  all_goals rfl
@[simp] theorem State.rollbackNotices_freeCount (s : State) (x : Sources) (e : Epoch) (n : Nat) : (s.rollbackNotices x e n).freeCount = s.freeCount := by
  unfold State.rollbackNotices; dsimp only; repeat' split
  all_goals rfl
@[simp] theorem State.rollbackNotices_pending (s : State) (x : Sources) (e : Epoch) (n : Nat) : (s.rollbackNotices x e n).pending = s.pending := by
  unfold State.rollbackNotices; dsimp only; repeat' split
  all_goals rfl
@[simp] theorem State.rollbackNotices_ustb (s : State) (x : Sources) (e : Epoch) (n : Nat) : (s.rollbackNotices x e n).ustb = s.ustb := by
  unfold State.rollbackNotices; dsimp only; repeat' split
  all_goals rfl

/-! ### postHeaderRead changes mpa alone -/
@[simp] theorem State.postHeaderRead_upu (s : State) : (s.postHeaderRead).upu = s.upu := by
  unfold State.postHeaderRead; split <;> rfl
@[simp] theorem State.postHeaderRead_ec (s : State) : (s.postHeaderRead).ec = s.ec := by
  unfold State.postHeaderRead; split <;> rfl
@[simp] theorem State.postHeaderRead_wju (s : State) : (s.postHeaderRead).wju = s.wju := by
  unfold State.postHeaderRead; split <;> rfl
@[simp] theorem State.postHeaderRead_windows (s : State) : (s.postHeaderRead).windows = s.windows := by
  unfold State.postHeaderRead; split <;> rfl
@[simp] theorem State.postHeaderRead_tau (s : State) : (s.postHeaderRead).tau = s.tau := by
  unfold State.postHeaderRead; split <;> rfl
@[simp] theorem State.postHeaderRead_rlu (s : State) : (s.postHeaderRead).rlu = s.rlu := by
  unfold State.postHeaderRead; split <;> rfl
@[simp] theorem State.postHeaderRead_pwu (s : State) : (s.postHeaderRead).pwu = s.pwu := by
  unfold State.postHeaderRead; split <;> rfl
@[simp] theorem State.postHeaderRead_slk (s : State) : (s.postHeaderRead).slk = s.slk := by
  unfold State.postHeaderRead; split <;> rfl
@[simp] theorem State.postHeaderRead_sau (s : State) : (s.postHeaderRead).sau = s.sau := by
  unfold State.postHeaderRead; split <;> rfl
@[simp] theorem State.postHeaderRead_dataMem (s : State) : (s.postHeaderRead).dataMem = s.dataMem := by
  unfold State.postHeaderRead; split <;> rfl
@[simp] theorem State.postHeaderRead_journalMem (s : State) : (s.postHeaderRead).journalMem = s.journalMem := by
  unfold State.postHeaderRead; split <;> rfl
@[simp] theorem State.postHeaderRead_rsti (s : State) : (s.postHeaderRead).rsti = s.rsti := by
  unfold State.postHeaderRead; split <;> rfl
@[simp] theorem State.postHeaderRead_freeCount (s : State) : (s.postHeaderRead).freeCount = s.freeCount := by
  unfold State.postHeaderRead; split <;> rfl
@[simp] theorem State.postHeaderRead_pending (s : State) : (s.postHeaderRead).pending = s.pending := by
  unfold State.postHeaderRead; split <;> rfl
@[simp] theorem State.postHeaderRead_ustb (s : State) : (s.postHeaderRead).ustb = s.ustb := by
  unfold State.postHeaderRead; split <;> rfl

/-! ### store changes dataMem, journalMem alone -/
@[simp] theorem State.store_upu (s : State) (w : MemWrite) : (s.store w).upu = s.upu := by
  unfold State.store; split <;> rfl
@[simp] theorem State.store_mpa (s : State) (w : MemWrite) : (s.store w).mpa = s.mpa := by
  unfold State.store; split <;> rfl
@[simp] theorem State.store_ec (s : State) (w : MemWrite) : (s.store w).ec = s.ec := by
  unfold State.store; split <;> rfl
@[simp] theorem State.store_wju (s : State) (w : MemWrite) : (s.store w).wju = s.wju := by
  unfold State.store; split <;> rfl
@[simp] theorem State.store_windows (s : State) (w : MemWrite) : (s.store w).windows = s.windows := by
  unfold State.store; split <;> rfl
@[simp] theorem State.store_tau (s : State) (w : MemWrite) : (s.store w).tau = s.tau := by
  unfold State.store; split <;> rfl
@[simp] theorem State.store_rlu (s : State) (w : MemWrite) : (s.store w).rlu = s.rlu := by
  unfold State.store; split <;> rfl
@[simp] theorem State.store_pwu (s : State) (w : MemWrite) : (s.store w).pwu = s.pwu := by
  unfold State.store; split <;> rfl
@[simp] theorem State.store_slk (s : State) (w : MemWrite) : (s.store w).slk = s.slk := by
  unfold State.store; split <;> rfl
@[simp] theorem State.store_sau (s : State) (w : MemWrite) : (s.store w).sau = s.sau := by
  unfold State.store; split <;> rfl
@[simp] theorem State.store_rsti (s : State) (w : MemWrite) : (s.store w).rsti = s.rsti := by
  unfold State.store; split <;> rfl
@[simp] theorem State.store_freeCount (s : State) (w : MemWrite) : (s.store w).freeCount = s.freeCount := by
  unfold State.store; split <;> rfl
@[simp] theorem State.store_pending (s : State) (w : MemWrite) : (s.store w).pending = s.pending := by
  unfold State.store; split <;> rfl
@[simp] theorem State.store_ustb (s : State) (w : MemWrite) : (s.store w).ustb = s.ustb := by
  unfold State.store; split <;> rfl

/-! ### storeOp changes dataMem, journalMem alone -/
@[simp] theorem State.storeOp_upu (s : State) (op : WordOp) (j : Job) (b : UpstreamBus) : (s.storeOp op j b).upu = s.upu := by
  unfold State.storeOp; split <;> simp
@[simp] theorem State.storeOp_mpa (s : State) (op : WordOp) (j : Job) (b : UpstreamBus) : (s.storeOp op j b).mpa = s.mpa := by
  unfold State.storeOp; split <;> simp
@[simp] theorem State.storeOp_ec (s : State) (op : WordOp) (j : Job) (b : UpstreamBus) : (s.storeOp op j b).ec = s.ec := by
  unfold State.storeOp; split <;> simp
@[simp] theorem State.storeOp_wju (s : State) (op : WordOp) (j : Job) (b : UpstreamBus) : (s.storeOp op j b).wju = s.wju := by
  unfold State.storeOp; split <;> simp
@[simp] theorem State.storeOp_windows (s : State) (op : WordOp) (j : Job) (b : UpstreamBus) : (s.storeOp op j b).windows = s.windows := by
  unfold State.storeOp; split <;> simp
@[simp] theorem State.storeOp_tau (s : State) (op : WordOp) (j : Job) (b : UpstreamBus) : (s.storeOp op j b).tau = s.tau := by
  unfold State.storeOp; split <;> simp
@[simp] theorem State.storeOp_rlu (s : State) (op : WordOp) (j : Job) (b : UpstreamBus) : (s.storeOp op j b).rlu = s.rlu := by
  unfold State.storeOp; split <;> simp
@[simp] theorem State.storeOp_pwu (s : State) (op : WordOp) (j : Job) (b : UpstreamBus) : (s.storeOp op j b).pwu = s.pwu := by
  unfold State.storeOp; split <;> simp
@[simp] theorem State.storeOp_slk (s : State) (op : WordOp) (j : Job) (b : UpstreamBus) : (s.storeOp op j b).slk = s.slk := by
  unfold State.storeOp; split <;> simp
@[simp] theorem State.storeOp_sau (s : State) (op : WordOp) (j : Job) (b : UpstreamBus) : (s.storeOp op j b).sau = s.sau := by
  unfold State.storeOp; split <;> simp
@[simp] theorem State.storeOp_rsti (s : State) (op : WordOp) (j : Job) (b : UpstreamBus) : (s.storeOp op j b).rsti = s.rsti := by
  unfold State.storeOp; split <;> simp
@[simp] theorem State.storeOp_freeCount (s : State) (op : WordOp) (j : Job) (b : UpstreamBus) : (s.storeOp op j b).freeCount = s.freeCount := by
  unfold State.storeOp; split <;> simp
@[simp] theorem State.storeOp_pending (s : State) (op : WordOp) (j : Job) (b : UpstreamBus) : (s.storeOp op j b).pending = s.pending := by
  unfold State.storeOp; split <;> simp
@[simp] theorem State.storeOp_ustb (s : State) (op : WordOp) (j : Job) (b : UpstreamBus) : (s.storeOp op j b).ustb = s.ustb := by
  unfold State.storeOp; split <;> simp

/-! ### serve changes ec, mpa, wju, tau alone -/
@[simp] theorem State.serve_upu (s : State) : (s.serve).upu = s.upu := by
  unfold State.serve; dsimp only; repeat' split
  all_goals rfl
@[simp] theorem State.serve_windows (s : State) : (s.serve).windows = s.windows := by
  unfold State.serve; dsimp only; repeat' split
  all_goals rfl
@[simp] theorem State.serve_rlu (s : State) : (s.serve).rlu = s.rlu := by
  unfold State.serve; dsimp only; repeat' split
  all_goals rfl
@[simp] theorem State.serve_pwu (s : State) : (s.serve).pwu = s.pwu := by
  unfold State.serve; dsimp only; repeat' split
  all_goals rfl
@[simp] theorem State.serve_slk (s : State) : (s.serve).slk = s.slk := by
  unfold State.serve; dsimp only; repeat' split
  all_goals rfl
@[simp] theorem State.serve_sau (s : State) : (s.serve).sau = s.sau := by
  unfold State.serve; dsimp only; repeat' split
  all_goals rfl
@[simp] theorem State.serve_dataMem (s : State) : (s.serve).dataMem = s.dataMem := by
  unfold State.serve; dsimp only; repeat' split
  all_goals rfl
@[simp] theorem State.serve_journalMem (s : State) : (s.serve).journalMem = s.journalMem := by
  unfold State.serve; dsimp only; repeat' split
  all_goals rfl
@[simp] theorem State.serve_rsti (s : State) : (s.serve).rsti = s.rsti := by
  unfold State.serve; dsimp only; repeat' split
  all_goals rfl
@[simp] theorem State.serve_freeCount (s : State) : (s.serve).freeCount = s.freeCount := by
  unfold State.serve; dsimp only; repeat' split
  all_goals rfl
@[simp] theorem State.serve_pending (s : State) : (s.serve).pending = s.pending := by
  unfold State.serve; dsimp only; repeat' split
  all_goals rfl
@[simp] theorem State.serve_ustb (s : State) : (s.serve).ustb = s.ustb := by
  unfold State.serve; dsimp only; repeat' split
  all_goals rfl

/-! ### The values written -/

@[simp] theorem State.settle_phase (s : State) : s.settle.upu.phase = s.upu.phase := rfl
@[simp] theorem State.settle_beat (s : State) : s.settle.upu.beat = none := rfl
@[simp] theorem State.answer_phase (s : State) (r : Response) : (s.answer r).upu.phase = .idle := rfl
@[simp] theorem State.beat_phase (s : State) (f : Bool) (d : Option Word) : (s.beat f d).upu.phase = s.upu.phase := rfl
@[simp] theorem State.endTransaction_phase (s : State) : s.endTransaction.upu.phase = .idle := rfl
@[simp] theorem State.postEc_mpa (s : State) : s.postEc.mpa = { s.mpa with ec := true } := rfl
@[simp] theorem State.postLk_mpa (s : State) : s.postLk.mpa = { s.mpa with lk := true } := rfl
@[simp] theorem State.postUp_mpa (s : State) (t : Transaction) : (s.postUp t).mpa = { s.mpa with up := true } := rfl
@[simp] theorem State.postUp_phase (s : State) (t : Transaction) : (s.postUp t).upu.phase = .waiting t := rfl
@[simp] theorem State.takeCommit_mpa (s : State) (x : Sources) : (s.takeCommit x).mpa = { s.mpa with ec := true } := rfl
@[simp] theorem State.takeFormat_mpa (s : State) (c : Fin 5) : (s.takeFormat c).mpa = { s.mpa with ec := true } := rfl
@[simp] theorem State.takeRollback_mpa (s : State) (o : Origin) (x : Sources) :
    (s.takeRollback o x).mpa = { s.mpa with ec := true } := rfl
@[simp] theorem State.takeCommit_ec (s : State) (x : Sources) :
    (s.takeCommit x).ec = { s.ec with state := .committing, inProgress := x } := rfl
@[simp] theorem State.takeRollback_ec (s : State) (o : Origin) (x : Sources) : (s.takeRollback o x).ec =
    { s.ec with state := .rollingBack, origin := some o, inProgress := x, endSlot := s.ec.head } := rfl
@[simp] theorem State.takeFormat_ec (s : State) (c : Fin 5) :
    (s.takeFormat c).ec = { s.ec with state := .formatting, formatCode := c } := rfl
@[simp] theorem State.takeRollback_wju (s : State) (o : Origin) (x : Sources) :
    (s.takeRollback o x).wju = { s.wju with jlt := .empty } := rfl
@[simp] theorem State.takeRollback_tau (s : State) (o : Origin) (x : Sources) :
    (s.takeRollback o x).tau = { s.tau with running := false } := rfl
@[simp] theorem State.emptyJlt_wju (s : State) : s.emptyJlt.wju = { s.wju with jlt := .empty } := rfl
@[simp] theorem State.clearAge_tau (s : State) : s.clearAge.tau = { s.tau with age := 0, running := false } := rfl
@[simp] theorem State.openEpoch_ec (s : State) (b : Nat) (e : Epoch) :
    (s.openEpoch b e).ec = { s.ec with base := b, usage := 0, epoch := e, endSlot := b } := rfl
@[simp] theorem State.beginJob_mpa (s : State) (k : JobKind) (o : List WordOp) :
    (s.beginJob k o).mpa = { s.mpa with job := some { kind := k, todo := o, reads := [] } } := rfl
@[simp] theorem State.beginUp_mpa (s : State) (t : Transaction) (k : JobKind) (o : List WordOp) :
    (s.beginUp t k o).mpa = { s.mpa with job := some { kind := k, todo := o, reads := [] } } := rfl
@[simp] theorem State.beginUp_phase (s : State) (t : Transaction) (k : JobKind) (o : List WordOp) :
    (s.beginUp t k o).upu.phase = .inJob t := rfl
@[simp] theorem State.enterScanning_ec (s : State) : s.enterScanning.ec = .reset s.ec.rcva := rfl
@[simp] theorem State.respond_slk (s : State) (b : Byte) (p : List Byte) :
    (s.respond b p).slk = { s.slk with mailbox := .responseReady, response := b :: p, command := [] } := rfl
@[simp] theorem State.raise_flags (s : State) (f : Flag) : (s.raise f).sau.flags = s.sau.flags ||| f.mask := rfl
@[simp] theorem State.restoreEnds_ec (s : State) : s.restoreEnds.ec = { s.ec with usage := s.ec.usage - 1 } := rfl
@[simp] theorem State.restoreEnds_mpa (s : State) : s.restoreEnds.mpa = { s.mpa with ec := true } := rfl
@[simp] theorem State.scanCounts_mpa (s : State) : s.scanCounts.mpa = { s.mpa with ec := true } := rfl
@[simp] theorem State.scanCounts_ec (s : State) : s.scanCounts.ec =
    { s.ec with scanCount := s.ec.scanCount + 1, usage := s.ec.scanCount + 1,
                endSlot := s.ec.slotOf (s.ec.scanCount + 1) } := rfl
@[simp] theorem State.refuseHeld_ec (s : State) :
    s.refuseHeld.ec = { s.ec with commitSlot := .empty, rollbackSlot := .empty } := by simp [State.refuseHeld]
@[simp] theorem State.recordJoins_ec (s : State) (r : RecordHead) : (s.recordJoins r).ec =
    { s.ec with usage := s.ec.usage + 1, endSlot := s.ec.slotOf (s.ec.usage + 1) } := by simp [State.recordJoins]
@[simp] theorem State.recordJoins_wju (s : State) (r : RecordHead) : (s.recordJoins r).wju = s.wju.insert r.line := by
  simp [State.recordJoins]
@[simp] theorem State.recordJoins_tau (s : State) (r : RecordHead) : (s.recordJoins r).tau =
    { s.tau with running := s.tau.running || s.ec.usage == 0 } := by simp [State.recordJoins]

end Sys2Proof.Machine
end

