-- ==== Sys2Proof/Laws/Memory.lean ====
section
/-! SUPPORT. What a memory write does and leaves alone: every byte read afterwards, every word read afterwards, and the
canonical form kept. -/

namespace Sys2Proof.Machine

/-! ## One byte -/

/-- Every listed address of a canonical memory after its first cell is above that cell's. -/
theorem Memory.read_of_lt_head : ∀ (m : Memory) (a : Nat), (∀ c ∈ m, a < c.1) → m.read a = Config.blankByte
  | [], _, _ => rfl
  | (k, v) :: m, a, h => by
    have hk : a < k := h (k, v) (by simp)
    have : a ≠ k := by omega
    simp only [Memory.read, this, if_false]
    exact Memory.read_of_lt_head m a (fun c hc => h c (by simp [hc]))

/-- The canonical form of a memory with a first cell. -/
theorem Memory.wf_cons (k : Nat) (v : Byte) (m : Memory) :
    Memory.wf ((k, v) :: m) = true ↔ v ≠ Config.blankByte ∧ (∀ c ∈ m, k < c.1) ∧ Memory.wf m = true := by
  simp [Memory.wf, and_assoc]

/-- A byte just written reads back. -/
theorem Memory.read_write_same : ∀ (m : Memory) (a : Nat) (b : Byte), Memory.wf m = true → (m.write a b).read a = b
  | [], a, b, _ => by
    by_cases hb : b = Config.blankByte <;> simp [Memory.write, Memory.read, hb]
  | (k, v) :: m, a, b, h => by
    obtain ⟨_, hall, hm⟩ := (Memory.wf_cons k v m).1 h
    by_cases hb : b = Config.blankByte
    · by_cases h1 : a < k
      · have : a ≠ k := by omega
        simp only [Memory.write, h1, hb, if_true, Memory.read, this, if_false]
        exact Memory.read_of_lt_head m a (fun c hc => by have := hall c hc; omega)
      · by_cases h2 : a = k
        · subst h2
          simp only [Memory.write, hb, if_true, Nat.lt_irrefl, if_false]
          exact Memory.read_of_lt_head m a hall
        · simp only [Memory.write, h1, h2, if_false, Memory.read]
          exact Memory.read_write_same m a b hm
    · by_cases h1 : a < k
      · simp [Memory.write, h1, hb, Memory.read]
      · by_cases h2 : a = k
        · simp [Memory.write, h2, hb, Memory.read]
        · simp only [Memory.write, h1, h2, if_false, Memory.read]
          exact Memory.read_write_same m a b hm

/-- Every other byte reads as before. -/
theorem Memory.read_write_other : ∀ (m : Memory) (a c : Nat) (b : Byte), c ≠ a → (m.write a b).read c = m.read c
  | [], a, c, b, h => by
    by_cases hb : b = Config.blankByte <;> simp [Memory.write, Memory.read, hb, h]
  | (k, v) :: m, a, c, b, h => by
    by_cases h1 : a < k
    · by_cases hb : b = Config.blankByte <;> simp [Memory.write, h1, hb, Memory.read, h]
    · by_cases h2 : a = k
      · subst h2
        by_cases hb : b = Config.blankByte <;> simp [Memory.write, hb, Memory.read, h]
      · simp only [Memory.write, h1, h2, if_false, Memory.read]
        rw [Memory.read_write_other m a c b h]

/-- A write lists no address that was not listed, but the one it writes. -/
theorem Memory.mem_write : ∀ (m : Memory) (a : Nat) (b : Byte) (c : Host.Cell), c ∈ m.write a b → c ∈ m ∨ c.1 = a
  | [], a, b, c, h => by
    by_cases hb : b = Config.blankByte <;> simp [Memory.write, hb] at h
    exact Or.inr (by rw [h])
  | (k, v) :: m, a, b, c, h => by
    by_cases h1 : a < k
    · by_cases hb : b = Config.blankByte
      · simp only [Memory.write, h1, hb, if_true] at h; exact Or.inl h
      · simp only [Memory.write, h1, hb, if_true, if_false, List.mem_cons] at h
        rcases h with h | h | h
        · exact Or.inr (by rw [h])
        · exact Or.inl (by simp [h])
        · exact Or.inl (by simp [h])
    · by_cases h2 : a = k
      · by_cases hb : b = Config.blankByte
        · simp only [Memory.write, h2, hb, Nat.lt_irrefl, if_true, if_false] at h
          exact Or.inl (by simp [h])
        · simp only [Memory.write, h2, hb, Nat.lt_irrefl, if_true, if_false, List.mem_cons] at h
          rcases h with h | h
          · exact Or.inr (by rw [h, h2])
          · exact Or.inl (by simp [h])
      · simp only [Memory.write, h1, h2, if_false, List.mem_cons] at h
        rcases h with h | h
        · exact Or.inl (by simp [h])
        · rcases Memory.mem_write m a b c h with h | h
          · exact Or.inl (by simp [h])
          · exact Or.inr h

/-- A write keeps the canonical form. -/
theorem Memory.wf_write : ∀ (m : Memory) (a : Nat) (b : Byte), Memory.wf m = true → Memory.wf (m.write a b) = true
  | [], a, b, _ => by
    by_cases hb : b = Config.blankByte <;> simp [Memory.write, Memory.wf, hb]
  | (k, v) :: m, a, b, h => by
    obtain ⟨hv, hall, hm⟩ := (Memory.wf_cons k v m).1 h
    by_cases hb : b = Config.blankByte
    · by_cases h1 : a < k
      · simpa only [Memory.write, h1, hb, if_true] using h
      · by_cases h2 : a = k
        · simpa only [Memory.write, h2, hb, Nat.lt_irrefl, if_true, if_false] using hm
        · simp only [Memory.write, h1, h2, if_false]
          refine (Memory.wf_cons _ _ _).2 ⟨hv, fun c hc => ?_, Memory.wf_write m a b hm⟩
          rcases Memory.mem_write m a b c hc with hc | hc
          · exact hall c hc
          · omega
    · by_cases h1 : a < k
      · simp only [Memory.write, h1, hb, if_true, if_false]
        refine (Memory.wf_cons _ _ _).2 ⟨hb, fun c hc => ?_, h⟩
        rcases List.mem_cons.1 hc with hc | hc
        · rw [hc]; exact h1
        · have := hall c hc; omega
      · by_cases h2 : a = k
        · subst h2
          simp only [Memory.write, hb, Nat.lt_irrefl, if_true, if_false]
          exact (Memory.wf_cons _ _ _).2 ⟨hb, hall, hm⟩
        · simp only [Memory.write, h1, h2, if_false]
          refine (Memory.wf_cons _ _ _).2 ⟨hv, fun c hc => ?_, Memory.wf_write m a b hm⟩
          rcases Memory.mem_write m a b c hc with hc | hc
          · exact hall c hc
          · omega

/-! ## One lane -/

theorem Memory.wf_writeLane (m : Memory) (w : Nat) (lanes : Lanes) (d : Word) (lane : Nat) (h : Memory.wf m = true) :
    Memory.wf (m.writeLane w lanes d lane) = true := by
  unfold Memory.writeLane; split
  · exact Memory.wf_write m _ _ h
  · exact h

/-- What any byte reads after one lane has been written. -/
theorem Memory.read_writeLane (m : Memory) (w : Nat) (lanes : Lanes) (d : Word) (lane c : Nat)
    (h : Memory.wf m = true) :
    (m.writeLane w lanes d lane).read c =
      if lanes.getLsbD lane ∧ c = 4 * w + lane then laneByte d lane else m.read c := by
  unfold Memory.writeLane
  by_cases hl : lanes.getLsbD lane = true
  · by_cases hc : c = 4 * w + lane
    · simp only [hl, hc, and_self, if_true]; exact Memory.read_write_same m _ _ h
    · simp only [hl, hc, and_false, if_true, if_false]; exact Memory.read_write_other m _ _ _ hc
  · simp [hl]

/-! ## One word -/

/-- A word write keeps the canonical form. -/
theorem Memory.wf_writeWord (m : Memory) (w : Nat) (lanes : Lanes) (d : Word) (h : Memory.wf m = true) :
    Memory.wf (m.writeWord w lanes d) = true := by
  unfold Memory.writeWord
  exact Memory.wf_writeLane _ _ _ _ _ (Memory.wf_writeLane _ _ _ _ _
    (Memory.wf_writeLane _ _ _ _ _ (Memory.wf_writeLane _ _ _ _ _ h)))

/-- What any byte reads after a word write: the enabled lanes of the word have changed, nothing else has. -/
theorem Memory.read_writeWord (m : Memory) (w : Nat) (lanes : Lanes) (d : Word) (c : Nat) (h : Memory.wf m = true) :
    (m.writeWord w lanes d).read c =
      if c / 4 = w ∧ lanes.getLsbD (c % 4) then laneByte d (c % 4) else m.read c := by
  have h0 := Memory.wf_writeLane m w lanes d 0 h
  have h1 := Memory.wf_writeLane _ w lanes d 1 h0
  have h2 := Memory.wf_writeLane _ w lanes d 2 h1
  unfold Memory.writeWord
  rw [Memory.read_writeLane _ _ _ _ _ _ h2, Memory.read_writeLane _ _ _ _ _ _ h1,
    Memory.read_writeLane _ _ _ _ _ _ h0, Memory.read_writeLane _ _ _ _ _ _ h]
  by_cases hw : c / 4 = w
  · have hm : c % 4 < 4 := Nat.mod_lt _ (by omega)
    have hc : c = 4 * w + c % 4 := by omega
    generalize hr : c % 4 = r at *
    have : r = 0 ∨ r = 1 ∨ r = 2 ∨ r = 3 := by omega
    have e : (4 * w + r) / 4 = w := by omega
    rcases this with h | h | h | h <;> subst h <;> simp [hc] <;> simp [show (4 * w + _) / 4 = w from e]
  · have e3 : c ≠ 4 * w + 3 := by omega
    have e2 : c ≠ 4 * w + 2 := by omega
    have e1 : c ≠ 4 * w + 1 := by omega
    have e0 : c ≠ 4 * w := by omega
    simp [hw, e3, e2, e1, e0]

/-- Outside the four bytes of the word every byte reads as before, whatever the memory. -/
theorem Memory.read_writeWord_outside (m : Memory) (w : Nat) (lanes : Lanes) (d : Word) (c : Nat) (hc : c / 4 ≠ w) :
    (m.writeWord w lanes d).read c = m.read c := by
  have lane : ∀ (n : Memory) (k : Nat), k < 4 → (n.writeLane w lanes d k).read c = n.read c := by
    intro n k hk
    unfold Memory.writeLane; split
    · exact Memory.read_write_other n _ _ _ (by omega)
    · rfl
  unfold Memory.writeWord
  rw [lane _ 3 (by omega), lane _ 2 (by omega), lane _ 1 (by omega), lane _ 0 (by omega)]

/-- A word made of its own four lanes. -/
theorem laneBytes_append (d : Word) : laneByte d 3 ++ laneByte d 2 ++ laneByte d 1 ++ laneByte d 0 = d := by
  unfold laneByte
  apply BitVec.eq_of_getLsbD_eq
  intro i hi
  simp only [BitVec.getLsbD_append, BitVec.getLsbD_extractLsb']
  by_cases h0 : i < 8
  · simp [h0]
  · by_cases h1 : i - 8 < 8
    · simp only [h0, h1, if_true, if_false, decide_true, Bool.true_and]; congr 1; omega
    · by_cases h2 : i - 8 - 8 < 8
      · simp only [h0, h1, h2, if_true, if_false, decide_true, Bool.true_and]; congr 1; omega
      · have h3 : i - 8 - 8 - 8 < 8 := by omega
        simp only [h0, h1, h2, h3, if_false, decide_true, Bool.true_and]; congr 1; omega

/-- A word written whole reads back. -/
theorem Memory.readWord_writeWord_same (m : Memory) (w : Nat) (d : Word) (h : Memory.wf m = true) :
    (m.writeWord w 0xF d).readWord w = d := by
  unfold Memory.readWord
  have e : ∀ k < 4, (4 * w + k) / 4 = w ∧ (4 * w + k) % 4 = k := by omega
  rw [Memory.read_writeWord _ _ _ _ _ h, Memory.read_writeWord _ _ _ _ _ h, Memory.read_writeWord _ _ _ _ _ h,
    Memory.read_writeWord _ _ _ _ _ h]
  simp only [(e 3 (by omega)).1, (e 3 (by omega)).2, (e 2 (by omega)).1, (e 2 (by omega)).2, (e 1 (by omega)).1,
    (e 1 (by omega)).2]
  have e0 : 4 * w / 4 = w ∧ 4 * w % 4 = 0 := by omega
  rw [e0.1, e0.2]
  simp only [true_and]
  exact laneBytes_append d

/-- Every other word reads as before. -/
theorem Memory.readWord_writeWord_other (m : Memory) (w v : Nat) (lanes : Lanes) (d : Word) (h : v ≠ w) :
    (m.writeWord w lanes d).readWord v = m.readWord v := by
  unfold Memory.readWord
  rw [Memory.read_writeWord_outside _ _ _ _ _ (by omega), Memory.read_writeWord_outside _ _ _ _ _ (by omega),
    Memory.read_writeWord_outside _ _ _ _ _ (by omega), Memory.read_writeWord_outside _ _ _ _ _ (by omega)]

/-! ## The port's writes -/

/-- A write on the port keeps both memories canonical. -/
theorem State.memoryInv_store (s : State) (w : MemWrite) (h : MemoryInv s) : MemoryInv (s.store w) := by
  unfold State.store; split
  · exact ⟨h.1, Memory.wf_writeWord _ _ _ _ h.2⟩
  · exact ⟨Memory.wf_writeWord _ _ _ _ h.1, h.2⟩

/-- A word operation keeps both memories canonical. -/
theorem State.memoryInv_storeOp (s : State) (op : WordOp) (j : Job) (bus : UpstreamBus) (h : MemoryInv s) :
    MemoryInv (s.storeOp op j bus) := by
  unfold State.storeOp; split
  · exact State.memoryInv_store s _ h
  · exact h

/-- A hardware reset's cut keeps both memories canonical, whatever value a cut write leaves. -/
theorem State.memoryInv_cutJob (s : State) (c : ResetCause) (b : Bool) (bus : UpstreamBus) (h : MemoryInv s) :
    MemoryInv (s.cutJob c b bus) := by
  unfold State.cutJob
  split
  · split
    · split
      · exact State.memoryInv_store s _ h
      · exact State.memoryInv_store s _ h
      · exact h
      · exact h
    · exact h
  · exact h
  · exact h

end Sys2Proof.Machine
end

