-- ==== Sys2Proof/Laws/Outer.lean ====
section
/-! SUPPORT. What no taking of a request, no grant, no end of a job and no halt touches (State.outer): one lemma per
shared operation. -/

namespace Sys2Proof.Machine

@[simp] theorem State.outer_settle (s : State) : (s.settle).outer = s.outer := rfl

@[simp] theorem State.outer_answer (s : State) (r : Response) : (s.answer r).outer = s.outer := rfl

@[simp] theorem State.outer_postEc (s : State) : (s.postEc).outer = s.outer := rfl

@[simp] theorem State.outer_postLk (s : State) : (s.postLk).outer = s.outer := rfl

@[simp] theorem State.outer_postUp (s : State) (t : Transaction) : (s.postUp t).outer = s.outer := rfl

@[simp] theorem State.outer_respond (s : State) (b : Byte) (p : List Byte) : (s.respond b p).outer = s.outer := rfl

@[simp] theorem State.outer_await (s : State) (c : WaitingCommand) : (s.await c).outer = s.outer := rfl

@[simp] theorem State.outer_raise (s : State) (f : Flag) : (s.raise f).outer = s.outer := rfl

@[simp] theorem State.outer_refusalNotice (s : State) : (s.refusalNotice).outer = s.outer := rfl

@[simp] theorem State.outer_clearFlagBits (s : State) (m : BitVec 10) : (s.clearFlagBits m).outer = s.outer := rfl

@[simp] theorem State.outer_emptyJlt (s : State) : (s.emptyJlt).outer = s.outer := rfl

@[simp] theorem State.outer_takeCommit (s : State) (x : Sources) : (s.takeCommit x).outer = s.outer := rfl

@[simp] theorem State.outer_takeRollback (s : State) (o : Origin) (x : Sources) : (s.takeRollback o x).outer = s.outer := rfl

@[simp] theorem State.outer_takeFormat (s : State) (c : Fin 5) : (s.takeFormat c).outer = s.outer := rfl

@[simp] theorem State.outer_holdCommit (s : State) (x : Source) : (s.holdCommit x).outer = s.outer := rfl

@[simp] theorem State.outer_holdRollback (s : State) (x : Source) : (s.holdRollback x).outer = s.outer := rfl

@[simp] theorem State.outer_join (s : State) (x : Source) : (s.join x).outer = s.outer := rfl

@[simp] theorem State.outer_ckptNotice (s : State) : (s.ckptNotice).outer = s.outer := rfl

@[simp] theorem State.outer_abrtNotice (s : State) : (s.abrtNotice).outer = s.outer := rfl

@[simp] theorem State.outer_clearAge (s : State) : (s.clearAge).outer = s.outer := rfl

@[simp] theorem State.outer_openEpoch (s : State) (b : Nat) (e : Epoch) : (s.openEpoch b e).outer = s.outer := rfl

@[simp] theorem State.outer_beat (s : State) (f : Bool) (d : Option Word) : (s.beat f d).outer = s.outer := rfl

@[simp] theorem State.outer_endTransaction (s : State) : (s.endTransaction).outer = s.outer := rfl

@[simp] theorem State.outer_beginUp (s : State) (t : Transaction) (k : JobKind) (o : List WordOp) : (s.beginUp t k o).outer = s.outer := rfl

@[simp] theorem State.outer_beginJob (s : State) (k : JobKind) (o : List WordOp) : (s.beginJob k o).outer = s.outer := rfl

@[simp] theorem State.outer_enterHalted (s : State) : (s.enterHalted).outer = s.outer := rfl

@[simp] theorem State.outer_enterScanning (s : State) : (s.enterScanning).outer = s.outer := rfl

@[simp] theorem State.outer_acknowledge (s : State) (a : List Bool) : (s.acknowledge a).outer = s.outer := rfl

@[simp] theorem State.outer_collect (s : State) (b : List Byte) : (s.collect b).outer = s.outer := rfl

@[simp] theorem State.outer_refuseBytes (s : State) (b : List Byte) : (s.refuseBytes b).outer = s.outer := rfl

@[simp] theorem State.outer_scanCounts (s : State) : (s.scanCounts).outer = s.outer := rfl

@[simp] theorem State.outer_restoreEnds (s : State) : (s.restoreEnds).outer = s.outer := rfl

@[simp] theorem State.outer_countPeriod (s : State) : (s.countPeriod).outer = s.outer := rfl

@[simp] theorem State.outer_retryWaiting (s : State) : (s.retryWaiting).outer = s.outer := by
  unfold State.retryWaiting; split <;> rfl

@[simp] theorem State.outer_refuseSource (s : State) (x : Source) : (s.refuseSource x).outer = s.outer := by
  cases x <;> rfl

@[simp] theorem State.outer_refuseSet (s : State) (x : Sources) : (s.refuseSet x).outer = s.outer := by
  unfold State.refuseSet; dsimp only; split <;> split <;> rfl

@[simp] theorem State.outer_refuseHeld (s : State) : (s.refuseHeld).outer = s.outer := by
  show ((s.refuseSet s.ec.commitSlot).refuseSet s.ec.rollbackSlot).outer = _; simp

@[simp] theorem State.outer_meetWatermark (s : State) : (s.meetWatermark).outer = s.outer := by
  unfold State.meetWatermark; split <;> rfl

@[simp] theorem State.outer_recordJoins (s : State) (r : RecordHead) : (s.recordJoins r).outer = s.outer := by
  unfold State.recordJoins; rw [State.outer_meetWatermark]; rfl

@[simp] theorem State.outer_countRollback (s : State) : (s.countRollback).outer = s.outer := by
  unfold State.countRollback; split <;> rfl

@[simp] theorem State.outer_commitNotices (s : State) (x : Sources) (e : Epoch) (n : Nat) : (s.commitNotices x e n).outer = s.outer := by
  unfold State.commitNotices; dsimp only; split <;> split <;> rfl

@[simp] theorem State.outer_rollbackNotices (s : State) (x : Sources) (e : Epoch) (n : Nat) : (s.rollbackNotices x e n).outer = s.outer := by
  unfold State.rollbackNotices; dsimp only; repeat' split
  all_goals rfl

@[simp] theorem State.outer_postHeaderRead (s : State) : (s.postHeaderRead).outer = s.outer := by
  unfold State.postHeaderRead; split <;> rfl

@[simp] theorem State.outer_commitWhileUnknown (s : State) (x : Source) : (s.commitWhileUnknown x).outer = s.outer := by
  cases x <;> rfl

@[simp] theorem State.outer_commitRequest (s : State) (x : Source) : (s.commitRequest x).outer = s.outer := by
  unfold State.commitRequest; repeat' split
  all_goals simp

@[simp] theorem State.outer_rollbackInScanning (s : State) (x : Source) : (s.rollbackInScanning x).outer = s.outer := by
  cases x <;> rfl

@[simp] theorem State.outer_rollbackRequest (s : State) (x : Source) : (s.rollbackRequest x).outer = s.outer := by
  unfold State.rollbackRequest; repeat' split
  all_goals simp

@[simp] theorem State.outer_formatRequest (s : State) (c : Fin 5) : (s.formatRequest c).outer = s.outer := by
  unfold State.formatRequest; repeat' split
  all_goals simp

@[simp] theorem State.outer_discardRequest (s : State) : (s.discardRequest).outer = s.outer := by
  unfold State.discardRequest; split <;> simp

@[simp] theorem State.outer_ecTake (s : State) (r : EcRequest) : (s.ecTake r).outer = s.outer := by
  cases r <;> simp [State.ecTake]

@[simp] theorem State.outer_ecPost (s : State) (r : EcRequest) : (s.ecPost r).outer = s.outer := by
  unfold State.ecPost; split
  · rfl
  · simp

/-- Taking a list of requests one after another touches none of it either. -/
theorem State.outer_foldl_ecTake : ∀ (rs : List EcRequest) (s : State), (rs.foldl State.ecTake s).outer = s.outer
  | [], _ => rfl
  | r :: rs, s => by rw [List.foldl_cons, State.outer_foldl_ecTake rs, State.outer_ecTake]

@[simp] theorem State.outer_takeDeferred (s : State) : (s.takeDeferred).outer = s.outer := by
  unfold State.takeDeferred; rw [State.outer_foldl_ecTake]; rfl

@[simp] theorem State.outer_serve (s : State) : (s.serve).outer = s.outer := by
  unfold State.serve; dsimp only; repeat' split
  all_goals rfl

@[simp] theorem State.outer_commitCompletes (s : State) (b : Nat) (e : Epoch) (n : Nat) : (s.commitCompletes b e n).outer = s.outer := by
  unfold State.commitCompletes; dsimp only; rw [State.outer_serve, State.outer_commitNotices]; rfl

@[simp] theorem State.outer_rollbackCompletes (s : State) (e : Epoch) : (s.rollbackCompletes e).outer = s.outer := by
  unfold State.rollbackCompletes; dsimp only
  rw [State.outer_serve, State.outer_rollbackNotices, State.outer_countRollback]; rfl

@[simp] theorem State.outer_restoreBreaks (s : State) : (s.restoreBreaks).outer = s.outer := by
  unfold State.restoreBreaks; dsimp only; rw [State.outer_refuseSet, State.outer_refuseSet]; rfl

@[simp] theorem State.outer_discardCompletes (s : State) (b : Nat) (e : Epoch) (n : Nat) : (s.discardCompletes b e n).outer = s.outer := by
  unfold State.discardCompletes; dsimp only; rw [State.outer_serve]; rfl

@[simp] theorem State.outer_formatCompletes (s : State) (c : Fin 5) : (s.formatCompletes c).outer = s.outer := by
  unfold State.formatCompletes; dsimp only; rw [State.outer_serve]; rfl

@[simp] theorem State.outer_scanEnds (s : State) : (s.scanEnds).outer = s.outer := by
  unfold State.scanEnds; dsimp only; repeat' split
  all_goals first | exact State.outer_serve _ | exact State.outer_refuseHeld _ | rfl

@[simp] theorem State.outer_scanBreaks (s : State) : (s.scanBreaks).outer = s.outer := by
  unfold State.scanBreaks; rw [State.outer_refuseHeld]; rfl

@[simp] theorem State.outer_headerReadEnds (s : State) (w : List Word) : (s.headerReadEnds w).outer = s.outer := by
  unfold State.headerReadEnds; split
  · rfl
  · rw [State.outer_refuseHeld]; rfl

@[simp] theorem State.outer_scanStepEnds (s : State) (w : List Word) : (s.scanStepEnds w).outer = s.outer := by
  unfold State.scanStepEnds; repeat' split
  all_goals simp

@[simp] theorem State.outer_jobEnds (s : State) (k : JobKind) (w : List Word) : (s.jobEnds k w).outer = s.outer := by
  have h : ({ s with mpa := { s.mpa with job := none } } : State).outer = s.outer := rfl
  unfold State.jobEnds; dsimp only
  split
  all_goals try split
  all_goals first | rfl | (simp only [State.outer_headerReadEnds, State.outer_scanStepEnds, State.outer_commitCompletes,
    State.outer_restoreBreaks, State.outer_rollbackCompletes, State.outer_formatCompletes,
    State.outer_discardCompletes]; exact h)

@[simp] theorem State.outer_accept (s : State) (t : Transaction) : (s.accept t).outer = s.outer := by
  unfold State.accept; repeat' split
  all_goals simp

@[simp] theorem State.outer_returnToWaiting (s : State) (t : Transaction) : (s.returnToWaiting t).outer = s.outer := by
  unfold State.returnToWaiting; split <;> simp

@[simp] theorem State.outer_fullCase (s : State) (t : Transaction) : (s.fullCase t).outer = s.outer := by
  unfold State.fullCase; dsimp only; split <;> simp

@[simp] theorem State.outer_grantJournaling (s : State) (t : Transaction) : (s.grantJournaling t).outer = s.outer := by
  unfold State.grantJournaling; dsimp only; repeat' split
  all_goals simp

@[simp] theorem State.outer_grantJournalWrite (s : State) (t : Transaction) : (s.grantJournalWrite t).outer = s.outer := by
  unfold State.grantJournalWrite; split <;> simp

@[simp] theorem State.outer_grantWrite (s : State) (t : Transaction) : (s.grantWrite t).outer = s.outer := by
  unfold State.grantWrite; split <;> simp

@[simp] theorem State.outer_grantRead (s : State) (t : Transaction) : (s.grantRead t).outer = s.outer := by
  unfold State.grantRead; split <;> simp

@[simp] theorem State.outer_grantUp (s : State) : (s.grantUp).outer = s.outer := by
  unfold State.grantUp; repeat' split
  all_goals simp

@[simp] theorem State.outer_grantEc (s : State) : (s.grantEc).outer = s.outer := by
  unfold State.grantEc; dsimp only; repeat' split
  all_goals simp

@[simp] theorem State.outer_grantLk (s : State) : (s.grantLk).outer = s.outer := by
  unfold State.grantLk; repeat' split
  all_goals simp

@[simp] theorem State.outer_grantTo (s : State) (r : Requester) : (s.grantTo r).outer = s.outer := by
  unfold State.grantTo; dsimp only; split
  · rw [State.outer_grantUp]; rfl
  · rw [State.outer_grantEc]; rfl
  · rw [State.outer_grantLk]; rfl

@[simp] theorem State.outer_grantDecision (s : State) : (s.grantDecision).outer = s.outer := by
  unfold State.grantDecision; repeat' split
  all_goals simp

@[simp] theorem State.outer_leaveNormal (s : State) : (s.leaveNormal).outer = s.outer := by
  unfold State.leaveNormal; dsimp only; split
  · simp
  · show ((s.raise .pfail).retryWaiting).outer = _; simp

@[simp] theorem State.outer_haltInput (s : State) : (s.haltInput).outer = s.outer := by
  unfold State.haltInput; repeat' split
  all_goals first | rfl | simp

@[simp] theorem State.outer_compareSupply (s : State) (v : Millivolts) : (s.compareSupply v).outer = s.outer := by
  unfold State.compareSupply; dsimp only; split
  · rw [State.outer_haltInput]; rfl
  · rfl

@[simp] theorem State.outer_postIf (s : State) (b : Bool) (r : EcRequest) : (s.postIf b r).outer = s.outer := by
  unfold State.postIf; split <;> simp

@[simp] theorem State.outer_fireAgeAction (s : State) : (s.fireAgeAction).outer = s.outer := by
  unfold State.fireAgeAction; split <;> simp

@[simp] theorem State.outer_countTick (s : State) : (s.countTick).outer = s.outer := by
  unfold State.countTick; split
  · dsimp only; split
    · rw [State.outer_fireAgeAction]; rfl
    · rfl
  · rfl

@[simp] theorem State.outer_returnToNormal (s : State) : (s.returnToNormal).outer = s.outer := by
  unfold State.returnToNormal; rw [State.outer_grantDecision, State.outer_postHeaderRead]; rfl

@[simp] theorem State.outer_opEffects (s : State) (op : WordOp) (j : Job) (w : Option Word) : (s.opEffects op j w).outer = s.outer := by
  unfold State.opEffects; repeat' split
  all_goals simp

@[simp] theorem State.outer_strobe (s : State) (u : Strobe) : (s.strobe u).outer = s.outer := by
  unfold State.strobe; split <;> simp

@[simp] theorem State.outer_findUstb (s : State) : (s.findUstb).outer = s.outer := by
  unfold State.findUstb; split <;> simp

@[simp] theorem State.outer_linkResetActs (s : State) : (s.linkResetActs).outer = s.outer := by
  unfold State.linkResetActs; rw [State.outer_findUstb, State.outer_postHeaderRead]; rfl

@[simp] theorem State.outer_atJobEnd (s : State) : (s.atJobEnd).outer = s.outer := by
  unfold State.atJobEnd; dsimp only; repeat' split
  all_goals simp

/-! ## The fields of it -/

theorem State.windows_of_outer {s t : State} (h : t.outer = s.outer) : t.windows = s.windows := congrArg (·.1) h
theorem State.dataMem_of_outer {s t : State} (h : t.outer = s.outer) : t.dataMem = s.dataMem := congrArg (·.2.1) h
theorem State.journalMem_of_outer {s t : State} (h : t.outer = s.outer) : t.journalMem = s.journalMem :=
  congrArg (·.2.2.1) h
theorem State.rsti_of_outer {s t : State} (h : t.outer = s.outer) : t.rsti = s.rsti := congrArg (·.2.2.2.1) h
theorem State.freeCount_of_outer {s t : State} (h : t.outer = s.outer) : t.freeCount = s.freeCount :=
  congrArg (·.2.2.2.2.1) h
theorem State.pending_of_outer {s t : State} (h : t.outer = s.outer) : t.pending = s.pending :=
  congrArg (·.2.2.2.2.2.1) h
theorem State.ustb_of_outer {s t : State} (h : t.outer = s.outer) : t.ustb = s.ustb := congrArg (·.2.2.2.2.2.2) h

end Sys2Proof.Machine
end

