-- ==== Sys2Proof/Laws/Steps.lean ====
section
/-! SUPPORT. What a step comes to, for each shape of command: the meaning each arm calls; a grant decision; the completion
of a word operation; a link frame that is taken; a request that reaches the EC. -/

namespace Sys2Proof.Machine

/-! ## The arms of exec -/

@[simp] theorem exec_acceptance (write burst : Bool) (addr : DataAddr) (s : State) :
    exec (.acceptance write burst addr) s = execAcceptance write burst addr s := rfl
@[simp] theorem exec_jobGrant (s : State) :
    exec (.jobGrant) s = execJobGrant s := rfl
@[simp] theorem exec_wordOperationComplete (bus : UpstreamBus) (s : State) :
    exec (.wordOperationComplete bus) s = execWordOperationComplete bus s := rfl
@[simp] theorem exec_haltedEntry (s : State) :
    exec (.haltedEntry) s = execHaltedEntry s := rfl
@[simp] theorem exec_deferredRequestTaken (s : State) :
    exec (.deferredRequestTaken) s = execDeferredRequestTaken s := rfl
@[simp] theorem exec_hardwareReset (cause : ResetCause) (begun : Bool) (bus : UpstreamBus) (s : State) :
    exec (.hardwareReset cause begun bus) s = execHardwareReset cause begun bus s := rfl
@[simp] theorem exec_resetRelease (pins : ReleasePins) (s : State) :
    exec (.resetRelease pins) s = execResetRelease pins s := rfl
@[simp] theorem exec_pfailAsserted (s : State) :
    exec (.pfailAsserted) s = execPfailAsserted s := rfl
@[simp] theorem exec_pfailDeasserted (s : State) :
    exec (.pfailDeasserted) s = execPfailDeasserted s := rfl
@[simp] theorem exec_monitorTrip (supply : Millivolts) (s : State) :
    exec (.monitorTrip supply) s = execMonitorTrip supply s := rfl
@[simp] theorem exec_monitorClear (supply : Millivolts) (s : State) :
    exec (.monitorClear supply) s = execMonitorClear supply s := rfl
@[simp] theorem exec_returnToNormal (s : State) :
    exec (.returnToNormal) s = execReturnToNormal s := rfl
@[simp] theorem exec_linkResetActs (s : State) :
    exec (.linkResetActs) s = execLinkResetActs s := rfl
@[simp] theorem exec_sampleInstant (ckpt abrt abrtFirst : Bool) (s : State) :
    exec (.sampleInstant ckpt abrt abrtFirst) s = execSampleInstant ckpt abrt abrtFirst s := rfl
@[simp] theorem exec_tick (s : State) :
    exec (.tick) s = execTick s := rfl
@[simp] theorem exec_rstoPulseEnd (s : State) :
    exec (.rstoPulseEnd) s = execRstoPulseEnd s := rfl
@[simp] theorem exec_readFrame (f : ReadFrame) (s : State) :
    exec (.readFrame f) s = execReadFrame f s := rfl
@[simp] theorem exec_writeFrameAbandoned (addr : BitVec 7) (data : List Byte) (s : State) :
    exec (.writeFrameAbandoned addr data) s = execWriteFrameAbandoned addr data s := rfl
@[simp] theorem exec_writeFrameNak (addr : BitVec 7) (data : List Byte) (s : State) :
    exec (.writeFrameNak addr data) s = execWriteFrameNak addr data s := rfl
@[simp] theorem exec_emptyWriteFrame (addr : BitVec 7) (s : State) :
    exec (.emptyWriteFrame addr) s = execEmptyWriteFrame addr s := rfl
@[simp] theorem exec_unknownCommandCode (code : Byte) (f : LinkFrame) (s : State) :
    exec (.unknownCommandCode code f) s = execUnknownCommandCode code f s := rfl
@[simp] theorem exec_getStatus (f : LinkFrame) (s : State) :
    exec (.getStatus f) s = execGetStatus f s := rfl
@[simp] theorem exec_setWindow (f : LinkFrame) (s : State) :
    exec (.setWindow f) s = execSetWindow f s := rfl
@[simp] theorem exec_getWindow (f : LinkFrame) (s : State) :
    exec (.getWindow f) s = execGetWindow f s := rfl
@[simp] theorem exec_setPolicy (f : LinkFrame) (supply : Millivolts) (s : State) :
    exec (.setPolicy f supply) s = execSetPolicy f supply s := rfl
@[simp] theorem exec_getPolicy (f : LinkFrame) (s : State) :
    exec (.getPolicy f) s = execGetPolicy f s := rfl
@[simp] theorem exec_commit (f : LinkFrame) (s : State) :
    exec (.commit f) s = execCommit f s := rfl
@[simp] theorem exec_rollback (f : LinkFrame) (s : State) :
    exec (.rollback f) s = execRollback f s := rfl
@[simp] theorem exec_discard (f : LinkFrame) (s : State) :
    exec (.discard f) s = execDiscard f s := rfl
@[simp] theorem exec_format (f : LinkFrame) (s : State) :
    exec (.format f) s = execFormat f s := rfl
@[simp] theorem exec_readRecord (f : LinkFrame) (s : State) :
    exec (.readRecord f) s = execReadRecord f s := rfl
@[simp] theorem exec_getStats (f : LinkFrame) (s : State) :
    exec (.getStats f) s = execGetStats f s := rfl
@[simp] theorem exec_clearStats (f : LinkFrame) (s : State) :
    exec (.clearStats f) s = execClearStats f s := rfl
@[simp] theorem exec_setAlertMask (f : LinkFrame) (s : State) :
    exec (.setAlertMask f) s = execSetAlertMask f s := rfl
@[simp] theorem exec_clearFlags (f : LinkFrame) (s : State) :
    exec (.clearFlags f) s = execClearFlags f s := rfl
@[simp] theorem exec_reset (f : ResetFrame) (s : State) :
    exec (.reset f) s = execReset f s := rfl

/-! ## Assertions of USTB -/

/-- In IDLE, while a condition of R6 holds, a USTB found asserted is answered RETRY. -/
theorem State.findUstb_of_retry {s : State} (hp : s.upu = .reset) (h : s.retryAtAcceptance = true) :
    s.findUstb =
      { s with upu := { phase := .idle, beat := s.ustb.map (fun _ => { response := some .retry, data := none }) } } := by
  unfold State.findUstb
  cases hu : s.ustb with
  | none => cases s; cases hu; cases hp; rfl
  | some u =>
    show s.strobe u = _
    unfold State.strobe State.accept
    simp only [show s.upu.phase = .idle by rw [hp]; rfl, h, if_true]
    cases s; cases hu; rfl

/-- Every transaction is answered RETRY in SCANNING (R6). -/
theorem State.retryAtAcceptance_of_scanning {s : State} (h : s.ec.state = .scanning) : s.retryAtAcceptance = true := by
  unfold State.retryAtAcceptance Ec.unserved; rw [h]; simp

/-! ## Grants -/

theorem State.mayGrant_iff (s : State) : s.mayGrant = true ↔ s.mpa.job = none ∧ s.pwu.state = .normal ∧
    s.mpa.linkReset = false ∧ s.rsti = false ∧ s.ec.deferred = [] := by
  simp [State.mayGrant, and_assoc]

/-- A grant decision looks at nothing that settle changes. -/
@[simp] theorem State.mayGrant_settle (s : State) : s.settle.mayGrant = s.mayGrant := rfl

theorem State.grantDecision_of_grants {s : State} {r : Requester} (h : Grants s r) :
    s.settle.grantDecision = s.settle.grantTo r := by
  unfold State.grantDecision
  rw [State.mayGrant_settle, h.1, if_pos rfl, show s.settle.mpa = s.mpa from rfl, h.2]

/-- JOB_GRANT where the decision grants r. -/
theorem execJobGrant_of_grants {s : State} {r : Requester} (h : Grants s r) :
    execJobGrant s = .next (s.settle.grantTo r) := by
  unfold execJobGrant done; rw [State.grantDecision_of_grants h]

/-- With no job in progress and none waiting behind, a request is taken at once. -/
theorem State.defers_eq_false_of_mayGrant {s : State} (h : s.mayGrant = true) : s.defers = false := by
  obtain ⟨hj, _, _, _, hd⟩ := (State.mayGrant_iff s).1 h
  unfold State.defers; rw [hj, hd]; rfl

/-! ## Word operations -/

/-- WORD_OPERATION_COMPLETE with `op` in progress in the job j. -/
theorem execWordOperationComplete_of_inProgress {s : State} {j : Job} {op : WordOp} {rest : List WordOp}
    (bus : UpstreamBus) (h : InProgress s j op rest) :
    execWordOperationComplete bus s = .next ((s.settle.present bus.ustb).completeOp j op rest bus) := by
  unfold execWordOperationComplete done
  simp only [show s.settle.mpa.job = some j from h.1, h.2]

/-- A word operation that is not a job's last leaves the job in progress. -/
theorem State.completeOp_of_remaining {s : State} {j : Job} {op : WordOp} {rest : List WordOp} {bus : UpstreamBus}
    (h : (j.remaining op rest (j.reads ++ (op.reads? s).toList)
      ((s.storeOp op j bus).opEffects op j (op.reads? s)).ec).isEmpty = false) :
    s.completeOp j op rest bus =
      { (s.storeOp op j bus).opEffects op j (op.reads? s) with
        mpa := { ((s.storeOp op j bus).opEffects op j (op.reads? s)).mpa with
          job := some { j with
            todo := j.remaining op rest (j.reads ++ (op.reads? s).toList)
              ((s.storeOp op j bus).opEffects op j (op.reads? s)).ec
            reads := j.reads ++ (op.reads? s).toList } } } := by
  unfold State.completeOp; dsimp only; rw [h]; rfl

/-- A job's last word operation ends it. -/
theorem State.completeOp_of_last {s : State} {j : Job} {op : WordOp} {rest : List WordOp} {bus : UpstreamBus}
    (h : (j.remaining op rest (j.reads ++ (op.reads? s).toList)
      ((s.storeOp op j bus).opEffects op j (op.reads? s)).ec).isEmpty = true) :
    s.completeOp j op rest bus =
      ((s.storeOp op j bus).opEffects op j (op.reads? s)).jobEnds j.kind (j.reads ++ (op.reads? s).toList) := by
  unfold State.completeOp; dsimp only; rw [h]; rfl

/-- In every job but a restore the operations still to be made are the ones that were to come. -/
theorem Job.remaining_of_not_restore {j : Job} (h : j.kind ≠ .restore) (op : WordOp) (rest : List WordOp)
    (reads : List Word) (e : Ec) : j.remaining op rest reads e = rest := by
  unfold Job.remaining; split
  · exact absurd (by assumption) h
  · rfl

/-! ## Link frames -/

theorem State.addressed_of_ready {s : State} {addr : BitVec 7} (h : LinkReady s addr) : s.addressed addr = true := by
  obtain ⟨h1, h2, _⟩ := h
  simp [State.addressed, h1, h2]

/-- A frame of at most 16 bytes is acknowledged whole. -/
theorem collectedAcks_of_le {bytes : List Byte} (h : bytes.length ≤ 16) :
    collectedAcks bytes = List.replicate (bytes.length + 1) true := by
  unfold collectedAcks
  rw [List.replicate_succ]
  congr 1
  refine List.eq_replicate_iff.2 ⟨by simp, fun b hb => ?_⟩
  obtain ⟨k, hk, rfl⟩ := List.mem_map.1 hb
  have := List.mem_range.1 hk
  simp; omega

/-- A frame that the target collects, of any length. -/
theorem State.writeFrame_collects {s : State} {addr : BitVec 7} (h : LinkReady s addr) (bytes : List Byte)
    (k : State → State) : s.settle.writeFrame addr bytes k = k (s.settle.collect bytes) := by
  have ha : s.settle.addressed addr = true := State.addressed_of_ready h
  unfold State.writeFrame
  rw [if_pos ha]
  simp only [show s.settle.slk.mailbox = .idle from h.2.2]

/-- A collected frame of at most 16 bytes. -/
theorem State.writeFrame_of_ready {s : State} {addr : BitVec 7} (h : LinkReady s addr) {bytes : List Byte}
    (hl : bytes.length ≤ 16) (k : State → State) : s.settle.writeFrame addr bytes k = k (s.received bytes) := by
  rw [State.writeFrame_collects h]
  congr 1
  unfold State.collect State.received State.acknowledge State.settle
  rw [collectedAcks_of_le hl, List.take_of_length_le hl]

/-- A command frame of the right length is carried out. -/
theorem State.command_of_ready {s : State} {addr : BitVec 7} {args : List Byte} (h : LinkReady s addr) {n : Nat}
    (hn : args.length + 1 = n) (hl : n ≤ 16) (code : Byte) (k : State → State) :
    s.settle.command code n ⟨addr, args⟩ k = k (s.received (code :: args)) := by
  unfold State.command
  rw [State.writeFrame_of_ready h (by simp; omega)]
  rw [if_pos hn]

/-- A command frame of a wrong length of at most 16 bytes is refused with LKERR. -/
theorem State.command_of_wrong_length {s : State} {addr : BitVec 7} {args : List Byte} (h : LinkReady s addr) {n : Nat}
    (hn : args.length + 1 ≠ n) (hl : args.length ≤ 15) (code : Byte) (k : State → State) :
    s.settle.command code n ⟨addr, args⟩ k = (s.received (code :: args)).refuseLength := by
  unfold State.command
  rw [State.writeFrame_of_ready h (by simp; omega)]
  rw [if_neg hn]

/-- A response to a received frame is the reply to it. -/
theorem State.respond_received (s : State) (bytes : List Byte) (status : Byte) (p : List Byte) :
    (s.received bytes).respond status p = s.replied bytes.length status p := rfl

/-- A received command that waits stands in EXECUTING. -/
theorem State.await_received (s : State) (bytes : List Byte) (c : WaitingCommand) :
    (s.received bytes).await c = s.executing bytes c := rfl

/-! ## Requests that reach the EC -/

theorem State.ecPost_of_takenAtOnce {s : State} (h : TakenAtOnce s) (r : EcRequest) : s.ecPost r = s.ecTake r := by
  unfold State.ecPost; rw [h]; rfl

theorem State.ecPost_of_deferred {s : State} (h : s.defers = true) (r : EcRequest) :
    s.ecPost r = { s with ec := { s.ec with deferred := s.ec.deferred ++ [r] } } := by
  unfold State.ecPost; rw [h]; rfl

end Sys2Proof.Machine
end

