-- ==== Sys2Proof/Tests/Slice0.lean ====
section
/-! SUPPORT. The model's own tests: ill-formed terms that the check refuses, the bytes of link frames, the spec's worked
values, one step of each command on a small state, and a witness for the hypotheses of each statement. -/

namespace Sys2Proof.Tests

open Sys2Proof.Machine

/-! ## Helpers -/

/-- The state after a command that answers a next state. -/
def after (s : State) (c : Instr) : State :=
  match exec c s with
  | .next t => t
  | .fault _ | .refused _ => s

/-- A memory with these words at rising word addresses from `w`. -/
def wordsFrom (m : Memory) (w : Nat) : List Word → Memory
  | [] => m
  | d :: rest => wordsFrom (m.writeWord w 0xF d) (w + 1) rest

/-- A frame to link address 0x58. -/
def frame (args : List Byte) : LinkFrame := ⟨0x58, args⟩

/-- ACTIVE with S 256, base 254, epoch 7, usage 0; the header in journal memory agrees. -/
def active : State :=
  { State.reset with
    mpa := .reset 0
    ec := { Ec.reset false with state := .active, headerRead := true, base := 254, epoch := 7, endSlot := 254 }
    journalMem := wordsFrom [] 0 [0x00000001, 0x000070FE, 0xFFFFFFFE] }

/-- The record of index 0 of epoch 7, for line 0x00209. -/
def record : List Word := [0x80007000, 0x209, 1, 2, 3, 4, 0x20000, 0x7FFD8DF2]

/-- ACTIVE with that one record in slot 254, and usage 1. -/
def oneRecord : State :=
  { active with
    ec := { active.ec with usage := 1, endSlot := 255 }
    wju := active.wju.insert 0x209
    tau := { active.tau with running := true }
    journalMem := wordsFrom active.journalMem 2040 record }

/-- A state with the port held by a job. -/
def withJob (s : State) (kind : JobKind) (todo : List WordOp) (reads : List Word) : State :=
  { s with mpa := { s.mpa with job := some { kind := kind, todo := todo, reads := reads } } }

/-- A state with the EC in another state. -/
def inState (s : State) (e : EcState) (o : Option Origin) (set : Sources) : State :=
  { s with ec := { s.ec with state := e, origin := o, inProgress := set } }

/-- A single write of class JOURNAL, window 2, to word 0x00825 of line 0x00209. -/
def single : Transaction := { write := true, burst := false, addr := 0x825, cls := .journal 2 }

/-- A state whose UPU waits with a transaction and whose UP request is next in the rotation. -/
def waiting (s : State) (t : Transaction) : State :=
  { s with upu := { phase := .waiting t, beat := none }, mpa := { s.mpa with up := true } }

/-- A state whose EC request is next. -/
def ecWaiting (s : State) : State := { s with mpa := { s.mpa with ec := true } }

/-- Under RSTI#. -/
def held : State := { State.reset with mpa := .reset 0, rsti := true }

def bus : UpstreamBus := { data := 0xDEADBEEF, lanes := 0b0101, ustb := none }

/-- The layout of section 'Example: A Layout With Holes'. -/
def layout : State :=
  let w := ((active.windows.set 0 ⟨.opened, 2, 0x010100⟩).set 1 ⟨.guarded, 0, 0x0103C0⟩).set 2 ⟨.journal, 6, 0x010000⟩
  { active with windows := w.set 3 ⟨.opened, 16, 0x000000⟩ }

/-! ## Ill-formed terms are refused by the check -/

theorem test_wellFormed_refuses_unknown_code_that_is_known :
    (Instr.unknownCommandCode 0x10 (frame [])).wellFormed = false := by decide
theorem test_wellFormed_refuses_nak_without_data : (Instr.writeFrameNak 0x58 []).wellFormed = false := by decide
theorem test_wellFormed_accepts :
    (Instr.unknownCommandCode 0x06 (frame [])).wellFormed = true ∧ (Instr.writeFrameNak 0x58 [0x10]).wellFormed = true ∧
      Instr.jobGrant.wellFormed = true := by decide

/-! ## Frames and stored formats (chapter 12) -/

theorem test_frame_codes :
    [0x01, 0x02, 0x03, 0x04, 0x05].map (fun c => decodeFrame 0x58 3300 none [c, 0xAA]) =
      [Instr.getStatus (frame [0xAA]), .setWindow (frame [0xAA]), .getWindow (frame [0xAA]),
        .setPolicy (frame [0xAA]) 3300, .getPolicy (frame [0xAA])] ∧
    [0x10, 0x11, 0x12, 0x13, 0x20].map (fun c => decodeFrame 0x58 3300 none [c, 0xAA]) =
      [Instr.commit (frame [0xAA]), .rollback (frame [0xAA]), .discard (frame [0xAA]), .format (frame [0xAA]),
        .readRecord (frame [0xAA])] ∧
    [0x30, 0x31, 0x32, 0x33, 0x3F].map (fun c => decodeFrame 0x58 3300 none [c, 0xAA]) =
      [Instr.getStats (frame [0xAA]), .clearStats (frame [0xAA]), .setAlertMask (frame [0xAA]),
        .clearFlags (frame [0xAA]), .reset ⟨frame [0xAA], none⟩] ∧
    decodeFrame 0x58 3300 none [0x06] = .unknownCommandCode 0x06 (frame []) ∧
    decodeFrame 0x58 3300 none [] = .emptyWriteFrame 0x58 := by decide

theorem test_set_window_example :
    decodeFrame 0x58 0 none [0x02, 0x02, 0x02, 0x06, 0x00, 0x00, 0x01] = .setWindow (frame [0x02, 0x02, 0x06, 0x00, 0x00, 0x01])
    ∧ windowArgs [0x02, 0x02, 0x06, 0x00, 0x00, 0x01] = some (2, ⟨.journal, 6, 0x010000⟩) := by decide

theorem test_commit_response_example : statusOk :: epochPayload 32 6 = [0x00, 0x20, 0x00, 0x00, 0x06, 0x00] := by decide

theorem test_header_words :
    [0, 1, 2, 3, 4].map layoutWord = [0x00000001, 0x00000101, 0x00000201, 0x00000301, 0x00000401] ∧
    ~~~(layoutWord 4) = 0xFFFFFBFE ∧ commitWord 1 42 = 0x0002A001 := by decide

theorem test_worked_check_word :
    tagWord 1 2 = 0x80001002 ∧ lineWord 0x00010 = 0x10 ∧ stampWord 0 2 = 0x00020000 ∧
    checkWord [0x80001002, 0x00000010, 0x11111111, 0x22222222, 0x00000000, 0xFFFFFFFF, 0x00020000] = 0xB3312321 := by
  decide

theorem test_replacement_series :
    sequenceStep 0x0001 = 0xB400 ∧ sequenceStep 0x0168 = 0x00B4 ∧ sequenceStep 0x00B4 = 0x005A ∧
    sequenceStep 0x005A = 0x002D ∧ sequenceStep 0x002D = 0xB416 ∧ sequenceStep 0xB416 = 0x5A0B ∧
    sequenceStep 0x5A0B = 0x9905 ∧ [0x005A, 0x002D, 0xB416, 0x5A0B, 0x9905].map sequenceWay = [2, 1, 2, 3, 1] := by decide

theorem test_layout_with_holes :
    [0x010000, 0x010150, 0x0103C4, 0x010FFC, 0x011000].map (fun a => classify layout.windows (lineOf a)) =
      [.journal 2, .opened 0, .guarded 1, .journal 2, .opened 3] ∧
    windowArgs [0x00, 0x01, 0x02, 0x40, 0x01, 0x01] = none := by decide

/-! ## One step of each command -/

theorem test_acceptance :
    (after layout (.acceptance true false 0x010001)).upu.phase = .waiting ⟨true, false, 0x010001, .journal 2⟩ ∧
    (after layout (.acceptance true false 0x010001)).mpa.up = true := by decide
theorem test_job_grant : (after (waiting active single) .jobGrant).mpa.job.map (fun j => j.todo.length) = some 14 := by
  decide
theorem test_word_operation :
    (after (withJob active (.upWrite false) [.writeBeat 1 true] []) (.wordOperationComplete bus)).dataMem =
      [(4, 0xEF), (6, 0xAD)] := by decide
theorem test_deferred_request :
    (after { active with ec := { active.ec with deferred := [.commit .line] } } .deferredRequestTaken).ec.state =
      .committing := by decide
theorem test_hardware_reset :
    (after oneRecord (.hardwareReset .pin false bus)).ec.state = .scanning ∧
    (after oneRecord (.hardwareReset .pin false bus)).journalMem = oneRecord.journalMem := by decide
theorem test_reset_release :
    (after held (.resetRelease ⟨1, 2, true, false, 2999, false, true, none⟩)).pwu.state = .halted ∧
    (after held (.resetRelease ⟨1, 2, true, false, 3000, false, true, none⟩)).mpa.ec = true ∧
    (after held (.resetRelease ⟨1, 2, true, false, 3000, false, true, some ⟨true, false, 0⟩⟩)).ursp = 1 := by decide
theorem test_power_on_release :
    (after (after (after active (.hardwareReset .powerOn false bus)) (.monitorClear 3000))
      (.resetRelease ⟨0, 0, false, false, 2970, false, false, none⟩)).pwu.state = .normal ∧
    (after (after active (.hardwareReset .powerOn false bus))
      (.resetRelease ⟨0, 0, false, false, 2970, false, false, none⟩)).pwu.state = .halted := by decide
theorem test_pfail_asserted :
    (after (waiting active single) .pfailAsserted).pwu.state = .halted ∧
    (after (waiting active single) .pfailAsserted).ursp = 1 := by decide
theorem test_pfail_deasserted :
    (after { active with pwu := { active.pwu with state := .halted, pfail := true } } .pfailDeasserted).pwu =
      { active.pwu with state := .halted, pfail := false } := by decide
theorem test_monitor_trip :
    (after active (.monitorTrip 2949)).pwu.state = .halted ∧ (after active (.monitorTrip 2950)).pwu.state = .normal := by
  decide
theorem test_monitor_clear :
    (after { active with pwu := { active.pwu with tripped := true } } (.monitorClear 3000)).pwu.tripped = false ∧
    (after { active with pwu := { active.pwu with tripped := true } } (.monitorClear 2999)).pwu.tripped = true := by decide
theorem test_halted_entry :
    (after { active with pwu := { active.pwu with state := .halting, pfail := true } } .haltedEntry).pwu.state = .halted := by
  decide
theorem test_return_to_normal :
    (after { ecWaiting (inState active .committing none (.of .line)) with pwu := { active.pwu with state := .halted } }
      .returnToNormal).mpa.job.map (fun j => j.kind) = some (.commit 254 8 0) := by decide
theorem test_link_reset_acts :
    let s := { oneRecord with mpa := { oneRecord.mpa with linkReset := true } }
    (after s .linkResetActs).ec.state = .scanning ∧ (after s .linkResetActs).slk.response = [0] ∧
    (after s .linkResetActs).urdy = false ∧ (after (s.present (some ⟨true, false, 0⟩)) .linkResetActs).ursp = 1 := by decide
theorem test_sample_instant :
    (after { active with rlu := { active.rlu with ckpt := ⟨true, true, false, false⟩ } } (.sampleInstant true false false)).ec.state
      = .committing := by decide
theorem test_tick : (after oneRecord .tick).tau.age = 1 ∧ (after active .tick).tau.age = 0 := by decide
theorem test_rsto_pulse_end :
    (after { active with tau := { active.tau with pulse := some ⟨255, 256⟩ } } .rstoPulseEnd).rsto = false := by decide
theorem test_read_frame :
    (after { active with slk := { active.slk with mailbox := .responseReady, response := [0, 5] } }
      (.readFrame ⟨0x58, 3, true, false⟩)).slk.sent = [0, 5, 0] ∧
    (after active (.readFrame ⟨0x58, 2, true, false⟩)).slk.sent = [0xFF, 0xFF] := by decide
theorem test_write_frame_abandoned : (after active (.writeFrameAbandoned 0x58 [0x10])).sau.flags = 0x200 := by decide
theorem test_write_frame_nak :
    (after { active with slk := { active.slk with mailbox := .executing .commit } } (.writeFrameNak 0x58 [1, 2])).slk.acks
      = [true, false, false] := by decide
theorem test_empty_write_frame :
    (after active (.emptyWriteFrame 0x58)).slk.acks = [true] ∧ (after active (.emptyWriteFrame 0x59)).slk.acks = [false] := by
  decide
theorem test_unknown_command_code : (after active (.unknownCommandCode 0x06 (frame []))).slk.response = [0x04] := by decide
theorem test_get_status :
    (after oneRecord (.getStatus (frame []))).slk.response =
      [0, 3, 0, 7, 0, 0, 0, 254, 0, 1, 0, 0x20, 0, 0, 0xFF, 0x03, 0, 0] := by decide
theorem test_set_window :
    (after active (.setWindow (frame [2, 2, 6, 0, 0, 1]))).windows[2] = ⟨.journal, 6, 0x010000⟩ ∧
    (after active (.setWindow (frame [0, 1, 2, 0x40, 1, 1]))).slk.response = [0x03] := by decide
theorem test_get_window : (after layout (.getWindow (frame [2]))).slk.response = [0, 2, 6, 0, 0, 1] := by decide
theorem test_set_policy :
    (after active (.setPolicy (frame [0x83, 1, 5, 0, 0, 0, 0, 0, 0, 0, 3]) 3040)).pwu.state = .halted ∧
    (after active (.setPolicy (frame [0x01, 2, 5, 0, 0, 0, 0, 0, 0, 0, 3]) 3040)).slk.response = [0x03] := by decide
theorem test_get_policy :
    (after active (.getPolicy (frame []))).slk.response = [0, 0, 0, 0, 0, 0xFF, 0xFF, 0, 1, 1, 2] := by decide
theorem test_commit :
    (after oneRecord (.commit (frame []))).ec.inProgress = .of .link ∧
    (after oneRecord (.commit (frame []))).ec.state = .committing := by decide
theorem test_rollback :
    (after oneRecord (.rollback (frame []))).ec.origin = some .live ∧
    (after oneRecord (.rollback (frame []))).ec.endSlot = 255 := by decide
theorem test_discard :
    (after (inState oneRecord .recoveryHold none .empty) (.discard (frame []))).mpa.ec = true ∧
    (after oneRecord (.discard (frame []))).slk.response = [0x02] := by decide
theorem test_format :
    (after active (.format (frame [4]))).ec.state = .formatting ∧
    (after oneRecord (.format (frame [4]))).slk.response = [0x02] := by decide
theorem test_read_record :
    (after oneRecord (.readRecord (frame [0, 0]))).mpa.lk = true ∧
    (after oneRecord (.readRecord (frame [1, 0]))).slk.response = [0x03] := by decide
theorem test_get_stats : (after active (.getStats (frame []))).slk.response = List.replicate 21 0 := by decide
theorem test_clear_stats : (after oneRecord (.clearStats (frame []))).sau.peak = 1 := by decide
theorem test_set_alert_mask : (after active (.setAlertMask (frame [0xFF, 0xFC]))).sau.mask = 0x0FF := by decide
theorem test_clear_flags :
    (after { active with sau := { active.sau with flags := 0x205 } } (.clearFlags (frame [0x04, 0x00]))).slk.response =
      [0, 0x01, 0x02] := by decide
theorem test_reset_command :
    (after (waiting active single) (.reset ⟨frame [], none⟩)).mpa.linkReset = true ∧
    (after (waiting active single) (.reset ⟨frame [], none⟩)).upu.phase = .idle := by decide

/-! ## Witnesses: states and operands that meet the hypotheses of the statements -/

theorem passes_active : PassesAcceptance active := ⟨rfl, rfl, by decide, by decide, by decide⟩
theorem ready_active : LinkReady active 0x58 := ⟨by decide, by decide, by decide⟩
theorem ready_oneRecord : LinkReady oneRecord 0x58 := ⟨by decide, by decide, by decide⟩
theorem grants_up (t : Transaction) : Grants (waiting active t) .up := ⟨rfl, rfl⟩

theorem witness_EmptyQueueIsOnePeriod :
    active.pending = [] ∧ active.rsti = false ∧ { active with rsti := true }.pending = [] := by decide
theorem witness_EmptyQueueIsOnePeriod_counts :
    step { active with
      rlu := { active.rlu with sampleCount := 7 }
      tau := { active.tau with divCount := 31, pulse := some ⟨31, 32⟩ } } =
    .next { active with
      rlu := { active.rlu with sampleCount := 8 }
      tau := { active.tau with divCount := 32, pulse := some ⟨32, 32⟩ }
      pending := [.sampleInstant false false false, .tick, .rstoPulseEnd] } := by rfl
theorem witness_WellFormedCommandsComplete :
    (Instr.unknownCommandCode 0x06 (frame [])).wellFormed = true ∧ (0x3F : Byte) ∈ commandCodes := by decide
theorem witness_AcceptanceOutcome :
    (waiting active single).upu.phase ≠ .idle ∧
    (active.upu.phase = .idle ∧ active.rsti = false ∧ PassesAcceptance active ∧
      ¬∃ i, classify active.windows (lineOf 0x3FFFFF) = .guarded i) ∧
    ¬PassesAcceptance State.reset :=
  ⟨by decide, ⟨rfl, rfl, passes_active, by decide⟩, fun h => absurd rfl h.2.2.1⟩
theorem witness_GuardWriteFaults :
    layout.upu.phase = .idle ∧ layout.rsti = false ∧ PassesAcceptance layout ∧
    classify layout.windows (lineOf 0x0103C0) = .guarded 1 ∧ classify layout.windows (lineOf 0x0103FF) = .guarded 1 :=
  ⟨rfl, rfl, ⟨rfl, rfl, by decide, by decide, by decide⟩, by decide, by decide⟩
theorem witness_LowestWindowDecides :
    WindowInv layout ∧ Covers layout.windows[0] (lineOf 0x010100) ∧ Covers layout.windows[0] (lineOf 0x0101FF) ∧
    ¬Covers layout.windows[0] (lineOf 0x010200) ∧ (∀ i : Fin 8, ¬Covers active.windows[i] 0) := by
  unfold WindowInv Covers; decide
theorem witness_BeatOrder :
    (Transaction.beats ⟨false, true, 0x3FFFFF, .unmapped⟩ = [0x3FFFFF, 0x3FFFFC, 0x3FFFFD, 0x3FFFFE]) ∧
    Transaction.beats single = [0x825] := by decide
theorem witness_RotationDecides :
    Grants (waiting active single) .up ∧ Grants (ecWaiting active) .ec ∧
    Grants { active with mpa := { active.mpa with lk := true } } .lk ∧ active.mpa.chosen = none ∧
    (withJob active .upRead [.readBeat 0 true] []).mayGrant = false :=
  ⟨⟨rfl, rfl⟩, ⟨rfl, rfl⟩, ⟨rfl, rfl⟩, rfl, rfl⟩
theorem witness_UpJobPerforms :
    (Grants (waiting active single) .up ∧ PassesAcceptance (waiting active single)) ∧
    (Grants (waiting oneRecord single) .up ∧ PassesAcceptance (waiting oneRecord single) ∧ single.write = true ∧
      (waiting oneRecord single).wju.jlt.hit (lineOf single.addr) = true) :=
  ⟨⟨⟨rfl, rfl⟩, ⟨rfl, rfl, by decide, by decide, by decide⟩⟩,
    ⟨rfl, rfl⟩, ⟨rfl, rfl, by decide, by decide, by decide⟩, rfl, by decide⟩
theorem witness_AppendGranted :
    Grants (waiting active single) .up ∧ single.write = true ∧ single.cls = .journal 2 ∧ active.ec.state = .active ∧
    active.wju.jlt.hit (lineOf single.addr) = false ∧ active.ec.usage + 1 < active.ec.size :=
  ⟨⟨rfl, rfl⟩, rfl, rfl, rfl, by decide, by decide⟩

/-- Usage S − 1. -/
def full (p : FullPolicy) (e : EcState) : State :=
  waiting { active with
    ec := { active.ec with state := e, usage := 255, endSlot := 253 }, wju := { active.wju with policy := p } } single

theorem witness_FullCase : ∀ p e, (e = .active ∨ e = .committing) → Grants (full p e) .up ∧
    (full p e).upu.phase = .waiting single ∧ (full p e).wju.jlt.hit (lineOf single.addr) = false ∧
    (full p e).ec.usage + 1 = (full p e).ec.size ∧ (full p e).wju.policy = p ∧ (full p e).ec.state = e := by
  rintro p e (rfl | rfl) <;> exact ⟨⟨rfl, rfl⟩, rfl, rfl, rfl, rfl, rfl⟩
theorem witness_UpJobTurnedAway :
    (∀ e o set, Grants (waiting (inState active e o set) single) .up) ∧
    ¬PassesAcceptance (inState active .recoveryHold none .empty) ∧ single.write = true ∧ single.cls = .journal 2 :=
  ⟨fun _ _ _ => ⟨rfl, rfl⟩, fun h => absurd rfl h.2.2.2.1, rfl, rfl⟩
theorem witness_EcFormsItsJobAtTheGrant :
    (∀ e o set, Grants (ecWaiting (inState active e o set)) .ec) ∧
    Grants State.reset .ec ∧ State.reset.ec.state = .scanning ∧ State.reset.ec.headerRead = false ∧
    active.ec.usage = 0 ∧ 0 < oneRecord.ec.usage ∧ Grants (ecWaiting (inState oneRecord .rollingBack (some .live) (.of .line))) .ec :=
  ⟨fun _ _ _ => ⟨rfl, rfl⟩, ⟨rfl, rfl⟩, rfl, rfl, rfl, by decide, ⟨rfl, rfl⟩⟩
theorem witness_WordWriteChangesItsLanes :
    Memory.wf active.journalMem = true ∧ 0b0101#4 = 5 ∧ (0b0101#4).getLsbD 0 = true ∧ (0b0101#4).getLsbD 1 = false := by
  decide
theorem witness_BeatsMove :
    InProgress (withJob active .upRead [.readBeat 0 true] []) ⟨.upRead, [.readBeat 0 true], []⟩ (.readBeat 0 true) [] ∧
    InProgress (withJob active (.upWrite true) [.writeBeat 0 true, .writeBeat 1 false] [])
      ⟨.upWrite true, [.writeBeat 0 true, .writeBeat 1 false], []⟩ (.writeBeat 0 true) [.writeBeat 1 false] :=
  ⟨⟨rfl, rfl⟩, ⟨rfl, rfl⟩⟩

/-- The head of the record an append of `single` fixes in ACTIVE. -/
def head : RecordHead := { slot := 254, tag := 0x80007000, line := 0x209, stamp := 0x20000 }

theorem witness_append_head : active.recordFor single = head := by decide

/-- An append with k of its word operations made. -/
def appending (k : Nat) : State :=
  withJob { active with upu := { phase := .inJob single, beat := none } } (.append head)
    ((appendOps head 255 ++ single.writeOps).drop k) ([1, 2, 3, 4].take k)

theorem witness_AppendBuildsTheRecord : ∀ k < 12, ∃ j op rest, j.kind = .append head ∧
    InProgress (appending k) j op rest ∧ rest ≠ [] := by
  intro k h
  interval_cases k <;> exact ⟨_, _, _, rfl, ⟨rfl, rfl⟩, by decide⟩
theorem witness_AppendBuildsTheRecord_check :
    (after (appending 11) (.wordOperationComplete bus)).journalMem.readWord (8 + 8 * 254 + 7) = 0x7FFD8DF2 := by decide
theorem witness_TagWriteJoinsTheRecord :
    InProgress (appending 12) ⟨.append head, [.writeTag 2040 0x80007000, .writeBeat 0x825 true], [1, 2, 3, 4]⟩
      (.writeTag 2040 0x80007000) [.writeBeat 0x825 true] := ⟨rfl, rfl⟩
theorem witness_JltLookupAndInsertion :
    oneRecord.wju.jlt.hit 0x209 = true ∧ oneRecord.wju.jlt.hit 0x219 = false ∧
    (∀ k : Fin 4, ([0x219, 0x229, 0x239].foldl Wju.insert oneRecord.wju).jlt[jltSetOf 0x249][k] ≠ none) ∧
    active.wju.jlt[jltSetOf 0x209][(0 : Fin 4)] = none := by decide

/-- A header read with its last word to be read. -/
def headerReading (reads : List Word) : State :=
  withJob { State.reset with journalMem := active.journalMem, mpa := .reset 0 } .headerRead [.readJournal 2] reads

theorem witness_HeaderReadEnds :
    InProgress (headerReading [1, 0x000070FE]) ⟨.headerRead, [.readJournal 2], [1, 0x000070FE]⟩ (.readJournal 2) [] ∧
    headerTest 1 0x000070FE 0xFFFFFFFE = some (0, 254, 7) ∧ headerTest 1 0x00007100 0xFFFFFFFE = none ∧
    State.reset.ec.commitSlot.onlyLine = true ∧ State.reset.ec.rollbackSlot.onlyLine = true :=
  ⟨⟨rfl, rfl⟩, by decide, by decide, by decide, by decide⟩

/-- A scan step of the slot of `record`, with its last word to be read, at a scan count. -/
def scanning (n : Nat) (rcva : Bool) (reads : List Word) : State :=
  withJob { oneRecord with
      ec := { (inState oneRecord .scanning none .empty).ec with scanCount := n, usage := n, rcva := rcva } }
    .scanStep [.readJournal 2047] reads

theorem witness_ScanStepEnds : ∀ n rcva reads,
    InProgress (scanning n rcva reads) ⟨.scanStep, [.readJournal 2047], reads⟩ (.readJournal 2047) [] ∧
    (scanning n rcva reads).ec.usage = (scanning n rcva reads).ec.scanCount ∧
    (scanning n rcva reads).ec.commitSlot.onlyLine = true ∧ (scanning n rcva reads).ec.rollbackSlot.onlyLine = true ∧
    (scanning n rcva reads).ec.rcva = rcva := fun _ _ _ => ⟨⟨rfl, rfl⟩, rfl, rfl, rfl, rfl⟩
theorem witness_ScanStepEnds_classes :
    classifySlot 7 0 record = .good ∧ classifySlot 7 1 record = .bad ∧
    classifySlot 7 0 [0, 0, 0, 0, 0, 0, 0, 0] = .ending := by decide

/-- A restore of the record of index 0. -/
def restoring (todo : List WordOp) (reads : List Word) : State :=
  withJob (inState oneRecord .rollingBack (some .live) (.of .line)) .restore todo reads

theorem witness_RestoreJob :
    InProgress (restoring [.readJournal 2047] (record.take 7)) ⟨.restore, [.readJournal 2047], record.take 7⟩
      (.readJournal 2047) [] ∧
    classifySlot 7 0 (record.take 7 ++ [oneRecord.journalMem.readWord 2047]) = .good ∧
    classifySlot 7 0 ([0x80007000, 0, 1, 2, 3, 4, 0] ++ [oneRecord.journalMem.readWord 2047]) ≠ .good ∧
    InProgress (restoring [.restoreWord 0x827 4] record) ⟨.restore, [.restoreWord 0x827 4], record⟩ (.restoreWord 0x827 4) [] ∧
    classifySlot (restoring [] []).ec.epoch ((restoring [] []).ec.usage - 1) record = .good :=
  ⟨⟨rfl, rfl⟩, by decide, by decide, ⟨rfl, rfl⟩, by decide⟩
theorem witness_SlotsServed :
    active.ec.rollbackSlot.isEmpty = true ∧ (Sources.of .age).isEmpty = false ∧ active.mpa.linkReset = false := by decide
theorem witness_CommitCompletes :
    InProgress (withJob (inState oneRecord .committing none (.of .link)) (.commit 255 8 1) [.writeJournal 1 0x000080FF] [])
      ⟨.commit 255 8 1, [.writeJournal 1 0x000080FF], []⟩ (.writeJournal 1 0x000080FF) [] := ⟨rfl, rfl⟩
theorem witness_RollbackCompletes :
    InProgress (withJob (inState active .rollingBack (some .live) (.of .age)) (.close 8)
        [.writeJournal 2040 0, .writeJournal 1 0x000080FE] [])
      ⟨.close 8, [.writeJournal 2040 0, .writeJournal 1 0x000080FE], []⟩ (.writeJournal 2040 0)
      [.writeJournal 1 0x000080FE] ∧
    InProgress (withJob (inState active .rollingBack (some .live) (.of .age)) (.close 8) [.writeJournal 1 0x000080FE] [])
      ⟨.close 8, [.writeJournal 1 0x000080FE], []⟩ (.writeJournal 1 0x000080FE) [] := ⟨⟨rfl, rfl⟩, ⟨rfl, rfl⟩⟩

/-- A format job with k of its writes made. -/
def formatting (k : Nat) : State := withJob (inState active .formatting none .empty) (.format 4) ((formatOps 4).drop k) []

theorem witness_DiscardAndFormatComplete :
    InProgress (formatting 0) ⟨.format 4, formatOps 4, []⟩ (.writeJournal 0 0) ((formatOps 4).drop 1) ∧
    InProgress (formatting 4) ⟨.format 4, [.writeJournal 0 0x401], []⟩ (.writeJournal 0 0x401) [] ∧
    InProgress (withJob (inState oneRecord .recoveryHold none .empty) (.discard 255 8 1) [.writeJournal 1 0x000080FF] [])
      ⟨.discard 255 8 1, [.writeJournal 1 0x000080FF], []⟩ (.writeJournal 1 0x000080FF) [] :=
  ⟨⟨rfl, rfl⟩, ⟨rfl, rfl⟩, ⟨rfl, rfl⟩⟩

/-- READ_RECORD in EXECUTING with its LK request next. -/
def reading (offset : Nat) : State :=
  { oneRecord with
    mpa := { oneRecord.mpa with lk := true }
    slk := { oneRecord.slk with mailbox := .executing (.readRecord offset) } }

theorem witness_ReadRecordReadsTheSlot :
    LinkReady oneRecord 0x58 ∧ 0 < oneRecord.ec.usage ∧ oneRecord.ec.usage ≤ 1 ∧ Grants (reading 0) .lk ∧
    Grants (reading 1) .lk ∧ InProgress (withJob (reading 0) .readRecord [.readJournal 2047] (record.take 7))
      ⟨.readRecord, [.readJournal 2047], record.take 7⟩ (.readJournal 2047) [] :=
  ⟨ready_oneRecord, by decide, by decide, ⟨rfl, rfl⟩, ⟨rfl, rfl⟩, ⟨rfl, rfl⟩⟩
theorem witness_CommitRequestTreated :
    (∀ e o, (inState active e o .empty).ec.state = e ∧ (inState active e o .empty).ec.origin = o) ∧
    Source.line ≠ .recovery ∧ Source.full ≠ .recovery := ⟨fun _ _ => ⟨rfl, rfl⟩, by decide, by decide⟩
theorem witness_RollbackRequestTreated : Source.age = .line ∨ Source.age = .link ∨ Source.age = .age := by decide
theorem witness_DeferredRequestsTakenInOrder :
    (appending 3).mpa.job ≠ none ∧ (∃ h, JobKind.append head = .append h) ∧ active.mpa.job = none ∧
    active.ec.deferred = [] := ⟨by decide, ⟨head, rfl⟩, rfl, rfl⟩
theorem witness_EpochCommandsReachTheEc :
    LinkReady active 0x58 ∧ TakenAtOnce active ∧ LinkReady (appending 3) 0x58 ∧ ¬TakenAtOnce (appending 3) ∧
    (active.ec.state = .active ∧ active.ec.usage = 0) ∧ (oneRecord.ec.state = .active ∧ oneRecord.ec.usage ≠ 0) ∧
    (4 : Byte).toNat = (4 : Fin 5).val ∧ 4 < (5 : Byte).toNat :=
  ⟨ready_active, rfl, ⟨by decide, by decide, by decide⟩, by unfold TakenAtOnce; decide, by decide, by decide, by decide,
    by decide⟩
theorem witness_HardwareResetValues :
    InProgress (appending 12) ⟨.append head, (appendOps head 255 ++ single.writeOps).drop 12, [1, 2, 3, 4]⟩
      (.writeTag 2040 0x80007000) single.writeOps ∧
    (WordOp.writeTag 2040 0x80007000).write? ⟨.append head, [], []⟩ bus = some (journalWrite 2040 0x80007000) ∧
    (WordOp.readOld 0).write? ⟨.append head, [], []⟩ bus = none := ⟨⟨rfl, rfl⟩, rfl, rfl⟩

theorem witness_ResetRelease :
    held.rsti = true ∧ active.rsti = false ∧
    (∀ on trip, HeldInv { held with pwu := { held.pwu with powerOn := on, tripped := trip } }) ∧
    ∃ t, step { held with pending := [.resetRelease ⟨0, 0, false, false, 2970, false, false, none⟩] } = .next t :=
  ⟨rfl, rfl, fun _ _ _ => ⟨rfl, rfl, rfl⟩, _, rfl⟩

/-- A link reset awaits action in a PWU state. -/
def linkReset (p : PwuState) : State :=
  { active with mpa := { active.mpa with linkReset := true }, pwu := { active.pwu with state := p } }

theorem witness_HaltedEntryAndLinkReset :
    (∀ p, (linkReset p).mpa.linkReset = true ∧ (linkReset p).mpa.job = none ∧ (linkReset p).rsti = false ∧
      (linkReset p).pwu.state = p) ∧ active.mpa.linkReset = false := ⟨fun _ => ⟨rfl, rfl, rfl, rfl⟩, rfl⟩
theorem witness_HaltInputs :
    active.rsti = false ∧ active.pwu.state = .normal ∧ active.pwu.threshold = .v295 ∧ active.pwu.tripped = false ∧
    (2949 : Nat) < 2950 ∧ (waiting active single).upu.phase = .waiting single ∧ (appending 3).mpa.job ≠ none := by decide
theorem witness_ReturnToNormal :
    let s := { linkReset .halted with mpa := .reset 0 }
    s.pwu.state = .halted ∧ s.pwu.pfail = false ∧ s.pwu.tripped = false ∧ s.rsti = false := by decide
theorem witness_SampleInstant :
    Rises ⟨true, true, false, false⟩ true ∧ ¬Rises ⟨true, true, true, false⟩ true ∧ ¬Rises ⟨true, false, false, false⟩ true ∧
    active.rsti = false := by unfold Rises; decide
theorem witness_TicksAndPulse :
    oneRecord.tau.running = true ∧ oneRecord.pwu.state = .normal ∧ oneRecord.rsti = false ∧ oneRecord.tau.pulse = none ∧
    (0xFFFE : BitVec 16) + 1 = oneRecord.tau.limit ∧ active.tau.running = false := by decide
theorem witness_ReadFrameReturns :
    active.rsti = false ∧ (0x58 : BitVec 7) = active.slk.address ∧ (0x5B : BitVec 7) ≠ active.slk.address ∧
    active.slk.mailbox ≠ .responseReady := by decide
theorem witness_WriteFramesNotTaken :
    LinkReady active 0x58 ∧ (0x59 : BitVec 7) ≠ active.slk.address ∧ (0x00 : Byte) ∉ commandCodes ∧
    encodeFrame (.reset ⟨frame [], none⟩) = some (0x58, [0x3F]) ∧ (reading 0).slk.mailbox = .executing (.readRecord 0) ∧
    (0x58 : BitVec 7) = (reading 0).slk.address :=
  ⟨ready_active, by decide, by decide, by decide, rfl, by decide⟩
theorem witness_LinkCommands : LinkReady active 0x58 ∧ LinkReady oneRecord 0x58 := ⟨ready_active, ready_oneRecord⟩
theorem witness_WindowCommands_boundaries :
    (windowArgs [7, 3, 16, 0, 0, 0]).isSome = true ∧ (windowArgs [8, 3, 16, 0, 0, 0]).isSome = false ∧
    (windowArgs [7, 4, 16, 0, 0, 0]).isSome = false ∧ (windowArgs [7, 3, 17, 0, 0, 0]).isSome = false ∧
    (windowArgs [0, 0, 0, 0xC0, 0xFF, 0x3F]).isSome = true ∧ (windowArgs [0, 0, 0, 0, 0, 0x40]).isSome = false := by decide
theorem witness_PolicyCommands_boundaries :
    policyAccepted 0xFF (policyValues [0xFF, 1, 0xFF, 0x0F, 3, 1, 0, 3, 2, 2, 3]) = true ∧
    policyAccepted 0x02 (policyValues [0x02, 1, 0x00, 0x10, 3, 1, 0, 3, 2, 2, 3]) = false ∧
    policyAccepted 0x08 (policyValues [0x08, 1, 0, 0, 3, 0, 0, 3, 2, 2, 3]) = false ∧
    policyAccepted 0x00 (policyValues [0x00, 9, 0xFF, 0xFF, 9, 0, 0, 9, 9, 9, 9]) = true := by decide
theorem witness_ResetCommandTaken :
    LinkReady (waiting active single) 0x58 ∧ (waiting active single).upu.phase = .waiting single ∧
    (∀ t, active.upu.phase ≠ .waiting t) := ⟨⟨by decide, by decide, by decide⟩, rfl, fun _ h => nomatch h⟩
theorem witness_FlagsWindowsMemoriesChangeOnlyAt :
    exec .rstoPulseEnd active = .next active ∧ ∀ cause begun b, Instr.rstoPulseEnd ≠ .hardwareReset cause begun b :=
  ⟨rfl, fun _ _ _ h => nomatch h⟩
theorem ring_appending : RingInv (appending 12) := by
  refine ⟨by decide, by decide, by decide, fun j h => ?_⟩
  cases Option.some.inj h; exact (by decide : (254 : Nat) - 254 + 0 + 1 < 256)
theorem job_appending : JobInv (appending 12) := by
  intro j h; cases Option.some.inj h; rfl
theorem witness_EpochAndUsageSteps :
    RingInv (appending 12) ∧ JobInv (appending 12) ∧ (appending 12).ec.state ≠ .scanning ∧
    ∃ t, exec (.wordOperationComplete bus) (appending 12) = .next t := ⟨ring_appending, job_appending, by decide, _, rfl⟩
theorem witness_HeaderTest :
    headerTest 0x00000001 0x000070FE 0xFFFFFFFE = some (0, 254, 7) ∧ headerTest 0x00000401 0x7FFFFFFF 0xFFFFFBFE =
      some (4, 4095, 524287) ∧ headerTest 0x00000501 0 0xFFFFFAFE = none := by decide
theorem witness_SlotClasses : record.length = 8 ∧ classifySlot 7 0 record = .good := by decide
theorem witness_StoredWords : (254 : Nat) < 4096 ∧ head.tag = tagWord 7 0 := by decide
theorem witness_FormatCutByReset :
    MemoryInv (formatting 0) ∧ (formatting 0).mpa.job = some { kind := .format 4, todo := formatOps 4, reads := [] } ∧
    min 5 ([bus, bus].length + if true then 1 else 0) = 3 ∧
    min 5 ((List.replicate 5 bus).length + if false then 1 else 0) = 5 := ⟨⟨by decide, by decide⟩, rfl, rfl, rfl⟩
theorem witness_FormatCutByReset_at_the_third_write :
    (after ((formatting 0).afterOps [bus, bus]) (.hardwareReset .pin true bus)).journalMem.readWord 1 = 0 ∧
    (after ((formatting 0).afterOps [bus, bus]) (.hardwareReset .pin false bus)).journalMem.readWord 1 = 0x000070FE := by
  decide
theorem witness_FramesDecodeToTheirRows :
    encodeFrame (.setPolicy (frame [0]) 3300) = some (0x58, [0x04, 0]) ∧ (65535 : Nat) < 256 ^ 2 := by decide

/-! ### A state in each invariant, with a step -/

/-- The state of `appending` with its command in the queue. -/
def queued (k : Nat) : State := { appending k with pending := [.wordOperationComplete bus] }

theorem witness_MemoriesWindowsLinesPwuKept :
    (MemoryInv (queued 0) ∧ WindowInv (queued 0) ∧ AckInv (queued 0) ∧ PwuInv (queued 0)) ∧ ∃ t, step (queued 0) = .next t :=
  ⟨⟨⟨by decide, by decide⟩, by unfold WindowInv; decide, by unfold AckInv; decide, by unfold PwuInv; decide⟩, _, rfl⟩
theorem witness_UpuAndPortAgree : UpuInv (queued 0) ∧ ∃ t, step (queued 0) = .next t := by
  refine ⟨⟨⟨fun h => absurd h (by decide), fun ⟨t, h⟩ => nomatch h⟩, ⟨fun _ => ⟨_, rfl, rfl⟩, fun _ => ⟨_, rfl⟩⟩⟩, _, rfl⟩
theorem witness_RingKept : EndSlotInv (queued 12) ∧ ∃ t, step (queued 12) = .next t :=
  ⟨⟨ring_appending, job_appending, fun _ => by decide⟩, _, rfl⟩
theorem witness_AgeCounterRunsWithTheEpoch : AgeInv (queued 12) ∧ ∃ t, step (queued 12) = .next t :=
  ⟨⟨job_appending, by decide⟩, _, rfl⟩
theorem ordered_empty : Jlt.Ordered Jlt.empty := by
  intro i; refine ⟨[], ?_, List.nodup_nil, by decide, fun _ h => absurd h List.not_mem_nil⟩
  revert i; unfold Jlt.ways; decide
theorem witness_JltStaysOrdered : JltInv (queued 12) ∧ ∃ t, step (queued 12) = .next t := by
  refine ⟨⟨job_appending, ordered_empty, by decide, fun j r h hk => ?_⟩, _, rfl⟩
  cases Option.some.inj h; cases hk; decide
theorem witness_SourceSetsFitTheState : EcSetsInv (queued 0) ∧ ∃ t, step (queued 0) = .next t := by
  refine ⟨⟨fun j h => ?_, by decide, by decide, by decide, by decide, fun _ => by decide⟩, _, rfl⟩
  cases Option.some.inj h; rfl

/-- The state of `oneRecord` with a COMMIT in the queue. -/
def committing : State := { oneRecord with pending := [.commit (frame [])] }

theorem ring_oneRecord : RingInv committing := ⟨by decide, by decide, by decide, (fun _ h => nomatch h)⟩
theorem witness_CommitWordAgrees : CommitWordInv committing ∧ ∃ t, step committing = .next t :=
  ⟨⟨⟨by decide, by decide⟩, ring_oneRecord, (fun _ h => nomatch h), fun _ => ⟨by decide, by decide⟩, (fun _ h => nomatch h)⟩, _, rfl⟩
theorem witness_CommitWordAgrees_formatting :
    let s := { formatting 2 with pending := [.tick] }
    CommitWordInv s ∧ s.ec.state = .formatting ∧ CommitAgrees s ∧
      ∃ t, step s = .next t ∧ t.ec.state = .formatting ∧ BeforeThirdWrite t := by
  refine ⟨⟨⟨by decide, by decide⟩, ⟨by decide, by decide, by decide, fun j h => ?_⟩, fun j h => ?_,
    fun h => absurd h (by decide), fun j h => ?_⟩, rfl, by unfold CommitAgrees; decide, _, rfl, rfl, fun j c h _ => ?_⟩ <;> cases Option.some.inj h
  · trivial
  · rfl
  · exact ⟨rfl, 2, by decide, rfl, by decide⟩
  · decide
theorem witness_JournalHoldsTheLiveSpan : JournalInv committing ∧ ∃ t, step committing = .next t := by
  refine ⟨⟨⟨by decide, by decide⟩, ring_oneRecord, (fun _ h => nomatch h), fun _ => by decide, by decide, fun _ i h => ?_,
    fun _ => by unfold TagClear; decide, (fun _ h => nomatch h)⟩, _, rfl⟩
  obtain rfl : i = 0 := by have : i < 1 := h; omega
  decide
theorem witness_JltStaysOrdered_records : JltRecordsInv committing ∧ committing.wju.jlt.hit 0x209 = true := by
  refine ⟨fun i way l h => ⟨0, by decide, by decide, ?_⟩, by decide⟩
  have key : ∀ (i : Fin 16) (way : Fin 4), committing.wju.jlt[i][way] = none ∨ committing.wju.jlt[i][way] = some 0x209 := by
    decide
  rcases key i way with h' | h' <;> rw [h'] at h
  · exact nomatch h
  · cases Option.some.inj h; decide

end Sys2Proof.Tests
end

