-- ==== Sys2Proof/Proofs/Windows.lean ====
section
/-! PROOFS. The window table's lookup (R35, R36). A window whose base is aligned contains the lines that `Covers` gives by
bounds; the lookup finds the lowest-numbered window that contains the line; the class is the one that window gives. -/

namespace Sys2Proof.Machine

/-! ### One window -/

theorem windowWords_pos (k : Fin 17) : 0 < windowWords k := by
  unfold windowWords
  positivity

/-- Why the two readings of R36 agree: a window that starts at a multiple of its size is one whole block of that size. -/
theorem div_eq_div_iff_of_aligned {n base x : Nat} (hn : 0 < n) (aligned : base % n = 0) :
    x / n = base / n ↔ base ≤ x ∧ x ≤ base + n - 1 := by
  obtain ⟨block, rfl⟩ := Nat.dvd_of_mod_eq_zero aligned
  rw [Nat.mul_div_cancel_left block hn, Nat.div_eq_iff hn, Nat.mul_comm]

theorem covers_iff_div_eq {w : Window} (l : Line) (aligned : w.base.toNat % windowWords w.sizeCode = 0) :
    Covers w l ↔ w.mode ≠ .off ∧ 4 * l.toNat / windowWords w.sizeCode = w.base.toNat / windowWords w.sizeCode :=
  and_congr_right fun _ => (div_eq_div_iff_of_aligned (windowWords_pos _) aligned).symm

theorem Window.contains_iff (w : Window) (l : Line) : w.contains l = true ↔
    w.mode ≠ .off ∧ 4 * l.toNat / windowWords w.sizeCode = w.base.toNat / windowWords w.sizeCode := by
  simp [Window.contains]

theorem contains_iff_covers {s : State} (hs : WindowInv s) (i : Fin 8) (l : Line) :
    s.windows[i].contains l = true ↔ Covers s.windows[i] l :=
  (s.windows[i].contains_iff l).trans (covers_iff_div_eq l (hs i)).symm

theorem contains_eq_false_iff_not_covers {s : State} (hs : WindowInv s) (i : Fin 8) (l : Line) :
    s.windows[i].contains l = false ↔ ¬Covers s.windows[i] l := by
  rw [← contains_iff_covers hs, Bool.not_eq_true]

/-! ### The class a window gives -/

theorem Window.classAt_journal {w : Window} (i : Fin 8) (h : w.mode = .journal) : w.classAt i = .journal i := by
  simp [Window.classAt, h]

theorem Window.classAt_guarded {w : Window} (i : Fin 8) (h : w.mode = .guarded) : w.classAt i = .guarded i := by
  simp [Window.classAt, h]

theorem Window.classAt_opened {w : Window} (i : Fin 8) (h : w.mode = .opened) : w.classAt i = .opened i := by
  simp [Window.classAt, h]

/-! ### The lookup -/

theorem firstWindow_eq_find? (ws : Vector Window 8) (l : Line) (numbers : List (Fin 8)) :
    firstWindow ws l numbers = numbers.find? fun i => ws[i].contains l := by
  induction numbers with
  | nil => rfl
  | cons i rest ih =>
    rw [firstWindow, ih, List.find?_cons]
    cases ws[i].contains l <;> rfl

/-- The lookup over all eight numbers, in rising order, is the search for the least number whose window contains the
line. -/
theorem firstWindow_finRange (ws : Vector Window 8) (l : Line) :
    firstWindow ws l (List.finRange 8) = Fin.find? fun i => ws[i].contains l :=
  (firstWindow_eq_find? ws l _).trans Fin.find?_eq_find?_finRange.symm

theorem classify_of_none_contains {ws : Vector Window 8} {l : Line} (h : ∀ i : Fin 8, ws[i].contains l = false) :
    classify ws l = .unmapped := by
  have notFound : firstWindow ws l (List.finRange 8) = none :=
    (firstWindow_finRange ws l).trans (Fin.find?_eq_none_iff.mpr h)
  simp only [classify, notFound]

theorem classify_of_lowest_contains {ws : Vector Window 8} {l : Line} {i : Fin 8} (hi : ws[i].contains l = true)
    (lower : ∀ j : Fin 8, j < i → ws[j].contains l = false) : classify ws l = ws[i].classAt i := by
  have found : firstWindow ws l (List.finRange 8) = some i :=
    (firstWindow_finRange ws l).trans (Fin.find?_eq_some_iff.mpr ⟨hi, lower⟩)
  simp only [classify, found]

theorem classify_of_none_covers {s : State} {l : Line} (hs : WindowInv s) (h : ∀ i : Fin 8, ¬Covers s.windows[i] l) :
    classify s.windows l = .unmapped :=
  classify_of_none_contains fun i => (contains_eq_false_iff_not_covers hs i l).mpr (h i)

theorem classify_of_lowest_covers {s : State} {l : Line} {i : Fin 8} (hs : WindowInv s) (hi : Covers s.windows[i] l)
    (lower : ∀ j : Fin 8, j < i → ¬Covers s.windows[j] l) : classify s.windows l = s.windows[i].classAt i :=
  classify_of_lowest_contains ((contains_iff_covers hs i l).mpr hi) fun j hj =>
    (contains_eq_false_iff_not_covers hs j l).mpr (lower j hj)

/-- Settles O6: the lookup is a search for the least number whose window contains the line, and for an aligned base
containing is covering. -/
theorem lowestWindowDecides : Obligations.LowestWindowDecides := by
  intro s l hs
  refine ⟨fun i => covers_iff_div_eq l (hs i), classify_of_none_covers hs, fun i hi lower => ?_⟩
  have decided : classify s.windows l = s.windows[i].classAt i := classify_of_lowest_covers hs hi lower
  exact ⟨fun mode => decided.trans (Window.classAt_journal i mode), fun mode => decided.trans (Window.classAt_guarded i mode),
    fun mode => decided.trans (Window.classAt_opened i mode)⟩

end Sys2Proof.Machine
end

