-- ==== Sys2Proof/Proofs/SlotClasses.lean ====
section
/-! PROOFS. The classification of a slot read (R59). The fields of a tag word are the binary digits of its number (R188), the
check word covers record words 0 to 6 (R189), and the two together decide the class. -/

namespace Sys2Proof.Machine

/-! ### The fields of a tag word -/

theorem tagMarker_iff (tag : Word) : tag.getLsbD 31 = true ↔ 2147483648 ≤ tag.toNat := by
  have top : tag.msb = tag.getLsbD 31 := BitVec.msb_eq_getLsbD_last tag
  rw [← top, BitVec.msb_eq_decide, decide_eq_true_iff]

theorem toNat_tagEpoch (tag : Word) : (tag.extractLsb' 12 19).toNat = tag.toNat / 4096 % 524288 := by
  rw [BitVec.extractLsb'_toNat, Nat.shiftRight_eq_div_pow]

theorem toNat_tagIndex (tag : Word) : (tag.extractLsb' 0 12).toNat = tag.toNat % 4096 := by
  rw [BitVec.extractLsb'_toNat, Nat.shiftRight_zero]

theorem tagEpoch_eq_iff (tag : Word) (e : Epoch) : tag.extractLsb' 12 19 = e ↔ tag.toNat / 4096 % 524288 = e.toNat := by
  rw [← BitVec.toNat_inj, toNat_tagEpoch]

/-! ### The check word of a whole slot -/

theorem take_seven_eq_slotWords {words : List Word} (whole : words.length = 8) :
    words.take 7 = (List.range 7).map (slotWord words) := by
  refine List.ext_getElem (by simp [whole]) fun k hk _ => ?_
  have inSlot : k < words.length := by rw [List.length_take] at hk; omega
  simp [slotWord, inSlot]

/-- Over a slot read whole, the fold that computes the check word is R189's exclusive OR of record words 0 to 6. -/
theorem checkWord_eq_not_xor {words : List Word} (whole : words.length = 8) :
    checkWord words = ~~~(slotWord words 0 ^^^ slotWord words 1 ^^^ slotWord words 2 ^^^ slotWord words 3
      ^^^ slotWord words 4 ^^^ slotWord words 5 ^^^ slotWord words 6) := by
  rw [checkWord, take_seven_eq_slotWords whole]
  simp [List.range_succ]

/-! ### The three classes -/

/-- R59's row "good for (e, i)", with the tag word's fields as numbers. -/
def GoodFor (e : Epoch) (i : Nat) (words : List Word) : Prop :=
  let tag := (slotWord words 0).toNat
  2147483648 ≤ tag ∧ tag / 4096 % 524288 = e.toNat ∧ tag % 4096 = i ∧ slotWord words 7 = checkWord words

theorem goodFor_iff_tests (e : Epoch) (i : Nat) (words : List Word) : GoodFor e i words ↔
    (slotWord words 0).getLsbD 31 = true ∧ (slotWord words 0).extractLsb' 12 19 = e ∧
      ((slotWord words 0).extractLsb' 0 12).toNat = i ∧ slotWord words 7 = checkWord words := by
  rw [tagMarker_iff, tagEpoch_eq_iff, toNat_tagIndex, GoodFor]

/-- The marker keeps the classes end and good apart. -/
theorem GoodFor.tag_ne_zero {e : Epoch} {i : Nat} {words : List Word} (good : GoodFor e i words) : slotWord words 0 ≠ 0 := by
  obtain ⟨marker, -⟩ := good
  intro zero
  rw [zero] at marker
  exact absurd marker (by decide)

theorem classifySlot_of_tag_eq_zero (e : Epoch) (i : Nat) {words : List Word} (zero : slotWord words 0 = 0) :
    classifySlot e i words = .ending :=
  if_pos zero

theorem classifySlot_of_goodFor {e : Epoch} {i : Nat} {words : List Word} (good : GoodFor e i words) :
    classifySlot e i words = .good :=
  (if_neg good.tag_ne_zero).trans (if_pos ((goodFor_iff_tests e i words).mp good))

theorem classifySlot_of_not_goodFor {e : Epoch} {i : Nat} {words : List Word} (nonzero : slotWord words 0 ≠ 0)
    (notGood : ¬GoodFor e i words) : classifySlot e i words = .bad :=
  (if_neg nonzero).trans (if_neg fun tests => notGood ((goodFor_iff_tests e i words).mpr tests))

/-- Settles O48: the fields the classification tests are digits of the tag's number, and its check word is the complement
of the exclusive OR of the seven words before it. -/
theorem slotClasses : Obligations.SlotClasses := by
  intro e i words whole
  dsimp only
  rw [← checkWord_eq_not_xor whole]
  refine ⟨fun zero => ?_, fun good => classifySlot_of_goodFor good, fun nonzero notGood => ?_⟩
  · exact classifySlot_of_tag_eq_zero e i (BitVec.eq_of_toNat_eq zero)
  · have tagNonzero : slotWord words 0 ≠ 0 := fun zero => nonzero (congrArg BitVec.toNat zero)
    exact classifySlot_of_not_goodFor tagNonzero notGood

end Sys2Proof.Machine
end

