-- ==== Sys2Proof/Proofs/Moves.lean ====
section
/-! PROOFS. What commands come to. The invariants of O53 to O59 look at nine items of the state (its view). For each shared
operation of the EC and the port one relation says, case by case, what it can bring about in the view. -/

namespace Sys2Proof.Machine

/-! ### The view -/

/-- What the invariants of O53 to O59 look at. -/
structure View where
  phase : UpuPhase
  up : Bool
  job : Option Job
  linkReset : Bool
  ec : Ec
  jlt : Jlt
  running : Bool
  dataMem : Memory
  journalMem : Memory

def State.view (s : State) : View :=
  { phase := s.upu.phase, up := s.mpa.up, job := s.mpa.job, linkReset := s.mpa.linkReset, ec := s.ec, jlt := s.wju.jlt,
    running := s.tau.running, dataMem := s.dataMem, journalMem := s.journalMem }

theorem State.view_eq_iff {s t : State} : t.view = s.view ↔
    t.upu.phase = s.upu.phase ∧ t.mpa.up = s.mpa.up ∧ t.mpa.job = s.mpa.job ∧ t.mpa.linkReset = s.mpa.linkReset ∧
    t.ec = s.ec ∧ t.wju.jlt = s.wju.jlt ∧ t.tau.running = s.tau.running ∧ t.dataMem = s.dataMem ∧
    t.journalMem = s.journalMem := by
  simp [State.view]

theorem State.view_answer_of_idle {s : State} (idle : s.upu.phase = .idle) (r : Response) : (s.answer r).view = s.view := by
  simp [State.view_eq_iff, idle]

theorem State.view_refuseSet (s : State) (set : Sources) : (s.refuseSet set).view = s.view := by
  simp [State.view_eq_iff]

theorem State.view_refuseSource (s : State) (x : Source) : (s.refuseSource x).view = s.view := by
  simp [State.view_eq_iff]

theorem State.view_postHeaderRead (s : State) : s.postHeaderRead.view = s.view := by
  unfold State.postHeaderRead
  split <;> rfl

/-! ### What the taking of a request comes to -/

/-- What taking a request brings about in the view, with the EC state in which it does (chapters 6 to 8). -/
inductive Take : EcRequest → State → State → Prop
  | unseen {r s t} (same : t.view = s.view) : Take r s t
  | commit {x s} (state : s.ec.state = .active) : Take (.commit x) s (s.takeCommit (.of x))
  | joinCommit {x s} (state : s.ec.state = .committing) : Take (.commit x) s (s.join x)
  | holdCommit {x s} (state : s.ec.state = .formatting ∨ s.ec.state = .rollingBack ∧ s.ec.origin ≠ some .recovery ∨
      x = .line ∧ (s.ec.state = .scanning ∨ s.ec.state = .rollingBack)) : Take (.commit x) s (s.holdCommit x)
  | rollback {x s} (state : s.ec.state = .active) : Take (.rollback x) s (s.takeRollback .live (.of x))
  | recover {s} (state : s.ec.state = .recoveryHold) :
      Take (.rollback .link) s (s.takeRollback .recovery ((Sources.of .recovery).add .link))
  | joinRollback {x s} (state : s.ec.state = .rollingBack) : Take (.rollback x) s (s.join x)
  | holdRollback {x s} (state : s.ec.state = .committing ∨ s.ec.state = .formatting ∨
      x = .line ∧ s.ec.state = .scanning) : Take (.rollback x) s (s.holdRollback x)
  | format {c s} (state : s.ec.state = .unformatted ∨ s.ec.state = .broken ∨ s.ec.state = .recoveryHold ∨
      s.ec.state = .active ∧ s.ec.usage = 0) : Take (.format c) s (s.takeFormat c)

theorem State.take_commitWhileUnknown {s : State} (x : Source)
    (state : s.ec.state = .scanning ∨ s.ec.state = .rollingBack) : Take (.commit x) s (s.commitWhileUnknown x) := by
  cases x with
  | line => exact .holdCommit (.inr (.inr ⟨rfl, state⟩))
  | link | age | full | recovery => exact .unseen rfl

theorem State.take_commitRequest (s : State) (x : Source) : Take (.commit x) s (s.commitRequest x) := by
  unfold State.commitRequest
  split
  case h_1 active => exact .commit active
  case h_2 committing => exact .joinCommit committing
  case h_3 rolling =>
    split
    · exact State.take_commitWhileUnknown x (.inr rolling)
    · exact .holdCommit (.inr (.inl ⟨rolling, by assumption⟩))
  case h_4 formatting => exact .holdCommit (.inl formatting)
  case h_5 scanning => exact State.take_commitWhileUnknown x (.inl scanning)
  all_goals exact .unseen (s.view_refuseSource x)

theorem State.take_rollbackRequest (s : State) (x : Source) : Take (.rollback x) s (s.rollbackRequest x) := by
  unfold State.rollbackRequest
  split
  case h_1 active => exact .rollback active
  case h_2 committing => exact .holdRollback (.inl committing)
  case h_3 formatting => exact .holdRollback (.inr (.inl formatting))
  case h_4 rolling => exact .joinRollback rolling
  case h_5 scanning =>
    cases x with
    | line => exact .holdRollback (.inr (.inr ⟨rfl, scanning⟩))
    | link | age | full | recovery => exact .unseen rfl
  case h_6 held =>
    split
    case isTrue link => subst link; exact .recover held
    case isFalse => exact .unseen (s.view_refuseSource x)
  all_goals exact .unseen (s.view_refuseSource x)

theorem State.take_formatRequest (s : State) (c : Fin 5) : Take (.format c) s (s.formatRequest c) := by
  unfold State.formatRequest
  split
  case h_1 state => exact .format (.inl state)
  case h_2 state => exact .format (.inr (.inl state))
  case h_3 state => exact .format (.inr (.inr (.inl state)))
  case h_4 active =>
    split
    · exact .format (.inr (.inr (.inr ⟨active, by assumption⟩)))
    · exact .unseen rfl
  all_goals exact .unseen rfl

theorem State.take_discardRequest (s : State) : Take .discard s s.discardRequest := by
  unfold State.discardRequest
  split <;> exact .unseen rfl

theorem State.take_ecTake (s : State) (r : EcRequest) : Take r s (s.ecTake r) := by
  cases r with
  | commit x => exact s.take_commitRequest x
  | rollback x => exact s.take_rollbackRequest x
  | format c => exact s.take_formatRequest c
  | discard => exact s.take_discardRequest

/-- No taking of a request touches the port, the UPU, a deferred request, the base or the epoch number. -/
theorem Take.keeps {r : EcRequest} {s t : State} (taken : Take r s t) :
    t.mpa.job = s.mpa.job ∧ t.ec.deferred = s.ec.deferred ∧ t.mpa.linkReset = s.mpa.linkReset := by
  cases taken with
  | unseen same =>
    obtain ⟨-, -, job, linkReset, ec, -⟩ := State.view_eq_iff.mp same
    exact ⟨job, by rw [ec], linkReset⟩
  | _ => exact ⟨rfl, rfl, rfl⟩

theorem State.ecTake_job (s : State) (r : EcRequest) : (s.ecTake r).mpa.job = s.mpa.job := (s.take_ecTake r).keeps.1

theorem State.ecTake_deferred (s : State) (r : EcRequest) : (s.ecTake r).ec.deferred = s.ec.deferred :=
  (s.take_ecTake r).keeps.2.1

/-! ### The jobs of a granted UP request -/

/-- The jobs in which a granted UP request performs its transaction, with their word operations (R9 to R11). -/
inductive UpJob (s : State) (t : Transaction) : JobKind → List WordOp → Prop
  | read : UpJob s t .upRead t.readOps
  | write : UpJob s t (.upWrite false) t.writeOps
  | hit (live : s.ec.state.isLive = true) : UpJob s t (.upWrite true) t.writeOps
  | append (live : s.ec.state.isLive = true) (miss : s.wju.jlt.hit (lineOf t.addr) = false)
      (room : s.ec.usage + 1 < s.ec.size) :
      UpJob s t (.append (s.recordFor t)) (appendOps (s.recordFor t) (s.ec.slotOf (s.ec.usage + 1)) ++ t.writeOps)

/-- No JOURNAL-write job holds the port: a request that reaches the EC need not wait for its end (R72). -/
def NoJournalWrite (s : State) : Prop := ∀ j, s.mpa.job = some j → j.kind.isJournalWrite = false

theorem noJournalWrite_of_job_eq_none {s : State} (free : s.mpa.job = none) : NoJournalWrite s := by
  intro j job
  rw [free] at job
  exact nomatch job

theorem noJournalWrite_of_not_defers {s : State} (now : s.defers = false) : NoJournalWrite s := by
  intro j job
  simp only [State.defers, job, Bool.or_eq_false_iff] at now
  exact now.1

/-! ### The jobs of a granted EC request -/

/-- What a granted EC request comes to: its job, with its word operations, or nothing (R24, R126 to R128, R97, R114, R117, R135,
R138). -/
inductive EcGrant (s : State) : State → Prop
  | headerRead (state : s.ec.state = .scanning) (unread : s.ec.headerRead = false) :
      EcGrant s (s.beginJob .headerRead headerOps)
  | scanStep (state : s.ec.state = .scanning) (read : s.ec.headerRead = true) :
      EcGrant s (s.beginJob .scanStep (slotReads (s.ec.slotOf s.ec.scanCount)))
  | commit (state : s.ec.state = .committing) : EcGrant s (s.beginJob (.commit s.ec.head (s.ec.epoch + 1) s.ec.usage)
      [.writeJournal commitAddr (commitWord s.ec.head (s.ec.epoch + 1))])
  | close (state : s.ec.state = .rollingBack) (walked : s.ec.usage = 0) : EcGrant s (s.beginJob (.close (s.ec.epoch + 1))
      [.writeJournal (slotAddr s.ec.base 0) 0, .writeJournal commitAddr (commitWord s.ec.base (s.ec.epoch + 1))])
  | restore (state : s.ec.state = .rollingBack) : EcGrant s (s.beginJob .restore (slotReads (s.ec.slotOf (s.ec.usage - 1))))
  | format (state : s.ec.state = .formatting) :
      EcGrant s (s.beginJob (.format s.ec.formatCode) (formatOps s.ec.formatCode))
  | discard (state : s.ec.state = .recoveryHold) :
      EcGrant s (s.beginJob (.discard s.ec.head (s.ec.epoch + 1) s.ec.usage)
        [.writeJournal commitAddr (commitWord s.ec.head (s.ec.epoch + 1))])
  | nothing : EcGrant s s

theorem State.ecGrant_grantEc (s : State) : EcGrant s s.grantEc := by
  unfold State.grantEc
  dsimp only
  split
  case h_1 state =>
    split
    case isTrue read => exact .scanStep state read
    case isFalse unread => exact .headerRead state (by simpa using unread)
  case h_2 state => exact .commit state
  case h_3 state =>
    split
    case isTrue walked => exact .close state walked
    case isFalse => exact .restore state
  case h_4 state => exact .format state
  case h_5 state => exact .discard state
  all_goals exact .nothing

/-! ### Serving (R103) -/

theorem State.serve_of_nothing_served {s : State}
    (nothing : s.mpa.linkReset = true ∨ s.ec.rollbackSlot.isEmpty = true ∧ s.ec.commitSlot.isEmpty = true) :
    s.serve = { s with ec := { s.ec with state := .active, origin := none, inProgress := .empty } } := by
  unfold State.serve
  rcases nothing with waits | ⟨noRollback, noCommit⟩
  · simp [waits]
  · simp [noRollback, noCommit]

theorem State.serve_of_rollback {s : State} (acts : s.mpa.linkReset = false) (held : s.ec.rollbackSlot.isEmpty = false) :
    s.serve = { s with
      ec := { s.ec with state := .rollingBack, origin := some .live, inProgress := s.ec.rollbackSlot,
                        rollbackSlot := .empty, endSlot := s.ec.head }
      wju := { s.wju with jlt := .empty }
      tau := { s.tau with running := false }
      mpa := { s.mpa with ec := true } } := by
  unfold State.serve
  dsimp only
  rw [if_neg (by simp [acts]), if_pos (by simp [held])]
  rfl

theorem State.serve_of_commit {s : State} (acts : s.mpa.linkReset = false) (noRollback : s.ec.rollbackSlot.isEmpty = true)
    (held : s.ec.commitSlot.isEmpty = false) :
    s.serve = { s with
      ec := { s.ec with state := .committing, origin := none, inProgress := s.ec.commitSlot, commitSlot := .empty }
      mpa := { s.mpa with ec := true } } := by
  unfold State.serve
  dsimp only
  rw [if_neg (by simp [acts]), if_neg (by simp [noRollback]), if_pos (by simp [held])]
  rfl

/-- Settles O22: the three branches of the serving, each under its condition on the link reset and the slots. -/
theorem slotsServed : Obligations.SlotsServed :=
  fun _ => ⟨State.serve_of_nothing_served, State.serve_of_rollback, State.serve_of_commit⟩

/-- The three ways of serving. -/
inductive Served (s : State) : State → Prop
  | nothing (nothing : s.mpa.linkReset = true ∨ s.ec.rollbackSlot.isEmpty = true ∧ s.ec.commitSlot.isEmpty = true) :
      Served s { s with ec := { s.ec with state := .active, origin := none, inProgress := .empty } }
  | rollback (acts : s.mpa.linkReset = false) (held : s.ec.rollbackSlot.isEmpty = false) :
      Served s { s with
        ec := { s.ec with state := .rollingBack, origin := some .live, inProgress := s.ec.rollbackSlot,
                          rollbackSlot := .empty, endSlot := s.ec.head }
        wju := { s.wju with jlt := .empty }
        tau := { s.tau with running := false }
        mpa := { s.mpa with ec := true } }
  | commit (acts : s.mpa.linkReset = false) (noRollback : s.ec.rollbackSlot.isEmpty = true)
      (held : s.ec.commitSlot.isEmpty = false) :
      Served s { s with
        ec := { s.ec with state := .committing, origin := none, inProgress := s.ec.commitSlot, commitSlot := .empty }
        mpa := { s.mpa with ec := true } }

theorem State.served_serve (s : State) : Served s s.serve := by
  by_cases waits : s.mpa.linkReset = true
  · rw [State.serve_of_nothing_served (.inl waits)]
    exact .nothing (.inl waits)
  · have acts : s.mpa.linkReset = false := by simpa using waits
    cases rolls : s.ec.rollbackSlot.isEmpty with
    | false =>
      rw [State.serve_of_rollback acts rolls]
      exact .rollback acts rolls
    | true =>
      cases commits : s.ec.commitSlot.isEmpty with
      | false =>
        rw [State.serve_of_commit acts rolls commits]
        exact .commit acts rolls commits
      | true =>
        rw [State.serve_of_nothing_served (.inr ⟨rolls, commits⟩)]
        exact .nothing (.inr ⟨rolls, commits⟩)

/-- Serving looks at the view alone. -/
theorem State.view_serve {s t : State} (same : t.view = s.view) : t.serve.view = s.serve.view := by
  obtain ⟨phase, up, job, linkReset, ec, jlt, running, data, journal⟩ := State.view_eq_iff.mp same
  unfold State.serve
  dsimp only
  rw [ec, linkReset]
  split
  · simp [State.view, *]
  · split
    · simp [State.view, *]
    · split <;> simp [State.view, *]

/-! ### The ends of jobs -/

/-- The ways a job can end, as the view shows them (R26): UP jobs, header read (R127), scan step (R128, R129), commit (R100),
restore (R115, R116), close (R118), format (R139), discard (R135), record read. -/
inductive Ends (s : State) : JobKind → List Word → State → Prop
  | up {k reads} (up : k.isUp = true) :
      Ends s k reads { s with mpa := { s.mpa with job := none }, upu := { s.upu with phase := .idle } }
  | header {reads c base e}
      (valid : headerTest (slotWord reads 0) (slotWord reads 1) (slotWord reads 2) = some (c, base, e)) :
      Ends s .headerRead reads { s with
        mpa := { s.mpa with job := none }
        ec := { s.ec with code := c, base := base, epoch := e, endSlot := base, usage := 0, scanCount := 0,
                          headerRead := true } }
  | noHeader {reads} : Ends s .headerRead reads { s with
      mpa := { s.mpa with job := none }
      ec := { s.ec with state := .unformatted, commitSlot := .empty, rollbackSlot := .empty } }
  | scanGood {reads} (good : classifySlot s.ec.epoch s.ec.scanCount reads = .good)
      (room : s.ec.scanCount + 1 < s.ec.size) : Ends s .scanStep reads { s with
        mpa := { s.mpa with job := none }
        ec := { s.ec with scanCount := s.ec.scanCount + 1, usage := s.ec.scanCount + 1,
                          endSlot := s.ec.slotOf (s.ec.scanCount + 1) } }
  | scanBreaks {reads} : Ends s .scanStep reads { s with
      mpa := { s.mpa with job := none }
      ec := { s.ec with state := .broken, commitSlot := .empty, rollbackSlot := .empty } }
  | scanServes {reads} (ending : classifySlot s.ec.epoch s.ec.scanCount reads = .ending) (noRecord : s.ec.usage = 0) :
      Ends s .scanStep reads { s with mpa := { s.mpa with job := none } }.serve
  | scanRecovers {reads} (ending : classifySlot s.ec.epoch s.ec.scanCount reads = .ending) :
      Ends s .scanStep reads { s with
        mpa := { s.mpa with job := none }
        ec := { s.ec with state := .rollingBack, origin := some .recovery, rollbackSlot := .empty,
                          inProgress := (Sources.of .recovery).union s.ec.rollbackSlot, endSlot := s.ec.head }
        wju := { s.wju with jlt := .empty }
        tau := { s.tau with running := false } }
  | scanHolds {reads} (ending : classifySlot s.ec.epoch s.ec.scanCount reads = .ending) :
      Ends s .scanStep reads { s with
        mpa := { s.mpa with job := none }
        ec := { s.ec with state := .recoveryHold, commitSlot := .empty, rollbackSlot := .empty } }
  | commit {reads base e n} :
      Ends s (.commit base e n) reads ({ s with mpa := { s.mpa with job := none } }.openEpoch base e).emptyJlt.clearAge.serve
  | restored {reads} (good : s.ec.restoreGood reads = true) : Ends s .restore reads { s with
      mpa := { s.mpa with job := none }
      ec := { s.ec with usage := s.ec.usage - 1 } }
  | restoreBreaks {reads} (bad : s.ec.restoreGood reads = false) : Ends s .restore reads { s with
      mpa := { s.mpa with job := none }
      ec := { s.ec with state := .broken, inProgress := .empty, commitSlot := .empty } }
  | close {reads e} :
      Ends s (.close e) reads ({ s with mpa := { s.mpa with job := none } }.openEpoch s.ec.base e).clearAge.serve
  | format {reads c} : Ends s (.format c) reads ({ s with
      mpa := { s.mpa with job := none }
      ec := { s.ec with code := c } }.openEpoch 0 0).emptyJlt.clearAge.serve
  | discard {reads base e n} :
      Ends s (.discard base e n) reads ({ s with mpa := { s.mpa with job := none } }.openEpoch base e).emptyJlt.clearAge.serve
  | readRecord {reads} : Ends s .readRecord reads { s with mpa := { s.mpa with job := none } }

/-- A job's end comes to one of these, up to what the view does not hold. -/
def EndsSeen (s : State) (k : JobKind) (reads : List Word) (t : State) : Prop := ∃ u, Ends s k reads u ∧ t.view = u.view

theorem State.view_refuseHeld (s : State) : s.refuseHeld.view =
    { s with ec := { s.ec with commitSlot := .empty, rollbackSlot := .empty } : State }.view := by
  simp [State.view_eq_iff]

theorem State.view_commitNotices (s : State) (set : Sources) (e : Epoch) (n : Nat) :
    (s.commitNotices set e n).view = s.view := by
  simp [State.view_eq_iff]

theorem State.view_rollbackNotices (s : State) (set : Sources) (e : Epoch) (n : Nat) :
    (s.rollbackNotices set e n).view = s.view := by
  have running : (s.rollbackNotices set e n).tau.running = s.tau.running := by
    have trigger : ∀ t : Tau, t.trigger.running = t.running := fun t => by unfold Tau.trigger; split <;> rfl
    unfold State.rollbackNotices
    dsimp only
    repeat' split
    all_goals first | rfl | exact trigger _
  simp [State.view_eq_iff, running]

theorem State.view_countRollback (s : State) : s.countRollback.view = s.view := by
  simp [State.view_eq_iff]

theorem State.endsSeen_headerReadEnds {s : State} (reads : List Word) :
    EndsSeen s .headerRead reads ({ s with mpa := { s.mpa with job := none } }.headerReadEnds reads) := by
  unfold State.headerReadEnds
  split
  case h_1 valid => exact ⟨_, .header valid, rfl⟩
  case h_2 => exact ⟨_, .noHeader, State.view_refuseHeld _⟩

theorem State.endsSeen_scanEnds {s : State} {reads : List Word}
    (ending : classifySlot s.ec.epoch s.ec.scanCount reads = .ending) :
    EndsSeen s .scanStep reads { s with mpa := { s.mpa with job := none } }.scanEnds := by
  unfold State.scanEnds
  split
  case isTrue noRecord => exact ⟨_, .scanServes ending noRecord, rfl⟩
  case isFalse =>
    split
    · exact ⟨_, .scanRecovers ending, rfl⟩
    · exact ⟨_, .scanHolds ending, State.view_refuseHeld _⟩

theorem State.endsSeen_scanStepEnds {s : State} (reads : List Word) :
    EndsSeen s .scanStep reads ({ s with mpa := { s.mpa with job := none } }.scanStepEnds reads) := by
  have breaks : EndsSeen s .scanStep reads { s with mpa := { s.mpa with job := none } }.scanBreaks :=
    ⟨_, .scanBreaks, State.view_refuseHeld _⟩
  unfold State.scanStepEnds
  split
  case h_1 ending => exact State.endsSeen_scanEnds ending
  case h_2 good =>
    split
    case isTrue room => exact ⟨_, .scanGood good room, rfl⟩
    case isFalse => exact breaks
  case h_3 => exact breaks

theorem State.endsSeen_jobEnds (s : State) (k : JobKind) (reads : List Word) : EndsSeen s k reads (s.jobEnds k reads) := by
  cases k with
  | upRead | upWrite _ | append _ => exact ⟨_, .up rfl, rfl⟩
  | headerRead => exact State.endsSeen_headerReadEnds reads
  | scanStep => exact State.endsSeen_scanStepEnds reads
  | commit base e n => exact ⟨_, .commit, State.view_serve (State.view_commitNotices _ _ _ _)⟩
  | restore =>
    unfold State.jobEnds
    dsimp only
    split
    case isTrue good => exact ⟨_, .restored good, rfl⟩
    case isFalse bad =>
      refine ⟨_, .restoreBreaks (by simpa using bad), ?_⟩
      unfold State.restoreBreaks
      rw [State.view_refuseSet, State.view_refuseSet]
      rfl
  | close e =>
    refine ⟨_, .close, State.view_serve ?_⟩
    rw [State.view_rollbackNotices, State.view_countRollback]
  | format c => exact ⟨_, .format, State.view_serve rfl⟩
  | discard base e n => exact ⟨_, .discard, State.view_serve rfl⟩
  | readRecord => exact ⟨_, .readRecord, rfl⟩

/-! ### Word operations -/

/-- The words a job has read once a word operation has completed. -/
def State.readsAfter (s : State) (j : Job) (op : WordOp) : List Word := j.reads ++ (op.reads? s).toList

/-- The state once a word operation has completed, before its job can end (R21, R75). -/
def State.opMade (s : State) (j : Job) (op : WordOp) (rest : List WordOp) (bus : UpstreamBus) : State :=
  let u := (s.storeOp op j bus).opEffects op j (op.reads? s)
  { u with mpa := { u.mpa with
      job := some { j with todo := j.remaining op rest (s.readsAfter j op) u.ec, reads := s.readsAfter j op } } }

/-- The operations then still to be made. -/
def State.todoAfter (s : State) (j : Job) (op : WordOp) (rest : List WordOp) (bus : UpstreamBus) : List WordOp :=
  j.remaining op rest (s.readsAfter j op) ((s.storeOp op j bus).opEffects op j (op.reads? s)).ec

theorem State.opMade_job (s : State) (j : Job) (op : WordOp) (rest : List WordOp) (bus : UpstreamBus) :
    (s.opMade j op rest bus).mpa.job =
      some { j with todo := s.todoAfter j op rest bus, reads := s.readsAfter j op } := rfl

theorem State.completeOp_eq (s : State) (j : Job) (op : WordOp) (rest : List WordOp) (bus : UpstreamBus) :
    s.completeOp j op rest bus = if (s.todoAfter j op rest bus).isEmpty then
      (s.opMade j op rest bus).jobEnds j.kind (s.readsAfter j op) else s.opMade j op rest bus := rfl

/-- The view once an append's tag write has completed (R75). -/
theorem State.view_opMade_tag {s : State} {j : Job} {r : RecordHead} (kind : j.kind = .append r) (a : JournalAddr)
    (tag : Word) (rest : List WordOp) (bus : UpstreamBus) :
    (s.opMade j (.writeTag a tag) rest bus).view = { s.view with
      job := some { j with todo := rest }
      ec := { s.ec with usage := s.ec.usage + 1, endSlot := s.ec.slotOf (s.ec.usage + 1) }
      jlt := (s.wju.insert r.line).jlt
      running := s.tau.running || s.ec.usage == 0
      journalMem := s.journalMem.writeWord a.toNat 0xF tag } := by
  have rest_eq : ∀ reads e, j.remaining (.writeTag a tag) rest reads e = rest :=
    Job.remaining_of_not_restore (by simp [kind]) _ _
  simp [State.view, State.opMade, State.readsAfter, rest_eq, State.opEffects, kind, State.storeOp, WordOp.write?,
    WordOp.reads?, State.store, journalWrite]

/-- Every other operation changes the memories and the job alone. -/
theorem State.view_opMade_other {s : State} {j : Job} {op : WordOp} (rest : List WordOp) (bus : UpstreamBus)
    (other : op.isTag = false ∨ ∀ r, j.kind ≠ .append r) :
    (s.opMade j op rest bus).view = { (s.storeOp op j bus).view with
      job := some { j with todo := j.remaining op rest (s.readsAfter j op) s.ec, reads := s.readsAfter j op } } := by
  have quiet : ((s.storeOp op j bus).opEffects op j (op.reads? s)).view = (s.storeOp op j bus).view := by
    unfold State.opEffects
    split
    case h_3 =>
      split
      case h_1 r kind => exact (other.elim (fun h => nomatch h) (fun h => absurd kind (h r)))
      all_goals rfl
    all_goals rfl
  obtain ⟨phase, up, job, linkReset, ec, jlt, running, data, journal⟩ := State.view_eq_iff.mp quiet
  simp [State.view, State.opMade, phase, up, linkReset, ec, jlt, running, data, journal]

end Sys2Proof.Machine
end

