-- ==== Sys2Proof/Proofs/Keeping.lean ====
section
/-! PROOFS. Invariants are kept step by step: a property kept by each move, by the completion of a word operation and by the
resets is kept by every step. -/

namespace Sys2Proof.Machine

/-! ### Properties kept by every move -/

/-- From every state with G, each move but the completion of a word operation and the resets leads to a state with P. `ok`
holds of every request that can reach the EC where G holds. -/
structure MovesTo (ok : EcRequest → Prop) (G P : State → Prop) : Prop where
  posted : ∀ {r : EcRequest}, r.posted = true → ok r
  waits : ∀ {s : State} {r : EcRequest}, G s → r ∈ s.ec.deferred → ok r
  unseen : ∀ {s t : State}, G s → t.view = s.view → P t
  answered : ∀ {s : State} {tr : Transaction}, s.upu.phase = .waiting tr → G s →
    P { s with upu := { s.upu with phase := .idle }, mpa := { s.mpa with up := false } }
  accepted : ∀ {s : State} {tr : Transaction}, s.upu.phase = .idle → G s → P (s.postUp tr)
  dropped : ∀ {s : State}, s.mpa.up = true → (∀ tr, s.upu.phase ≠ .waiting tr) → G s →
    P { s with mpa := { s.mpa with up := false } }
  awaitsReset : ∀ {s : State}, G s → P { s with mpa := { s.mpa with linkReset := true } }
  straps : ∀ {s : State} (rcva : Bool), G s → P { s with ec := { s.ec with rcva := rcva } }
  taken : ∀ {s t : State} {r : EcRequest}, ok r → NoJournalWrite s → Take r s t → G s → P t
  deferred : ∀ {s : State} {r : EcRequest}, ok r → G s →
    P { s with ec := { s.ec with deferred := s.ec.deferred ++ [r] } }
  cleared : ∀ {s : State}, G s → P { s with ec := { s.ec with deferred := [] } }
  upGranted : ∀ {s : State} {tr : Transaction} {kind : JobKind} {ops : List WordOp}, s.mpa.job = none →
    s.upu.phase = .waiting tr → UpJob s tr kind ops → G s →
    P ({ s with mpa := { s.mpa with up := false } }.beginUp tr kind ops)
  ecGranted : ∀ {s t : State}, s.mpa.job = none → EcGrant s t → G s → P t
  lkGranted : ∀ {s : State} {offset : Nat}, s.mpa.job = none → offset < s.ec.usage → G s →
    P (s.beginJob .readRecord (slotReads (s.ec.slotOf offset)))

namespace MovesTo

variable {ok : EcRequest → Prop} {P : State → Prop} (kept : MovesTo ok P P) {s : State}
include kept

theorem settle (h : P s) : P s.settle := kept.unseen h rfl

/-! #### The UPU -/

theorem retryWaiting (h : P s) : P s.retryWaiting := by
  unfold State.retryWaiting
  split
  case h_1 waiting => exact kept.unseen (kept.answered waiting h) rfl
  all_goals exact h

theorem accept {tr : Transaction} (idle : s.upu.phase = .idle) (h : P s) : P (s.accept tr) := by
  unfold State.accept
  split
  · exact kept.unseen h (State.view_answer_of_idle idle _)
  · split
    · exact kept.unseen h (State.view_answer_of_idle idle .fault)
    · exact kept.accepted idle h

theorem strobe {u : Strobe} (h : P s) : P (s.strobe u) := by
  unfold State.strobe
  split
  case h_1 idle => exact kept.accept idle h
  all_goals exact h

theorem findUstb (h : P s) : P s.findUstb := by
  unfold State.findUstb
  split
  · exact kept.strobe h
  · exact h

/-! #### Halts -/

theorem leaveNormal (h : P s) : P s.leaveNormal := by
  unfold State.leaveNormal
  have retried : P (s.raise .pfail).retryWaiting := kept.retryWaiting (kept.unseen h rfl)
  dsimp only
  split <;> exact kept.unseen retried rfl

theorem haltInput (h : P s) : P s.haltInput := by
  unfold State.haltInput
  split
  · exact h
  · split
    · exact kept.leaveNormal h
    · exact h
    · exact kept.unseen h rfl

theorem compareSupply {v : Millivolts} (h : P s) : P (s.compareSupply v) := by
  unfold State.compareSupply
  dsimp only
  split
  · exact kept.haltInput (kept.unseen h rfl)
  · exact kept.unseen h rfl

/-! #### Requests -/

theorem ecPost {r : EcRequest} (wanted : r.posted = true) (h : P s) : P (s.ecPost r) := by
  unfold State.ecPost
  split
  · exact kept.deferred (kept.posted wanted) h
  case isFalse now =>
    exact kept.taken (kept.posted wanted) (noJournalWrite_of_not_defers (by simpa using now)) (s.take_ecTake r) h

theorem foldl_ecTake {rs : List EcRequest} (wanted : ∀ r ∈ rs, ok r) (free : s.mpa.job = none) (h : P s) :
    P (rs.foldl State.ecTake s) := by
  induction rs generalizing s with
  | nil => exact h
  | cons r rs ih =>
    have taken : P (s.ecTake r) :=
      kept.taken (wanted r List.mem_cons_self) (noJournalWrite_of_job_eq_none free) (s.take_ecTake r) h
    exact ih (fun q hq => wanted q (List.mem_cons_of_mem _ hq)) ((s.ecTake_job r).trans free) taken

theorem takeDeferred (free : s.mpa.job = none) (h : P s) : P s.takeDeferred :=
  kept.foldl_ecTake (fun _ hr => kept.waits h hr) free (kept.cleared h)

theorem postIf {rise : Bool} {r : EcRequest} (wanted : r.posted = true) (h : P s) : P (s.postIf rise r) := by
  unfold State.postIf
  split
  · exact kept.ecPost wanted h
  · exact h

theorem fireAgeAction (h : P s) : P s.fireAgeAction := by
  have raised : P (s.raise .age) := kept.unseen h rfl
  unfold State.fireAgeAction
  split
  · exact h
  · exact raised
  · exact kept.ecPost rfl raised
  · exact kept.ecPost rfl raised

theorem countTick (h : P s) : P s.countTick := by
  unfold State.countTick
  split
  · dsimp only
    split
    · exact kept.fireAgeAction (kept.unseen h rfl)
    · exact kept.unseen h rfl
  · exact h

/-! #### Grants -/

/-- A UP job turned away: its place is emptied and its transaction answered. -/
theorem turnedAway {tr : Transaction} {t : State} (waiting : s.upu.phase = .waiting tr)
    (away : t.view = { s.view with phase := .idle, up := false }) (h : P s) : P t :=
  kept.unseen (kept.answered waiting h) away

theorem fullCase {tr : Transaction} (grants : Grants s .up) (up : s.mpa.up = true) (waiting : s.upu.phase = .waiting tr)
    (live : s.ec.state.isLive = true) (h : P s) : P ({ s with mpa := s.mpa.grant .up }.fullCase tr) := by
  obtain ⟨free, normal, noReset, -, nothingWaits⟩ := s.mayGrant_iff.mp grants.1
  unfold State.fullCase
  dsimp only
  split
  · exact kept.turnedAway waiting rfl h
  · have now : TakenAtOnce ({ s with mpa := s.mpa.grant .up }.raise .jfull) := by
      simp [TakenAtOnce, State.defers, Mpa.grant, free, nothingWaits]
    have taken : P (s.commitRequest .full) :=
      kept.taken (kept.posted rfl) (noJournalWrite_of_job_eq_none free) (s.take_commitRequest .full) h
    rw [State.ecPost_of_takenAtOnce now]
    refine kept.unseen taken ?_
    cases state : s.ec.state <;> simp only [state, EcState.isLive, Bool.false_eq_true] at live
    all_goals simp [State.view_eq_iff, State.ecTake, State.commitRequest, State.returnToWaiting, State.join, Mpa.grant,
      state, up, waiting, normal, noReset]

theorem grantWrite {tr : Transaction} (grants : Grants s .up) (up : s.mpa.up = true) (waiting : s.upu.phase = .waiting tr)
    (h : P s) : P ({ s with mpa := s.mpa.grant .up }.grantWrite tr) := by
  have free : s.mpa.job = none := (s.mayGrant_iff.mp grants.1).1
  have begun : ∀ {kind ops}, UpJob s tr kind ops → P ({ s with mpa := s.mpa.grant .up }.beginUp tr kind ops) :=
    fun job => kept.unseen (kept.upGranted free waiting job h) rfl
  have journaling (live : s.ec.state.isLive = true) : P ({ s with mpa := s.mpa.grant .up }.grantJournaling tr) := by
    unfold State.grantJournaling
    dsimp only
    split
    · exact begun (.hit live)
    case isFalse miss =>
      split
      case isTrue room => exact begun (.append live (by simpa using miss) room)
      case isFalse => exact kept.fullCase grants up waiting live h
  unfold State.grantWrite
  split
  · unfold State.grantJournalWrite
    split
    case h_1 state => exact journaling (by rw [show s.ec.state = _ from state]; rfl)
    case h_2 state => exact journaling (by rw [show s.ec.state = _ from state]; rfl)
    all_goals exact kept.turnedAway waiting rfl h
  · exact kept.turnedAway waiting rfl h
  · exact begun .write
  · exact begun .write

theorem grantUp (grants : Grants s .up) (up : s.mpa.up = true) (h : P s) :
    P { s with mpa := s.mpa.grant .up }.grantUp := by
  have free : s.mpa.job = none := (s.mayGrant_iff.mp grants.1).1
  have dropped (other : ∀ tr, s.upu.phase ≠ .waiting tr) : P { s with mpa := s.mpa.grant .up } :=
    kept.unseen (kept.dropped up other h) rfl
  unfold State.grantUp
  split
  case h_1 tr waiting =>
    have waiting : s.upu.phase = .waiting tr := waiting
    split
    · exact kept.turnedAway waiting rfl h
    · split
      · exact kept.grantWrite grants up waiting h
      · unfold State.grantRead
        split
        · exact kept.turnedAway waiting rfl h
        · exact kept.unseen (kept.upGranted free waiting .read h) rfl
  case h_2 idle => exact dropped fun tr waiting => nomatch waiting.symm.trans idle
  case h_3 inJob => exact dropped fun tr waiting => nomatch waiting.symm.trans inJob

theorem grantEc (free : s.mpa.job = none) (h : P s) : P { s with mpa := s.mpa.grant .ec }.grantEc := by
  refine kept.unseen (kept.ecGranted free s.ecGrant_grantEc h) ?_
  unfold State.grantEc
  dsimp only
  split <;> try split
  all_goals rfl

theorem grantLk (free : s.mpa.job = none) (h : P s) : P { s with mpa := s.mpa.grant .lk }.grantLk := by
  unfold State.grantLk
  split
  · split
    case isTrue below => exact kept.unseen (kept.lkGranted free below h) rfl
    case isFalse => exact kept.unseen h rfl
  all_goals exact kept.unseen h rfl

theorem grantDecision (h : P s) : P s.grantDecision := by
  unfold State.grantDecision
  split
  case isFalse => exact h
  case isTrue may =>
    have free : s.mpa.job = none := (s.mayGrant_iff.mp may).1
    split
    case h_2 => exact h
    case h_1 r chosen =>
      cases r with
      | up =>
        have up : s.mpa.waits .up = true := List.find?_some chosen
        exact kept.grantUp ⟨may, chosen⟩ up h
      | ec => exact kept.grantEc free h
      | lk => exact kept.grantLk free h

/-! #### Link frames -/

theorem writeFrame {addr : BitVec 7} {bytes : List Byte} {k : State → State} (carried : ∀ {u : State}, P u → P (k u))
    (h : P s) : P (s.writeFrame addr bytes k) := by
  unfold State.writeFrame
  split
  · split
    · exact carried (kept.unseen h rfl)
    · exact carried (kept.unseen h rfl)
    · exact kept.unseen h rfl
    · exact kept.unseen h rfl
  · exact kept.unseen h rfl

theorem command {code : Byte} {n : Nat} {f : LinkFrame} {k : State → State} (carried : ∀ {u : State}, P u → P (k u))
    (h : P s) : P (s.settle.command code n f k) := by
  refine kept.writeFrame (fun {u} hu => ?_) (kept.settle h)
  split
  · exact carried hu
  · exact kept.unseen hu rfl

end MovesTo

/-! ### The commands that are sequences of moves -/

/-- Every command but the completion of a word operation, the hardware reset, and the two that a job's end brings about. -/
def OnlyMoves (c : Instr) : Prop :=
  (∀ bus, c ≠ .wordOperationComplete bus) ∧ (∀ cause begun bus, c ≠ .hardwareReset cause begun bus) ∧
    c ≠ .linkResetActs ∧ c ≠ .haltedEntry

namespace MovesTo

variable {ok : EcRequest → Prop} {P : State → Prop} (kept : MovesTo ok P P) {s : State}
include kept

theorem execSampleInstant {c a first : Bool} {t : State} (h : P s) (next : execSampleInstant c a first s = .next t) :
    P t := by
  unfold Machine.execSampleInstant done at next
  dsimp only at next
  split at next
  · cases next
    exact kept.settle h
  · split at next <;> cases next
    · exact kept.postIf rfl (kept.postIf rfl (kept.unseen h rfl))
    · exact kept.postIf rfl (kept.postIf rfl (kept.unseen h rfl))

theorem execResetRelease {pins : ReleasePins} {t : State} (h : P s) (next : execResetRelease pins s = .next t) : P t := by
  unfold Machine.execResetRelease done at next
  cases next
  split
  · have sampled : P (s.settle.sampleRelease pins) := by
      refine kept.unseen (kept.straps pins.rcva h) ?_
      unfold State.sampleRelease
      dsimp only
      split <;> rfl
    exact kept.findUstb (kept.unseen sampled (State.view_postHeaderRead _))
  · exact kept.settle h

theorem execReset {f : ResetFrame} {t : State} (h : P s) (next : execReset f s = .next t) : P t := by
  unfold Machine.execReset done at next
  cases next
  refine kept.command (fun {u} hu => kept.unseen (kept.awaitsReset (kept.retryWaiting hu)) ?_) h
  unfold State.retryWaiting
  split <;> rfl

/-- The commands of the link that answer at once, or set what the view does not hold. -/
theorem command_unseen {code : Byte} {n : Nat} {f : LinkFrame} {k : State → State}
    (unseen : ∀ u : State, (k u).view = u.view) (h : P s) : P (s.settle.command code n f k) :=
  kept.command (fun hu => kept.unseen hu (unseen _)) h

theorem exec {c : Instr} (moves : OnlyMoves c) {t : State} (h : P s) (next : exec c s = .next t) : P t := by
  obtain ⟨noOp, noReset, noLinkReset, noHalted⟩ := moves
  have settled : P s.settle := kept.settle h
  cases c with
  | wordOperationComplete bus => exact absurd rfl (noOp bus)
  | hardwareReset cause begun bus => exact absurd rfl (noReset cause begun bus)
  | linkResetActs => exact absurd rfl noLinkReset
  | haltedEntry => exact absurd rfl noHalted
  | sampleInstant c a first => exact kept.execSampleInstant h next
  | resetRelease pins => exact kept.execResetRelease h next
  | reset f => exact kept.execReset h next
  | unknownCommandCode code f =>
    simp only [exec_unknownCommandCode, execUnknownCommandCode] at next
    split at next <;> cases next
    exact kept.writeFrame (fun hu => kept.unseen hu rfl) settled
  | acceptance write burst addr =>
    cases next
    split
    · exact kept.unseen h rfl
    · exact kept.strobe (kept.unseen h rfl)
  | jobGrant =>
    cases next
    exact kept.grantDecision settled
  | deferredRequestTaken =>
    cases next
    split
    case isTrue free => exact kept.takeDeferred (by simpa using free) settled
    case isFalse => exact settled
  | pfailAsserted =>
    cases next
    exact kept.haltInput (kept.unseen h rfl)
  | pfailDeasserted =>
    cases next
    exact kept.unseen h rfl
  | monitorTrip v =>
    cases next
    split
    · split
      · exact kept.compareSupply settled
      · exact settled
    · exact settled
  | monitorClear v =>
    cases next
    split
    · split
      · exact settled
      · exact kept.compareSupply settled
    · exact settled
  | returnToNormal =>
    cases next
    split
    · refine kept.grantDecision (kept.unseen h (?_ : (State.postHeaderRead _).view = _))
      rw [State.view_postHeaderRead]
      rfl
    · exact settled
  | tick =>
    cases next
    split
    · exact settled
    · exact kept.countTick (kept.unseen h rfl)
  | rstoPulseEnd =>
    cases next
    exact kept.unseen h rfl
  | readFrame f =>
    cases next
    split
    · dsimp only
      split
      · split <;> exact kept.unseen h rfl
      · exact kept.unseen h rfl
    · exact kept.unseen h rfl
  | writeFrameAbandoned addr data =>
    cases next
    exact kept.writeFrame (fun hu => kept.unseen hu rfl) settled
  | writeFrameNak addr data =>
    cases next
    split
    · split <;> exact kept.unseen h rfl
    · exact kept.unseen h rfl
  | emptyWriteFrame addr =>
    cases next
    exact kept.unseen h rfl
  | commit f =>
    cases next
    exact kept.command (fun hu => kept.ecPost rfl (kept.unseen hu rfl)) h
  | rollback f =>
    cases next
    exact kept.command (fun hu => kept.ecPost rfl (kept.unseen hu rfl)) h
  | discard f =>
    cases next
    exact kept.command (fun hu => kept.ecPost rfl (kept.unseen hu rfl)) h
  | format f =>
    cases next
    refine kept.command (fun hu => ?_) h
    split
    · exact kept.ecPost rfl (kept.unseen hu rfl)
    · exact kept.unseen hu rfl
  | setPolicy f v =>
    cases next
    refine kept.command (fun hu => ?_) h
    dsimp only
    split
    · refine kept.unseen (?_ : P (if _ then State.compareSupply _ _ else _)) (rfl : (State.respond _ _ _).view = _)
      split
      · exact kept.compareSupply (kept.unseen hu rfl)
      · exact kept.unseen hu rfl
    · exact kept.unseen hu rfl
  | readRecord f =>
    cases next
    exact kept.command_unseen (fun u => by dsimp only; split <;> rfl) h
  | setWindow f =>
    cases next
    exact kept.command_unseen (fun u => by split <;> rfl) h
  | getWindow f =>
    cases next
    exact kept.command_unseen (fun u => by split <;> rfl) h
  | getStatus f | getPolicy f | getStats f | clearStats f | setAlertMask f | clearFlags f =>
    cases next
    exact kept.command_unseen (fun u => rfl) h

end MovesTo

/-! ### The other commands -/

/-- What a reset of either kind leaves in the view, whatever job was in progress (R18, R32, R34, R67, R87). -/
def State.rescanned (s : State) : State :=
  { s with upu := .reset, mpa := .reset s.mpa.mspd, ec := .reset s.ec.rcva, wju := { s.wju with jlt := .empty },
           tau := { s.tau with running := false } }

theorem State.view_linkResetActs (s : State) : s.linkResetActs.view = s.rescanned.view := by
  unfold State.linkResetActs
  rw [State.findUstb_of_retry (by rw [State.postHeaderRead_upu]; rfl)
    (State.retryAtAcceptance_of_scanning (by rw [State.postHeaderRead_ec]; rfl))]
  rw [← State.view_postHeaderRead s.rescanned]
  unfold State.postHeaderRead
  split <;> split <;> rfl

/-- From every state with G, the completion of a word operation and each reset leads to a state with P. -/
structure JobsTo (G P : State → Prop) : Prop where
  completed : ∀ {s : State} {j : Job} {op : WordOp} {rest : List WordOp} (bus : UpstreamBus), InProgress s j op rest →
    G s → P (s.completeOp j op rest bus)
  ended : ∀ {s t : State} {j : Job}, s.mpa.job = some j → j.todo = [] → Ends s j.kind j.reads t → G s → P t
  reset : ∀ {s : State} (cause : ResetCause) (begun : Bool) (bus : UpstreamBus), G s →
    P (s.cutJob cause begun bus).rescanned

namespace MovesTo

variable {ok : EcRequest → Prop} {G P : State → Prop} (kept : MovesTo ok G G) (weaken : ∀ {s : State}, G s → P s)
  (same : ∀ {s t : State}, P s → t.view = s.view → P t) {s : State}
include kept weaken same

theorem atJobEnd (reset : ∀ {s : State} (cause : ResetCause) (begun : Bool) (bus : UpstreamBus), G s →
    P (s.cutJob cause begun bus).rescanned) (h : G s) : P s.atJobEnd := by
  have acts : ∀ {u : State}, G u → P (if u.linkResetDue then u.linkResetActs else u) := by
    intro u hu
    split
    · exact same (reset .pin false ⟨0, 0, none⟩ hu) (State.view_linkResetActs _)
    · exact weaken hu
  refine acts ?_
  split
  · exact kept.unseen h rfl
  · exact h

/-- The acting of a link reset and the entry to HALTED. -/
theorem execAtJobEnd (reset : ∀ {s : State} (cause : ResetCause) (begun : Bool) (bus : UpstreamBus), G s →
    P (s.cutJob cause begun bus).rescanned) {c : Instr} (acts : c = .linkResetActs ∨ c = .haltedEntry) {t : State} (h : G s)
    (next : Machine.exec c s = .next t) : P t := by
  have settled : G s.settle := kept.settle h
  rcases acts with rfl | rfl <;> cases next <;> split
  · exact kept.atJobEnd weaken same reset settled
  · exact weaken settled
  · exact kept.atJobEnd weaken same reset settled
  · exact weaken settled

variable (lead : JobsTo G P)
include lead

/-- A property kept by each move, and led from by the completion of a word operation and the resets. -/
theorem execAny {c : Instr} {t : State} (h : G s) (next : Machine.exec c s = .next t) : P t := by
  have settled : G s.settle := kept.settle h
  cases c with
  | wordOperationComplete bus =>
    cases next
    split
    · exact weaken settled
    case h_2 j job =>
      have presented : G (s.settle.present bus.ustb) := kept.unseen h rfl
      dsimp only
      split
      case h_1 empty =>
        obtain ⟨u, ended, seen⟩ := (s.settle.present bus.ustb).endsSeen_jobEnds j.kind j.reads
        exact same (lead.ended (s := s.settle.present bus.ustb) job empty ended presented) seen
      case h_2 op rest todo => exact lead.completed bus ⟨job, todo⟩ presented
  | hardwareReset cause begun bus =>
    cases next
    have presented : G (s.settle.present bus.ustb) := kept.unseen h rfl
    exact same (lead.reset cause begun bus presented) rfl
  | linkResetActs => exact kept.execAtJobEnd weaken same lead.reset (.inl rfl) h next
  | haltedEntry => exact kept.execAtJobEnd weaken same lead.reset (.inr rfl) h next
  | _ => exact weaken (kept.exec (by simp [OnlyMoves]) h next)

/-- The induction over commands, said once. -/
theorem stepAny {t : State} (h : G s) (next : step s = .next t) : P t := by
  unfold Machine.step at next
  split at next
  case h_1 c rest _ =>
    have popped : G { s with pending := rest } := kept.unseen h rfl
    exact kept.execAny weaken same lead popped next
  · cases next
    unfold State.refclkPeriod
    dsimp only
    split
    · exact weaken (kept.settle h)
    · exact weaken (kept.unseen h rfl)

end MovesTo

/-- From every state with G, every command leads to a state with P. -/
structure CommandsTo (ok : EcRequest → Prop) (G P : State → Prop) : Prop extends MovesTo ok G P, JobsTo G P

/-- A property kept by each move, completion and reset is kept by every step. -/
theorem CommandsTo.step {ok : EcRequest → Prop} {P : State → Prop} (kept : CommandsTo ok P P) {s t : State} (h : P s)
    (next : step s = .next t) : P t :=
  kept.toMovesTo.stepAny id kept.unseen kept.toJobsTo h next

/-! ### Word operations -/

/-- Where each word operation with its job still in progress keeps G, and each end of a job leads from G to P, the
completion of a word operation leads from G to P. -/
theorem completed_of_made_of_ends {G P : State → Prop}
    (unseen : ∀ {s t : State}, P s → t.view = s.view → P t) (weaken : ∀ {s : State}, G s → P s)
    (made : ∀ {s : State} {j : Job} {op : WordOp} {rest : List WordOp} (bus : UpstreamBus), InProgress s j op rest →
      G s → G (s.opMade j op rest bus))
    (ends : ∀ {s t : State} {j : Job}, s.mpa.job = some j → Ends s j.kind j.reads t → G s → P t)
    {s : State} {j : Job} {op : WordOp} {rest : List WordOp} (bus : UpstreamBus) (progress : InProgress s j op rest)
    (h : G s) : P (s.completeOp j op rest bus) := by
  have after : G (s.opMade j op rest bus) := made bus progress h
  rw [State.completeOp_eq]
  split
  · obtain ⟨u, ended, seen⟩ := (s.opMade j op rest bus).endsSeen_jobEnds j.kind (s.readsAfter j op)
    exact unseen (ends (s.opMade_job j op rest bus) ended after) seen
  · exact weaken after

/-! ### Putting properties together -/

section
variable {ok : EcRequest → Prop} {G H P Q : State → Prop}

/-- A stronger premise. -/
theorem MovesTo.mono (lead : MovesTo ok G P) (stronger : ∀ {s}, H s → G s) : MovesTo ok H P where
  posted := lead.posted
  waits h := lead.waits (stronger h)
  unseen h := lead.unseen (stronger h)
  answered w h := lead.answered w (stronger h)
  accepted i h := lead.accepted i (stronger h)
  dropped u o h := lead.dropped u o (stronger h)
  awaitsReset h := lead.awaitsReset (stronger h)
  straps r h := lead.straps r (stronger h)
  taken k n t h := lead.taken k n t (stronger h)
  deferred k h := lead.deferred k (stronger h)
  cleared h := lead.cleared (stronger h)
  upGranted f w j h := lead.upGranted f w j (stronger h)
  ecGranted f g h := lead.ecGranted f g (stronger h)
  lkGranted f b h := lead.lkGranted f b (stronger h)

theorem JobsTo.mono (lead : JobsTo G P) (stronger : ∀ {s}, H s → G s) : JobsTo H P where
  completed b p h := lead.completed b p (stronger h)
  ended j e d h := lead.ended j e d (stronger h)
  reset c b u h := lead.reset c b u (stronger h)

theorem CommandsTo.mono (lead : CommandsTo ok G P) (stronger : ∀ {s}, H s → G s) : CommandsTo ok H P :=
  { lead.toMovesTo.mono stronger, lead.toJobsTo.mono stronger with }

/-- Two properties at once. -/
theorem MovesTo.and (p : MovesTo ok G P) (q : MovesTo ok G Q) : MovesTo ok G (fun s => P s ∧ Q s) where
  posted := p.posted
  waits := p.waits
  unseen h v := ⟨p.unseen h v, q.unseen h v⟩
  answered w h := ⟨p.answered w h, q.answered w h⟩
  accepted i h := ⟨p.accepted i h, q.accepted i h⟩
  dropped u o h := ⟨p.dropped u o h, q.dropped u o h⟩
  awaitsReset h := ⟨p.awaitsReset h, q.awaitsReset h⟩
  straps r h := ⟨p.straps r h, q.straps r h⟩
  taken k n t h := ⟨p.taken k n t h, q.taken k n t h⟩
  deferred k h := ⟨p.deferred k h, q.deferred k h⟩
  cleared h := ⟨p.cleared h, q.cleared h⟩
  upGranted f w j h := ⟨p.upGranted f w j h, q.upGranted f w j h⟩
  ecGranted f g h := ⟨p.ecGranted f g h, q.ecGranted f g h⟩
  lkGranted f b h := ⟨p.lkGranted f b h, q.lkGranted f b h⟩

theorem JobsTo.and (p : JobsTo G P) (q : JobsTo G Q) : JobsTo G (fun s => P s ∧ Q s) where
  completed b o h := ⟨p.completed b o h, q.completed b o h⟩
  ended j e d h := ⟨p.ended j e d h, q.ended j e d h⟩
  reset c b u h := ⟨p.reset c b u h, q.reset c b u h⟩

theorem CommandsTo.and (p : CommandsTo ok G P) (q : CommandsTo ok G Q) : CommandsTo ok G (fun s => P s ∧ Q s) :=
  { p.toMovesTo.and q.toMovesTo, p.toJobsTo.and q.toJobsTo with }

end

end Sys2Proof.Machine
end

