-- ==== Sys2Proof/Proofs/UpuAndPort.lean ====
section
/-! PROOFS. The UPU and the port agree (R3, R8, R27): the UP place waits exactly in WAITING, a UP job holds the port exactly
in IN_JOB. -/

namespace Sys2Proof.Machine

/-! ### The UPU and the port -/

theorem UpuInv.of_eq {s t : State} (h : UpuInv s) (phase : t.upu.phase = s.upu.phase) (up : t.mpa.up = s.mpa.up)
    (job : t.mpa.job = s.mpa.job) : UpuInv t := by
  unfold UpuInv
  rw [phase, up, job]
  exact h

/-- No UP job is in progress on a free port, nor on one that another job holds. -/
theorem UpuInv.of_otherJob {s t : State} (h : UpuInv s) (free : s.mpa.job = none) (phase : t.upu.phase = s.upu.phase)
    (up : t.mpa.up = s.mpa.up) (other : ∀ j, t.mpa.job = some j → j.kind.isUp = false) : UpuInv t := by
  obtain ⟨waiting, inJob⟩ := h
  refine ⟨by rw [phase, up]; exact waiting, ?_⟩
  rw [phase, inJob]
  constructor
  · rintro ⟨j, job, -⟩
    exact nomatch job.symm.trans free
  · rintro ⟨j, job, isUp⟩
    exact nomatch (other j job).symm.trans isUp

/-- A transaction that has ended leaves the UPU in IDLE; with its place empty and no UP job they agree. -/
theorem upuInv_of_idle {t : State} (idle : t.upu.phase = .idle) (up : t.mpa.up = false)
    (noUpJob : ∀ j, t.mpa.job = some j → j.kind.isUp = false) : UpuInv t := by
  refine ⟨⟨fun waits => (nomatch up.symm.trans waits), fun ⟨_, waiting⟩ => (nomatch idle.symm.trans waiting)⟩,
    fun ⟨_, inJob⟩ => (nomatch idle.symm.trans inJob), fun ⟨j, job, isUp⟩ => nomatch (noUpJob j job).symm.trans isUp⟩

/-- While the UPU is not in IN_JOB the port holds no UP job. -/
theorem UpuInv.noUpJob {s : State} (h : UpuInv s) (phase : ∀ t, s.upu.phase ≠ .inJob t) (j : Job)
    (job : s.mpa.job = some j) : j.kind.isUp = false := by
  obtain ⟨-, inJob⟩ := h
  by_contra isUp
  obtain ⟨t, inJob⟩ := inJob.mpr ⟨j, job, by simpa using isUp⟩
  exact phase t inJob

theorem UpuInv.up_eq_false {s : State} (h : UpuInv s) (phase : ∀ t, s.upu.phase ≠ .waiting t) : s.mpa.up = false := by
  obtain ⟨waiting, -⟩ := h
  by_contra up
  obtain ⟨t, waits⟩ := waiting.mp (by simpa using up)
  exact phase t waits

/-- Taking a request leaves the UPU, the UP place and the job alone. -/
theorem Take.upu {r : EcRequest} {s t : State} (taken : Take r s t) :
    t.upu.phase = s.upu.phase ∧ t.mpa.up = s.mpa.up ∧ t.mpa.job = s.mpa.job := by
  cases taken with
  | unseen same =>
    obtain ⟨phase, up, job, -⟩ := State.view_eq_iff.mp same
    exact ⟨phase, up, job⟩
  | _ => exact ⟨rfl, rfl, rfl⟩

theorem Served.upu {s t : State} (served : Served s t) :
    t.upu.phase = s.upu.phase ∧ t.mpa.up = s.mpa.up ∧ t.mpa.job = s.mpa.job := by
  cases served <;> exact ⟨rfl, rfl, rfl⟩

/-- Every end of a job that is no UP job leaves the UPU and the UP place alone, and the port free. -/
theorem Ends.upu {s t : State} {k : JobKind} {reads : List Word} (ended : Ends s k reads t) (other : k.isUp = false) :
    t.upu.phase = s.upu.phase ∧ t.mpa.up = s.mpa.up ∧ t.mpa.job = none := by
  cases ended with
  | up isUp => exact nomatch other.symm.trans isUp
  | commit | scanServes | close | format | discard => exact (State.served_serve _).upu
  | _ => exact ⟨rfl, rfl, rfl⟩

theorem UpuInv.ends {s t : State} {j : Job} (job : s.mpa.job = some j) (ended : Ends s j.kind j.reads t) (h : UpuInv s) :
    UpuInv t := by
  cases isUp : j.kind.isUp with
  | true =>
    obtain ⟨tr, inJob⟩ := h.2.mpr ⟨j, job, isUp⟩
    have up : s.mpa.up = false := h.up_eq_false fun _ waiting => nomatch inJob.symm.trans waiting
    generalize j.kind = k at isUp ended
    cases ended with
    | up => exact upuInv_of_idle rfl up fun _ none => nomatch none
    | _ => exact nomatch isUp
  | false =>
    obtain ⟨phase, up, free⟩ := ended.upu isUp
    obtain ⟨waiting, inJob⟩ := h
    refine ⟨by rw [phase, up]; exact waiting, ?_⟩
    rw [phase, inJob, free]
    constructor
    · rintro ⟨i, held, isUp'⟩
      cases held.symm.trans job
      exact nomatch isUp.symm.trans isUp'
    · rintro ⟨i, held, -⟩
      exact nomatch held

theorem UpuInv.opMade {s : State} {j : Job} {op : WordOp} {rest : List WordOp} (bus : UpstreamBus)
    (progress : InProgress s j op rest) (h : UpuInv s) : UpuInv (s.opMade j op rest bus) := by
  have phase : ((s.storeOp op j bus).opEffects op j (op.reads? s)).upu.phase = s.upu.phase ∧
      ((s.storeOp op j bus).opEffects op j (op.reads? s)).mpa.up = s.mpa.up := by
    unfold State.opEffects
    split <;> try split
    all_goals simp
  obtain ⟨waiting, inJob⟩ := h
  refine ⟨by rw [show (s.opMade j op rest bus).mpa.up = _ from phase.2, show (s.opMade j op rest bus).upu.phase = _ from
    phase.1]; exact waiting, ?_⟩
  rw [show (s.opMade j op rest bus).upu.phase = _ from phase.1, inJob, State.opMade_job, progress.1]
  simp

theorem upuInv_kept : CommandsTo (fun _ => True) UpuInv UpuInv where
  posted _ := trivial
  waits _ _ := trivial
  unseen h same := by
    obtain ⟨phase, up, job, -⟩ := State.view_eq_iff.mp same
    exact h.of_eq phase up job
  answered waiting h := upuInv_of_idle rfl rfl (h.noUpJob fun _ inJob => nomatch waiting.symm.trans inJob)
  accepted {s tr} idle h := by
    have noUpJob := h.noUpJob fun _ inJob => nomatch idle.symm.trans inJob
    refine ⟨⟨fun _ => ⟨tr, rfl⟩, fun _ => rfl⟩, fun ⟨_, inJob⟩ => (nomatch inJob), fun ⟨j, job, isUp⟩ => ?_⟩
    exact nomatch (noUpJob j job).symm.trans isUp
  dropped up other h := nomatch up.symm.trans (h.up_eq_false other)
  awaitsReset h := h.of_eq rfl rfl rfl
  straps _ h := h.of_eq rfl rfl rfl
  taken _ _ taken h := h.of_eq taken.upu.1 taken.upu.2.1 taken.upu.2.2
  deferred _ h := h.of_eq rfl rfl rfl
  cleared h := h.of_eq rfl rfl rfl
  upGranted {s tr kind ops} free waiting job h := by
    refine ⟨⟨fun up => (nomatch up), fun ⟨_, waits⟩ => (nomatch waits)⟩, fun _ => ⟨_, rfl, ?_⟩, fun _ => ⟨tr, rfl⟩⟩
    cases job <;> rfl
  ecGranted free grant h := by
    cases grant with
    | nothing => exact h
    | _ => exact h.of_otherJob free rfl rfl fun _ begun => by cases begun; rfl
  lkGranted free _ h := h.of_otherJob free rfl rfl fun _ begun => by cases begun; rfl
  completed bus progress h :=
    completed_of_made_of_ends (fun h same => by
      obtain ⟨phase, up, job, -⟩ := State.view_eq_iff.mp same
      exact h.of_eq phase up job) (fun h => h) UpuInv.opMade UpuInv.ends bus progress h
  ended job _ ended h := h.ends job ended
  reset _ _ _ _ := upuInv_of_idle rfl rfl fun _ none => nomatch none

/-- Settles O53: each move keeps the UP place with WAITING and the UP job with IN_JOB. -/
theorem upuAndPortAgree : Obligations.UpuAndPortAgree := fun _ _ h next => upuInv_kept.step h next

end Sys2Proof.Machine
end

