-- ==== Sys2Proof/Proofs/EcCore.lean ====
section
/-! PROOFS. The invariants about the journal quantities (O54 to O56, O58, O59) look at less still: the job, the EC without its
sets of sources, the JLT, the running of the age counter and the memories (the core of a state). -/

namespace Sys2Proof.Machine

/-! ### The core -/

/-- What the invariants about the journal quantities look at. -/
structure Core where
  job : Option Job
  state : EcState
  code : Fin 5
  base : Nat
  usage : Nat
  epoch : Epoch
  endSlot : Nat
  headerRead : Bool
  scanCount : Nat
  jlt : Jlt
  running : Bool
  dataMem : Memory
  journalMem : Memory

def State.core (s : State) : Core :=
  { job := s.mpa.job, state := s.ec.state, code := s.ec.code, base := s.ec.base, usage := s.ec.usage, epoch := s.ec.epoch,
    endSlot := s.ec.endSlot, headerRead := s.ec.headerRead, scanCount := s.ec.scanCount, jlt := s.wju.jlt,
    running := s.tau.running, dataMem := s.dataMem, journalMem := s.journalMem }

theorem State.core_eq_iff {s t : State} : t.core = s.core ↔
    t.mpa.job = s.mpa.job ∧ t.ec.state = s.ec.state ∧ t.ec.code = s.ec.code ∧ t.ec.base = s.ec.base ∧
    t.ec.usage = s.ec.usage ∧ t.ec.epoch = s.ec.epoch ∧ t.ec.endSlot = s.ec.endSlot ∧
    t.ec.headerRead = s.ec.headerRead ∧ t.ec.scanCount = s.ec.scanCount ∧ t.wju.jlt = s.wju.jlt ∧
    t.tau.running = s.tau.running ∧ t.dataMem = s.dataMem ∧ t.journalMem = s.journalMem := by
  simp [State.core]

theorem State.core_eq_of_view_eq {s t : State} (same : t.view = s.view) : t.core = s.core := by
  obtain ⟨-, -, job, -, ec, jlt, running, data, journal⟩ := State.view_eq_iff.mp same
  simp [State.core, job, ec, jlt, running, data, journal]

/-! ### The EC's changes of state -/

/-- The EC in COMMITTING. -/
def State.intoCommitting (s : State) : State := { s with ec := { s.ec with state := .committing } }

/-- The EC in ROLLING_BACK, the end slot fixed at head, the JLT emptied and the age counter stopped (R109, R113). -/
def State.intoRollingBack (s : State) : State :=
  { s with ec := { s.ec with state := .rollingBack, endSlot := s.ec.head }, wju := { s.wju with jlt := .empty },
           tau := { s.tau with running := false } }

/-- The EC in FORMATTING. -/
def State.intoFormatting (s : State) : State := { s with ec := { s.ec with state := .formatting } }

/-- The EC in ACTIVE. -/
def State.intoActive (s : State) : State := { s with ec := { s.ec with state := .active } }

/-- The core after serving: ACTIVE, or a rollback or commit taken from its slot (R103). -/
theorem State.core_serve (s : State) : s.serve.core = s.intoActive.core ∨ s.serve.core = s.intoCommitting.core ∨
    s.serve.core = s.intoRollingBack.core := by
  have served := s.served_serve
  generalize s.serve = t at served ⊢
  cases served with
  | nothing => exact .inl rfl
  | rollback => exact .inr (.inr rfl)
  | commit => exact .inr (.inl rfl)

/-- What a property of the core needs of serving: that it holds in each of the three states. -/
theorem serve_of_each {P : State → Prop} (same : ∀ {s t : State}, P s → t.core = s.core → P t) {s : State}
    (active : P s.intoActive) (committing : P s.intoCommitting) (rollingBack : P s.intoRollingBack) : P s.serve := by
  rcases s.core_serve with core | core | core
  · exact same active core
  · exact same committing core
  · exact same rollingBack core

/-! ### Properties of the core -/

/-- From every state with G, each move leads to a state with P, for properties of the core. -/
structure MovesOfCore (G P : State → Prop) : Prop where
  same : ∀ {s t : State}, G s → t.core = s.core → P t
  committing : ∀ {s : State}, NoJournalWrite s → s.ec.state = .active → G s → P s.intoCommitting
  rollingBack : ∀ {s : State}, NoJournalWrite s → s.ec.state = .active ∨ s.ec.state = .recoveryHold → G s →
    P s.intoRollingBack
  formatting : ∀ {s : State}, NoJournalWrite s → (s.ec.state = .unformatted ∨ s.ec.state = .broken ∨
    s.ec.state = .recoveryHold ∨ s.ec.state = .active ∧ s.ec.usage = 0) → G s → P s.intoFormatting
  upGranted : ∀ {s : State} {tr : Transaction} {kind : JobKind} {ops : List WordOp}, s.mpa.job = none →
    UpJob s tr kind ops → G s → P (s.beginJob kind ops)
  ecGranted : ∀ {s t : State}, s.mpa.job = none → EcGrant s t → G s → P t
  lkGranted : ∀ {s : State} {offset : Nat}, s.mpa.job = none → offset < s.ec.usage → G s →
    P (s.beginJob .readRecord (slotReads (s.ec.slotOf offset)))

/-- The same, with the completion of a word operation and both resets. -/
structure CoreTo (G P : State → Prop) : Prop extends MovesOfCore G P, JobsTo G P

section
variable {G P : State → Prop}

theorem MovesOfCore.taken (lead : MovesOfCore G P)
    (unchanged : ∀ {s t : State}, P s → t.core = s.core → P t) {s t : State} {r : EcRequest} (free : NoJournalWrite s)
    (taken : Take r s t) (h : G s) : P t := by
  cases taken with
  | unseen same => exact lead.same h (State.core_eq_of_view_eq same)
  | joinCommit | joinRollback | holdCommit | holdRollback => exact lead.same h rfl
  | commit state => exact unchanged (lead.committing free state h) rfl
  | rollback state => exact unchanged (lead.rollingBack free (.inl state) h) rfl
  | recover state => exact unchanged (lead.rollingBack free (.inr state) h) rfl
  | format state => exact unchanged (lead.formatting free state h) rfl

/-- A property of the core is led to by every move where it is by these. -/
theorem MovesOfCore.movesTo (lead : MovesOfCore G P)
    (unchanged : ∀ {s t : State}, P s → t.core = s.core → P t) : MovesTo (fun _ => True) G P where
  posted _ := trivial
  waits _ _ := trivial
  unseen h same := lead.same h (State.core_eq_of_view_eq same)
  answered _ h := lead.same h rfl
  accepted _ h := lead.same h rfl
  dropped _ _ h := lead.same h rfl
  awaitsReset h := lead.same h rfl
  straps _ h := lead.same h rfl
  taken _ free taken h := lead.taken unchanged free taken h
  deferred _ h := lead.same h rfl
  cleared h := lead.same h rfl
  upGranted free _ job h := unchanged (lead.upGranted free job h) rfl
  ecGranted := lead.ecGranted
  lkGranted := lead.lkGranted

theorem CoreTo.commandsTo (lead : CoreTo G P) (unchanged : ∀ {s t : State}, P s → t.core = s.core → P t) :
    CommandsTo (fun _ => True) G P :=
  { lead.toMovesOfCore.movesTo unchanged, lead.toJobsTo with }

end

/-! ### The EC state and the job in progress -/

theorem JobInv.same {s t : State} (h : JobInv s) (core : t.core = s.core) : JobInv t := by
  obtain ⟨job, state, -⟩ := State.core_eq_iff.mp core
  unfold JobInv
  rw [job, state]
  exact h

theorem jobInv_of_free {s : State} (free : s.mpa.job = none) : JobInv s := by
  intro j job
  exact nomatch free.symm.trans job

/-- A change of EC state between jobs of JOURNAL writes, out of the states that scan and roll back, fits every job. -/
theorem JobInv.into {s t : State} (h : JobInv s) (job : t.mpa.job = s.mpa.job) (free : NoJournalWrite s)
    (notScanning : s.ec.state ≠ .scanning) (notRolling : s.ec.state ≠ .rollingBack) : JobInv t := by
  intro j held
  rw [job] at held
  have fits := h j held
  have noWrite := free j held
  cases kind : j.kind <;> simp_all [JobKind.fits, JobKind.isJournalWrite]

/-- No end of a job leaves one in progress. -/
theorem Ends.free {s t : State} {k : JobKind} {reads : List Word} (ended : Ends s k reads t) : t.mpa.job = none := by
  cases ended with
  | commit | scanServes | close | format | discard => exact (State.served_serve _).upu.2.2
  | _ => rfl

theorem State.opMade_state (s : State) (j : Job) (op : WordOp) (rest : List WordOp) (bus : UpstreamBus) :
    (s.opMade j op rest bus).ec.state = s.ec.state := by
  have state : ((s.storeOp op j bus).opEffects op j (op.reads? s)).ec.state = s.ec.state := by
    unfold State.opEffects
    split <;> try split
    all_goals simp
  exact state

theorem JobInv.opMade {s : State} {j : Job} {op : WordOp} {rest : List WordOp} (bus : UpstreamBus)
    (progress : InProgress s j op rest) (h : JobInv s) : JobInv (s.opMade j op rest bus) := by
  intro i made
  rw [State.opMade_job] at made
  cases made
  rw [State.opMade_state]
  exact h j progress.1

theorem jobInv_kept : CommandsTo (fun _ => True) JobInv JobInv := CoreTo.commandsTo (unchanged := JobInv.same) {
  same := JobInv.same
  committing := fun free state h => h.into rfl free (by simp [state]) (by simp [state])
  rollingBack := fun free state h => h.into rfl free (by rcases state with s | s <;> simp [s])
    (by rcases state with s | s <;> simp [s])
  formatting := fun free state h => h.into rfl free (by rcases state with s | s | s | ⟨s, -⟩ <;> simp [s])
    (by rcases state with s | s | s | ⟨s, -⟩ <;> simp [s])
  upGranted := by
    intro s tr kind ops _ job _ j begun
    cases begun
    cases job with
    | read | write => rfl
    | hit live | append live => exact live
  ecGranted := by
    intro s t free grant h
    cases grant with
    | nothing => exact h
    | headerRead state | scanStep state | close state | restore state =>
      intro j begun
      cases begun
      simp [JobKind.fits, state]
    | _ =>
      intro j begun
      cases begun
      rfl
  lkGranted := by
    intro s offset _ _ _ j begun
    cases begun
    rfl
  completed := completed_of_made_of_ends (fun h same => h.same (State.core_eq_of_view_eq same)) (fun h => h)
    JobInv.opMade (fun _ ended _ => jobInv_of_free ended.free)
  ended := fun _ _ ended _ => jobInv_of_free ended.free
  reset := fun _ _ _ _ => jobInv_of_free rfl }

end Sys2Proof.Machine
end

