-- ==== Sys2Proof/Proofs/Ring.lean ====
section
/-! PROOFS. The ring (R49, R53 to R56): base, usage and end slot stay slots of the ring, and the end slot stands at head in
SCANNING, ACTIVE and COMMITTING. -/

namespace Sys2Proof.Machine

/-! ### A word operation with its job still in progress -/

/-- The state once an append's tag has been written: the record has joined the epoch (R75). -/
def State.tagMade (s : State) (j : Job) (r : RecordHead) (a : JournalAddr) (tag : Word) (rest : List WordOp) : State :=
  { s with
    mpa := { s.mpa with job := some { j with todo := rest } }
    ec := { s.ec with usage := s.ec.usage + 1, endSlot := s.ec.slotOf (s.ec.usage + 1) }
    wju := s.wju.insert r.line
    tau := { s.tau with running := s.tau.running || s.ec.usage == 0 }
    journalMem := s.journalMem.writeWord a.toNat 0xF tag }

/-- The state once any other word operation has been made. -/
def State.otherMade (s : State) (j : Job) (op : WordOp) (rest : List WordOp) (bus : UpstreamBus) : State :=
  { s.storeOp op j bus with mpa := { s.mpa with
      job := some { j with todo := j.remaining op rest (s.readsAfter j op) s.ec, reads := s.readsAfter j op } } }

/-- An operation made is an append's tag write or another. -/
theorem State.opMade_cases (s : State) (j : Job) (op : WordOp) (rest : List WordOp) (bus : UpstreamBus) :
    (∃ a tag r, op = .writeTag a tag ∧ j.kind = .append r ∧
      (s.opMade j op rest bus).view = (s.tagMade j r a tag rest).view) ∨
    ((op.isTag = false ∨ ∀ r, j.kind ≠ .append r) ∧
      (s.opMade j op rest bus).view = (s.otherMade j op rest bus).view) := by
  by_cases other : op.isTag = false ∨ ∀ r, j.kind ≠ .append r
  · refine .inr ⟨other, ?_⟩
    rw [State.view_opMade_other rest bus other]
    simp [State.view, State.otherMade]
  · push Not at other
    obtain ⟨isTag, r, kind⟩ := other
    cases op with
    | writeTag a tag =>
      refine .inl ⟨a, tag, r, rfl, kind, ?_⟩
      rw [State.view_opMade_tag kind]
      rfl
    | _ => exact absurd rfl isTag

/-- What a property of the core needs of an operation made. -/
theorem made_of_each {G P : State → Prop} (same : ∀ {s t : State}, P s → t.core = s.core → P t)
    (tagMade : ∀ {s : State} {j : Job} {a : JournalAddr} {tag : Word} {rest : List WordOp} {r : RecordHead},
      InProgress s j (.writeTag a tag) rest → j.kind = .append r → G s → P (s.tagMade j r a tag rest))
    (otherMade : ∀ {s : State} {j : Job} {op : WordOp} {rest : List WordOp} (bus : UpstreamBus), InProgress s j op rest →
      (op.isTag = false ∨ ∀ r, j.kind ≠ .append r) → G s → P (s.otherMade j op rest bus))
    {s : State} {j : Job} {op : WordOp} {rest : List WordOp} (bus : UpstreamBus) (progress : InProgress s j op rest)
    (h : G s) : P (s.opMade j op rest bus) := by
  rcases s.opMade_cases j op rest bus with ⟨a, tag, r, rfl, kind, view⟩ | ⟨other, view⟩
  · exact same (tagMade progress kind h) (State.core_eq_of_view_eq view)
  · exact same (otherMade bus progress other h) (State.core_eq_of_view_eq view)

theorem State.otherMade_ec (s : State) (j : Job) (op : WordOp) (rest : List WordOp) (bus : UpstreamBus) :
    (s.otherMade j op rest bus).ec = s.ec := by
  simp [State.otherMade]

/-! ### Slots of the ring -/

theorem ringSize_pos (c : Fin 5) : 0 < ringSize c := by
  unfold ringSize
  positivity

theorem ringSize_le (c : Fin 5) : ringSize c ≤ 4096 := by
  revert c
  decide

theorem Ec.size_pos (e : Ec) : 0 < e.size := ringSize_pos e.code

theorem Ec.slotOf_lt (e : Ec) (i : Nat) : e.slotOf i < e.size := Nat.mod_lt _ e.size_pos

theorem Ec.head_lt (e : Ec) : e.head < e.size := e.slotOf_lt e.usage

theorem Ec.slotOf_zero {e : Ec} (inRing : e.base < e.size) : e.slotOf 0 = e.base := Nat.mod_eq_of_lt inRing

/-! ### Tags still to be written -/

theorem Transaction.writeOps_eq_map (t : Transaction) : ∃ beats : List (DataAddr × Bool),
    t.writeOps = beats.map fun b => .writeBeat b.1 b.2 := by
  unfold Transaction.writeOps Transaction.beats
  split
  · exact ⟨[(_, true), (_, false), (_, false), (_, false)], rfl⟩
  · exact ⟨[(_, true)], rfl⟩

/-- The beats of a write neither write the journal nor join a record. -/
theorem Transaction.writeOps_beat {t : Transaction} {op : WordOp} (mem : op ∈ t.writeOps) :
    op.journalTarget? = none ∧ op.isTag = false := by
  obtain ⟨beats, eq⟩ := t.writeOps_eq_map
  rw [eq, List.mem_map] at mem
  obtain ⟨b, -, rfl⟩ := mem
  exact ⟨rfl, rfl⟩

theorem filter_isTag_eq_nil {ops : List WordOp} (none : ∀ op ∈ ops, op.isTag = false) : ops.filter WordOp.isTag = [] := by
  rw [List.filter_eq_nil_iff]
  exact fun op mem => by simp [none op mem]

/-- An append has one tag to write. -/
theorem tagsToWrite_append (k : JobKind) (r : RecordHead) (next : Nat) (t : Transaction) (reads : List Word) :
    Job.tagsToWrite { kind := k, todo := appendOps r next ++ t.writeOps, reads := reads } = 1 := by
  have noTag : t.writeOps.filter WordOp.isTag = [] := filter_isTag_eq_nil fun _ mem => (Transaction.writeOps_beat mem).2
  simp [Job.tagsToWrite, noTag, appendOps, WordOp.isTag, List.filter_cons]

theorem tagsToWrite_cons (k : JobKind) (op : WordOp) (rest : List WordOp) (reads : List Word) :
    Job.tagsToWrite { kind := k, todo := op :: rest, reads := reads } =
      (if op.isTag then 1 else 0) + Job.tagsToWrite { kind := k, todo := rest, reads := reads } := by
  unfold Job.tagsToWrite
  rw [List.filter_cons]
  split <;> simp [Nat.add_comm]

theorem tagsToWrite_of_progress {s : State} {j : Job} {op : WordOp} {rest : List WordOp} (progress : InProgress s j op rest)
    (reads : List Word) : j.tagsToWrite = (if op.isTag then 1 else 0) + Job.tagsToWrite { j with todo := rest, reads := reads } := by
  obtain ⟨kind, todo, r⟩ := j
  obtain ⟨-, rfl⟩ := progress
  exact tagsToWrite_cons kind op rest reads

/-! ### The ring -/

theorem JobValues.of_eq {e f : Ec} {j : Job} (h : JobValues e j) (code : f.code = e.code) (base : f.base = e.base)
    (usage : f.usage = e.usage) (epoch : f.epoch = e.epoch) : JobValues f j := by
  have size : f.size = e.size := by rw [Ec.size, Ec.size, code]
  have head : f.head = e.head := by rw [Ec.head, Ec.head, Ec.slotOf, Ec.slotOf, size, base, usage]
  unfold JobValues at h ⊢
  rw [size, head, usage, epoch]
  exact h

theorem RingInv.endSlot_lt {s : State} (h : RingInv s) : s.ec.endSlot < s.ec.size := by
  obtain ⟨-, -, endSlot, -⟩ := h
  exact endSlot

/-- Base and usage unchanged, the end slot anywhere in the ring. -/
theorem RingInv.of_eq {s t : State} (h : RingInv s) (job : t.mpa.job = s.mpa.job) (code : t.ec.code = s.ec.code)
    (base : t.ec.base = s.ec.base) (usage : t.ec.usage = s.ec.usage) (epoch : t.ec.epoch = s.ec.epoch)
    (endSlot : t.ec.endSlot < t.ec.size) : RingInv t := by
  obtain ⟨hb, hu, -, values⟩ := h
  have size : t.ec.size = s.ec.size := by rw [Ec.size, Ec.size, code]
  refine ⟨by rw [base, size]; exact hb, by rw [usage, size]; exact hu, endSlot, fun j held => ?_⟩
  exact (values j (job ▸ held)).of_eq code base usage epoch

theorem RingInv.same {s t : State} (h : RingInv s) (core : t.core = s.core) : RingInv t := by
  obtain ⟨job, -, code, base, usage, epoch, endSlot, -⟩ := State.core_eq_iff.mp core
  exact h.of_eq job code base usage epoch (by rw [endSlot, Ec.size, code]; exact h.endSlot_lt)

/-- A free port asks nothing of the job. -/
theorem ringInv_of_free {s : State} (free : s.mpa.job = none) (base : s.ec.base < s.ec.size) (usage : s.ec.usage < s.ec.size)
    (endSlot : s.ec.endSlot < s.ec.size) : RingInv s :=
  ⟨base, usage, endSlot, fun _ job => nomatch free.symm.trans job⟩

theorem RingInv.beginJob {s : State} {k : JobKind} {ops : List WordOp} (h : RingInv s)
    (values : JobValues s.ec { kind := k, todo := ops, reads := [] }) : RingInv (s.beginJob k ops) := by
  obtain ⟨base, usage, endSlot, -⟩ := h
  refine ⟨base, usage, endSlot, fun j begun => ?_⟩
  cases begun
  exact values

/-- An epoch that begins in the ring. -/
theorem ringInv_serve_openEpoch {s : State} {base : Nat} {e : Epoch} (free : s.mpa.job = none) (inRing : base < s.ec.size) :
    RingInv (s.openEpoch base e).clearAge.serve := by
  have opened : ∀ {u : State}, u.mpa.job = none → u.ec.size = s.ec.size → u.ec.base = base → u.ec.usage = 0 →
      u.ec.endSlot = base → RingInv u := fun hj hs hb hu he =>
    ringInv_of_free hj (by rw [hb, hs]; exact inRing) (by rw [hu]; exact Ec.size_pos _) (by rw [he, hs]; exact inRing)
  refine serve_of_each RingInv.same (opened free rfl rfl rfl rfl) (opened free rfl rfl rfl rfl) ?_
  exact ringInv_of_free free inRing (Ec.size_pos _) (Ec.head_lt _)

theorem RingInv.emptyJlt {s : State} (h : RingInv s.serve) : RingInv s.emptyJlt.serve := by
  have core : ∀ u : State, u.emptyJlt.serve.ec = u.serve.ec ∧ u.emptyJlt.serve.mpa = u.serve.mpa := by
    intro u
    unfold State.serve
    dsimp only [State.emptyJlt_ec, State.emptyJlt_mpa]
    refine ⟨?_, ?_⟩ <;> (split; rfl; split; rfl; split <;> rfl)
  unfold RingInv
  rw [(core s).1, (core s).2]
  exact h

theorem headerTest_base_lt {l c k : Word} {code : Fin 5} {base : Nat} {e : Epoch}
    (valid : headerTest l c k = some (code, base, e)) : base < ringSize code := by
  unfold headerTest at valid
  split at valid
  · dsimp only at valid
    split at valid
    case isTrue tests =>
      cases valid
      exact tests.2.2
    case isFalse => exact nomatch valid
  · exact nomatch valid

theorem RingInv.ends {s t : State} {j : Job} (job : s.mpa.job = some j) (ended : Ends s j.kind j.reads t)
    (h : RingInv s) : RingInv t := by
  obtain ⟨base, usage, endSlot, values⟩ := h
  have values := values j job
  have free := ended.free
  unfold JobValues at values
  generalize j.kind = k, j.reads = reads at ended values
  cases ended with
  | up | noHeader | scanBreaks | scanHolds | restoreBreaks | readRecord => exact ringInv_of_free rfl base usage endSlot
  | header valid =>
    have inRing := headerTest_base_lt valid
    exact ringInv_of_free rfl inRing (Ec.size_pos _) inRing
  | scanGood _ room => exact ringInv_of_free rfl base room (Ec.slotOf_lt _ _)
  | scanServes =>
    refine serve_of_each RingInv.same ?_ ?_ (ringInv_of_free rfl base usage (Ec.head_lt _)) <;>
      exact ringInv_of_free rfl base usage endSlot
  | scanRecovers => exact ringInv_of_free rfl base usage (Ec.head_lt _)
  | restored => exact ringInv_of_free rfl base (lt_of_le_of_lt (Nat.sub_le _ _) usage) endSlot
  | close => exact ringInv_serve_openEpoch rfl base
  | format => exact RingInv.emptyJlt (ringInv_serve_openEpoch rfl (ringSize_pos _))
  | commit | discard => exact RingInv.emptyJlt (ringInv_serve_openEpoch rfl (values.1 ▸ s.ec.head_lt))

theorem RingInv.tagMade {s : State} {j : Job} {a : JournalAddr} {tag : Word} {rest : List WordOp} {r : RecordHead}
    (progress : InProgress s j (.writeTag a tag) rest) (kind : j.kind = .append r) (h : RingInv s) :
    RingInv (s.tagMade j r a tag rest) := by
  obtain ⟨base, -, -, values⟩ := h
  have room := values j progress.1
  rw [JobValues, kind] at room
  dsimp only at room
  rw [tagsToWrite_of_progress progress j.reads, WordOp.isTag, if_pos rfl] at room
  have room' : s.ec.usage + 1 + Job.tagsToWrite { j with todo := rest } < s.ec.size := by omega
  refine ⟨base, Nat.lt_of_le_of_lt (Nat.le_add_right _ _) room', Ec.slotOf_lt _ _, fun i made => ?_⟩
  cases made
  rw [JobValues, kind]
  exact room'

theorem RingInv.otherMade {s : State} {j : Job} {op : WordOp} {rest : List WordOp} (bus : UpstreamBus)
    (progress : InProgress s j op rest) (other : op.isTag = false ∨ ∀ r, j.kind ≠ .append r) (h : RingInv s) :
    RingInv (s.otherMade j op rest bus) := by
  obtain ⟨base, usage, endSlot, values⟩ := h
  have values := values j progress.1
  unfold RingInv
  rw [State.otherMade_ec]
  refine ⟨base, usage, endSlot, fun i made => ?_⟩
  cases made
  unfold JobValues at values ⊢
  cases kind : j.kind with
  | append r =>
    have noTag : op.isTag = false := other.elim id fun noAppend => absurd kind (noAppend r)
    rw [kind] at values
    dsimp only at values ⊢
    rw [tagsToWrite_of_progress progress (s.readsAfter j op), noTag] at values
    rw [Job.remaining_of_not_restore (by simp [kind])]
    simpa [kind] using values
  | _ => rw [kind] at values; exact values

theorem ringInv_kept : CommandsTo (fun _ => True) RingInv RingInv := CoreTo.commandsTo (unchanged := RingInv.same) {
  same := RingInv.same
  committing := fun _ _ h => h.of_eq rfl rfl rfl rfl rfl h.endSlot_lt
  rollingBack := fun _ _ h => h.of_eq rfl rfl rfl rfl rfl (Ec.head_lt _)
  formatting := fun _ _ h => h.of_eq rfl rfl rfl rfl rfl h.endSlot_lt
  upGranted := by
    intro s tr kind ops _ job h
    cases job with
    | append _ _ room =>
      refine h.beginJob ?_
      unfold JobValues
      dsimp only
      rw [tagsToWrite_append]
      exact room
    | _ => exact h.beginJob trivial
  ecGranted := by
    intro s t _ grant h
    cases grant with
    | nothing => exact h
    | commit | discard => exact h.beginJob ⟨rfl, rfl, rfl⟩
    | close => exact h.beginJob rfl
    | _ => exact h.beginJob trivial
  lkGranted := fun _ _ h => h.beginJob trivial
  completed := completed_of_made_of_ends (fun h same => h.same (State.core_eq_of_view_eq same)) (fun h => h)
    (made_of_each RingInv.same RingInv.tagMade RingInv.otherMade) RingInv.ends
  ended := fun job _ ended h => h.ends job ended
  reset := fun _ _ _ _ => ringInv_of_free rfl (ringSize_pos _) (ringSize_pos _) (ringSize_pos _) }

/-! ### The end slot -/

/-- In SCANNING, ACTIVE and COMMITTING the end slot is head (R56, R67). -/
def EndSlotAtHead (s : State) : Prop :=
  s.ec.state.isLive = true ∨ s.ec.state = .scanning → s.ec.endSlot = s.ec.head

theorem EndSlotAtHead.same {s t : State} (h : EndSlotAtHead s) (core : t.core = s.core) : EndSlotAtHead t := by
  obtain ⟨-, state, code, base, usage, -, endSlot, -⟩ := State.core_eq_iff.mp core
  have head : t.ec.head = s.ec.head := by rw [Ec.head, Ec.head, Ec.slotOf, Ec.slotOf, Ec.size, Ec.size, code, base, usage]
  unfold EndSlotAtHead
  rw [state, endSlot, head]
  exact h

/-- With usage 0 head is base. -/
theorem endSlotAtHead_of_base {s : State} (inRing : s.ec.base < s.ec.size) (usage : s.ec.usage = 0)
    (endSlot : s.ec.endSlot = s.ec.base) : EndSlotAtHead s := by
  intro _
  rw [Ec.head, usage, Ec.slotOf_zero inRing, endSlot]

theorem endSlotAtHead_of_state {s : State} (notLive : s.ec.state.isLive = false) (notScanning : s.ec.state ≠ .scanning) :
    EndSlotAtHead s := by
  rintro (live | scanning)
  · exact nomatch notLive.symm.trans live
  · exact absurd scanning notScanning

theorem endSlotAtHead_serve {s : State} (atHead : s.ec.endSlot = s.ec.head) : EndSlotAtHead s.serve :=
  serve_of_each EndSlotAtHead.same (fun _ => atHead) (fun _ => atHead) (endSlotAtHead_of_state rfl (fun h => nomatch h))

theorem endSlotAtHead_ends {s t : State} {j : Job} (job : s.mpa.job = some j) (ended : Ends s j.kind j.reads t)
    (h : EndSlotInv s) : EndSlotAtHead t := by
  obtain ⟨⟨inRing, -, -, values⟩, fits, atHead⟩ := h
  have fits := fits j job
  have values := values j job
  unfold JobValues at values
  generalize j.kind = k, j.reads = reads at ended fits values
  have opened : ∀ {b : Nat} {size : Nat}, b < size → b = (b + 0) % size := fun h => by rw [Nat.add_zero, Nat.mod_eq_of_lt h]
  cases ended with
  | up | readRecord => exact fun state => atHead state
  | header valid => exact endSlotAtHead_of_base (headerTest_base_lt valid) rfl rfl
  | noHeader | scanBreaks | scanHolds | scanRecovers | restoreBreaks =>
    exact endSlotAtHead_of_state rfl (fun h => nomatch h)
  | scanGood => exact fun _ => rfl
  | scanServes => exact endSlotAtHead_serve (atHead (.inr (by simpa [JobKind.fits] using fits)))
  | restored =>
    have rolling : s.ec.state = .rollingBack := by simpa [JobKind.fits] using fits
    exact endSlotAtHead_of_state (by simp [rolling, EcState.isLive]) (by simp [rolling])
  | close => exact endSlotAtHead_serve (opened inRing)
  | format => exact endSlotAtHead_serve (opened (ringSize_pos _))
  | commit | discard => exact endSlotAtHead_serve (opened (values.1 ▸ s.ec.head_lt))

theorem endSlotAtHead_led : CommandsTo (fun _ => True) EndSlotInv EndSlotAtHead :=
  CoreTo.commandsTo (unchanged := EndSlotAtHead.same) {
  same := fun h => EndSlotAtHead.same h.2.2
  committing := fun _ state h _ => h.2.2 (.inl (by rw [state]; rfl))
  rollingBack := fun _ _ _ => endSlotAtHead_of_state rfl (fun h => nomatch h)
  formatting := fun _ _ _ => endSlotAtHead_of_state rfl (fun h => nomatch h)
  upGranted := fun _ _ h => h.2.2
  ecGranted := fun _ grant h => by cases grant <;> exact h.2.2
  lkGranted := fun _ _ h => h.2.2
  completed := completed_of_made_of_ends (G := EndSlotInv)
    (fun h same => EndSlotAtHead.same h (State.core_eq_of_view_eq same))
    (fun h => h.2.2) (fun bus progress h => ⟨made_of_each RingInv.same RingInv.tagMade RingInv.otherMade bus progress h.1,
      h.2.1.opMade bus progress, made_of_each EndSlotAtHead.same (fun _ _ _ _ => rfl)
        (fun bus _ _ h => by rw [EndSlotAtHead, State.otherMade_ec]; exact h) bus progress h.2.2⟩)
    endSlotAtHead_ends
  ended := fun job _ ended h => endSlotAtHead_ends job ended h
  reset := fun _ _ _ _ => endSlotAtHead_of_base (ringSize_pos _) rfl rfl }

theorem endSlotInv_kept : CommandsTo (fun _ => True) EndSlotInv EndSlotInv :=
  (ringInv_kept.mono fun h => h.1).and ((jobInv_kept.mono fun h => h.2.1).and endSlotAtHead_led)

/-- Settles O54: base, usage and end slot move only to slots of the ring, an append has room for its tag, and whatever
leads to SCANNING, ACTIVE or COMMITTING leaves the end slot at head. -/
theorem ringKept : Obligations.RingKept := fun _ _ h next => endSlotInv_kept.step h next

end Sys2Proof.Machine
end

