-- ==== Sys2Proof/Proofs/AgeCounter.lean ====
section
/-! PROOFS. The age counter runs exactly in ACTIVE and COMMITTING with usage at least 1 (R165). -/

namespace Sys2Proof.Machine

/-- The age counter runs in ACTIVE and COMMITTING while usage is at least 1, and at no other time. -/
def AgeRuns (s : State) : Prop := s.tau.running = true ↔ s.ec.state.isLive = true ∧ 1 ≤ s.ec.usage

theorem AgeRuns.same {s t : State} (h : AgeRuns s) (core : t.core = s.core) : AgeRuns t := by
  obtain ⟨-, state, -, -, usage, -, -, -, -, -, running, -⟩ := State.core_eq_iff.mp core
  unfold AgeRuns
  rw [state, usage, running]
  exact h

theorem AgeInv.same {s t : State} (h : AgeInv s) (core : t.core = s.core) : AgeInv t :=
  ⟨h.1.same core, AgeRuns.same h.2 core⟩

/-- A stopped counter with usage 0 is right in every state. -/
theorem ageRuns_of_usage_eq_zero {s : State} (stopped : s.tau.running = false) (usage : s.ec.usage = 0) : AgeRuns s := by
  simp [AgeRuns, stopped, usage]

/-- A stopped counter is right in every state that is not live. -/
theorem ageRuns_of_not_live {s : State} (stopped : s.tau.running = false) (state : s.ec.state.isLive = false) :
    AgeRuns s := by
  simp [AgeRuns, stopped, state]

theorem AgeRuns.stopped {s : State} (h : AgeRuns s) (idle : s.ec.state.isLive = false ∨ s.ec.usage = 0) :
    s.tau.running = false := by
  rcases idle with state | usage
  · simpa [AgeRuns, state] using h
  · simpa [AgeRuns, usage] using h

theorem ageRuns_serve {s : State} (stopped : s.tau.running = false) (usage : s.ec.usage = 0) : AgeRuns s.serve :=
  serve_of_each AgeRuns.same (ageRuns_of_usage_eq_zero stopped usage) (ageRuns_of_usage_eq_zero stopped usage)
    (ageRuns_of_usage_eq_zero rfl usage)

/-- Every end of a job leaves the counter as it was in its state, or stops it. -/
theorem ageRuns_ends {s t : State} {j : Job} (job : s.mpa.job = some j) (ended : Ends s j.kind j.reads t)
    (h : AgeInv s) : AgeRuns t := by
  obtain ⟨fits, runs⟩ := h
  have fits := fits j job
  generalize j.kind = k, j.reads = reads at ended fits
  have scanning (state : s.ec.state = .scanning) : s.tau.running = false :=
    AgeRuns.stopped runs (.inl (by simp [state, EcState.isLive]))
  have rolling (state : s.ec.state = .rollingBack) : s.tau.running = false :=
    AgeRuns.stopped runs (.inl (by simp [state, EcState.isLive]))
  cases ended with
  | up | readRecord => exact runs
  | header | scanGood =>
    have state : s.ec.state = .scanning := by simpa [JobKind.fits] using fits
    exact ageRuns_of_not_live (scanning state) (by simp [state, EcState.isLive])
  | noHeader | scanBreaks | scanHolds => exact ageRuns_of_not_live (scanning (by simpa [JobKind.fits] using fits)) rfl
  | scanServes _ noRecord => exact ageRuns_serve (scanning (by simpa [JobKind.fits] using fits)) noRecord
  | scanRecovers => exact ageRuns_of_not_live rfl rfl
  | restored =>
    have state : s.ec.state = .rollingBack := by simpa [JobKind.fits] using fits
    exact ageRuns_of_not_live (rolling state) (by simp [state, EcState.isLive])
  | restoreBreaks => exact ageRuns_of_not_live (rolling (by simpa [JobKind.fits] using fits)) rfl
  | close | format | commit | discard => exact ageRuns_serve rfl rfl

/-- The first record of an epoch starts the counter; a later one finds it running. -/
theorem ageRuns_tagMade {s : State} {j : Job} {a : JournalAddr} {tag : Word} {rest : List WordOp} {r : RecordHead}
    (progress : InProgress s j (.writeTag a tag) rest) (kind : j.kind = .append r) (h : AgeInv s) :
    AgeRuns (s.tagMade j r a tag rest) := by
  obtain ⟨fits, runs⟩ := h
  have live : s.ec.state.isLive = true := by simpa [kind, JobKind.fits] using fits j progress.1
  have running : (s.tau.running || s.ec.usage == 0) = true := by
    cases usage : s.ec.usage with
    | zero => simp
    | succ n => simp [runs.mpr ⟨live, by omega⟩]
  exact ⟨fun _ => ⟨live, Nat.le_add_left 1 _⟩, fun _ => running⟩

theorem ageRuns_otherMade {s : State} {j : Job} {op : WordOp} {rest : List WordOp} (bus : UpstreamBus)
    (h : AgeRuns s) : AgeRuns (s.otherMade j op rest bus) := by
  have tau : (s.otherMade j op rest bus).tau = s.tau := by simp [State.otherMade]
  unfold AgeRuns
  rw [State.otherMade_ec, tau]
  exact h

theorem ageRuns_led : CommandsTo (fun _ => True) AgeInv AgeRuns := CoreTo.commandsTo (unchanged := AgeRuns.same) {
  same := fun h => AgeRuns.same h.2
  committing := fun _ state h => by
    obtain ⟨-, runs⟩ := h
    rw [state] at runs
    exact runs
  rollingBack := fun _ _ _ => ageRuns_of_not_live rfl rfl
  formatting := by
    intro s _ state h
    have idle : s.ec.state.isLive = false ∨ s.ec.usage = 0 := by
      rcases state with state | state | state | ⟨-, usage⟩
      · simp [state, EcState.isLive]
      · simp [state, EcState.isLive]
      · simp [state, EcState.isLive]
      · exact .inr usage
    exact ageRuns_of_not_live (AgeRuns.stopped h.2 idle : s.tau.running = false) rfl
  upGranted := fun _ _ h => h.2
  ecGranted := fun _ grant h => by cases grant <;> exact h.2
  lkGranted := fun _ _ h => h.2
  completed := completed_of_made_of_ends (G := AgeInv) (fun h same => AgeRuns.same h (State.core_eq_of_view_eq same))
    (fun h => h.2) (fun bus progress h => ⟨h.1.opMade bus progress,
      made_of_each (G := AgeInv) AgeRuns.same ageRuns_tagMade (fun bus _ _ h => ageRuns_otherMade bus h.2) bus progress h⟩)
    ageRuns_ends
  ended := fun job _ ended h => ageRuns_ends job ended h
  reset := fun _ _ _ _ => ageRuns_of_usage_eq_zero rfl rfl }

theorem ageInv_kept : CommandsTo (fun _ => True) AgeInv AgeInv := (jobInv_kept.mono fun h => h.1).and ageRuns_led

/-- Settles O55: the first record starts the counter, every rollback and every end of an epoch stops it, and nothing else
moves it, the EC state or usage apart. -/
theorem ageCounterRunsWithTheEpoch : Obligations.AgeCounterRunsWithTheEpoch := fun _ _ h next => ageInv_kept.step h next

end Sys2Proof.Machine
end

