-- ==== Sys2Proof/Proofs/JltTable.lean ====
section
/-! PROOFS. The journaled-line table (R68 to R70, R79, R80): lookup and insertion, the order of its sets, and its number of
entries. -/

namespace Sys2Proof.Machine

/-! ### One set -/

theorem JltSet.emptyWay_eq_some {t : JltSet} : ∀ {way : Fin 4}, t[way] = none → (∀ k : Fin 4, k < way → t[k] ≠ none) →
    t.emptyWay = some way
  | 0, empty, _ => if_pos empty
  | 1, empty, lower => (if_neg (lower 0 (by decide))).trans (if_pos empty)
  | 2, empty, lower => (if_neg (lower 0 (by decide))).trans ((if_neg (lower 1 (by decide))).trans (if_pos empty))
  | 3, empty, lower => (if_neg (lower 0 (by decide))).trans ((if_neg (lower 1 (by decide))).trans
      ((if_neg (lower 2 (by decide))).trans (if_pos empty)))

theorem JltSet.emptyWay_eq_none {t : JltSet} (full : ∀ k : Fin 4, t[k] ≠ none) : t.emptyWay = none :=
  (if_neg (full 0)).trans ((if_neg (full 1)).trans ((if_neg (full 2)).trans (if_neg (full 3))))

theorem JltSet.toList_getElem? (t : JltSet) (k : Fin 4) : t.toList[k.val]? = some t[k] := by
  simp

theorem JltSet.toList_set (t : JltSet) (way : Fin 4) (entry : Option Line) :
    (t.set way entry).toList = t.toList.set way entry := by
  obtain ⟨⟨ways⟩, size⟩ := t
  rfl

/-! ### Insertion -/

theorem Jlt.getElem_put (j : Jlt) (l : Line) (way : Fin 4) (i : Fin 16) :
    (j.put l way)[i] = if i = jltSetOf l then j[i].set way (some l) else j[i] := by
  unfold Jlt.put
  split
  case isTrue same => subst same; simp
  case isFalse other => simp [Fin.val_inj, Ne.symm other]

theorem Jlt.getElem_getElem_put (j : Jlt) (l : Line) (way : Fin 4) (i : Fin 16) (k : Fin 4) :
    (j.put l way)[i][k] = if i = jltSetOf l ∧ k = way then some l else j[i][k] := by
  rw [Jlt.getElem_put]
  by_cases set : i = jltSetOf l
  · simp [set, Vector.getElem_set, Fin.val_inj, eq_comm]
  · simp [set]

theorem Wju.insert_of_emptyWay {w : Wju} {l : Line} {way : Fin 4} (empty : JltSet.emptyWay w.jlt[jltSetOf l] = some way) :
    w.insert l = { w with jlt := w.jlt.put l way } := by
  unfold Wju.insert
  rw [empty]

theorem Wju.insert_of_full {w : Wju} {l : Line} (full : JltSet.emptyWay w.jlt[jltSetOf l] = none) :
    w.insert l = { w with sequence := sequenceStep w.sequence, jlt := w.jlt.put l (sequenceWay (sequenceStep w.sequence)) } := by
  unfold Wju.insert
  rw [full]

/-- Every insertion puts the line in one way of its set: the lowest empty one, or any of a full set. -/
theorem Wju.insert_jlt (w : Wju) (l : Line) : ∃ way : Fin 4, (w.insert l).jlt = w.jlt.put l way ∧
    (JltSet.emptyWay w.jlt[jltSetOf l] = some way ∨ JltSet.emptyWay w.jlt[jltSetOf l] = none) := by
  cases empty : JltSet.emptyWay w.jlt[jltSetOf l] with
  | some way => exact ⟨way, by rw [Wju.insert_of_emptyWay empty], .inl rfl⟩
  | none => exact ⟨_, by rw [Wju.insert_of_full empty], .inr rfl⟩

theorem Jlt.hit_iff (j : Jlt) (l : Line) : j.hit l = true ↔ ∃ way : Fin 4, j[jltSetOf l][way] = some l := by
  unfold Jlt.hit
  rw [List.contains_iff_mem, Vector.mem_toList_iff, Vector.mem_iff_getElem]
  constructor
  · rintro ⟨k, hk, held⟩
    exact ⟨⟨k, hk⟩, held⟩
  · rintro ⟨way, held⟩
    exact ⟨way.val, way.isLt, held⟩

theorem jltSetOf_val (l : Line) : (jltSetOf l).val = l.toNat % 16 := by
  simp [jltSetOf]

/-! ### The replacement sequence -/

theorem toNat_sequenceStep (v : BitVec 16) :
    (sequenceStep v).toNat = if v.toNat % 2 = 1 then v.toNat / 2 ^^^ 0xB400 else v.toNat / 2 := by
  have low : v.getLsbD 0 = decide (v.toNat % 2 = 1) := by
    rw [← BitVec.testBit_toNat, Nat.testBit_zero]
  unfold sequenceStep
  rw [low]
  by_cases odd : v.toNat % 2 = 1 <;> simp [odd, Nat.shiftRight_eq_div_pow]

/-- The feedback value has its top bit set, and a shifted value has not: the two differ. -/
theorem sequenceStep_ne_zero {v : BitVec 16} (nonzero : v ≠ 0) : sequenceStep v ≠ 0 := by
  intro zero
  have toNat : (sequenceStep v).toNat = 0 := by rw [zero]; rfl
  have bound : v.toNat < 65536 := v.isLt
  rw [toNat_sequenceStep] at toNat
  split at toNat
  · have : v.toNat / 2 = 0xB400 := Nat.xor_eq_zero_iff.mp toNat
    omega
  case isFalse even =>
    have : v.toNat = 0 := by omega
    exact nonzero (BitVec.eq_of_toNat_eq this)

theorem sequenceWay_val (v : BitVec 16) : (sequenceWay v).val = v.toNat % 4 := by
  simp [sequenceWay]

/-- Settles O18: a hit is membership in the line's set, an insertion is one put, and the sequence is a shift with feedback. -/
theorem jltLookupAndInsertion : Obligations.JltLookupAndInsertion := by
  refine ⟨Jlt.hit_iff, jltSetOf_val, fun w l way empty lower => ?_, fun w l full => ?_, toNat_sequenceStep,
    fun v => sequenceStep_ne_zero⟩
  · rw [Wju.insert_of_emptyWay (JltSet.emptyWay_eq_some empty lower)]
    exact ⟨rfl, Jlt.getElem_getElem_put w.jlt l way⟩
  · rw [Wju.insert_of_full (JltSet.emptyWay_eq_none full)]
    refine ⟨rfl, fun i k => ?_⟩
    rw [Jlt.getElem_getElem_put, ← sequenceWay_val]
    simp [Fin.val_inj]

/-! ### The order of a set -/

/-- The valid entries of a set are its lowest ways, without duplicates, each of a line of that set (R68, R70). -/
def OrderedWays (ways : List (Option Line)) (i : Fin 16) : Prop :=
  ∃ ls : List Line, ways = ls.map some ++ List.replicate (4 - ls.length) none ∧ ls.Nodup ∧ ls.length ≤ 4 ∧
    ∀ l ∈ ls, jltSetOf l = i

theorem Jlt.ordered_iff (j : Jlt) : j.Ordered ↔ ∀ i, OrderedWays (j.ways i) i := Iff.rfl

theorem Jlt.ways_empty (i : Fin 16) : Jlt.empty.ways i = List.replicate 4 none := by
  simp [Jlt.ways, Jlt.empty]

theorem Jlt.ordered_empty : Jlt.empty.Ordered := by
  intro i
  exact ⟨[], by simp [Jlt.ways_empty], List.nodup_nil, by simp, by simp⟩

theorem Jlt.ways_put (j : Jlt) (l : Line) (way : Fin 4) (i : Fin 16) :
    (j.put l way).ways i = if i = jltSetOf l then (j.ways i).set way (some l) else j.ways i := by
  unfold Jlt.ways
  rw [Jlt.getElem_put]
  split
  · exact JltSet.toList_set _ _ _
  · rfl

/-- What an ordered list of ways holds below the number of its valid entries, and right after them. -/
theorem orderedWays_valid {ls : List Line} {k : Nat} (below : k < ls.length) :
    (ls.map some ++ List.replicate (4 - ls.length) none)[k]? ≠ some none := by
  rw [List.getElem?_append_left (by simpa using below)]
  simp [below]

theorem orderedWays_free {ls : List Line} (room : ls.length < 4) :
    (ls.map some ++ List.replicate (4 - ls.length) none)[ls.length]? = some none := by
  rw [List.getElem?_append_right (by simp)]
  simp [room]

/-- In an ordered set with room the lowest empty way follows the valid entries. -/
theorem emptyWay_val_of_ordered {t : JltSet} {ls : List Line} {way : Fin 4}
    (ways : t.toList = ls.map some ++ List.replicate (4 - ls.length) none) (empty : t.emptyWay = some way) :
    way.val = ls.length ∧ ls.length < 4 := by
  have valid : ∀ k : Fin 4, k.val < ls.length → t[k] ≠ none := by
    intro k below empty
    have entry := t.toList_getElem? k
    rw [ways, empty] at entry
    exact orderedWays_valid below entry
  have room : ls.length < 4 := by
    by_contra full
    have : t.emptyWay = none := JltSet.emptyWay_eq_none fun k => valid k (by omega)
    exact nomatch this.symm.trans empty
  have free : t[(⟨ls.length, room⟩ : Fin 4)] = none := by
    have entry := t.toList_getElem? ⟨ls.length, room⟩
    rw [ways] at entry
    exact Option.some.inj (entry.symm.trans (orderedWays_free room))
  have lowest : t.emptyWay = some ⟨ls.length, room⟩ := JltSet.emptyWay_eq_some free fun k below => valid k below
  cases lowest.symm.trans empty
  exact ⟨rfl, room⟩

/-- In an ordered set without an empty way all four entries are valid. -/
theorem length_eq_of_full {t : JltSet} {ls : List Line} (short : ls.length ≤ 4)
    (ways : t.toList = ls.map some ++ List.replicate (4 - ls.length) none) (full : t.emptyWay = none) : ls.length = 4 := by
  by_contra room
  have room : ls.length < 4 := by omega
  have free : t[(⟨ls.length, room⟩ : Fin 4)] = none := by
    have entry := t.toList_getElem? ⟨ls.length, room⟩
    rw [ways] at entry
    exact Option.some.inj (entry.symm.trans (orderedWays_free room))
  have lower : ∀ k : Fin 4, k < ⟨ls.length, room⟩ → t[k] ≠ none := by
    intro k below empty
    have below : k.val < ls.length := below
    have entry := t.toList_getElem? k
    rw [ways, empty] at entry
    exact orderedWays_valid below entry
  exact nomatch full.symm.trans (JltSet.emptyWay_eq_some free lower)

/-- A line put in the lowest empty way of its set, or in any way of a full set, leaves it ordered if it was not in it. -/
theorem OrderedWays.put {t : JltSet} {i : Fin 16} {l : Line} {way : Fin 4} (h : OrderedWays t.toList i)
    (set : jltSetOf l = i) (miss : some l ∉ t.toList) (chosen : t.emptyWay = some way ∨ t.emptyWay = none) :
    OrderedWays (t.toList.set way (some l)) i := by
  obtain ⟨ls, ways, nodup, short, sets⟩ := h
  have new : l ∉ ls := fun mem => miss (by rw [ways]; simp [mem])
  rcases chosen with empty | full
  · obtain ⟨val, room⟩ := emptyWay_val_of_ordered ways empty
    refine ⟨ls ++ [l], ?_, ?_, by simp; omega, ?_⟩
    · obtain ⟨n, hn⟩ : ∃ n, 4 - ls.length = n + 1 := ⟨3 - ls.length, by omega⟩
      have hn' : 4 - (ls ++ [l]).length = n := by simp; omega
      rw [ways, val, hn, hn', List.set_append_right _ _ (by simp)]
      simp [List.replicate_succ]
    · exact nodup.append (List.nodup_singleton l) (by simpa using new)
    · intro k mem
      rcases List.mem_append.mp mem with mem | mem
      · exact sets k mem
      · rw [List.mem_singleton.mp mem, set]
  · have length := length_eq_of_full short ways full
    refine ⟨ls.set way l, ?_, nodup.set new, by simp [length], ?_⟩
    · rw [ways, length]
      simp [length]
    · intro k mem
      rcases List.mem_or_eq_of_mem_set mem with mem | rfl
      · exact sets k mem
      · exact set

theorem Jlt.Ordered.insert {w : Wju} {l : Line} (h : w.jlt.Ordered) (miss : w.jlt.hit l = false) :
    (w.insert l).jlt.Ordered := by
  obtain ⟨way, put, chosen⟩ := w.insert_jlt l
  intro i
  show OrderedWays ((w.insert l).jlt.ways i) i
  rw [put, Jlt.ways_put]
  split
  case isTrue set =>
    subst set
    refine OrderedWays.put (h _) rfl ?_ chosen
    simpa [Jlt.hit] using miss
  case isFalse => exact h i

/-! ### The number of entries -/

theorem Jlt.count_empty : Jlt.empty.count = 0 := by
  simp [Jlt.count, Jlt.empty]

/-- One entry written adds at most one. -/
theorem countP_set_le (ways : List (Option Line)) (k : Nat) (entry : Option Line) :
    (ways.set k entry).countP Option.isSome ≤ ways.countP Option.isSome + 1 := by
  by_cases inSet : k < ways.length
  · rw [List.countP_set inSet]
    split <;> split <;> omega
  · rw [List.set_eq_of_length_le (by omega)]
    omega

theorem sum_set_le {counts : List Nat} {k v : Nat} (bound : ∀ h : k < counts.length, v ≤ counts[k] + 1) :
    (counts.set k v).sum ≤ counts.sum + 1 := by
  induction counts generalizing k with
  | nil => simp
  | cons c cs ih =>
    cases k with
    | zero =>
      have := bound (by simp)
      simp only [List.set_cons_zero, List.sum_cons, List.getElem_cons_zero] at this ⊢
      omega
    | succ k =>
      have := ih (k := k) fun h => bound (Nat.succ_lt_succ h)
      simp only [List.set_cons_succ, List.sum_cons]
      omega

theorem Jlt.count_put_le (j : Jlt) (l : Line) (way : Fin 4) : (j.put l way).count ≤ j.count + 1 := by
  unfold Jlt.count Jlt.put
  have sets : (j.set (jltSetOf l) (j[jltSetOf l].set way (some l))).toList =
      j.toList.set (jltSetOf l) (j[jltSetOf l].set way (some l)) := by
    obtain ⟨⟨sets⟩, size⟩ := j
    rfl
  rw [sets, List.map_set, JltSet.toList_set]
  refine sum_set_le fun h => ?_
  rw [List.getElem_map, Vector.getElem_toList]
  exact countP_set_le _ _ _

theorem Wju.count_insert_le (w : Wju) (l : Line) : (w.insert l).jlt.count ≤ w.jlt.count + 1 := by
  obtain ⟨way, put, -⟩ := w.insert_jlt l
  rw [put]
  exact w.jlt.count_put_le l way

end Sys2Proof.Machine
end

