-- ==== Sys2Proof/Proofs/JltInvariant.lean ====
section
/-! PROOFS. The JLT stays ordered, holds at most usage entries, and an append in progress is for a line it does not hold
(R70, R79, R87). -/

namespace Sys2Proof.Machine

/-! ### The parts of the invariant -/

/-- The valid entries are at most usage in ACTIVE and COMMITTING, and there are none in every other state (R70, R87). -/
def JltCounted (s : State) : Prop :=
  if s.ec.state.isLive then s.wju.jlt.count ≤ s.ec.usage else s.wju.jlt.count = 0

/-- An append still to write its tag, and that once, is for a line the JLT does not hold (R79). -/
def AppendMisses (s : State) : Prop :=
  ∀ j r, s.mpa.job = some j → j.kind = .append r →
    j.tagsToWrite ≤ 1 ∧ (j.tagsToWrite = 1 → s.wju.jlt.hit r.line = false)

def JltFits (s : State) : Prop := s.wju.jlt.Ordered ∧ JltCounted s ∧ AppendMisses s

theorem JltFits.same {s t : State} (h : JltFits s) (core : t.core = s.core) : JltFits t := by
  obtain ⟨job, state, -, -, usage, -, -, -, -, jlt, -⟩ := State.core_eq_iff.mp core
  unfold JltFits JltCounted AppendMisses
  rw [job, state, usage, jlt]
  exact h

/-- With no entries the count is right in every state. -/
theorem jltCounted_of_count_eq_zero {s : State} (none : s.wju.jlt.count = 0) : JltCounted s := by
  unfold JltCounted
  split <;> omega

theorem JltCounted.count_eq_zero {s : State} (h : JltCounted s) (idle : s.ec.state.isLive = false ∨ s.ec.usage = 0) :
    s.wju.jlt.count = 0 := by
  unfold JltCounted at h
  split at h
  case isTrue live =>
    rcases idle with state | usage
    · exact nomatch state.symm.trans live
    · omega
  case isFalse => exact h

/-- A port that holds no append. -/
theorem appendMisses_of_no_append {s : State} (none : ∀ j r, s.mpa.job = some j → j.kind ≠ .append r) : AppendMisses s :=
  fun j r job kind => absurd kind (none j r job)

theorem appendMisses_of_free {s : State} (free : s.mpa.job = none) : AppendMisses s :=
  appendMisses_of_no_append fun _ _ job => nomatch free.symm.trans job

theorem noJournalWrite_no_append {s : State} (free : NoJournalWrite s) (j : Job) (r : RecordHead)
    (job : s.mpa.job = some j) : j.kind ≠ .append r := by
  intro kind
  have := free j job
  rw [kind] at this
  exact nomatch this

/-- An empty table with no append in progress. -/
theorem jltFits_of_empty {s : State} (empty : s.wju.jlt = .empty) (none : ∀ j r, s.mpa.job = some j → j.kind ≠ .append r) :
    JltFits s :=
  ⟨by rw [empty]; exact Jlt.ordered_empty, jltCounted_of_count_eq_zero (by rw [empty]; exact Jlt.count_empty),
    appendMisses_of_no_append none⟩

/-- A table without valid entries on a free port. -/
theorem jltFits_of_count_eq_zero {s : State} (ordered : s.wju.jlt.Ordered) (none : s.wju.jlt.count = 0)
    (free : s.mpa.job = .none) : JltFits s :=
  ⟨ordered, jltCounted_of_count_eq_zero none, appendMisses_of_free free⟩

theorem jltFits_serve {s : State} (ordered : s.wju.jlt.Ordered) (none : s.wju.jlt.count = 0)
    (free : s.mpa.job = .none) : JltFits s.serve :=
  serve_of_each JltFits.same (jltFits_of_count_eq_zero ordered none free) (jltFits_of_count_eq_zero ordered none free)
    (jltFits_of_empty rfl fun _ _ job => nomatch free.symm.trans job)

/-! ### Ends of jobs -/

theorem jltFits_ends {s t : State} {j : Job} (job : s.mpa.job = some j) (ended : Ends s j.kind j.reads t)
    (h : JltInv s) : JltFits t := by
  obtain ⟨fits, ordered, counted, -⟩ := h
  have fits := fits j job
  generalize j.kind = k, j.reads = reads at ended fits
  have idle (state : s.ec.state.isLive = false) : s.wju.jlt.count = 0 := JltCounted.count_eq_zero counted (.inl state)
  have scanning (state : (s.ec.state == .scanning) = true) : s.wju.jlt.count = 0 :=
    idle (by rw [eq_of_beq state]; rfl)
  have rolling (state : (s.ec.state == .rollingBack) = true) : s.wju.jlt.count = 0 :=
    idle (by rw [eq_of_beq state]; rfl)
  cases ended with
  | up | readRecord => exact ⟨ordered, counted, appendMisses_of_free rfl⟩
  | header | noHeader | scanGood | scanBreaks | scanHolds => exact jltFits_of_count_eq_zero ordered (scanning fits) rfl
  | scanServes => exact jltFits_serve ordered (scanning fits) rfl
  | scanRecovers => exact jltFits_of_empty rfl fun _ _ job => nomatch job
  | restored | restoreBreaks => exact jltFits_of_count_eq_zero ordered (rolling fits) rfl
  | close => exact jltFits_serve ordered (rolling fits) rfl
  | format | commit | discard => exact jltFits_serve Jlt.ordered_empty Jlt.count_empty rfl

/-! ### Word operations -/

/-- The tag write puts the append's line, which missed, in the table: one entry more for one record more. -/
theorem jltFits_tagMade {s : State} {j : Job} {a : JournalAddr} {tag : Word} {rest : List WordOp} {r : RecordHead}
    (progress : InProgress s j (.writeTag a tag) rest) (kind : j.kind = .append r) (h : JltInv s) :
    JltFits (s.tagMade j r a tag rest) := by
  obtain ⟨fits, ordered, counted, misses⟩ := h
  obtain ⟨once, miss⟩ := misses j r progress.1 kind
  have live : s.ec.state.isLive = true := by simpa [kind, JobKind.fits] using fits j progress.1
  have tags := tagsToWrite_of_progress progress j.reads
  rw [WordOp.isTag, if_pos rfl] at tags
  have last : Job.tagsToWrite { j with todo := rest } = 0 := by omega
  refine ⟨ordered.insert (miss (by omega)), ?_, fun i q made _ => ?_⟩
  · have bound := s.wju.count_insert_le r.line
    unfold JltCounted
    rw [if_pos live] at counted
    change if s.ec.state.isLive then (s.wju.insert r.line).jlt.count ≤ s.ec.usage + 1 else _
    rw [if_pos live]
    exact bound.trans (Nat.add_le_add_right counted 1)
  · cases made
    rw [last]
    exact ⟨Nat.zero_le 1, fun one => nomatch one⟩

theorem jltFits_otherMade {s : State} {j : Job} {op : WordOp} {rest : List WordOp} (bus : UpstreamBus)
    (progress : InProgress s j op rest) (h : JltFits s) : JltFits (s.otherMade j op rest bus) := by
  obtain ⟨ordered, counted, misses⟩ := h
  have wju : (s.otherMade j op rest bus).wju = s.wju := by simp [State.otherMade]
  unfold JltFits JltCounted AppendMisses
  rw [State.otherMade_ec, wju]
  refine ⟨ordered, counted, fun i r made kind => ?_⟩
  cases made
  obtain ⟨once, miss⟩ := misses j r progress.1 kind
  rw [Job.remaining_of_not_restore (by simp [show j.kind = _ from kind])]
  have tags := tagsToWrite_of_progress progress (s.readsAfter j op)
  exact ⟨by omega, fun one => miss (by omega)⟩

theorem jltInv_opMade {s : State} {j : Job} {op : WordOp} {rest : List WordOp} (bus : UpstreamBus)
    (progress : InProgress s j op rest) (h : JltInv s) : JltInv (s.opMade j op rest bus) :=
  ⟨h.1.opMade bus progress, made_of_each (G := JltInv) JltFits.same jltFits_tagMade
    (fun bus progress _ h => jltFits_otherMade bus progress h.2) bus progress h⟩

/-! ### The invariant -/

theorem jltFits_beginJob {s : State} {k : JobKind} {ops : List WordOp} (h : JltFits s) (none : ∀ r, k ≠ .append r) :
    JltFits (s.beginJob k ops) := by
  obtain ⟨ordered, counted, -⟩ := h
  refine ⟨ordered, counted, appendMisses_of_no_append fun j r begun => ?_⟩
  cases begun
  exact none r

theorem jltFits_led : CommandsTo (fun _ => True) JltInv JltFits := CoreTo.commandsTo (unchanged := JltFits.same) {
  same := fun h => JltFits.same h.2
  committing := by
    intro s free state ⟨_, ordered, counted, misses⟩
    rw [state] at counted
    exact ⟨ordered, counted, misses⟩
  rollingBack := fun free _ _ => jltFits_of_empty rfl (noJournalWrite_no_append free)
  formatting := by
    intro s free state ⟨_, ordered, counted, _⟩
    have idle : s.ec.state.isLive = false ∨ s.ec.usage = 0 := by
      rcases state with state | state | state | ⟨-, usage⟩
      · simp [state, EcState.isLive]
      · simp [state, EcState.isLive]
      · simp [state, EcState.isLive]
      · exact .inr usage
    have none : s.wju.jlt.count = 0 := JltCounted.count_eq_zero counted idle
    exact ⟨ordered, jltCounted_of_count_eq_zero none,
      appendMisses_of_no_append (noJournalWrite_no_append free)⟩
  upGranted := by
    intro s tr kind ops _ job ⟨_, ordered, counted, misses⟩
    cases job with
    | append _ miss _ =>
      refine ⟨ordered, counted, fun j r begun kind => ?_⟩
      cases begun
      cases kind
      rw [tagsToWrite_append]
      exact ⟨Nat.le_refl 1, fun _ => miss⟩
    | _ => exact jltFits_beginJob ⟨ordered, counted, misses⟩ fun _ kind => nomatch kind
  ecGranted := by
    intro s t _ grant ⟨_, fits⟩
    cases grant with
    | nothing => exact fits
    | _ => exact jltFits_beginJob fits fun _ kind => nomatch kind
  lkGranted := fun _ _ h => jltFits_beginJob h.2 fun _ kind => nomatch kind
  completed := completed_of_made_of_ends (G := JltInv) (fun h same => JltFits.same h (State.core_eq_of_view_eq same))
    (fun h => h.2) jltInv_opMade jltFits_ends
  ended := fun job _ ended h => jltFits_ends job ended h
  reset := fun _ _ _ _ => jltFits_of_empty rfl fun _ _ job => nomatch job }

theorem jltInv_kept : CommandsTo (fun _ => True) JltInv JltInv := (jobInv_kept.mono fun h => h.1).and jltFits_led

end Sys2Proof.Machine
end

