-- ==== Sys2Proof/Proofs/Acceptance.lean ====
section
/-! PROOFS. The queue, REFCLK periods, and the acceptance of an assertion of USTB (R3 to R8, section 1.2). -/

namespace Sys2Proof.Machine

/-! ### The queue -/

/-- Settles O1: `step` pops the front command. -/
theorem stepRunsTheFrontCommand : Obligations.StepRunsTheFrontCommand := fun _ _ _ => rfl

theorem Pwu.counts_iff (p : Pwu) : p.counts = true ↔ p.state = .halted ∧ p.pfail = false ∧ p.tripped = false := by
  simp [Pwu.counts, and_assoc]

theorem pulse_any_complete (pulse : Option Pulse) :
    (if (pulse.map Pulse.advance).any Pulse.complete then [Instr.rstoPulseEnd] else []) =
      match pulse with
      | some p => if p.length ≤ p.count + 1 then [.rstoPulseEnd] else []
      | none => [] := by
  cases pulse <;> simp [Pulse.advance, Pulse.complete]

/-- The return to NORMAL is due when this period's count reaches the release delay. -/
theorem returnToNormal_due (s : State) :
    (s.countPeriod.pwu.counts && decide (releasePeriods ≤ s.countPeriod.pwu.releaseCount)) = true ↔
      s.pwu.state = .halted ∧ s.pwu.pfail = false ∧ s.pwu.tripped = false ∧ 2048 ≤ s.pwu.releaseCount + 1 := by
  by_cases counting : s.pwu.counts = true
  · obtain ⟨state, pfail, tripped⟩ := (Pwu.counts_iff _).mp counting
    simp [State.countPeriod, Pwu.counts, state, pfail, tripped, releasePeriods]
  · have still : s.countPeriod.pwu = s.pwu := if_neg counting
    rw [still]
    refine iff_of_false (by simp [counting]) fun due => counting ?_
    obtain ⟨state, pfail, tripped, -⟩ := due
    exact (Pwu.counts_iff _).mpr ⟨state, pfail, tripped⟩

theorem State.dueEvents_countPeriod (s : State) : s.countPeriod.dueEvents =
    (if s.rlu.period.periods ≤ s.rlu.sampleCount + 1 then [.sampleInstant s.rlu.ckpt.pin s.rlu.abrt.pin false] else [])
      ++ (if s.tau.divider.periods ≤ s.tau.divCount + 1 then [.tick] else [])
      ++ (match s.tau.pulse with
          | some p => if p.length ≤ p.count + 1 then [.rstoPulseEnd] else []
          | none => [])
      ++ (if s.pwu.state = .halted ∧ s.pwu.pfail = false ∧ s.pwu.tripped = false ∧ 2048 ≤ s.pwu.releaseCount + 1 then
        [.returnToNormal] else []) := by
  rw [← pulse_any_complete, ← if_congr (returnToNormal_due s) rfl rfl]
  rfl

theorem State.countPeriod_pwu (s : State) : s.countPeriod.pwu =
    if s.pwu.state = .halted ∧ s.pwu.pfail = false ∧ s.pwu.tripped = false then
      { s.pwu with releaseCount := min (s.pwu.releaseCount + 1) 2048 } else s.pwu :=
  if_congr (Pwu.counts_iff _) rfl rfl

/-- Settles O2: the period's counts, and the events they complete, each by its own lemma. -/
theorem emptyQueueIsOnePeriod : Obligations.EmptyQueueIsOnePeriod := by
  intro s empty
  have period : step s = .next s.refclkPeriod := by
    unfold step
    rw [empty]
  rw [period]
  refine ⟨fun asserted => ?_, fun released => ?_⟩
  · unfold State.refclkPeriod
    rw [if_pos (show s.settle.rsti = true from asserted)]
  · have counted : s.refclkPeriod = { s.settle.countPeriod with
        pending := s.settle.countPeriod.pending ++ s.settle.countPeriod.dueEvents } :=
      if_neg (by simp [released])
    rw [counted, State.dueEvents_countPeriod, show s.settle.countPeriod.pending = [] from empty, List.nil_append,
      ← State.countPeriod_pwu]
    rfl

/-- Settles O3: a command's meaning ends in a next state in every branch, but for the row of an unknown code. -/
theorem wellFormedCommandsComplete : Obligations.WellFormedCommandsComplete := by
  refine ⟨fun c s wellFormed => ?_, fun code f s known => ?_⟩
  · cases c with
    | unknownCommandCode code f =>
      have unknown : knownCode code = false := by simpa [Instr.wellFormed] using wellFormed
      exact ⟨_, if_neg (by simp [unknown])⟩
    | sampleInstant c a first =>
      simp only [exec_sampleInstant, execSampleInstant, done]
      split <;> exact ⟨_, rfl⟩
    | _ => exact ⟨_, rfl⟩
  · have known : knownCode code = true := List.contains_iff_mem.mpr known
    simp [execUnknownCommandCode, known]

/-! ### Acceptance -/

theorem Ec.unserved_iff (e : Ec) : e.unserved = true ↔
    e.state = .scanning ∨ e.state = .recoveryHold ∨ e.state = .rollingBack ∧ e.origin = some .recovery := by
  cases state : e.state <;> simp [Ec.unserved, state]

/-- The checks of R6 are the negation of the conditions for RETRY. -/
theorem passesAcceptance_iff (s : State) : PassesAcceptance s ↔ s.retryAtAcceptance = false := by
  rw [← Bool.not_eq_true, State.retryAtAcceptance, Bool.or_eq_true, Bool.or_eq_true, Ec.unserved_iff, PassesAcceptance]
  simp
  tauto

/-- Acceptance in IDLE with RSTI# released: the checks on the transaction as classified. -/
theorem exec_acceptance_of_idle {s : State} (idle : s.upu.phase = .idle) (released : s.rsti = false) (write burst : Bool)
    (addr : DataAddr) : exec (.acceptance write burst addr) s = .next ((s.settle.present (some ⟨write, burst, addr⟩)).accept
      { write := write, burst := burst, addr := addr, cls := classify s.windows (lineOf addr) }) := by
  simp only [exec_acceptance, execAcceptance, done]
  rw [if_neg (by simp [released])]
  unfold State.strobe
  simp only [show (s.settle.present (some ⟨write, burst, addr⟩)).upu.phase = .idle from idle]
  rfl

theorem State.accept_of_retry {s : State} (retry : s.retryAtAcceptance = true) (t : Transaction) :
    s.accept t = s.answer .retry := if_pos retry

theorem State.accept_of_guard {s : State} {t : Transaction} (passes : PassesAcceptance s) (write : t.write = true)
    (guarded : t.cls.isGuard = true) : s.accept t = (s.answer .fault).raise .guardFlag := by
  simp [State.accept, (passesAcceptance_iff s).mp passes, write, guarded]

theorem State.accept_of_passes {s : State} {t : Transaction} (passes : PassesAcceptance s)
    (notGuard : ¬(t.write = true ∧ t.cls.isGuard = true)) : s.accept t = s.postUp t := by
  rw [State.accept, (passesAcceptance_iff s).mp passes, if_neg (by simp), if_neg (by simpa using notGuard)]

theorem LineClass.isGuard_iff (c : LineClass) : c.isGuard = true ↔ ∃ i, c = .guarded i := by
  cases c <;> simp [LineClass.isGuard]

/-- Settles O4: ignored outside IDLE and under RSTI#, and in IDLE by the checks of R6 to R8. -/
theorem acceptanceOutcome : Obligations.AcceptanceOutcome := by
  intro write burst addr s
  refine ⟨fun ignored => ?_, fun idle released fails => ?_, fun idle released passes notGuard => ?_⟩
  · simp only [exec_acceptance, execAcceptance, done]
    split
    · rfl
    case isFalse released =>
      have busy : s.upu.phase ≠ .idle := ignored.resolve_right released
      unfold State.strobe
      split
      case h_1 idle => exact absurd idle busy
      all_goals rfl
  · have retry : (s.settle.present (some ⟨write, burst, addr⟩)).retryAtAcceptance = true := by
      rw [passesAcceptance_iff, Bool.not_eq_false] at fails
      exact fails
    rw [exec_acceptance_of_idle idle released, State.accept_of_retry retry]
    rfl
  · have passes : PassesAcceptance (s.settle.present (some ⟨write, burst, addr⟩)) := passes
    rw [exec_acceptance_of_idle idle released,
      State.accept_of_passes passes (by simpa [LineClass.isGuard_iff] using notGuard)]
    rfl

/-- Settles O5: the write is answered FAULT by the check of R7, the read goes on. -/
theorem guardWriteFaults : Obligations.GuardWriteFaults := by
  intro burst addr i s idle released passes guarded
  have passes (write : Bool) : PassesAcceptance (s.settle.present (some ⟨write, burst, addr⟩)) := passes
  rw [exec_acceptance_of_idle idle released, exec_acceptance_of_idle idle released, guarded]
  refine ⟨?_, ?_⟩
  · rw [State.accept_of_guard (passes true) rfl rfl]
    rfl
  · rw [State.accept_of_passes (passes false) (by simp)]
    rfl

/-! ### Beats -/

theorem toNat_wordOfLine (l : Line) (o : BitVec 2) : (wordOfLine l o).toNat = 4 * l.toNat + o.toNat := by
  have := o.isLt
  simp only [wordOfLine, BitVec.toNat_append]
  rw [Nat.shiftLeft_eq, Nat.mul_comm l.toNat, ← Nat.two_pow_add_eq_or_of_lt o.isLt]

theorem toNat_lineOf (a : DataAddr) : (lineOf a).toNat = a.toNat / 4 := by
  simp only [lineOf, BitVec.extractLsb'_toNat]
  rw [Nat.shiftRight_eq_div_pow]
  omega

/-- Settles O7: the offsets of a burst's beats are the start offset plus 0 to 3, in two bits. -/
theorem beatOrder : Obligations.BeatOrder := by
  intro t
  refine ⟨fun burst => ?_, fun single => ?_⟩
  · have beats : t.beats = [wordOfLine (lineOf t.addr) (t.addr.extractLsb' 0 2),
        wordOfLine (lineOf t.addr) (t.addr.extractLsb' 0 2 + 1), wordOfLine (lineOf t.addr) (t.addr.extractLsb' 0 2 + 2),
        wordOfLine (lineOf t.addr) (t.addr.extractLsb' 0 2 + 3)] := if_pos burst
    refine ⟨_, _, _, _, by rw [Transaction.readOps, beats]; rfl, by rw [Transaction.writeOps, beats]; rfl, ?_, ?_, ?_, ?_⟩
    all_goals simp [toNat_wordOfLine, toNat_lineOf, BitVec.toNat_add]
  · simp [Transaction.readOps, Transaction.writeOps, Transaction.beats, single, markFirst]

end Sys2Proof.Machine
end

