-- ==== Sys2Proof/Proofs/Grants.lean ====
section
/-! PROOFS. Grant decisions (sections 1.5 and 2.3): the rotation, the outcome of a granted UP request, and the job that the EC
forms. -/

namespace Sys2Proof.Machine

/-! ### The rotation -/

theorem Mpa.chosen_eq (m : Mpa) : m.chosen = match m.last with
    | .up => if m.ec then some .ec else if m.lk then some .lk else if m.up then some .up else none
    | .ec => if m.lk then some .lk else if m.up then some .up else if m.ec then some .ec else none
    | .lk => if m.up then some .up else if m.ec then some .ec else if m.lk then some .lk else none := by
  have three (a b c : Requester) : [a, b, c].find? m.waits =
      if m.waits a then some a else if m.waits b then some b else if m.waits c then some c else none := by
    rw [List.find?_cons, List.find?_cons, List.find?_cons]
    cases m.waits a <;> cases m.waits b <;> cases m.waits c <;> rfl
  unfold Mpa.chosen
  cases m.last <;> exact three _ _ _

/-- With no decision to make, JOB_GRANT changes nothing. -/
theorem exec_jobGrant_of_nothing {s : State} (nothing : s.mayGrant = false ∨ s.mpa.chosen = none) :
    exec .jobGrant s = .next s.settle := by
  have still : s.settle.grantDecision = s.settle := by
    unfold State.grantDecision
    rcases nothing with mayNot | empty
    · rw [State.mayGrant_settle, mayNot, if_neg (by simp)]
    · rw [State.settle_mpa, empty]
      exact ite_self _
  rw [exec_jobGrant, execJobGrant, still]
  rfl

/-- The last granted, the PWU and the request lines: no taking of a request looks further than its own fields. -/
theorem State.ecTake_keeps (s : State) (r : EcRequest) :
    (s.ecTake r).mpa.last = s.mpa.last ∧ (s.ecTake r).pwu = s.pwu ∧ (s.ecTake r).rlu = s.rlu := by
  cases r with
  | commit x =>
    unfold State.ecTake State.commitRequest
    dsimp only
    split <;> try split
    all_goals cases x <;> exact ⟨rfl, rfl, rfl⟩
  | rollback x =>
    unfold State.ecTake State.rollbackRequest
    dsimp only
    split <;> try split
    all_goals cases x <;> exact ⟨rfl, rfl, rfl⟩
  | format c =>
    unfold State.ecTake State.formatRequest
    dsimp only
    split <;> try split
    all_goals exact ⟨rfl, rfl, rfl⟩
  | discard =>
    unfold State.ecTake State.discardRequest
    dsimp only
    split <;> exact ⟨rfl, rfl, rfl⟩

theorem State.ecPost_keeps (s : State) (r : EcRequest) :
    (s.ecPost r).mpa.last = s.mpa.last ∧ (s.ecPost r).pwu = s.pwu ∧ (s.ecPost r).rlu = s.rlu := by
  unfold State.ecPost
  split
  · exact ⟨rfl, rfl, rfl⟩
  · exact s.ecTake_keeps r

theorem State.fullCase_last (s : State) (t : Transaction) : (s.fullCase t).mpa.last = s.mpa.last := by
  unfold State.fullCase State.returnToWaiting
  dsimp only
  split
  · rfl
  · split <;> exact ((s.raise .jfull).ecPost_keeps _).1

theorem State.grantUp_last (s : State) : s.grantUp.mpa.last = s.mpa.last := by
  unfold State.grantUp State.grantWrite State.grantRead State.grantJournalWrite State.grantJournaling
  repeat' split
  all_goals first | exact s.fullCase_last _ | rfl

theorem State.grantEc_places (s : State) : s.grantEc.mpa.last = s.mpa.last ∧ s.grantEc.mpa.ec = s.mpa.ec := by
  have grant := s.ecGrant_grantEc
  generalize s.grantEc = t at grant
  cases grant <;> exact ⟨rfl, rfl⟩

theorem State.grantLk_places (s : State) : s.grantLk.mpa.last = s.mpa.last ∧ s.grantLk.mpa.lk = s.mpa.lk := by
  unfold State.grantLk
  split <;> try split
  all_goals exact ⟨rfl, rfl⟩

/-- Settles O8: the conditions, the order, and the places a grant leaves. -/
theorem rotationDecides : Obligations.RotationDecides := by
  refine ⟨State.mayGrant_iff, Mpa.chosen_eq, fun _ => exec_jobGrant_of_nothing, fun s r grants => ?_⟩
  refine ⟨s.settle.grantTo r, execJobGrant_of_grants grants, ?_⟩
  cases r with
  | up => exact ⟨State.grantUp_last _, nofun, nofun⟩
  | ec => exact ⟨(State.grantEc_places _).1, fun _ => (State.grantEc_places _).2, nofun⟩
  | lk => exact ⟨(State.grantLk_places _).1, nofun, fun _ => (State.grantLk_places _).2⟩

/-! ### The granted UP request -/

/-- The state in which a granted UP request meets the rules of section 1.5. -/
def State.upGranted (s : State) : State := { s.settle with mpa := s.mpa.grant .up }

theorem exec_jobGrant_of_up {s : State} {t : Transaction} (grants : Grants s .up) (waiting : s.upu.phase = .waiting t) :
    exec .jobGrant s = .next (if s.ec.unserved then s.upGranted.answer .retry
      else if t.write then s.upGranted.grantWrite t else s.upGranted.grantRead t) := by
  rw [exec_jobGrant, execJobGrant_of_grants grants]
  show Host.Outcome.next s.upGranted.grantUp = _
  unfold State.grantUp
  rw [show s.upGranted.upu.phase = .waiting t from waiting]
  rfl

theorem exec_jobGrant_of_write {s : State} {t : Transaction} (grants : Grants s .up) (waiting : s.upu.phase = .waiting t)
    (served : s.ec.unserved = false) (write : t.write = true) :
    exec .jobGrant s = .next (s.upGranted.grantWrite t) := by
  rw [exec_jobGrant_of_up grants waiting, served, write]
  rfl

theorem exec_jobGrant_of_read {s : State} {t : Transaction} (grants : Grants s .up) (waiting : s.upu.phase = .waiting t)
    (served : s.ec.unserved = false) (read : t.write = false) :
    exec .jobGrant s = .next (s.upGranted.grantRead t) := by
  rw [exec_jobGrant_of_up grants waiting, served, read]
  rfl

theorem Ec.unserved_of_live {e : Ec} (live : e.state = .active ∨ e.state = .committing) : e.unserved = false := by
  rcases live with state | state <;> simp [Ec.unserved, state]

/-- A JOURNAL write granted in ACTIVE or COMMITTING. -/
theorem exec_jobGrant_of_journaling {s : State} {t : Transaction} {i : Fin 8} (grants : Grants s .up)
    (waiting : s.upu.phase = .waiting t) (write : t.write = true) (journal : t.cls = .journal i)
    (live : s.ec.state = .active ∨ s.ec.state = .committing) :
    exec .jobGrant s = .next (s.upGranted.grantJournaling t) := by
  rw [exec_jobGrant_of_write grants waiting (Ec.unserved_of_live live) write]
  unfold State.grantWrite State.grantJournalWrite
  rcases live with state | state <;> simp only [journal, State.upGranted, State.settle, state]

theorem State.retryAtAcceptance_of_grants {s : State} {r : Requester} (grants : Grants s r) :
    s.retryAtAcceptance = s.ec.unserved := by
  obtain ⟨-, normal, noReset, -⟩ := s.mayGrant_iff.mp grants.1
  simp [State.retryAtAcceptance, normal, noReset]

/-- Settles O9: a read, a write that needs no record, a hit. -/
theorem upJobPerforms : Obligations.UpJobPerforms := by
  intro s t grants waiting passes
  have served : s.ec.unserved = false :=
    (State.retryAtAcceptance_of_grants grants).symm.trans ((passesAcceptance_iff s).mp passes)
  refine ⟨fun read outside => ?_, fun write cls => ?_, fun write journal live hit => ?_⟩
  · have performed : (t.cls.isJournal && s.upGranted.ec.state == .rollingBack) = false := by
      cases cls : t.cls with
      | journal i => simpa [LineClass.isJournal, State.upGranted] using outside ⟨i, cls⟩
      | _ => rfl
    rw [exec_jobGrant_of_read grants waiting served read, State.grantRead, performed]
    rfl
  · rw [exec_jobGrant_of_write grants waiting served write]
    unfold State.grantWrite
    rcases cls with cls | ⟨i, cls⟩ <;> rw [cls] <;> rfl
  · obtain ⟨i, journal⟩ := journal
    rw [exec_jobGrant_of_journaling grants waiting write journal live, State.grantJournaling,
      if_pos (show s.upGranted.wju.jlt.hit (lineOf t.addr) = true from hit)]
    rfl

/-- Settles O10: the append, by unfolding the words it fixes and its operations. -/
theorem appendGranted : Obligations.AppendGranted := by
  intro s t i grants waiting write journal live miss room
  dsimp only
  rw [exec_jobGrant_of_journaling grants waiting write journal live, State.grantJournaling,
    if_neg (by simp [State.upGranted, miss]), if_pos (show s.upGranted.ec.usage + 1 < s.upGranted.ec.size from room)]
  simp only [State.recordFor, journal]
  rfl

theorem exec_jobGrant_of_full {s : State} {t : Transaction} {i : Fin 8} (grants : Grants s .up)
    (waiting : s.upu.phase = .waiting t) (write : t.write = true) (journal : t.cls = .journal i)
    (live : s.ec.state = .active ∨ s.ec.state = .committing) (miss : s.wju.jlt.hit (lineOf t.addr) = false)
    (full : s.ec.usage + 1 = s.ec.size) : exec .jobGrant s = .next (s.upGranted.fullCase t) := by
  have noRoom : ¬s.upGranted.ec.usage + 1 < s.upGranted.ec.size := Nat.not_lt.mpr full.ge
  rw [exec_jobGrant_of_journaling grants waiting write journal live, State.grantJournaling,
    if_neg (by simp [State.upGranted, miss]), if_neg noRoom]

/-- Under AUTOCOMMIT the FULL commit request is taken at once, and the transaction waits again. -/
theorem State.fullCase_of_autocommit {s : State} (t : Transaction) {r : Requester} (grants : Grants s r)
    (policy : s.wju.policy = .autocommit) :
    s.upGranted.fullCase t = ((s.upGranted.raise .jfull).commitRequest .full).postUp t := by
  obtain ⟨-, normal, noReset, -⟩ := s.mayGrant_iff.mp grants.1
  have now : TakenAtOnce (s.upGranted.raise .jfull) := State.defers_eq_false_of_mayGrant grants.1
  have pwu : ((s.upGranted.raise .jfull).commitRequest .full).pwu.state = .normal :=
    (congrArg Pwu.state ((s.upGranted.raise .jfull).ecTake_keeps (.commit .full)).2.1).trans normal
  have noReset : ((s.upGranted.raise .jfull).commitRequest .full).mpa.linkReset = false :=
    (State.take_commitRequest _ _).keeps.2.2.trans noReset
  unfold State.fullCase
  dsimp only
  rw [show (s.upGranted.raise .jfull).wju.policy = .autocommit from policy]
  dsimp only
  rw [State.ecPost_of_takenAtOnce now]
  exact if_neg (by simp [State.ecTake, pwu, noReset])

/-- Settles O11: FAULT under REFUSE, a commit taken or joined under AUTOCOMMIT. -/
theorem fullCase : Obligations.FullCase := by
  intro s t i grants waiting write journal miss full
  refine ⟨fun policy live => ?_, fun policy state => ?_, fun policy state => ?_⟩
  · rw [exec_jobGrant_of_full grants waiting write journal live miss full, State.fullCase]
    simp only [State.upGranted, State.settle, State.raise, policy]
    rfl
  · rw [exec_jobGrant_of_full grants waiting write journal (.inl state) miss full,
      State.fullCase_of_autocommit t grants policy, State.commitRequest]
    simp only [State.upGranted, State.settle, State.raise, state]
    rfl
  · rw [exec_jobGrant_of_full grants waiting write journal (.inr state) miss full,
      State.fullCase_of_autocommit t grants policy, State.commitRequest]
    simp only [State.upGranted, State.settle, State.raise, state, State.join, State.postUp, Sources.add, Sources.union,
      Sources.of, Sources.empty, Bool.or_false, Bool.or_true, Mpa.grant]
    rfl

/-- Settles O12: RETRY where no transaction or no transaction of the class is served, FAULT without a journal. -/
theorem upJobTurnedAway : Obligations.UpJobTurnedAway := by
  intro s t grants waiting
  refine ⟨fun away => ?_, fun state write ⟨i, journal⟩ => ?_⟩
  · have retried : exec .jobGrant s = .next (s.upGranted.answer .retry) := by
      cases unserved : s.ec.unserved with
      | true =>
        rw [exec_jobGrant_of_up grants waiting, unserved]
        rfl
      | false =>
        have passes : PassesAcceptance s :=
          (passesAcceptance_iff s).mpr ((State.retryAtAcceptance_of_grants grants).trans unserved)
        obtain ⟨⟨i, journal⟩, state⟩ := away.resolve_left (not_not_intro passes)
        cases write : t.write with
        | true =>
          rw [exec_jobGrant_of_write grants waiting unserved write]
          unfold State.grantWrite State.grantJournalWrite
          rcases state with state | ⟨state, -⟩ <;> simp only [journal, State.upGranted, State.settle, state]
        | false =>
          have state : s.ec.state = .rollingBack := state.resolve_right fun h => nomatch write.symm.trans h.2
          rw [exec_jobGrant_of_read grants waiting unserved write, State.grantRead,
            if_pos (by simp [State.upGranted, journal, LineClass.isJournal, state])]
    exact retried
  · have served : s.ec.unserved = false := by rcases state with state | state <;> simp [Ec.unserved, state]
    rw [exec_jobGrant_of_write grants waiting served write]
    unfold State.grantWrite State.grantJournalWrite
    rcases state with state | state <;> simp only [journal, State.upGranted, State.settle, state] <;> rfl

/-! ### The granted EC request -/

/-- The state in which the EC forms its job. -/
def State.ecGranted (s : State) : State := { s.settle with mpa := s.mpa.grant .ec }

theorem exec_jobGrant_of_ec {s : State} (grants : Grants s .ec) : exec .jobGrant s = .next s.ecGranted.grantEc :=
  (exec_jobGrant s).trans (execJobGrant_of_grants grants)

theorem layoutWord_eq (c : Fin 5) : layoutWord c = BitVec.ofNat 32 (256 * c.val + 1) := by
  rw [layoutWord, Nat.mul_comm]

/-- Settles O13: the EC's job in each of its states. -/
theorem ecFormsItsJobAtTheGrant : Obligations.EcFormsItsJobAtTheGrant := by
  intro s grants
  dsimp only
  rw [exec_jobGrant_of_ec grants, State.grantEc, ← layoutWord_eq]
  refine ⟨fun state unread => ?_, fun state read => ?_, fun state => ?_, fun state walking => ?_, fun state walked => ?_,
    fun state => ?_, fun state => ?_⟩
  · simp only [show s.ecGranted.ec.state = _ from state, show s.ecGranted.ec.headerRead = _ from unread]
    rfl
  · simp only [show s.ecGranted.ec.state = _ from state, show s.ecGranted.ec.headerRead = _ from read]
    rfl
  · simp only [show s.ecGranted.ec.state = _ from state]
    rfl
  · simp only [show s.ecGranted.ec.state = _ from state]
    rw [if_neg (show ¬s.ecGranted.ec.usage = 0 from Nat.pos_iff_ne_zero.mp walking)]
    rfl
  · simp only [show s.ecGranted.ec.state = _ from state]
    rw [if_pos (show s.ecGranted.ec.usage = 0 from walked)]
    rfl
  · simp only [show s.ecGranted.ec.state = _ from state]
    rfl
  · simp only [show s.ecGranted.ec.state = _ from state]
    rfl

end Sys2Proof.Machine
end

