-- ==== Sys2Proof/Proofs/WordOperations.lean ====
section
/-! PROOFS. Word operations that leave their job in progress, or end an upstream transaction (sections 1.6, 2.2 and 5.2). -/

namespace Sys2Proof.Machine

/-- Settles O14: every byte after a word write, by the byte's word and lane. -/
theorem wordWriteChangesItsLanes : Obligations.WordWriteChangesItsLanes := by
  intro m w lanes d wf c
  have after := Memory.read_writeWord m w lanes d c wf
  refine ⟨fun other => ?_, fun same off => ?_, fun same on => ?_⟩
  · rw [after, if_neg fun h => other h.1]
  · rw [after, if_neg fun h => Bool.false_ne_true (off.symm.trans h.2)]
  · rw [after, if_pos ⟨same, on⟩]
    rfl

/-! ### The completion of a word operation -/

/-- The state in which a word operation completes. -/
def State.opMet (s : State) (bus : UpstreamBus) : State := s.settle.present bus.ustb

/-- What an operation writes and brings about, before its job goes on or ends. -/
def State.opDone (s : State) (j : Job) (op : WordOp) (bus : UpstreamBus) : State :=
  ((s.opMet bus).storeOp op j bus).opEffects op j (op.reads? (s.opMet bus))

variable {s : State} {j : Job} {op : WordOp} {rest : List WordOp}

theorem exec_op_of_todo {todo : List WordOp} (bus : UpstreamBus) (progress : InProgress s j op rest)
    (left : j.remaining op rest ((s.opMet bus).readsAfter j op) (s.opDone j op bus).ec = todo) (more : todo ≠ []) :
    exec (.wordOperationComplete bus) s = .next { s.opDone j op bus with
      mpa := { (s.opDone j op bus).mpa with
        job := some { j with todo := todo, reads := (s.opMet bus).readsAfter j op } } } := by
  subst left
  rw [exec_wordOperationComplete, execWordOperationComplete_of_inProgress bus progress, State.completeOp_of_remaining]
  · rfl
  · exact List.isEmpty_eq_false_iff.mpr more

theorem exec_op_of_nothing_left (bus : UpstreamBus) (progress : InProgress s j op rest)
    (left : j.remaining op rest ((s.opMet bus).readsAfter j op) (s.opDone j op bus).ec = []) :
    exec (.wordOperationComplete bus) s =
      .next ((s.opDone j op bus).jobEnds j.kind ((s.opMet bus).readsAfter j op)) := by
  rw [exec_wordOperationComplete, execWordOperationComplete_of_inProgress bus progress, State.completeOp_of_last]
  · rfl
  · exact List.isEmpty_iff.mpr left

/-- In every job but a restore the operations left are those that were to come. -/
theorem exec_op_of_more (bus : UpstreamBus) (progress : InProgress s j op rest) (notRestore : j.kind ≠ .restore)
    (more : rest ≠ []) : exec (.wordOperationComplete bus) s = .next { s.opDone j op bus with
      mpa := { (s.opDone j op bus).mpa with
        job := some { j with todo := rest, reads := (s.opMet bus).readsAfter j op } } } :=
  exec_op_of_todo bus progress (Job.remaining_of_not_restore notRestore _ _ _ _) more

theorem exec_op_of_last (bus : UpstreamBus) (progress : InProgress s j op []) (notRestore : j.kind ≠ .restore) :
    exec (.wordOperationComplete bus) s =
      .next ((s.opDone j op bus).jobEnds j.kind ((s.opMet bus).readsAfter j op)) :=
  exec_op_of_nothing_left bus progress (Job.remaining_of_not_restore notRestore _ _ _ _)

theorem State.readsAfter_of_write (j : Job) {op : WordOp} (s : State) (write : op.reads? s = none) :
    s.readsAfter j op = j.reads := by
  rw [State.readsAfter, write]
  exact List.append_nil _

/-- A journal write of a word fixed at the grant. -/
theorem State.opDone_writeJournal (s : State) (j : Job) (a : JournalAddr) (w : Word) (bus : UpstreamBus) :
    s.opDone j (.writeJournal a w) bus = { s.opMet bus with journalMem := s.journalMem.writeWord a.toNat 0xF w } := rfl

theorem State.opDone_writeOld (s : State) (j : Job) (a : JournalAddr) (k : Fin 4) (bus : UpstreamBus) :
    s.opDone j (.writeOld a k) bus =
      { s.opMet bus with journalMem := s.journalMem.writeWord a.toNat 0xF (slotWord j.reads k.val) } := rfl

theorem State.opDone_writeCheck (s : State) {j : Job} {r : RecordHead} (kind : j.kind = .append r) (a : JournalAddr)
    (bus : UpstreamBus) : s.opDone j (.writeCheck a) bus =
      { s.opMet bus with journalMem := s.journalMem.writeWord a.toNat 0xF (appendCheck r j.reads) } := by
  unfold State.opDone State.storeOp WordOp.write?
  simp only [kind]
  rfl

theorem State.opDone_readJournal (s : State) (j : Job) (a : JournalAddr) (bus : UpstreamBus) :
    s.opDone j (.readJournal a) bus = s.opMet bus := rfl

/-- Settles O15: a beat with its job going on, and the last. -/
theorem beatsMove : Obligations.BeatsMove := by
  intro s j a first rest bus
  dsimp only
  refine ⟨fun kind progress => ⟨fun more => ?_, fun last => ?_⟩, fun up notRead progress => ⟨fun more => ?_, fun last => ?_⟩⟩
  · rw [exec_op_of_more bus progress (by simp [kind]) more]
    rfl
  · subst last
    rw [exec_op_of_last bus progress (by simp [kind]), kind]
    rfl
  · rw [exec_op_of_more bus progress (fun kind => by simp [kind, JobKind.isUp] at up) more,
      State.readsAfter_of_write j _ rfl]
    rfl
  · subst last
    rw [exec_op_of_last bus progress fun kind => by simp [kind, JobKind.isUp] at up]
    cases kind : j.kind with
    | upRead => exact absurd kind notRead
    | upWrite | append => rfl
    | _ => rw [kind] at up; exact nomatch up

/-! ### The operations of an append -/

theorem appendCheck_eq (r : RecordHead) (old : List Word) : appendCheck r old =
    ~~~(r.tag ^^^ lineWord r.line ^^^ slotWord old 0 ^^^ slotWord old 1 ^^^ slotWord old 2 ^^^ slotWord old 3
      ^^^ r.stamp) := by
  simp [appendCheck, checkWord]

/-- Settles O16: each operation reads or writes its one word. -/
theorem appendBuildsTheRecord : Obligations.AppendBuildsTheRecord := by
  intro s j r op rest bus kind progress more
  have notRestore : j.kind ≠ .restore := by simp [kind]
  dsimp only
  refine ⟨fun a read => ?_, fun a w write => ?_, fun a k write => ?_, fun a write => ?_⟩
  · subst read
    rw [exec_op_of_more bus progress notRestore more]
    rfl
  · subst write
    rw [exec_op_of_more bus progress notRestore more, State.readsAfter_of_write j _ rfl, State.opDone_writeJournal]
    rfl
  · subst write
    rw [exec_op_of_more bus progress notRestore more, State.readsAfter_of_write j _ rfl, State.opDone_writeOld]
    rfl
  · subst write
    rw [exec_op_of_more bus progress notRestore more, State.readsAfter_of_write j _ rfl, ← appendCheck_eq,
      State.opDone_writeCheck s kind]
    rfl

/-- The tag write's effects, field by field (R75, R86). -/
theorem State.recordJoins_eq (s : State) (r : RecordHead) : s.recordJoins r = { s with
    ec := { s.ec with usage := s.ec.usage + 1, endSlot := s.ec.slotOf (s.ec.usage + 1) }
    wju := s.wju.insert r.line
    tau := { s.tau with running := if s.ec.usage = 0 then true else s.tau.running }
    sau := { s.sau with
      appended := s.sau.appended + 1
      peak := if s.sau.peak < s.ec.usage + 1 then s.ec.usage + 1 else s.sau.peak
      flags := if s.wju.watermark.val ≠ 0 ∧ s.ec.usage + 1 = s.wju.watermark.val then
          s.sau.flags ||| Flag.wmark.mask else s.sau.flags } } := by
  have running : (s.tau.running || s.ec.usage == 0) = if s.ec.usage = 0 then true else s.tau.running := by
    by_cases first : s.ec.usage = 0 <;> simp [first]
  have peak : max s.sau.peak (s.ec.usage + 1) =
      if s.sau.peak < s.ec.usage + 1 then s.ec.usage + 1 else s.sau.peak := by
    split <;> omega
  have watermark : (s.wju.insert r.line).watermark = s.wju.watermark := by
    unfold Wju.insert
    split <;> rfl
  unfold State.recordJoins State.meetWatermark
  dsimp only
  rw [running, peak, watermark, if_congr (and_congr_right fun _ => eq_comm) rfl rfl]
  split <;> rfl

/-- Settles O17: the tag write, and what its effects come to. -/
theorem tagWriteJoinsTheRecord : Obligations.TagWriteJoinsTheRecord := by
  intro s j r a tag rest bus kind progress more
  have effects : s.opDone j (.writeTag a tag) bus =
      ({ s.opMet bus with journalMem := s.journalMem.writeWord a.toNat 0xF tag } : State).recordJoins r := by
    unfold State.opDone State.opEffects
    simp only [kind]
    rfl
  rw [exec_op_of_more bus progress (by simp [kind]) more, State.readsAfter_of_write j _ rfl, effects, State.recordJoins_eq]
  rfl

end Sys2Proof.Machine
end

