-- ==== Sys2Proof/Proofs/EndsOfJobs.lean ====
section
/-! PROOFS. What the ends of jobs come to (section 2.4, chapters 6 to 8): header read and scan step, restore, and the
completions of commit, rollback, DISCARD and FORMAT. -/

namespace Sys2Proof.Machine

/-! ### Refusals and notices, field by field -/

theorem or_ite_zero (p : Prop) [Decidable p] (x m : BitVec 10) :
    x ||| (if p then m else 0#10) = if p then x ||| m else x := by
  split
  · rfl
  · exact BitVec.or_zero

/-- The marks of two refusals of the same kind are one mark. -/
theorem or_ite_or_ite (p q : Prop) [Decidable p] [Decidable q] (x m : BitVec 10) :
    x ||| (if p then m else 0#10) ||| (if q then m else 0#10) = x ||| (if p ∨ q then m else 0#10) := by
  by_cases hp : p <;> by_cases hq : q <;> simp [hp, hq, BitVec.or_assoc]

theorem State.refuseSet_eq (s : State) (set : Sources) : s.refuseSet set = { s with
    sau := { s.sau with flags := s.sau.flags ||| (if set.line then Flag.reqref.mask else 0#10) }
    slk := if set.link then { s.slk with mailbox := .responseReady, response := [0x02], command := [] } else s.slk } := by
  unfold State.refuseSet
  rw [or_ite_zero]
  cases set.line <;> cases set.link <;> rfl

/-- Two sets refused one after the other: REQREF is set for either line, the response is the same for either link. -/
theorem State.refuseSet_refuseSet (s : State) (a b : Sources) : (s.refuseSet a).refuseSet b = { s with
    sau := { s.sau with flags := s.sau.flags ||| (if a.line ∨ b.line then Flag.reqref.mask else 0#10) }
    slk := if a.link ∨ b.link then
      { s.slk with mailbox := .responseReady, response := [0x02], command := [] } else s.slk } := by
  rw [State.refuseSet_eq, State.refuseSet_eq, ← or_ite_or_ite]
  cases a.link <;> cases b.link <;> rfl

theorem Sources.onlyLine_iff (x : Sources) :
    x.onlyLine = true ↔ x.link = false ∧ x.age = false ∧ x.full = false ∧ x.recovery = false := by
  simp [Sources.onlyLine, and_assoc]

/-- Slots that hold LINE at most: REQREF is set if one holds it. -/
theorem State.refuseHeld_of_onlyLine {s : State} (commit : s.ec.commitSlot.onlyLine = true)
    (rollback : s.ec.rollbackSlot.onlyLine = true) : s.refuseHeld = { s with
      ec := { s.ec with commitSlot := .empty, rollbackSlot := .empty }
      sau := { s.sau with flags := s.sau.flags |||
        (if s.ec.commitSlot.line ∨ s.ec.rollbackSlot.line then Flag.reqref.mask else 0#10) } } := by
  obtain ⟨commitLink, -⟩ := (Sources.onlyLine_iff _).mp commit
  obtain ⟨rollbackLink, -⟩ := (Sources.onlyLine_iff _).mp rollback
  unfold State.refuseHeld
  dsimp only
  rw [State.refuseSet_refuseSet, commitLink, rollbackLink]
  rfl

theorem State.refuseHeld_into {s : State} (commit : s.ec.commitSlot.onlyLine = true)
    (rollback : s.ec.rollbackSlot.onlyLine = true) (st : EcState) :
    ({ s with ec := { s.ec with state := st } } : State).refuseHeld = { s with
      ec := { s.ec with state := st, commitSlot := .empty, rollbackSlot := .empty }
      sau := { s.sau with flags := s.sau.flags |||
        (if s.ec.commitSlot.line ∨ s.ec.rollbackSlot.line then Flag.reqref.mask else 0#10) } } :=
  State.refuseHeld_of_onlyLine commit rollback

theorem RequestLine.complete_eq (l : RequestLine) : l.complete = { l with ack := l.ack || l.filtered } := by
  unfold RequestLine.complete
  split
  case isTrue high => rw [high, Bool.or_true]
  case isFalse low =>
    rw [Bool.not_eq_true] at low
    cases l
    cases low
    simp

theorem State.commitNotices_eq (s : State) (set : Sources) (e : Epoch) (n : Nat) : s.commitNotices set e n = { s with
    rlu := if set.line then
        { s.rlu with ckpt := { s.rlu.ckpt with ack := s.rlu.ckpt.ack || s.rlu.ckpt.filtered } } else s.rlu
    slk := if set.link then { s.slk with
        mailbox := .responseReady, response := 0x00 :: (leBytes 3 e.toNat ++ leBytes 2 n), command := [] }
      else s.slk } := by
  rw [← RequestLine.complete_eq]
  unfold State.commitNotices
  cases set.line <;> cases set.link <;> rfl

/-- A trigger where a source asks for it: it starts a pulse in idle (R168). -/
theorem Tau.trigger_if (asked : Bool) (t : Tau) : (if asked then t.trigger else t) =
    { t with pulse := if asked ∧ t.pulse = none then
        (some { count := 0, length := t.width.periods } : Option Pulse) else t.pulse } := by
  cases asked with
  | false => rfl
  | true =>
    cases pulse : t.pulse with
    | none => simp [Tau.trigger, pulse]
    | some p =>
      rw [Tau.trigger, pulse]
      cases t
      cases pulse
      rfl

theorem State.rollbackNotices_eq (s : State) (set : Sources) (e : Epoch) (n : Nat) : s.rollbackNotices set e n = { s with
    rlu := if set.line then
        { s.rlu with abrt := { s.rlu.abrt with ack := s.rlu.abrt.ack || s.rlu.abrt.filtered } } else s.rlu
    slk := if set.link then { s.slk with
        mailbox := .responseReady, response := 0x00 :: (leBytes 3 e.toNat ++ leBytes 2 n), command := [] }
      else s.slk
    tau := if set.age then s.tau.trigger else s.tau
    sau := { s.sau with flags := if set.recovery then s.sau.flags ||| Flag.recov.mask else s.sau.flags } } := by
  rw [← RequestLine.complete_eq]
  unfold State.rollbackNotices
  cases set.line <;> cases set.link <;> cases set.age <;> cases set.recovery <;> rfl

/-! ### The start-up scan -/

/-- The state once a job's last journal word has been read, the port free. -/
def State.readEnded (s : State) (bus : UpstreamBus) : State := { s.opMet bus with mpa := { s.mpa with job := none } }

theorem State.headerReadEnds_of_valid {s : State} {words : List Word} {c : Fin 5} {base : Nat} {e : Epoch}
    (valid : headerTest (slotWord words 0) (slotWord words 1) (slotWord words 2) = some (c, base, e)) :
    s.headerReadEnds words = { s with ec := { s.ec with
      code := c, base := base, epoch := e, endSlot := base, usage := 0, scanCount := 0, headerRead := true } }.postEc := by
  unfold State.headerReadEnds
  rw [valid]

theorem State.headerReadEnds_of_invalid {s : State} {words : List Word}
    (invalid : headerTest (slotWord words 0) (slotWord words 1) (slotWord words 2) = none) :
    s.headerReadEnds words = { s with ec := { s.ec with state := .unformatted } }.refuseHeld := by
  unfold State.headerReadEnds
  rw [invalid]

/-- Settles O19: a header valid by the test, or not. -/
theorem headerReadEnds : Obligations.HeaderReadEnds := by
  intro s j a bus kind progress two
  obtain ⟨w0, w1, reads⟩ := List.length_eq_two.mp two
  have ended : exec (.wordOperationComplete bus) s =
      .next ((s.readEnded bus).headerReadEnds [w0, w1, s.journalMem.readWord a.toNat]) := by
    rw [exec_op_of_last bus progress (by simp [kind]), kind, State.readsAfter, reads]
    rfl
  rw [reads, ended]
  refine ⟨fun c base e valid => ?_, fun invalid commit rollback => ?_⟩
  · rw [State.headerReadEnds_of_valid valid]
    rfl
  · rw [State.headerReadEnds_of_invalid invalid, State.refuseHeld_into (s := s.readEnded bus) commit rollback, or_ite_zero]
    rfl

theorem State.scanStepEnds_of_breaks {s : State} {words : List Word}
    (breaks : classifySlot s.ec.epoch s.ec.scanCount words = .bad ∨
      classifySlot s.ec.epoch s.ec.scanCount words = .good ∧ s.ec.size ≤ s.ec.scanCount + 1) :
    s.scanStepEnds words = s.scanBreaks := by
  unfold State.scanStepEnds
  rcases breaks with bad | ⟨good, full⟩
  · rw [bad]
  · rw [good]
    exact if_neg (Nat.not_lt.mpr full)

theorem State.scanStepEnds_of_counts {s : State} {words : List Word}
    (good : classifySlot s.ec.epoch s.ec.scanCount words = .good) (room : s.ec.scanCount + 1 < s.ec.size) :
    s.scanStepEnds words = s.scanCounts := by
  unfold State.scanStepEnds
  rw [good]
  exact if_pos room

theorem State.scanStepEnds_of_ending {s : State} {words : List Word}
    (ending : classifySlot s.ec.epoch s.ec.scanCount words = .ending) : s.scanStepEnds words = s.scanEnds := by
  unfold State.scanStepEnds
  rw [ending]

/-- RECOVERY joined by a rollback slot that holds LINE at most. -/
theorem Sources.recovery_union {x : Sources} (onlyLine : x.onlyLine = true) :
    (Sources.of .recovery).union x = { Sources.empty with recovery := true, line := x.line } := by
  obtain ⟨link, age, full, recovery⟩ := (Sources.onlyLine_iff x).mp onlyLine
  simp [Sources.union, Sources.of, Sources.empty, link, age, full]

theorem State.scanBreaks_of_onlyLine {s : State} (commit : s.ec.commitSlot.onlyLine = true)
    (rollback : s.ec.rollbackSlot.onlyLine = true) : s.scanBreaks = { s with
      ec := { s.ec with state := .broken, commitSlot := .empty, rollbackSlot := .empty }
      sau := { s.sau with flags := s.sau.flags ||| Flag.broken.mask |||
        (if s.ec.commitSlot.line ∨ s.ec.rollbackSlot.line then Flag.reqref.mask else 0#10) } } :=
  State.refuseHeld_into (s := s.raise .broken) commit rollback .broken

theorem State.scanEnds_of_none {s : State} (none : s.ec.usage = 0) : s.scanEnds = s.serve := by
  rw [State.scanEnds, if_pos none]

theorem State.scanEnds_of_recovers {s : State} (some : 0 < s.ec.usage) (rcva : s.ec.rcva = true)
    (rollback : s.ec.rollbackSlot.onlyLine = true) :
    s.scanEnds = { s with ec := { s.ec with rollbackSlot := .empty } }.takeRollback .recovery
      { Sources.empty with recovery := true, line := s.ec.rollbackSlot.line } := by
  rw [State.scanEnds, if_neg (Nat.ne_of_gt some), if_pos rcva, ← Sources.recovery_union rollback]

theorem State.scanEnds_of_holds {s : State} (some : 0 < s.ec.usage) (rcva : s.ec.rcva = false) :
    s.scanEnds = { s with ec := { s.ec with state := .recoveryHold } }.refuseHeld := by
  rw [State.scanEnds, if_neg (Nat.ne_of_gt some), if_neg (by simp [rcva])]

/-- Settles O20: the step's outcome by the class of the slot, the count and RCVA. -/
theorem scanStepEnds : Obligations.ScanStepEnds := by
  intro s j a bus kind progress counted commit rollback
  dsimp only
  have ended : exec (.wordOperationComplete bus) s =
      .next ((s.readEnded bus).scanStepEnds (j.reads ++ [s.journalMem.readWord a.toNat])) := by
    rw [exec_op_of_last bus progress (by simp [kind]), kind]
    rfl
  rw [ended]
  have above (some : 0 < s.ec.scanCount) : 0 < (s.readEnded bus).ec.usage := some.trans_eq counted.symm
  refine ⟨fun good room => ?_, fun breaks => ?_, fun ending none => ?_, fun ending some rcva => ?_,
    fun ending some rcva => ?_⟩
  · rw [State.scanStepEnds_of_counts (s := s.readEnded bus) good room]
    rfl
  · rw [State.scanStepEnds_of_breaks (s := s.readEnded bus) breaks,
      State.scanBreaks_of_onlyLine (s := s.readEnded bus) commit rollback]
    rfl
  · rw [State.scanStepEnds_of_ending (s := s.readEnded bus) ending,
      State.scanEnds_of_none (s := s.readEnded bus) (counted.trans none)]
    rfl
  · have head : (s.ec.base + s.ec.scanCount) % s.ec.size = s.ec.head := by rw [Ec.head, Ec.slotOf, counted]
    rw [State.scanStepEnds_of_ending (s := s.readEnded bus) ending,
      State.scanEnds_of_recovers (s := s.readEnded bus) (above some) rcva rollback, head]
    rfl
  · rw [State.scanStepEnds_of_ending (s := s.readEnded bus) ending,
      State.scanEnds_of_holds (s := s.readEnded bus) (above some) rcva,
      State.refuseHeld_into (s := s.readEnded bus) commit rollback]
    rfl

/-! ### Restore -/

theorem Job.remaining_of_read {j : Job} (kind : j.kind = .restore) (a : JournalAddr) (rest : List WordOp)
    (reads : List Word) (e : Ec) : j.remaining (.readJournal a) rest reads e =
      if rest.isEmpty && e.restoreGood reads then restoreWrites reads else rest := by
  unfold Job.remaining
  rw [kind]

theorem Job.remaining_of_restoreWord (j : Job) (a : DataAddr) (w : Word) (rest : List WordOp) (reads : List Word) (e : Ec) :
    j.remaining (.restoreWord a w) rest reads e = rest := by
  unfold Job.remaining
  split
  case h_1 read => exact nomatch read
  case h_2 => rfl

theorem State.restoreBreaks_eq (s : State) : s.restoreBreaks = { s with
    ec := { s.ec with state := .broken, inProgress := .empty, commitSlot := .empty }
    sau := { s.sau with flags := s.sau.flags ||| Flag.broken.mask |||
      (if s.ec.inProgress.line ∨ s.ec.commitSlot.line then Flag.reqref.mask else 0#10) }
    slk := if s.ec.inProgress.link ∨ s.ec.commitSlot.link then
      { s.slk with mailbox := .responseReady, response := [0x02], command := [] } else s.slk } := by
  unfold State.restoreBreaks
  dsimp only
  rw [State.refuseSet_refuseSet]
  rfl

theorem State.opDone_restoreWord (s : State) (j : Job) (a : DataAddr) (w : Word) (bus : UpstreamBus) :
    s.opDone j (.restoreWord a w) bus = { s.opMet bus with dataMem := s.dataMem.writeWord a.toNat 0xF w } := rfl

/-- Settles O21: the reads, the walk that stops or goes on, the data writes and their last. -/
theorem restoreJob : Obligations.RestoreJob := by
  intro s j op rest bus kind progress
  refine ⟨fun a read more => ?_, fun a read last => ?_, fun a w write more => ?_, fun a w write last good => ?_⟩
  · subst read
    have left : j.remaining (.readJournal a) rest ((s.opMet bus).readsAfter j (.readJournal a))
        (s.opDone j (.readJournal a) bus).ec = rest := by
      rw [Job.remaining_of_read kind, if_neg (by simp [more])]
    rw [exec_op_of_todo bus progress left more]
    rfl
  · subst read last
    dsimp only
    refine ⟨fun good => ?_, fun bad => ?_⟩
    · have left : j.remaining (.readJournal a) [] ((s.opMet bus).readsAfter j (.readJournal a))
          (s.opDone j (.readJournal a) bus).ec = restoreWrites (j.reads ++ [s.journalMem.readWord a.toNat]) := by
        rw [Job.remaining_of_read kind]
        exact if_pos (beq_iff_eq.mpr good)
      rw [exec_op_of_todo bus progress left (by simp [restoreWrites])]
      rfl
    · have notGood : s.ec.restoreGood (j.reads ++ [s.journalMem.readWord a.toNat]) = false := beq_eq_false_iff_ne.mpr bad
      have left : j.remaining (.readJournal a) [] ((s.opMet bus).readsAfter j (.readJournal a))
          (s.opDone j (.readJournal a) bus).ec = [] := by
        rw [Job.remaining_of_read kind]
        exact if_neg (ne_true_of_eq_false notGood)
      have ended : exec (.wordOperationComplete bus) s = .next (s.readEnded bus).restoreBreaks := by
        rw [exec_op_of_nothing_left bus progress left, kind]
        exact congrArg Host.Outcome.next (if_neg (ne_true_of_eq_false notGood))
      rw [ended, State.restoreBreaks_eq]
      rfl
  · subst write
    rw [exec_op_of_todo bus progress (Job.remaining_of_restoreWord j a w rest _ _) more,
      State.readsAfter_of_write j _ rfl, State.opDone_restoreWord]
    rfl
  · subst write last
    rw [exec_op_of_nothing_left bus progress (Job.remaining_of_restoreWord j a w [] _ _), kind,
      State.readsAfter_of_write j _ rfl, State.opDone_restoreWord]
    have good : s.ec.restoreGood j.reads = true := beq_iff_eq.mpr good
    exact congrArg Host.Outcome.next (if_pos good)

/-! ### Completions -/

/-- The end of a job whose last operation is a journal write. -/
theorem exec_of_last_writeJournal {s : State} {j : Job} {a : JournalAddr} {w : Word} (bus : UpstreamBus)
    (progress : InProgress s j (.writeJournal a w) []) (notRestore : j.kind ≠ .restore) :
    exec (.wordOperationComplete bus) s = .next
      (({ s.opMet bus with journalMem := s.journalMem.writeWord a.toNat 0xF w } : State).jobEnds j.kind j.reads) := by
  rw [exec_op_of_last bus progress notRestore, State.readsAfter_of_write j _ rfl, State.opDone_writeJournal]

theorem exec_of_more_writeJournal {s : State} {j : Job} {a : JournalAddr} {w : Word} {rest : List WordOp}
    (bus : UpstreamBus) (progress : InProgress s j (.writeJournal a w) rest) (notRestore : j.kind ≠ .restore)
    (more : rest ≠ []) : exec (.wordOperationComplete bus) s = .next { s.opMet bus with
      journalMem := s.journalMem.writeWord a.toNat 0b1111#4 w
      mpa := { s.mpa with job := some { j with todo := rest } } } := by
  rw [exec_op_of_more bus progress notRestore more, State.readsAfter_of_write j _ rfl, State.opDone_writeJournal]
  rfl

/-- Settles O23: the commit's effects and notices, and the serving. -/
theorem commitCompletes : Obligations.CommitCompletes := by
  intro s j base e n w bus kind progress
  rw [exec_of_last_writeJournal bus progress (by simp [kind]), kind]
  unfold State.jobEnds State.commitCompletes
  dsimp only
  rw [State.commitNotices_eq]
  rfl

theorem State.countRollback_eq (s : State) : s.countRollback = { s with sau := { s.sau with
    rollbacks := if s.ec.origin = some .recovery then s.sau.rollbacks else s.sau.rollbacks + 1
    recoveries := if s.ec.origin = some .recovery then s.sau.recoveries + 1 else s.sau.recoveries } } := by
  unfold State.countRollback
  split <;> rfl

/-- Settles O24: the first write of the close, and the rollback's effects, notices and serving at the second. -/
theorem rollbackCompletes : Obligations.RollbackCompletes := by
  intro s j e a w rest bus kind progress
  have notRestore : j.kind ≠ .restore := by simp [kind]
  refine ⟨exec_of_more_writeJournal bus progress notRestore, fun last => ?_⟩
  subst last
  rw [exec_of_last_writeJournal bus progress notRestore, kind]
  unfold State.jobEnds State.rollbackCompletes
  dsimp only
  rw [State.rollbackNotices_eq, State.countRollback_eq, Tau.trigger_if]
  rfl

/-- Settles O25: the writes of a format, and the two completions. -/
theorem discardAndFormatComplete : Obligations.DiscardAndFormatComplete := by
  intro s j a w rest bus progress
  refine ⟨fun c kind => exec_of_more_writeJournal bus progress (by simp [kind]), fun c kind last => ?_,
    fun base e n kind last => ?_⟩
  · subst last
    rw [exec_of_last_writeJournal bus progress (by simp [kind]), kind]
    rfl
  · subst last
    rw [exec_of_last_writeJournal bus progress (by simp [kind]), kind]
    rfl

end Sys2Proof.Machine
end

