-- ==== Sys2Proof/Proofs/Requests.lean ====
section
/-! PROOFS. How each EC state treats a request (sections 6.2 and 7.2), the requests that wait (R72), and the epoch commands of
the link (R178). -/

namespace Sys2Proof.Machine

/-! ### Commit and rollback requests -/

theorem State.refuseSource_eq (s : State) (x : Source) : s.refuseSource x =
    if x = .line then { s with sau := { s.sau with flags := s.sau.flags ||| 0b0000100000#10 } }
      else if x = .link then s.respond 0x02 [] else s := by
  cases x <;> rfl

theorem State.commitWhileUnknown_eq (s : State) {x : Source} (posted : x ≠ .recovery) :
    s.commitWhileUnknown x = if x = .line then s.holdCommit x else s.refuseSource x := by
  cases x with
  | recovery => exact absurd rfl posted
  | line | link | age | full => rfl

theorem State.commitRequest_of_live {s : State} (x : Source) :
    (s.ec.state = .active → s.commitRequest x = s.takeCommit (.of x)) ∧
    (s.ec.state = .committing → s.commitRequest x = s.join x) := by
  refine ⟨fun state => ?_, fun state => ?_⟩ <;> rw [State.commitRequest, state]

theorem State.commitRequest_of_held {s : State} (x : Source)
    (state : s.ec.state = .formatting ∨ s.ec.state = .rollingBack ∧ s.ec.origin ≠ some .recovery) :
    s.commitRequest x = s.holdCommit x := by
  rw [State.commitRequest]
  rcases state with state | ⟨state, origin⟩ <;> rw [state]
  exact if_neg origin

theorem State.commitRequest_of_unknown {s : State} {x : Source} (posted : x ≠ .recovery)
    (state : s.ec.state = .scanning ∨ s.ec.state = .rollingBack ∧ s.ec.origin = some .recovery) :
    s.commitRequest x = if x = .line then s.holdCommit x else s.refuseSource x := by
  rw [← s.commitWhileUnknown_eq posted, State.commitRequest]
  rcases state with state | ⟨state, origin⟩ <;> rw [state]
  exact if_pos origin

/-- Settles O27: the table of section 6.2, state by state. -/
theorem commitRequestTreated : Obligations.CommitRequestTreated := by
  intro s x posted
  dsimp only
  rw [← State.refuseSource_eq]
  refine ⟨(State.commitRequest_of_live x).1, (State.commitRequest_of_live x).2, State.commitRequest_of_held x,
    State.commitRequest_of_unknown posted, fun state => ?_⟩
  rw [State.commitRequest]
  rcases state with state | state | state <;> rw [state]

theorem State.rollbackRequest_of_live {s : State} (x : Source) :
    (s.ec.state = .active → s.rollbackRequest x = s.takeRollback .live (.of x)) ∧
    (s.ec.state = .committing ∨ s.ec.state = .formatting → s.rollbackRequest x = s.holdRollback x) ∧
    (s.ec.state = .rollingBack → s.rollbackRequest x = s.join x) := by
  refine ⟨fun state => ?_, fun state => ?_, fun state => ?_⟩
  · rw [State.rollbackRequest, state]
  · rw [State.rollbackRequest]
    rcases state with state | state <;> rw [state]
  · rw [State.rollbackRequest, state]

theorem State.rollbackRequest_of_scanning {s : State} {x : Source} (source : x = .line ∨ x = .link ∨ x = .age)
    (state : s.ec.state = .scanning) :
    s.rollbackRequest x = if x = .line then s.holdRollback x else s.refuseSource x := by
  rw [State.rollbackRequest, state]
  rcases source with rfl | rfl | rfl <;> rfl

theorem State.rollbackRequest_of_hold {s : State} (x : Source) (state : s.ec.state = .recoveryHold) :
    s.rollbackRequest x = if x = .link then s.takeRollback .recovery ((Sources.of .recovery).add .link)
      else s.refuseSource x := by
  rw [State.rollbackRequest, state]

/-- Settles O28: the table of section 7.2, state by state. -/
theorem rollbackRequestTreated : Obligations.RollbackRequestTreated := by
  intro s x source
  dsimp only
  rw [← State.refuseSource_eq]
  obtain ⟨active, held, rolling⟩ := s.rollbackRequest_of_live x
  refine ⟨active, held, rolling, State.rollbackRequest_of_scanning source, State.rollbackRequest_of_hold x, fun state => ?_⟩
  rw [State.rollbackRequest]
  rcases state with state | state <;> rw [state]

/-! ### Requests that wait -/

theorem State.ecTake_upu (s : State) (r : EcRequest) : (s.ecTake r).upu = s.upu := by
  cases r with
  | commit x =>
    unfold State.ecTake State.commitRequest
    dsimp only
    split <;> try split
    all_goals cases x <;> rfl
  | rollback x =>
    unfold State.ecTake State.rollbackRequest
    dsimp only
    split <;> try split
    all_goals cases x <;> rfl
  | format c =>
    unfold State.ecTake State.formatRequest
    dsimp only
    split <;> try split
    all_goals rfl
  | discard =>
    unfold State.ecTake State.discardRequest
    dsimp only
    split <;> rfl

theorem exec_deferredRequestTaken_of_free {s : State} (free : s.mpa.job = none) :
    exec .deferredRequestTaken s =
      .next (s.ec.deferred.foldl State.ecTake { s.settle with ec := { s.ec with deferred := [] } }) := by
  rw [exec_deferredRequestTaken, execDeferredRequestTaken]
  exact congrArg Host.Outcome.next (if_pos (by simp [free]))

/-- With a first request taken, the taking goes on as if only the rest had waited. -/
theorem exec_deferredRequestTaken_of_cons {s : State} {r : EcRequest} {rest : List EcRequest} (free : s.mpa.job = none)
    (waiting : s.ec.deferred = r :: rest) :
    let taken := State.ecTake { s.settle with ec := { s.ec with deferred := [] } } r
    exec .deferredRequestTaken s = exec .deferredRequestTaken { taken with ec := { taken.ec with deferred := rest } } := by
  intro taken
  have free' : taken.mpa.job = none := (State.ecTake_job _ r).trans free
  have upu : taken.upu = s.settle.upu := State.ecTake_upu _ r
  have again : { taken with ec := { taken.ec with deferred := rest } }.settle =
      { taken with ec := { taken.ec with deferred := rest } } := by
    unfold State.settle
    rw [upu]
    rfl
  have emptied : ({ taken with ec := { taken.ec with deferred := [] } } : State) = taken := by
    have none : taken.ec.deferred = [] := State.ecTake_deferred _ r
    rw [← none]
  rw [exec_deferredRequestTaken_of_free free, waiting, List.foldl_cons, exec_deferredRequestTaken_of_free
    (s := { taken with ec := { taken.ec with deferred := rest } }) free', again]
  exact congrArg (fun t => Host.Outcome.next (rest.foldl State.ecTake t)) emptied.symm

/-- Settles O29: waiting behind a JOURNAL write, and the taking in order. -/
theorem deferredRequestsTakenInOrder : Obligations.DeferredRequestsTakenInOrder := by
  refine ⟨fun s j r job journalWrite => ?_, fun s busy => ?_, fun s free none => ?_, fun s r free one => ?_,
    fun s r q free two => ?_, fun s r rest => exec_deferredRequestTaken_of_cons, fun _ _ _ => ⟨rfl, rfl, rfl, rfl⟩⟩
  · have waits : s.defers = true := by
      rcases journalWrite with ⟨h, kind⟩ | kind <;> simp [State.defers, job, kind, JobKind.isJournalWrite]
    exact State.ecPost_of_deferred waits r
  · rw [exec_deferredRequestTaken, execDeferredRequestTaken]
    exact congrArg Host.Outcome.next (if_neg (by simpa using busy))
  · rw [exec_deferredRequestTaken_of_free free, none]
    show Host.Outcome.next { s.settle with ec := { s.ec with deferred := [] } } = _
    rw [← none]
    rfl
  · rw [exec_deferredRequestTaken_of_free free, one]
    rfl
  · rw [exec_deferredRequestTaken_of_free free, two]
    rfl

/-! ### The epoch commands of the link -/

theorem exec_commit_of_ready {s : State} {addr : BitVec 7} (ready : LinkReady s addr) :
    exec (.commit ⟨addr, []⟩) s = .next ((s.executing [0x10] .commit).ecPost (.commit .link)) := by
  rw [exec_commit, execCommit, State.command_of_ready ready (n := 1) rfl (by decide)]
  rfl

theorem exec_rollback_of_ready {s : State} {addr : BitVec 7} (ready : LinkReady s addr) :
    exec (.rollback ⟨addr, []⟩) s = .next ((s.executing [0x11] .rollback).ecPost (.rollback .link)) := by
  rw [exec_rollback, execRollback, State.command_of_ready ready (n := 1) rfl (by decide)]
  rfl

theorem exec_discard_of_ready {s : State} {addr : BitVec 7} (ready : LinkReady s addr) :
    exec (.discard ⟨addr, []⟩) s = .next ((s.executing [0x12] .discard).ecPost .discard) := by
  rw [exec_discard, execDiscard, State.command_of_ready ready (n := 1) rfl (by decide)]
  rfl

theorem slotCodeOf_of_eq {c : Byte} {code : Fin 5} (eq : c.toNat = code.val) : slotCodeOf c = some code := by
  rw [slotCodeOf, dif_pos (eq ▸ code.isLt)]
  exact congrArg some (Fin.ext eq)

theorem slotCodeOf_of_gt {c : Byte} (above : 4 < c.toNat) : slotCodeOf c = none :=
  dif_neg (Nat.not_lt.mpr above)

/-- FORMAT with its code byte read. -/
theorem exec_format_of_ready {s : State} {addr : BitVec 7} (ready : LinkReady s addr) (c : Byte) :
    exec (.format ⟨addr, [c]⟩) s = .next (match slotCodeOf c with
      | some code => (s.executing [0x13, c] .format).ecPost (.format code)
      | none => s.replied 2 0x03 []) := by
  rw [exec_format, execFormat, State.command_of_ready ready (n := 2) rfl (by decide)]
  rfl

theorem exec_format_of_code {s : State} {addr : BitVec 7} (ready : LinkReady s addr) {c : Byte} {code : Fin 5}
    (eq : c.toNat = code.val) :
    exec (.format ⟨addr, [c]⟩) s = .next ((s.executing [0x13, c] .format).ecPost (.format code)) := by
  rw [exec_format_of_ready ready, slotCodeOf_of_eq eq]

/-- Settles O30: each command by the request it posts, taken at once or waiting. -/
theorem epochCommandsReachTheEc : Obligations.EpochCommandsReachTheEc := by
  intro s addr ready
  refine ⟨fun now => ?_, fun now => ?_, fun now state => ?_, fun now state => ?_, fun c above => ?_,
    fun c code eq now state => ?_, fun c accepted now state => ?_, fun waits => ?_⟩
  · rw [exec_commit_of_ready ready, State.ecPost_of_takenAtOnce (s := s.executing [0x10] .commit) now]
    rfl
  · rw [exec_rollback_of_ready ready, State.ecPost_of_takenAtOnce (s := s.executing [0x11] .rollback) now]
    rfl
  · rw [exec_discard_of_ready ready, State.ecPost_of_takenAtOnce (s := s.executing [0x12] .discard) now, State.ecTake,
      State.discardRequest, show (s.executing [0x12] .discard).ec.state = _ from state]
    rfl
  · rw [exec_discard_of_ready ready, State.ecPost_of_takenAtOnce (s := s.executing [0x12] .discard) now, State.ecTake,
      State.discardRequest]
    split
    case h_1 held => exact absurd held state
    all_goals rfl
  · rw [exec_format_of_ready ready, slotCodeOf_of_gt above]
  · rw [exec_format_of_code ready eq, State.ecPost_of_takenAtOnce (s := s.executing [0x13, c] .format) now, State.ecTake,
      State.formatRequest]
    rcases state with state | state | state | ⟨state, usage⟩
    · rw [show (s.executing [0x13, c] .format).ec.state = _ from state]
      rfl
    · rw [show (s.executing [0x13, c] .format).ec.state = _ from state]
      rfl
    · rw [show (s.executing [0x13, c] .format).ec.state = _ from state]
      rfl
    · rw [show (s.executing [0x13, c] .format).ec.state = _ from state]
      exact congrArg Host.Outcome.next (if_pos usage)
  · rw [exec_format_of_code (code := ⟨c.toNat, Nat.lt_succ_of_le accepted⟩) ready rfl,
      State.ecPost_of_takenAtOnce (s := s.executing [0x13, c] .format) now, State.ecTake, State.formatRequest]
    rcases state with state | state | state | state | ⟨state, usage⟩
    · rw [show (s.executing [0x13, c] .format).ec.state = _ from state]
      rfl
    · rw [show (s.executing [0x13, c] .format).ec.state = _ from state]
      rfl
    · rw [show (s.executing [0x13, c] .format).ec.state = _ from state]
      rfl
    · rw [show (s.executing [0x13, c] .format).ec.state = _ from state]
      rfl
    · rw [show (s.executing [0x13, c] .format).ec.state = _ from state]
      exact congrArg Host.Outcome.next (if_neg usage)
  · have waits : s.defers = true := by simpa [TakenAtOnce] using waits
    refine ⟨?_, ?_, ?_, fun c code eq => ?_⟩
    · rw [exec_commit_of_ready ready, State.ecPost_of_deferred (s := s.executing [0x10] .commit) waits]
      rfl
    · rw [exec_rollback_of_ready ready, State.ecPost_of_deferred (s := s.executing [0x11] .rollback) waits]
      rfl
    · rw [exec_discard_of_ready ready, State.ecPost_of_deferred (s := s.executing [0x12] .discard) waits]
      rfl
    · rw [exec_format_of_code ready eq, State.ecPost_of_deferred (s := s.executing [0x13, c] .format) waits]
      rfl

end Sys2Proof.Machine
end

