-- ==== Sys2Proof/Proofs/LinesAndPower.lean ====
section
/-! PROOFS. Request lines, ticks and the RSTO# pulse (chapter 10), the halt inputs and the return to NORMAL (chapter 9). -/

namespace Sys2Proof.Machine

/-! ### Sample instants -/

theorem RequestLine.sample_eq (l : RequestLine) (now : Bool) : l.sample now = sampled l now := by
  obtain ⟨pin, last, filtered, ack⟩ := l
  cases now <;> cases last <;> cases filtered <;> simp [RequestLine.sample, sampled]

theorem rises_iff (l : RequestLine) (now : Bool) : Rises l now ↔ l.rises now = true := by
  simp [Rises, RequestLine.rises, and_assoc]

/-- The state after both lines are sampled, before a rise posts its request. -/
def State.linesSampled (s : State) (c a : Bool) : State :=
  { s.settle with rlu := { s.rlu with
      ckpt := sampled s.rlu.ckpt c, abrt := sampled s.rlu.abrt a, sampleCount := 0 } }

theorem exec_sampleInstant_of_released {s : State} (released : s.rsti = false) (c a first : Bool) :
    exec (.sampleInstant c a first) s = .next (if first
      then ((s.linesSampled c a).postIf (s.rlu.abrt.rises a) (.rollback .line)).postIf (s.rlu.ckpt.rises c) (.commit .line)
      else ((s.linesSampled c a).postIf (s.rlu.ckpt.rises c) (.commit .line)).postIf (s.rlu.abrt.rises a)
        (.rollback .line)) := by
  rw [exec_sampleInstant, execSampleInstant, State.linesSampled, ← RequestLine.sample_eq, ← RequestLine.sample_eq]
  exact if_neg (by simp [released])

/-- Settles O36: the four cases of two lines that rise or do not. -/
theorem sampleInstant : Obligations.SampleInstant := by
  intro c a first s
  refine ⟨fun asserted => if_pos asserted, fun released => ?_⟩
  rw [exec_sampleInstant_of_released released, rises_iff, rises_iff]
  refine ⟨fun noC noA => ?_, fun risesC noA => ?_, fun noC risesA => ?_, fun risesC risesA => ?_⟩
  · rw [Bool.not_eq_true] at noC noA
    rw [noC, noA]
    exact congrArg Host.Outcome.next (ite_self _)
  · rw [Bool.not_eq_true] at noA
    rw [risesC, noA]
    exact congrArg Host.Outcome.next (ite_self _)
  · rw [Bool.not_eq_true] at noC
    rw [noC, risesA]
    exact congrArg Host.Outcome.next (ite_self _)
  · rw [risesC, risesA]
    rfl

/-! ### Ticks -/

theorem exec_tick_of_released {s : State} (released : s.rsti = false) :
    exec .tick s = .next { s.settle with tau := { s.tau with divCount := 0 } }.countTick := by
  rw [exec_tick, execTick]
  exact congrArg Host.Outcome.next (if_neg (by simp [released]))

theorem State.countTick_of_counting {s : State} (running : s.tau.running = true) (normal : s.pwu.state = .normal) :
    s.countTick = let t := { s with tau := { s.tau with age := s.tau.age + 1 } }
      if s.tau.age + 1 = s.tau.limit then t.fireAgeAction else t := by
  rw [State.countTick, if_pos (by simp [running, normal])]

/-- The four age actions (R167). -/
theorem State.fireAgeAction_cases (s : State) :
    (s.tau.action = .off → s.fireAgeAction = s) ∧ (s.tau.action = .alert → s.fireAgeAction = s.raise .age) ∧
    (s.tau.action = .commit → s.fireAgeAction = (s.raise .age).ecPost (.commit .age)) ∧
    (s.tau.action = .rollback → s.fireAgeAction = (s.raise .age).ecPost (.rollback .age)) := by
  refine ⟨fun action => ?_, fun action => ?_, fun action => ?_, fun action => ?_⟩ <;> rw [State.fireAgeAction, action]

/-- The state after a tick has been counted, before its action. -/
def State.tickCounted (s : State) : State := { s.settle with tau := { s.tau with divCount := 0, age := s.tau.age + 1 } }

/-- Settles O37: the pulse, and a tick that counts or does not, by the action set. -/
theorem ticksAndPulse : Obligations.TicksAndPulse := by
  refine ⟨fun t idle => ?_, fun t running => ?_, fun _ => rfl, fun s => ⟨fun asserted => ?_, fun released still => ?_,
    fun released running normal => ?_⟩⟩
  · rw [Tau.trigger, idle]
    cases t.width <;> rfl
  · unfold Tau.trigger
    split
    case h_1 idle => exact absurd idle running
    case h_2 => rfl
  · exact congrArg Host.Outcome.next (if_pos asserted)
  · rw [exec_tick_of_released released]
    exact congrArg Host.Outcome.next (if_neg (by simpa using still))
  · have counted : exec .tick s = .next (if s.tau.age + 1 = s.tau.limit then s.tickCounted.fireAgeAction
        else s.tickCounted) := by
      rw [exec_tick_of_released released]
      exact congrArg Host.Outcome.next
        (State.countTick_of_counting (s := { s.settle with tau := { s.tau with divCount := 0 } }) running normal)
    obtain ⟨off, alert, commit, rollback⟩ := s.tickCounted.fireAgeAction_cases
    rw [counted]
    refine ⟨fun quiet => ?_, fun met action => ?_, fun met action => ?_, fun met action => ?_⟩
    · rcases quiet with notMet | action
      · rw [if_neg notMet]
        rfl
      · rw [off action, ite_self]
        rfl
    · rw [if_pos met, alert action]
      rfl
    · rw [if_pos met, commit action]
      rfl
    · rw [if_pos met, rollback action]
      rfl

/-! ### Halt inputs -/

/-- The PWU after it leaves NORMAL, by whether a job is in progress (R144). -/
def Pwu.left (p : Pwu) (job : Option Job) : Pwu :=
  if job = none then { p with state := .halted, releaseCount := 0 } else { p with state := .halting }

theorem State.leaveNormal_eq (s : State) : s.leaveNormal =
    { (s.raise .pfail).retryWaiting with pwu := s.pwu.left s.mpa.job } := by
  have job : (s.raise .pfail).retryWaiting.mpa.job = s.mpa.job := by
    unfold State.retryWaiting
    split <;> rfl
  have pwu : (s.raise .pfail).retryWaiting.pwu = s.pwu := by
    unfold State.retryWaiting
    split <;> rfl
  unfold State.leaveNormal Pwu.left State.enterHalted
  dsimp only
  rw [job, pwu]
  cases s.mpa.job <;> rfl

theorem State.retryWaiting_of_waiting {s : State} {t : Transaction} (waiting : s.upu.phase = .waiting t) :
    s.retryWaiting = { s with
      mpa := { s.mpa with up := false }
      upu := { phase := .idle, beat := some { response := some .retry, data := none } } } := by
  rw [State.retryWaiting, waiting]
  rfl

theorem State.retryWaiting_of_not_waiting {s : State} (other : ∀ t, s.upu.phase ≠ .waiting t) : s.retryWaiting = s := by
  unfold State.retryWaiting
  split
  case h_1 t waiting => exact absurd waiting (other t)
  all_goals rfl

theorem State.leaveNormal_of_waiting {s : State} {t : Transaction} (waiting : s.upu.phase = .waiting t) :
    s.leaveNormal = { s with
      upu := { phase := .idle, beat := some { response := some .retry, data := none } }
      mpa := { s.mpa with up := false }
      sau := { s.sau with flags := s.sau.flags ||| Flag.pfail.mask }
      pwu := s.pwu.left s.mpa.job } := by
  rw [State.leaveNormal_eq, State.retryWaiting_of_waiting (s := s.raise .pfail) waiting]
  rfl

theorem State.leaveNormal_of_not_waiting {s : State} (other : ∀ t, s.upu.phase ≠ .waiting t) :
    s.leaveNormal = { s with
      sau := { s.sau with flags := s.sau.flags ||| Flag.pfail.mask }
      pwu := s.pwu.left s.mpa.job } := by
  rw [State.leaveNormal_eq, State.retryWaiting_of_not_waiting (s := s.raise .pfail) other]
  rfl

/-- A halt input with RSTI# released, by the PWU's state (R144, R146). -/
theorem State.haltInput_cases {s : State} (released : s.rsti = false) :
    (s.pwu.state = .normal → s.haltInput = s.leaveNormal) ∧ (s.pwu.state = .halting → s.haltInput = s) ∧
    (s.pwu.state = .halted → s.haltInput = { s with pwu := { s.pwu with releaseCount := 0 } }) := by
  rw [State.haltInput, if_neg (by simp [released])]
  refine ⟨fun state => ?_, fun state => ?_, fun state => ?_⟩ <;> rw [state]

/-- What a halt input leaves of a state whose PWU has taken the input as p. -/
theorem State.haltInput_leaves {s : State} {p : Pwu} (state : p.state = s.pwu.state) :
    let u := ({ s.settle with pwu := p } : State).haltInput
    (∀ t, s.rsti = false → s.pwu.state = .normal → s.upu.phase = .waiting t → u = { s with
      upu := { phase := .idle, beat := some { response := some .retry, data := none } }
      mpa := { s.mpa with up := false }
      sau := { s.sau with flags := s.sau.flags ||| 0b0001000000#10 }
      pwu := if s.mpa.job = none then { p with state := .halted, releaseCount := 0 }
        else { p with state := .halting } }) ∧
    (s.rsti = false → s.pwu.state = .normal → (∀ t, s.upu.phase ≠ .waiting t) → u = { s.settle with
      sau := { s.sau with flags := s.sau.flags ||| 0b0001000000#10 }
      pwu := if s.mpa.job = none then { p with state := .halted, releaseCount := 0 }
        else { p with state := .halting } }) ∧
    (s.rsti = false → s.pwu.state = .halted → u = { s.settle with pwu := { p with releaseCount := 0 } }) ∧
    (s.rsti = true ∨ s.pwu.state = .halting → u = { s.settle with pwu := p }) := by
  intro u
  have cases (released : s.rsti = false) := State.haltInput_cases (s := { s.settle with pwu := p }) released
  refine ⟨fun t released normal waiting => ?_, fun released normal other => ?_, fun released halted => ?_, fun h => ?_⟩
  · rw [show u = _ from (cases released).1 (state.trans normal)]
    exact State.leaveNormal_of_waiting (s := { s.settle with pwu := p }) waiting
  · rw [show u = _ from (cases released).1 (state.trans normal)]
    exact State.leaveNormal_of_not_waiting (s := { s.settle with pwu := p }) other
  · exact (cases released).2.2 (state.trans halted)
  · rcases h with asserted | halting
    · exact if_pos asserted
    · cases asserted : s.rsti with
      | true => exact if_pos asserted
      | false => exact (cases asserted).2.1 (state.trans halting)

/-! ### The supply monitor -/

theorem monitorAfter_of_level {t : Threshold} {level : Millivolts} (eq : t.tripLevel = some level) (tripped : Bool)
    (v : Millivolts) : monitorAfter t tripped v =
      if v < level then true else if v ≥ level + 50 then false else tripped := by
  rw [monitorAfter, eq]
  rfl

theorem tripLevel_eq {t : Threshold} {level : Millivolts} (set : t = .v285 ∧ level = 2850 ∨ t = .v295 ∧ level = 2950 ∨
    t = .v305 ∧ level = 3050) : t.tripLevel = some level := by
  rcases set with ⟨rfl, rfl⟩ | ⟨rfl, rfl⟩ | ⟨rfl, rfl⟩ <;> rfl

/-- Below its level the monitor trips, and the trip is an event unless it was tripped. -/
theorem State.compareSupply_below {s : State} {level v : Millivolts} (eq : s.pwu.threshold.tripLevel = some level)
    (below : v < level) : s.compareSupply v = if s.pwu.tripped then s
      else { s with pwu := { s.pwu with tripped := true } }.haltInput := by
  unfold State.compareSupply
  dsimp only
  rw [monitorAfter_of_level eq, if_pos below]
  cases tripped : s.pwu.tripped with
  | false => rfl
  | true =>
    show { s with pwu := { s.pwu with tripped := true } } = s
    rw [← tripped]

/-- From its clear level on the monitor clears; between the levels it keeps its state. -/
theorem State.compareSupply_from {s : State} {level v : Millivolts} (eq : s.pwu.threshold.tripLevel = some level)
    (above : level ≤ v) : s.compareSupply v =
      if level + 50 ≤ v then { s with pwu := { s.pwu with tripped := false } } else s := by
  unfold State.compareSupply
  dsimp only
  rw [monitorAfter_of_level eq, if_neg (Nat.not_lt.mpr above)]
  split
  · rfl
  · exact if_neg (by simp)

theorem exec_monitorTrip_of_level {s : State} {level : Millivolts} (eq : s.pwu.threshold.tripLevel = some level)
    (v : Millivolts) : exec (.monitorTrip v) s = .next (if v < level then s.settle.compareSupply v else s.settle) := by
  rw [exec_monitorTrip, execMonitorTrip]
  dsimp only [State.settle_pwu]
  rw [eq]
  rfl

theorem exec_monitorClear_of_level {s : State} {level : Millivolts} (eq : s.pwu.threshold.tripLevel = some level)
    (v : Millivolts) : exec (.monitorClear v) s = .next (if v < level then s.settle else s.settle.compareSupply v) := by
  rw [exec_monitorClear, execMonitorClear]
  dsimp only [State.settle_pwu]
  rw [eq]
  rfl

/-- Settles O34: PFAIL#, and the monitor by its levels. -/
theorem haltInputs : Obligations.HaltInputs := by
  intro s
  refine ⟨⟨_, rfl, State.haltInput_leaves (p := { s.pwu with pfail := true }) rfl⟩, rfl, fun v off => ⟨?_, ?_⟩,
    fun v level set => ?_⟩
  · rw [exec_monitorTrip, execMonitorTrip, State.settle_pwu, off]
    rfl
  · rw [exec_monitorClear, execMonitorClear, State.settle_pwu, off]
    rfl
  · have eq := tripLevel_eq set
    rw [exec_monitorTrip_of_level eq, exec_monitorClear_of_level eq]
    refine ⟨fun below clear => ?_, fun noTrip => ?_, fun cleared => ?_, fun notCleared => ?_⟩
    · rw [if_pos below, State.compareSupply_below (s := s.settle) eq below, if_neg (by simp [clear])]
      exact ⟨_, rfl, State.haltInput_leaves (p := { s.pwu with tripped := true }) rfl⟩
    · split
      case isTrue below =>
        have tripped : s.pwu.tripped = true := noTrip.resolve_left (Nat.not_le.mpr below)
        rw [State.compareSupply_below (s := s.settle) eq below]
        exact congrArg Host.Outcome.next (if_pos tripped)
      case isFalse => rfl
    · have above : level ≤ v := Nat.le_of_add_right_le cleared
      rw [if_neg (Nat.not_lt.mpr above), State.compareSupply_from (s := s.settle) eq above, if_pos cleared]
      rfl
    · split
      case isTrue => rfl
      case isFalse above =>
        rw [State.compareSupply_from (s := s.settle) eq (Nat.not_lt.mp above), if_neg (Nat.not_le.mpr notCleared)]

/-! ### The return to NORMAL -/

theorem State.grantUp_pwu (s : State) : s.grantUp.pwu = s.pwu := by
  have full (t : Transaction) : (s.fullCase t).pwu = s.pwu := by
    unfold State.fullCase State.returnToWaiting
    dsimp only
    split
    · rfl
    · split <;> exact ((s.raise .jfull).ecPost_keeps _).2.1
  unfold State.grantUp State.grantWrite State.grantRead State.grantJournalWrite State.grantJournaling
  repeat' split
  all_goals first | exact full _ | rfl

theorem State.grantDecision_pwu (s : State) : s.grantDecision.pwu = s.pwu := by
  unfold State.grantDecision
  split
  case isFalse => rfl
  case isTrue =>
    split
    case h_2 => rfl
    case h_1 r _ =>
      cases r with
      | up => exact State.grantUp_pwu _
      | ec =>
        have grant := State.ecGrant_grantEc { s with mpa := s.mpa.grant .ec }
        show (State.grantEc _).pwu = _
        generalize State.grantEc _ = t at grant
        cases grant <;> rfl
      | lk =>
        show (State.grantLk _).pwu = _
        unfold State.grantLk
        split <;> try split
        all_goals rfl

/-- Settles O35: ignored without its conditions, and otherwise a grant decision over the state returned. -/
theorem returnToNormal : Obligations.ReturnToNormal := by
  intro s
  refine ⟨fun ignored => ?_, fun state pfail tripped released => ?_⟩
  · rw [exec_returnToNormal, execReturnToNormal]
    refine congrArg Host.Outcome.next (if_neg fun due => ?_)
    rw [Bool.and_eq_true, Pwu.counts_iff] at due
    obtain ⟨⟨state, pfail, tripped⟩, released⟩ := due
    simp_all
  · have returned : exec .returnToNormal s = .next s.settle.returnToNormal :=
      congrArg Host.Outcome.next (if_pos (by simp [Pwu.counts, state, pfail, tripped, released]))
    refine ⟨_, returned, ?_, ?_⟩
    · unfold State.returnToNormal
      rw [State.grantDecision_pwu, State.postHeaderRead_pwu]
      rfl
    · rw [exec_jobGrant, execJobGrant]
      refine congrArg (fun u => Host.Outcome.next (State.grantDecision u)) ?_
      unfold State.postHeaderRead
      by_cases unread : s.ec.state = .scanning ∧ s.ec.headerRead = false
      · obtain ⟨scanning, unread⟩ := unread
        simp [scanning, unread, released, State.settle, State.postEc, releasePeriods]
      · have still : ¬(s.ec.state = .scanning ∧ s.ec.headerRead = false ∧ s.rsti = false ∧ PwuState.normal = .normal) :=
          fun h => unread ⟨h.1, h.2.1⟩
        rw [if_neg unread]
        exact (if_neg still).symm

end Sys2Proof.Machine
end

