-- ==== Sys2Proof/Proofs/CalmCommands.lean ====
section
/-! PROOFS. What every command does with the flags, the acknowledges and the PWU: a set flag stays set but at CLEAR_FLAGS and a
hardware reset, an acknowledge is high only under its filtered line, and the PWU keeps to its bounds. -/

namespace Sys2Proof.Machine

/-- A move that clears no flag, and keeps the acknowledges and the PWU in their invariants. -/
structure Calm (s t : State) : Prop where
  flags : ∀ i, s.sau.flags.getLsbD i = true → t.sau.flags.getLsbD i = true
  acks : AckInv s → AckInv t
  pwu : PwuInv s → PwuInv t

namespace Calm

variable {s t u : State}

theorem trans (a : Calm s t) (b : Calm t u) : Calm s u :=
  ⟨fun i h => b.flags i (a.flags i h), fun h => b.acks (a.acks h), fun h => b.pwu (a.pwu h)⟩

/-- A move that leaves the request lines, the PWU and RSTI#, and clears no flag. -/
theorem of_flags (flags : ∀ i, s.sau.flags.getLsbD i = true → t.sau.flags.getLsbD i = true) (rlu : t.rlu = s.rlu)
    (pwu : t.pwu = s.pwu) (rsti : t.rsti = s.rsti) : Calm s t := by
  refine ⟨flags, fun h => ?_, fun h => ?_⟩
  · unfold AckInv
    rw [rlu]
    exact h
  · unfold PwuInv
    rw [pwu, rsti]
    exact h

theorem of_same (flags : t.sau.flags = s.sau.flags) (rlu : t.rlu = s.rlu) (pwu : t.pwu = s.pwu) (rsti : t.rsti = s.rsti) :
    Calm s t := of_flags (fun _ h => flags ▸ h) rlu pwu rsti

theorem refl (s : State) : Calm s s := of_same rfl rfl rfl rfl

theorem raise (s : State) (f : Flag) : Calm s (s.raise f) :=
  of_flags (fun i h => by rw [State.raise, BitVec.getLsbD_or, h, Bool.true_or]) rfl rfl rfl

/-! ### Requests, job ends -/

theorem refuseSource (s : State) (x : Source) : Calm s (s.refuseSource x) := by
  cases x with
  | line => exact raise s .reqref
  | link | age | full | recovery => exact of_same rfl rfl rfl rfl

theorem commitWhileUnknown (s : State) (x : Source) : Calm s (s.commitWhileUnknown x) := by
  cases x <;> exact of_same rfl rfl rfl rfl

theorem rollbackInScanning (s : State) (x : Source) : Calm s (s.rollbackInScanning x) := by
  cases x <;> exact of_same rfl rfl rfl rfl

theorem commitRequest (s : State) (x : Source) : Calm s (s.commitRequest x) := by
  unfold State.commitRequest
  split <;> try split
  all_goals first
    | exact commitWhileUnknown s x
    | exact refuseSource s x
    | exact of_same rfl rfl rfl rfl

theorem rollbackRequest (s : State) (x : Source) : Calm s (s.rollbackRequest x) := by
  unfold State.rollbackRequest
  split <;> try split
  all_goals first
    | exact rollbackInScanning s x
    | exact refuseSource s x
    | exact of_same rfl rfl rfl rfl

theorem ecTake (s : State) (r : EcRequest) : Calm s (s.ecTake r) := by
  cases r with
  | commit x => exact commitRequest s x
  | rollback x => exact rollbackRequest s x
  | format c =>
    unfold State.ecTake State.formatRequest
    dsimp only
    split <;> try split
    all_goals exact of_same rfl rfl rfl rfl
  | discard =>
    unfold State.ecTake State.discardRequest
    dsimp only
    split <;> exact of_same rfl rfl rfl rfl

theorem ecPost (s : State) (r : EcRequest) : Calm s (s.ecPost r) := by
  unfold State.ecPost
  split
  · exact of_same rfl rfl rfl rfl
  · exact ecTake s r

theorem foldl_ecTake (rs : List EcRequest) (s : State) : Calm s (rs.foldl State.ecTake s) := by
  induction rs generalizing s with
  | nil => exact refl s
  | cons r rs ih => exact (ecTake s r).trans (ih _)

theorem takeDeferred (s : State) : Calm s s.takeDeferred :=
  (of_same rfl rfl rfl rfl : Calm s { s with ec := { s.ec with deferred := [] } }).trans (foldl_ecTake _ _)

theorem postIf (s : State) (rise : Bool) (r : EcRequest) : Calm s (s.postIf rise r) := by
  unfold State.postIf
  split
  · exact ecPost s r
  · exact refl s

theorem serve (s : State) : Calm s s.serve := of_same (by simp) (by simp) (by simp) (State.rsti_of_outer (by simp))

theorem refuseSet (s : State) (set : Sources) : Calm s (s.refuseSet set) := by
  refine of_flags (fun i h => ?_) ?_ ?_ ?_
  · rw [State.refuseSet_eq, BitVec.getLsbD_or, h, Bool.true_or]
  all_goals rw [State.refuseSet_eq]

theorem refuseHeld (s : State) : Calm s s.refuseHeld :=
  ((refuseSet s s.ec.commitSlot).trans (refuseSet _ s.ec.rollbackSlot)).trans (of_same rfl rfl rfl rfl)

theorem ckptNotice (s : State) : Calm s s.ckptNotice := by
  refine ⟨fun _ h => h, fun ⟨ckpt, abrt⟩ => ⟨?_, abrt⟩, id⟩
  rw [State.ckptNotice, RequestLine.complete_eq]
  intro ack
  exact (Bool.or_eq_true _ _ ▸ ack : _ ∨ _).elim ckpt id

theorem abrtNotice (s : State) : Calm s s.abrtNotice := by
  refine ⟨fun _ h => h, fun ⟨ckpt, abrt⟩ => ⟨ckpt, ?_⟩, id⟩
  rw [State.abrtNotice, RequestLine.complete_eq]
  intro ack
  exact (Bool.or_eq_true _ _ ▸ ack : _ ∨ _).elim abrt id

/-- A move made under a condition. -/
theorem ite (p : Prop) [Decidable p] (f : State) (move : Calm s f) : Calm s (if p then f else s) := by
  split
  · exact move
  · exact refl s

theorem commitNotices (s : State) (set : Sources) (e : Epoch) (n : Nat) : Calm s (s.commitNotices set e n) := by
  have line : Calm s (if set.line then s.ckptNotice else s) := ite _ _ (ckptNotice s)
  exact line.trans (ite _ _ (of_same rfl rfl rfl rfl))

theorem rollbackNotices (s : State) (set : Sources) (e : Epoch) (n : Nat) : Calm s (s.rollbackNotices set e n) := by
  have line : Calm s (if set.line then s.abrtNotice else s) := ite _ _ (abrtNotice s)
  unfold State.rollbackNotices
  dsimp only
  generalize (if set.line then s.abrtNotice else s) = a at line ⊢
  have link : Calm a (if set.link then a.respond statusOk (epochPayload e n) else a) :=
    ite _ _ (of_same rfl rfl rfl rfl)
  generalize (if set.link then a.respond statusOk (epochPayload e n) else a) = b at link ⊢
  have age : Calm b (if set.age then { b with tau := b.tau.trigger } else b) := ite _ _ (of_same rfl rfl rfl rfl)
  exact ((line.trans link).trans age).trans (ite _ _ (raise _ .recov))

theorem countRollback (s : State) : Calm s s.countRollback := by
  unfold State.countRollback
  split <;> exact of_same rfl rfl rfl rfl

theorem scanEnds (s : State) : Calm s s.scanEnds := by
  unfold State.scanEnds
  split <;> try split
  · exact serve s
  · exact of_same rfl rfl rfl rfl
  · exact (of_same rfl rfl rfl rfl : Calm s { s with ec := { s.ec with state := .recoveryHold } }).trans (refuseHeld _)

theorem scanBreaks (s : State) : Calm s s.scanBreaks :=
  ((of_same rfl rfl rfl rfl : Calm s { s with ec := { s.ec with state := .broken } }).trans (raise _ .broken)).trans
    (refuseHeld _)

theorem scanStepEnds (s : State) (words : List Word) : Calm s (s.scanStepEnds words) := by
  unfold State.scanStepEnds
  split <;> try split
  · exact scanEnds s
  · exact of_same rfl rfl rfl rfl
  · exact scanBreaks s
  · exact scanBreaks s

theorem headerReadEnds (s : State) (words : List Word) : Calm s (s.headerReadEnds words) := by
  unfold State.headerReadEnds
  split
  · exact of_same rfl rfl rfl rfl
  · exact (of_same rfl rfl rfl rfl : Calm s { s with ec := { s.ec with state := .unformatted } }).trans (refuseHeld _)

theorem restoreBreaks (s : State) : Calm s s.restoreBreaks :=
  (((of_same rfl rfl rfl rfl : Calm s
    { s with ec := { s.ec with state := .broken, inProgress := .empty, commitSlot := .empty } }).trans
      (raise _ .broken)).trans (refuseSet _ _)).trans (refuseSet _ _)

theorem jobEnds (s : State) (k : JobKind) (words : List Word) : Calm s (s.jobEnds k words) := by
  have freed : Calm s { s with mpa := { s.mpa with job := none } } := of_same rfl rfl rfl rfl
  refine freed.trans ?_
  cases k with
  | upRead | upWrite _ | append _ | readRecord => exact of_same rfl rfl rfl rfl
  | headerRead => exact headerReadEnds _ words
  | scanStep => exact scanStepEnds _ words
  | commit base e n =>
    unfold State.jobEnds State.commitCompletes
    refine Calm.trans ?_ (serve _)
    refine Calm.trans ?_ (commitNotices _ _ e n)
    exact of_same rfl rfl rfl rfl
  | restore =>
    unfold State.jobEnds
    dsimp only
    split
    · exact of_same rfl rfl rfl rfl
    · exact restoreBreaks _
  | close e =>
    unfold State.jobEnds State.rollbackCompletes
    refine Calm.trans ?_ (serve _)
    refine Calm.trans ?_ (rollbackNotices _ _ e _)
    refine Calm.trans ?_ (countRollback _)
    exact of_same rfl rfl rfl rfl
  | format c =>
    unfold State.jobEnds State.formatCompletes
    refine Calm.trans ?_ (serve _)
    exact of_same rfl rfl rfl rfl
  | discard base e n =>
    unfold State.jobEnds State.discardCompletes
    refine Calm.trans ?_ (serve _)
    exact of_same rfl rfl rfl rfl

theorem recordJoins (s : State) (r : RecordHead) : Calm s (s.recordJoins r) := by
  rw [State.recordJoins_eq]
  refine of_flags (fun i h => ?_) rfl rfl rfl
  dsimp only
  split
  · rw [BitVec.getLsbD_or, h, Bool.true_or]
  · exact h

theorem opEffects (s : State) (op : WordOp) (j : Job) (word : Option Word) : Calm s (s.opEffects op j word) := by
  unfold State.opEffects
  split <;> try split
  all_goals first
    | exact recordJoins s _
    | exact of_same rfl rfl rfl rfl

theorem completeOp (s : State) (j : Job) (op : WordOp) (rest : List WordOp) (bus : UpstreamBus) :
    Calm s (s.completeOp j op rest bus) := by
  have stored : Calm s (s.storeOp op j bus) := of_same (by simp) (by simp) (by simp) (by simp)
  have done : Calm s (s.opMade j op rest bus) :=
    (stored.trans (opEffects _ op j (op.reads? s))).trans (of_same rfl rfl rfl rfl)
  rw [State.completeOp_eq]
  split
  · exact done.trans (jobEnds _ _ _)
  · exact done

/-! ### The upstream port and the grants -/

theorem retryWaiting (s : State) : Calm s s.retryWaiting := by
  unfold State.retryWaiting
  split <;> exact of_same rfl rfl rfl rfl

theorem strobe (s : State) (u : Strobe) : Calm s (s.strobe u) := by
  unfold State.strobe State.accept
  split <;> try split
  · exact of_same rfl rfl rfl rfl
  · split
    · exact (of_same rfl rfl rfl rfl : Calm s (s.answer .fault)).trans (raise _ .guardFlag)
    · exact of_same rfl rfl rfl rfl
  all_goals exact refl s

theorem findUstb (s : State) : Calm s s.findUstb := by
  unfold State.findUstb
  split
  · exact strobe s _
  · exact refl s

theorem fullCase (s : State) (t : Transaction) : Calm s (s.fullCase t) := by
  have posted : Calm s ((s.raise .jfull).ecPost (.commit .full)) := (raise s .jfull).trans (ecPost _ _)
  unfold State.fullCase State.returnToWaiting
  dsimp only
  split
  · exact (raise s .jfull).trans (of_same rfl rfl rfl rfl)
  · split <;> exact posted.trans (of_same rfl rfl rfl rfl)

theorem grantUp (s : State) : Calm s s.grantUp := by
  have answered (f : Flag) : Calm s ((s.answer .fault).raise f) :=
    (of_same rfl rfl rfl rfl : Calm s (s.answer .fault)).trans (raise _ f)
  unfold State.grantUp State.grantWrite State.grantRead State.grantJournalWrite State.grantJournaling
  repeat' split
  all_goals first
    | exact fullCase s _
    | exact answered _
    | exact of_same rfl rfl rfl rfl

theorem grantEc (s : State) : Calm s s.grantEc := by
  have grant := s.ecGrant_grantEc
  generalize s.grantEc = t at grant
  cases grant <;> exact of_same rfl rfl rfl rfl

theorem grantLk (s : State) : Calm s s.grantLk := by
  unfold State.grantLk
  split <;> try split
  all_goals exact of_same rfl rfl rfl rfl

theorem grantDecision (s : State) : Calm s s.grantDecision := by
  unfold State.grantDecision
  split <;> try split
  case isFalse | h_2 => exact refl s
  case h_1 r _ =>
    have granted : Calm s { s with mpa := s.mpa.grant r } := of_same rfl rfl rfl rfl
    cases r with
    | up => exact granted.trans (grantUp _)
    | ec => exact granted.trans (grantEc _)
    | lk => exact granted.trans (grantLk _)

theorem postHeaderRead (s : State) : Calm s s.postHeaderRead := by
  unfold State.postHeaderRead
  exact ite _ _ (of_same rfl rfl rfl rfl)

/-! ### Time and power -/

theorem fireAgeAction (s : State) : Calm s s.fireAgeAction := by
  have aged := raise s .age
  unfold State.fireAgeAction
  split
  · exact refl s
  · exact aged
  · exact aged.trans (ecPost _ _)
  · exact aged.trans (ecPost _ _)

theorem countTick (s : State) : Calm s s.countTick := by
  have counted : Calm s { s with tau := { s.tau with age := s.tau.age + 1 } } := of_same rfl rfl rfl rfl
  unfold State.countTick
  split
  · dsimp only
    split
    · exact counted.trans (fireAgeAction _)
    · exact counted
  · exact refl s

/-- A state that is not NORMAL asks nothing of the halt condition. -/
theorem pwuInv_of_not_normal (count : s.pwu.releaseCount ≤ releasePeriods) (state : s.pwu.state ≠ .normal) : PwuInv s :=
  ⟨count, fun _ normal => absurd normal state⟩

theorem enterHalted (s : State) : Calm s s.enterHalted :=
  ⟨fun _ h => h, id, fun _ => pwuInv_of_not_normal (Nat.zero_le _) nofun⟩

theorem leaveNormal (s : State) (p : Pwu) (count : p.releaseCount = s.pwu.releaseCount) :
    Calm s ({ s with pwu := p } : State).leaveNormal := by
  have retried : Calm s (s.raise .pfail).retryWaiting := (raise s .pfail).trans (retryWaiting _)
  have same : (({ s with pwu := p } : State).raise .pfail).retryWaiting = { (s.raise .pfail).retryWaiting with pwu := p } := by
    unfold State.retryWaiting
    cases phase : s.upu.phase with
    | waiting t =>
      simp only [State.raise, phase]
      rfl
    | idle | inJob t => simp only [State.raise, phase]
  rw [State.leaveNormal_eq (s := { s with pwu := p }), same]
  refine ⟨retried.flags, retried.acks, fun ⟨bound, _⟩ => ?_⟩
  have bound : p.releaseCount ≤ releasePeriods := count ▸ bound
  show PwuInv { (s.raise .pfail).retryWaiting with pwu := p.left s.mpa.job }
  unfold Pwu.left
  split
  · exact pwuInv_of_not_normal (Nat.zero_le _) nofun
  · exact pwuInv_of_not_normal bound nofun

/-- A halt input that the PWU takes as p, in any state. -/
theorem haltInput (s : State) {p : Pwu} (state : p.state = s.pwu.state) (count : p.releaseCount = s.pwu.releaseCount) :
    Calm s ({ s with pwu := p } : State).haltInput := by
  have bound (h : PwuInv s) : p.releaseCount ≤ releasePeriods := count ▸ h.1
  by_cases rsti : s.rsti = true
  · rw [show ({ s with pwu := p } : State).haltInput = _ from if_pos rsti]
    exact ⟨fun _ h => h, id, fun h => ⟨bound h, fun released => nomatch released.symm.trans rsti⟩⟩
  · obtain ⟨normal, halting, halted⟩ :=
      State.haltInput_cases (s := { s with pwu := p }) (eq_false_of_ne_true rsti)
    cases st : s.pwu.state with
    | normal =>
      rw [normal (state.trans st)]
      exact leaveNormal s p count
    | halting =>
      rw [halting (state.trans st)]
      exact ⟨fun _ h => h, id, fun h => pwuInv_of_not_normal (bound h) (by simp [state, st])⟩
    | halted =>
      rw [halted (state.trans st)]
      exact ⟨fun _ h => h, id, fun _ => pwuInv_of_not_normal (Nat.zero_le _) (by simp [state, st])⟩

theorem compareSupply (s : State) (v : Millivolts) : Calm s (s.compareSupply v) := by
  unfold State.compareSupply
  dsimp only
  split
  · exact haltInput s rfl rfl
  case isFalse noTrip =>
    refine ⟨fun _ h => h, id, fun ⟨bound, clear⟩ => ⟨bound, fun released normal => ?_⟩⟩
    have clear := clear released normal
    simp only [Pwu.haltCondition, Bool.or_eq_false_iff] at clear ⊢
    simp_all

end Calm

end Sys2Proof.Machine
end

