-- ==== Sys2Proof/Proofs/WholeMachine.lean ====
section
/-! PROOFS. The whole machine: flags, acknowledges and PWU through every command; windows, memories and RSTI# through every
command but those that are there to change them. -/

namespace Sys2Proof.Machine

/-! ### Calm commands -/

namespace Calm

variable {s t : State}

theorem settle (s : State) : Calm s s.settle := of_same rfl rfl rfl rfl

theorem collect (s : State) (bytes : List Byte) : Calm s (s.collect bytes) := of_same rfl rfl rfl rfl

theorem writeFrame {addr : BitVec 7} {bytes : List Byte} {k : State → State} (carried : ∀ u, Calm u (k u)) (s : State) :
    Calm s (s.writeFrame addr bytes k) := by
  unfold State.writeFrame
  split <;> try split
  · exact (collect s bytes).trans (carried _)
  · exact (collect s bytes).trans (carried _)
  all_goals exact of_same rfl rfl rfl rfl

theorem command {code : Byte} {n : Nat} {f : LinkFrame} {k : State → State} (carried : ∀ u, Calm u (k u)) (s : State) :
    Calm s (s.settle.command code n f k) := by
  refine (settle s).trans (writeFrame (fun u => ?_) _)
  split
  · exact carried u
  · exact (raise u .lkerr).trans (of_same rfl rfl rfl rfl)

theorem respond (s : State) (status : Byte) (p : List Byte) : Calm s (s.respond status p) := of_same rfl rfl rfl rfl

theorem sample (l : RequestLine) (now : Bool) (h : l.ack = true → l.filtered = true) :
    (l.sample now).ack = true → (l.sample now).filtered = true := by
  unfold RequestLine.sample
  split
  · exact fun ack => ((Bool.and_eq_true _ _).mp ack).2
  · exact h

theorem execSampleInstant {c a first : Bool} (next : execSampleInstant c a first s = .next t) : Calm s t := by
  unfold Machine.execSampleInstant done at next
  dsimp only at next
  have sampled : Calm s { s.settle with rlu := { s.rlu with
      ckpt := s.rlu.ckpt.sample c, abrt := s.rlu.abrt.sample a, sampleCount := 0 } } :=
    ⟨fun _ h => h, fun ⟨ckpt, abrt⟩ => ⟨sample _ c ckpt, sample _ a abrt⟩, id⟩
  split at next
  · cases next
    exact settle s
  · cases next
    split <;> exact (sampled.trans (postIf _ _ _)).trans (postIf _ _ _)

/-- What the release samples: the PWU starts NORMAL only without a halt condition (R153). -/
theorem sampleRelease (s : State) (pins : ReleasePins) : Calm s (s.sampleRelease pins) := by
  have pwu : PwuInv (s.sampleRelease pins) := by
    unfold State.sampleRelease
    dsimp only
    split
    case isTrue halt => exact pwuInv_of_not_normal (Nat.zero_le _) (by simp)
    case isFalse clear => exact ⟨Nat.zero_le _, fun _ _ => eq_false_of_ne_true clear⟩
  refine ⟨fun i h => ?_, fun h => ?_, fun _ => pwu⟩
  · unfold State.sampleRelease
    dsimp only
    split
    · exact (raise _ .pfail).flags i h
    · exact h
  · unfold State.sampleRelease
    dsimp only
    split <;> exact h

theorem linkResetActs (s : State) : Calm s s.linkResetActs := by
  unfold State.linkResetActs
  refine Calm.trans ?_ (findUstb _)
  refine Calm.trans ?_ (postHeaderRead _)
  exact ⟨fun _ h => h, fun _ => ⟨nofun, nofun⟩, id⟩

theorem atJobEnd (s : State) : Calm s s.atJobEnd := by
  have halted : Calm s (if s.haltedDue then s.enterHalted else s) := ite _ _ (enterHalted s)
  exact halted.trans (ite _ _ (linkResetActs _))

theorem returnToNormal {s : State} (counts : s.pwu.counts = true) : Calm s s.returnToNormal := by
  obtain ⟨-, pfail, tripped⟩ := (Pwu.counts_iff _).mp counts
  unfold State.returnToNormal
  refine Calm.trans ?_ (grantDecision _)
  refine Calm.trans ?_ (postHeaderRead _)
  exact ⟨fun _ h => h, id, fun _ => ⟨Nat.le_refl _, fun _ _ => by simp [Pwu.haltCondition, pfail, tripped]⟩⟩

theorem setPolicy (s : State) (mask : Byte) (v : PolicyValues) : Calm s (s.setPolicy mask v) :=
  ⟨fun _ h => h, id, id⟩

/-- Every command but CLEAR_FLAGS and a hardware reset. -/
theorem exec {c : Instr} (noReset : ∀ cause begun bus, c ≠ .hardwareReset cause begun bus) (noClear : ∀ f, c ≠ .clearFlags f)
    (next : exec c s = .next t) : Calm s t := by
  have settled := settle s
  cases c with
  | hardwareReset cause begun bus => exact absurd rfl (noReset cause begun bus)
  | clearFlags f => exact absurd rfl (noClear f)
  | sampleInstant c a first => exact execSampleInstant next
  | resetRelease pins =>
    cases next
    split
    · exact ((settled.trans (sampleRelease _ pins)).trans (postHeaderRead _)).trans (findUstb _)
    · exact settled
  | unknownCommandCode code f =>
    simp only [exec_unknownCommandCode, execUnknownCommandCode] at next
    split at next <;> cases next
    exact settled.trans (writeFrame (fun u => (raise u .lkerr).trans (respond _ _ _)) _)
  | acceptance write burst addr =>
    cases next
    have presented : Calm s (s.settle.present (some ⟨write, burst, addr⟩)) := of_same rfl rfl rfl rfl
    split
    · exact presented
    · exact presented.trans (strobe _ _)
  | jobGrant =>
    cases next
    exact settled.trans (grantDecision _)
  | wordOperationComplete bus =>
    cases next
    have presented : Calm s (s.settle.present bus.ustb) := of_same rfl rfl rfl rfl
    split
    · exact settled
    · dsimp only
      split
      · exact presented.trans (jobEnds _ _ _)
      · exact presented.trans (completeOp _ _ _ _ bus)
  | haltedEntry =>
    cases next
    exact settled.trans (ite _ _ (atJobEnd _))
  | linkResetActs =>
    cases next
    exact settled.trans (ite _ _ (atJobEnd _))
  | deferredRequestTaken =>
    cases next
    exact settled.trans (ite _ _ (takeDeferred _))
  | pfailAsserted =>
    cases next
    exact settled.trans (haltInput _ rfl rfl)
  | pfailDeasserted =>
    cases next
    refine settled.trans ⟨fun _ h => h, id, fun ⟨bound, clear⟩ => ⟨bound, fun released normal => ?_⟩⟩
    have clear := clear released normal
    simp only [Pwu.haltCondition, Bool.or_eq_false_iff] at clear ⊢
    exact ⟨trivial, clear.2⟩
  | monitorTrip v =>
    cases next
    split
    · exact settled.trans (ite _ _ (compareSupply _ v))
    · exact settled
  | monitorClear v =>
    cases next
    split
    · split
      · exact settled
      · exact settled.trans (compareSupply _ v)
    · exact settled
  | returnToNormal =>
    cases next
    split
    case isTrue due =>
      have counts : s.settle.pwu.counts = true := ((Bool.and_eq_true _ _).mp due).1
      exact settled.trans (returnToNormal counts)
    case isFalse => exact settled
  | tick =>
    cases next
    split
    · exact settled
    · exact (of_same rfl rfl rfl rfl : Calm s { s.settle with tau := { s.tau with divCount := 0 } }).trans (countTick _)
  | rstoPulseEnd =>
    cases next
    exact of_same rfl rfl rfl rfl
  | readFrame f =>
    cases next
    split
    · dsimp only
      split
      · split <;> exact of_same rfl rfl rfl rfl
      · exact of_same rfl rfl rfl rfl
    · exact of_same rfl rfl rfl rfl
  | writeFrameAbandoned addr data =>
    cases next
    refine settled.trans (writeFrame (fun u => ?_) _)
    exact (of_same rfl rfl rfl rfl :
      Calm u { u with slk := { u.slk with mailbox := .idle, command := [] } }).trans (raise _ .lkerr)
  | writeFrameNak addr data =>
    cases next
    split
    · split <;> exact of_same rfl rfl rfl rfl
    · exact of_same rfl rfl rfl rfl
  | emptyWriteFrame addr =>
    cases next
    exact of_same rfl rfl rfl rfl
  | commit f =>
    cases next
    exact command (fun u => (of_same rfl rfl rfl rfl : Calm u (u.await .commit)).trans (ecPost _ _)) s
  | rollback f =>
    cases next
    exact command (fun u => (of_same rfl rfl rfl rfl : Calm u (u.await .rollback)).trans (ecPost _ _)) s
  | discard f =>
    cases next
    exact command (fun u => (of_same rfl rfl rfl rfl : Calm u (u.await .discard)).trans (ecPost _ _)) s
  | format f =>
    cases next
    refine command (fun u => ?_) s
    split
    · exact (of_same rfl rfl rfl rfl : Calm u (u.await .format)).trans (ecPost _ _)
    · exact respond _ _ _
  | setPolicy f v =>
    cases next
    refine command (fun u => ?_) s
    dsimp only
    split
    · exact ((setPolicy u _ _).trans (ite _ _ (compareSupply _ v))).trans (respond _ _ _)
    · exact respond _ _ _
  | reset f =>
    cases next
    refine command (fun u => ?_) s
    exact (retryWaiting u).trans (of_same rfl rfl rfl rfl)
  | readRecord f =>
    cases next
    refine command (fun u => ?_) s
    dsimp only
    split <;> exact of_same rfl rfl rfl rfl
  | setWindow f | getWindow f =>
    cases next
    refine command (fun u => ?_) s
    split <;> exact of_same rfl rfl rfl rfl
  | getStatus f | getPolicy f | getStats f | clearStats f | setAlertMask f =>
    cases next
    refine command (fun u => ?_) s
    exact of_same rfl rfl rfl rfl

end Calm

/-! ### Windows, memories and RSTI# -/

/-- The windows, both memories and RSTI#. -/
def State.chips (s : State) : Vector Window 8 × Memory × Memory × Bool := (s.windows, s.dataMem, s.journalMem, s.rsti)

theorem State.chips_of_outer {s t : State} (outer : t.outer = s.outer) : t.chips = s.chips := by
  rw [State.chips, State.windows_of_outer outer, State.dataMem_of_outer outer, State.journalMem_of_outer outer,
    State.rsti_of_outer outer]
  rfl

theorem State.chips_eq_iff {s t : State} : t.chips = s.chips ↔
    t.windows = s.windows ∧ t.dataMem = s.dataMem ∧ t.journalMem = s.journalMem ∧ t.rsti = s.rsti := by
  simp [State.chips]

theorem State.chips_writeFrame {addr : BitVec 7} {bytes : List Byte} {k : State → State}
    (carried : ∀ u, (k u).chips = u.chips) (s : State) : (s.writeFrame addr bytes k).chips = s.chips := by
  unfold State.writeFrame
  split <;> try split
  · exact carried _
  · exact carried _
  all_goals rfl

theorem State.chips_command {code : Byte} {n : Nat} {f : LinkFrame} {k : State → State}
    (carried : ∀ u, (k u).chips = u.chips) (s : State) : (s.settle.command code n f k).chips = s.chips := by
  refine State.chips_writeFrame (s := s.settle) fun u => ?_
  split
  · exact carried u
  · rfl

/-- The commands that no rule has change windows, memories or RSTI#. -/
def OutsideChips (c : Instr) : Prop :=
  (∀ bus, c ≠ .wordOperationComplete bus) ∧ (∀ cause begun bus, c ≠ .hardwareReset cause begun bus) ∧
    (∀ pins, c ≠ .resetRelease pins) ∧ ∀ f, c ≠ .setWindow f

theorem State.rsti_of_chips {s t : State} (same : t.chips = s.chips) : t.rsti = s.rsti := by
  obtain ⟨-, -, -, rsti⟩ := State.chips_eq_iff.mp same
  exact rsti

theorem exec_chips {c : Instr} (outside : OutsideChips c) {s t : State} (next : exec c s = .next t) : t.chips = s.chips := by
  obtain ⟨noOp, noReset, noRelease, noWindow⟩ := outside
  have same {u v : State} (outer : v.outer = u.outer) : v.chips = u.chips := State.chips_of_outer outer
  cases c with
  | wordOperationComplete bus => exact absurd rfl (noOp bus)
  | hardwareReset cause begun bus => exact absurd rfl (noReset cause begun bus)
  | resetRelease pins => exact absurd rfl (noRelease pins)
  | setWindow f => exact absurd rfl (noWindow f)
  | sampleInstant c a first =>
    simp only [exec_sampleInstant, execSampleInstant, done] at next
    split at next
    · cases next
      rfl
    · split at next <;> (cases next; exact same (by simp only [State.outer_postIf]; rfl))
  | unknownCommandCode code f =>
    simp only [exec_unknownCommandCode, execUnknownCommandCode] at next
    split at next <;> cases next
    refine State.chips_writeFrame (s := s.settle) fun u => ?_
    rfl
  | acceptance write burst addr =>
    cases next
    split
    · rfl
    · exact (State.chips_of_outer (State.outer_strobe _ _)).trans rfl
  | jobGrant =>
    cases next
    exact same (State.outer_grantDecision s.settle)
  | haltedEntry | linkResetActs =>
    cases next
    split
    · exact same (State.outer_atJobEnd s.settle)
    · rfl
  | deferredRequestTaken =>
    cases next
    split
    · exact same (State.outer_takeDeferred s.settle)
    · rfl
  | pfailAsserted =>
    cases next
    exact same (State.outer_haltInput { s.settle with pwu := { s.pwu with pfail := true } })
  | pfailDeasserted | rstoPulseEnd | emptyWriteFrame =>
    cases next
    rfl
  | monitorTrip v =>
    cases next
    split <;> try split
    · exact same (State.outer_compareSupply s.settle v)
    all_goals rfl
  | monitorClear v =>
    cases next
    split <;> try split
    · rfl
    · exact same (State.outer_compareSupply s.settle v)
    · rfl
  | returnToNormal =>
    cases next
    split
    · exact same (State.outer_returnToNormal s.settle)
    · rfl
  | tick =>
    cases next
    split
    · rfl
    · exact same (State.outer_countTick { s.settle with tau := { s.tau with divCount := 0 } })
  | readFrame f =>
    cases next
    split
    · dsimp only
      split
      · split <;> rfl
      · rfl
    · rfl
  | writeFrameAbandoned addr data =>
    cases next
    refine State.chips_writeFrame (s := s.settle) fun u => ?_
    rfl
  | writeFrameNak addr data =>
    cases next
    split
    · split <;> rfl
    · rfl
  | commit f | rollback f | discard f =>
    cases next
    refine State.chips_command (fun u => ?_) s
    exact same (State.outer_ecPost _ _)
  | format f =>
    cases next
    refine State.chips_command (fun u => ?_) s
    split
    · exact same (State.outer_ecPost _ _)
    · rfl
  | setPolicy f v =>
    cases next
    refine State.chips_command (fun u => ?_) s
    dsimp only
    split
    · show State.chips (if _ then State.compareSupply _ _ else _) = _
      split
      · exact same (State.outer_compareSupply _ _)
      · rfl
    · rfl
  | reset f =>
    cases next
    refine State.chips_command (fun u => ?_) s
    have retried : u.retryWaiting.chips = u.chips := State.chips_of_outer (State.outer_retryWaiting u)
    exact retried
  | readRecord f =>
    cases next
    refine State.chips_command (fun u => ?_) s
    dsimp only
    split <;> rfl
  | getWindow f =>
    cases next
    refine State.chips_command (fun u => ?_) s
    split <;> rfl
  | getStatus f | getPolicy f | getStats f | clearStats f | setAlertMask f | clearFlags f =>
    cases next
    refine State.chips_command (fun u => ?_) s
    rfl

/-- SET_WINDOW changes the windows and nothing else of these. -/
theorem exec_setWindow_eq (f : LinkFrame) (s : State) : ∃ t, exec (.setWindow f) s = .next t ∧
    t.dataMem = s.dataMem ∧ t.journalMem = s.journalMem ∧ t.rsti = s.rsti ∧
    (t.windows = s.windows ∨ ∃ i w, windowArgs f.args = some (i, w) ∧ t.windows = s.windows.set i w) := by
  refine ⟨_, rfl, ?_⟩
  unfold State.command State.writeFrame
  split
  · have carried (u : State) (chips : u.chips = s.chips) :
        let t := if f.args.length + 1 = 7 then
          (match windowArgs f.args with
            | some (i, w) => { u with windows := u.windows.set i w }.respond statusOk []
            | none => u.respond statusRefusedArg []) else u.refuseLength
        t.dataMem = s.dataMem ∧ t.journalMem = s.journalMem ∧ t.rsti = s.rsti ∧
          (t.windows = s.windows ∨ ∃ i w, windowArgs f.args = some (i, w) ∧ t.windows = s.windows.set i w) := by
      obtain ⟨windows, data, journal, rsti⟩ := State.chips_eq_iff.mp chips
      dsimp only
      split <;> try split
      case h_1 i w args =>
        exact ⟨data, journal, rsti, .inr ⟨i, w, args, congrArg (fun ws => ws.set i w) windows⟩⟩
      all_goals exact ⟨data, journal, rsti, .inl windows⟩
    split
    · exact carried _ rfl
    · exact carried _ rfl
    · exact ⟨rfl, rfl, rfl, .inl rfl⟩
    · exact ⟨rfl, rfl, rfl, .inl rfl⟩
  · exact ⟨rfl, rfl, rfl, .inl rfl⟩

theorem exec_resetRelease_chips {pins : ReleasePins} {s t : State} (next : exec (.resetRelease pins) s = .next t) :
    t.windows = s.windows ∧ t.dataMem = s.dataMem ∧ t.journalMem = s.journalMem ∧ (t.rsti = true → s.rsti = false) := by
  cases next
  split
  · have outer : (((s.settle.sampleRelease pins).postHeaderRead).findUstb).outer = (s.settle.sampleRelease pins).outer := by
      rw [State.outer_findUstb, State.outer_postHeaderRead]
    have sampled : (s.settle.sampleRelease pins).windows = s.windows ∧ (s.settle.sampleRelease pins).dataMem = s.dataMem ∧
        (s.settle.sampleRelease pins).journalMem = s.journalMem ∧ (s.settle.sampleRelease pins).rsti = false := by
      unfold State.sampleRelease
      dsimp only
      split <;> exact ⟨rfl, rfl, rfl, rfl⟩
    obtain ⟨windows, data, journal, rsti⟩ := sampled
    refine ⟨(State.windows_of_outer outer).trans windows, (State.dataMem_of_outer outer).trans data,
      (State.journalMem_of_outer outer).trans journal, fun asserted => ?_⟩
    rw [State.rsti_of_outer outer, rsti] at asserted
    exact nomatch asserted
  case isFalse released => exact ⟨rfl, rfl, rfl, fun _ => eq_false_of_ne_true released⟩

theorem State.completeOp_chips (s : State) (j : Job) (op : WordOp) (rest : List WordOp) (bus : UpstreamBus) :
    (s.completeOp j op rest bus).chips = (s.storeOp op j bus).chips := by
  have made : (s.opMade j op rest bus).chips = (s.storeOp op j bus).chips :=
    State.chips_of_outer (State.outer_opEffects (s.storeOp op j bus) op j (op.reads? s))
  rw [State.completeOp_eq]
  split
  · exact (State.chips_of_outer (State.outer_jobEnds _ _ _)).trans made
  · exact made

/-- A word operation completed: the port's write, if it makes one, and no other change. -/
theorem exec_wordOperationComplete_chips {bus : UpstreamBus} {s t : State}
    (next : exec (.wordOperationComplete bus) s = .next t) :
    t.chips = s.chips ∨ ∃ op j, t.chips = (s.storeOp op j bus).chips := by
  cases next
  split
  · exact .inl rfl
  case h_2 j job =>
    dsimp only
    split
    · exact .inl ((State.chips_of_outer (State.outer_jobEnds _ _ _)).trans rfl)
    case h_2 op rest todo =>
      refine .inr ⟨op, j, (State.completeOp_chips (s.settle.present bus.ustb) j op rest bus).trans ?_⟩
      unfold State.storeOp State.store
      split <;> try split
      all_goals rfl

/-! ### Flags, windows and memories -/

theorem exec_windows {c : Instr} {s t : State} (noReset : ∀ cause begun bus, c ≠ .hardwareReset cause begun bus)
    (noWindow : ∀ f, c ≠ .setWindow f) (next : exec c s = .next t) : t.windows = s.windows := by
  by_cases op : ∃ bus, c = .wordOperationComplete bus
  · obtain ⟨bus, rfl⟩ := op
    rcases exec_wordOperationComplete_chips next with same | ⟨op, j, stored⟩
    · exact (State.chips_eq_iff.mp same).1
    · exact (State.chips_eq_iff.mp stored).1.trans (State.storeOp_windows s op j bus)
  · by_cases release : ∃ pins, c = .resetRelease pins
    · obtain ⟨pins, rfl⟩ := release
      exact (exec_resetRelease_chips next).1
    · push Not at op release
      exact (State.chips_eq_iff.mp (exec_chips ⟨op, noReset, release, noWindow⟩ next)).1

theorem exec_memories {c : Instr} {s t : State} (noReset : ∀ cause begun bus, c ≠ .hardwareReset cause begun bus)
    (noOp : ∀ bus, c ≠ .wordOperationComplete bus) (next : exec c s = .next t) :
    t.dataMem = s.dataMem ∧ t.journalMem = s.journalMem := by
  by_cases window : ∃ f, c = .setWindow f
  · obtain ⟨f, rfl⟩ := window
    obtain ⟨u, eq, data, journal, -⟩ := exec_setWindow_eq f s
    cases eq.symm.trans next
    exact ⟨data, journal⟩
  · by_cases release : ∃ pins, c = .resetRelease pins
    · obtain ⟨pins, rfl⟩ := release
      obtain ⟨-, data, journal, -⟩ := exec_resetRelease_chips next
      exact ⟨data, journal⟩
    · push Not at window release
      obtain ⟨-, data, journal, -⟩ := State.chips_eq_iff.mp (exec_chips ⟨noOp, noReset, release, window⟩ next)
      exact ⟨data, journal⟩

/-- RSTI# is asserted by a hardware reset alone. -/
theorem exec_rsti {c : Instr} {s t : State} (noReset : ∀ cause begun bus, c ≠ .hardwareReset cause begun bus)
    (next : exec c s = .next t) (asserted : t.rsti = true) : s.rsti = true ∨ ∃ pins, c = .resetRelease pins := by
  by_cases release : ∃ pins, c = .resetRelease pins
  · exact .inr release
  refine .inl (?_ : s.rsti = true)
  suffices t.rsti = s.rsti by rw [← this]; exact asserted
  by_cases window : ∃ f, c = .setWindow f
  · obtain ⟨f, rfl⟩ := window
    obtain ⟨u, eq, -, -, rsti, -⟩ := exec_setWindow_eq f s
    cases eq.symm.trans next
    exact rsti
  · by_cases op : ∃ bus, c = .wordOperationComplete bus
    · obtain ⟨bus, rfl⟩ := op
      rcases exec_wordOperationComplete_chips next with same | ⟨op, j, stored⟩
      · exact State.rsti_of_chips same
      · exact (State.rsti_of_chips stored).trans (State.storeOp_rsti s op j bus)
    · push Not at window op release
      exact State.rsti_of_chips (exec_chips ⟨op, noReset, release, window⟩ next)

/-- Settles O45: flags by the calm commands, windows and memories by the commands outside them. -/
theorem flagsWindowsMemoriesChangeOnlyAt : Obligations.FlagsWindowsMemoriesChangeOnlyAt :=
  fun _ _ _ next noReset => ⟨fun noClear => (Calm.exec noReset noClear next).flags,
    fun noWindow => exec_windows noReset noWindow next, fun noOp => exec_memories noReset noOp next⟩

/-! ### The four invariants -/

theorem windowArgs_aligned {args : List Byte} {i : Fin 8} {w : Window} (eq : windowArgs args = some (i, w)) :
    w.base.toNat % (64 * 2 ^ w.sizeCode.val) = 0 := by
  unfold windowArgs at eq
  dsimp only at eq
  split at eq
  · exact nomatch eq
  · split at eq
    · split at eq
      case isTrue ok =>
        cases eq
        rw [BitVec.toNat_ofNat, Nat.mod_eq_of_lt ok.1]
        exact ok.2
      case isFalse => exact nomatch eq
    · exact nomatch eq

theorem WindowInv.of_eq {s t : State} (windows : t.windows = s.windows) (h : WindowInv s) : WindowInv t := by
  unfold WindowInv
  rw [windows]
  exact h

theorem WindowInv.exec {c : Instr} {s t : State} (h : WindowInv s) (next : exec c s = .next t) : WindowInv t := by
  by_cases reset : ∃ cause begun bus, c = .hardwareReset cause begun bus
  · obtain ⟨cause, begun, bus, rfl⟩ := reset
    cases next
    intro i
    show (Vector.replicate 8 Window.reset)[i].base.toNat % _ = 0
    rw [Fin.getElem_fin, Vector.getElem_replicate]
    exact Nat.zero_mod _
  · by_cases window : ∃ f, c = .setWindow f
    · obtain ⟨f, rfl⟩ := window
      obtain ⟨u, eq, -, -, -, windows⟩ := exec_setWindow_eq f s
      cases eq.symm.trans next
      rcases windows with same | ⟨i, w, args, set⟩
      · exact h.of_eq same
      · intro k
        rw [set]
        by_cases here : i = k
        · subst here
          simpa using windowArgs_aligned args
        · have other : i.val ≠ k.val := fun eq => here (Fin.ext eq)
          simpa [Vector.getElem_set, other] using h k
    · push Not at reset window
      exact h.of_eq (exec_windows reset window next)

theorem MemoryInv.exec {c : Instr} {s t : State} (h : MemoryInv s) (next : exec c s = .next t) : MemoryInv t := by
  by_cases reset : ∃ cause begun bus, c = .hardwareReset cause begun bus
  · obtain ⟨cause, begun, bus, rfl⟩ := reset
    cases next
    exact State.memoryInv_cutJob (s.settle.present bus.ustb) cause begun bus h
  · have of_chips {u v : State} (same : v.chips = u.chips) (hu : MemoryInv u) : MemoryInv v := by
      obtain ⟨-, data, journal, -⟩ := State.chips_eq_iff.mp same
      unfold MemoryInv
      rw [data, journal]
      exact hu
    by_cases op : ∃ bus, c = .wordOperationComplete bus
    · obtain ⟨bus, rfl⟩ := op
      rcases exec_wordOperationComplete_chips next with same | ⟨op, j, stored⟩
      · exact of_chips same h
      · exact of_chips stored (State.memoryInv_storeOp s op j bus h)
    · push Not at reset op
      obtain ⟨data, journal⟩ := exec_memories reset op next
      unfold MemoryInv
      rw [data, journal]
      exact h

/-- CLEAR_FLAGS touches neither the request lines nor the PWU. -/
theorem exec_clearFlags_keeps (f : LinkFrame) (s : State) : ∃ t, exec (.clearFlags f) s = .next t ∧ t.rlu = s.rlu ∧
    t.pwu = s.pwu ∧ t.rsti = s.rsti := by
  refine ⟨_, rfl, ?_⟩
  unfold State.command State.writeFrame
  split <;> try split
  · split <;> exact ⟨rfl, rfl, rfl⟩
  · split <;> exact ⟨rfl, rfl, rfl⟩
  all_goals exact ⟨rfl, rfl, rfl⟩

theorem exec_linesPwu {c : Instr} {s t : State} (next : exec c s = .next t) :
    (AckInv s → AckInv t) ∧ (PwuInv s → PwuInv t) := by
  by_cases reset : ∃ cause begun bus, c = .hardwareReset cause begun bus
  · obtain ⟨cause, begun, bus, rfl⟩ := reset
    cases next
    exact ⟨fun _ => ⟨nofun, nofun⟩, fun _ => ⟨Nat.zero_le _, nofun⟩⟩
  · by_cases clear : ∃ f, c = .clearFlags f
    · obtain ⟨f, rfl⟩ := clear
      obtain ⟨u, eq, rlu, pwu, rsti⟩ := exec_clearFlags_keeps f s
      cases eq.symm.trans next
      unfold AckInv PwuInv
      rw [rlu, pwu, rsti]
      exact ⟨id, id⟩
    · push Not at reset clear
      have calm := Calm.exec reset clear next
      exact ⟨calm.acks, calm.pwu⟩

/-- A REFCLK period counts, and the release counter no further than its bound (R146). -/
theorem refclkPeriod_keeps (s : State) : (MemoryInv s → MemoryInv s.refclkPeriod) ∧ (WindowInv s → WindowInv s.refclkPeriod) ∧
    (AckInv s → AckInv s.refclkPeriod) ∧ (PwuInv s → PwuInv s.refclkPeriod) := by
  unfold State.refclkPeriod
  dsimp only
  split
  · exact ⟨id, id, id, id⟩
  · refine ⟨id, id, id, fun ⟨bound, clear⟩ => ?_⟩
    show PwuInv s.settle.countPeriod
    unfold PwuInv
    rw [State.countPeriod_pwu]
    split
    · exact ⟨Nat.min_le_right _ _, clear⟩
    · exact ⟨bound, clear⟩

/-- Settles O52: command by command, and the REFCLK period on an empty queue. -/
theorem memoriesWindowsLinesPwuKept : Obligations.MemoriesWindowsLinesPwuKept := by
  intro s t next
  unfold step at next
  split at next
  case h_1 c rest _ =>
    obtain ⟨acks, pwu⟩ := exec_linesPwu next
    exact ⟨fun h => MemoryInv.exec (s := { s with pending := rest }) h next,
      fun h => WindowInv.exec (s := { s with pending := rest }) h next, acks, pwu⟩
  · cases next
    exact refclkPeriod_keeps s

end Sys2Proof.Machine
end

