-- ==== Sys2Proof/Proofs/Resets.lean ====
section
/-! PROOFS. Hardware reset and its release (section 2.5, R153), the link reset's acting and the entry to HALTED (R32, R145), and
the machine right after reset. -/

namespace Sys2Proof.Machine

/-! ### Hardware reset -/

/-- A cut changes the memories and the count of free values at most. -/
theorem State.cutJob_eq (s : State) (cause : ResetCause) (begun : Bool) (bus : UpstreamBus) :
    s.cutJob cause begun bus = { s with
      dataMem := (s.cutJob cause begun bus).dataMem, journalMem := (s.cutJob cause begun bus).journalMem
      freeCount := (s.cutJob cause begun bus).freeCount } := by
  have stored (w : MemWrite) : s.store w =
      { s with dataMem := (s.store w).dataMem, journalMem := (s.store w).journalMem, freeCount := (s.store w).freeCount } := by
    unfold State.store
    split <;> rfl
  unfold State.cutJob
  split <;> try split
  · split
    · exact stored _
    · unfold State.cutWrite State.store
      dsimp only
      split <;> rfl
    all_goals rfl
  all_goals rfl

/-- The memories after a write, as they are from any state with these memories. -/
theorem State.store_memories {s t : State} (data : t.dataMem = s.dataMem) (journal : t.journalMem = s.journalMem)
    (w : MemWrite) : (t.store w).dataMem = (s.store w).dataMem ∧ (t.store w).journalMem = (s.store w).journalMem := by
  unfold State.store
  split <;> simp [data, journal]

theorem State.cutJob_of_nothing {s : State} {begun : Bool} (nothing : begun = false ∨ s.mpa.job = none)
    (cause : ResetCause) (bus : UpstreamBus) : s.cutJob cause begun bus = s := by
  unfold State.cutJob
  rcases nothing with rfl | free
  · split
    · rename_i begun _
      exact nomatch begun
    all_goals rfl
  · rw [free]
    split
    · rename_i job
      exact nomatch job
    all_goals rfl

theorem State.cutJob_of_progress {s : State} {j : Job} {op : WordOp} {rest : List WordOp} (progress : InProgress s j op rest)
    (cause : ResetCause) (bus : UpstreamBus) : s.cutJob cause true bus = match cause, op.write? j bus with
      | .pin, some w => s.store w
      | .powerOn, some w => s.cutWrite w
      | _, none => s := by
  obtain ⟨job, todo⟩ := progress
  unfold State.cutJob
  rw [job]
  dsimp only
  rw [todo]
  dsimp only
  cases cause <;> cases op.write? j bus <;> rfl

/-- Settles O31: every block's reset value, and the memories by what the cut leaves. -/
theorem hardwareResetValues : Obligations.HardwareResetValues := by
  intro cause begun bus s
  refine ⟨_, rfl, ?_, fun nothing => ?_, fun j op rest progress begins read => ?_,
    fun j op rest w progress begins write pin => ?_, fun j op rest w progress begins write power => ?_⟩
  · rw [State.cutJob_eq]
    have powerOn : (cause == .powerOn) = decide (cause = .powerOn) := by cases cause <;> rfl
    unfold State.resetBlocks
    rw [powerOn]
    rfl
  · rw [State.cutJob_of_nothing (s := s.settle.present bus.ustb) nothing]
    exact ⟨rfl, rfl⟩
  · subst begins
    rw [State.cutJob_of_progress (s := s.settle.present bus.ustb) progress, read]
    cases cause <;> exact ⟨rfl, rfl⟩
  · subst begins pin
    rw [State.cutJob_of_progress (s := s.settle.present bus.ustb) progress, write]
    exact State.store_memories (s := s) (t := s.settle.present bus.ustb) rfl rfl w
  · subst begins power
    rw [State.cutJob_of_progress (s := s.settle.present bus.ustb) progress, write]
    exact ⟨Config.cutWord s.freeCount, State.store_memories (s := s) (t := s.settle.present bus.ustb) rfl rfl _⟩

/-! ### While RSTI# is asserted -/

/-- What HeldInv looks at. -/
theorem HeldInv.of_same {s t : State} (held : HeldInv s) (asserted : s.rsti = true) (phase : t.upu.phase = s.upu.phase)
    (mpa : t.mpa = s.mpa) (ec : t.ec = s.ec) : HeldInv t := by
  intro _
  rw [phase, mpa, ec]
  exact held asserted

/-- Under RSTI# no frame is heard. -/
theorem State.writeFrame_of_asserted {s : State} (asserted : s.rsti = true) (addr : BitVec 7) (bytes : List Byte)
    (k : State → State) : s.writeFrame addr bytes k = s.acknowledge [false] :=
  if_neg (by simp [State.addressed, asserted])

theorem State.haltInput_of_asserted {s : State} (asserted : s.rsti = true) : s.haltInput = s := if_pos asserted

theorem HeldInv.compareSupply {s : State} (held : HeldInv s) (asserted : s.rsti = true) (v : Millivolts) :
    HeldInv (s.compareSupply v) := by
  unfold State.compareSupply
  dsimp only
  split
  · rw [State.haltInput_of_asserted (by exact asserted)]
    exact held
  · exact held

/-- Every command that a hardware reset under way meets leaves the UPU, the MPA and the EC. -/
theorem HeldInv.exec_of_asserted {c : Instr} {s t : State} (held : HeldInv s) (asserted : s.rsti = true)
    (noRelease : ∀ pins, c ≠ .resetRelease pins) (next : exec c s = .next t) : HeldInv t := by
  obtain ⟨idle, mpa, ec⟩ := held asserted
  have free : s.mpa.job = none := by rw [mpa]; rfl
  have deferred : s.ec.deferred = [] := by rw [ec]; rfl
  have settled : HeldInv s.settle := held
  have unheard (a : List Bool) : HeldInv (s.settle.acknowledge a) := held
  cases c with
  | hardwareReset cause begun bus =>
    cases next
    exact fun _ => ⟨rfl, rfl, rfl⟩
  | resetRelease pins => exact absurd rfl (noRelease pins)
  | sampleInstant c a first =>
    cases (if_pos asserted : execSampleInstant c a first s = .next s.settle).symm.trans next
    exact held
  | unknownCommandCode code f =>
    simp only [exec_unknownCommandCode, execUnknownCommandCode] at next
    split at next <;> cases next
    rw [State.writeFrame_of_asserted (by exact asserted)]
    exact unheard _
  | acceptance write burst addr =>
    cases next
    rw [if_pos (by exact asserted)]
    exact held
  | jobGrant =>
    cases next
    have mayNot : s.settle.mayGrant = false := by simp [State.mayGrant, asserted]
    rw [State.grantDecision, mayNot]
    exact held
  | wordOperationComplete bus =>
    cases next
    split
    · exact held
    case h_2 j job => exact nomatch free.symm.trans job
  | haltedEntry =>
    cases next
    rw [if_neg (by simp [State.haltedDue, asserted])]
    exact held
  | linkResetActs =>
    cases next
    rw [if_neg (by simp [State.linkResetDue, asserted])]
    exact held
  | deferredRequestTaken =>
    cases next
    split
    · unfold State.takeDeferred
      rw [State.settle_ec, deferred]
      show HeldInv { s.settle with ec := { s.ec with deferred := [] } }
      rw [← deferred]
      exact held
    · exact held
  | pfailAsserted =>
    cases next
    rw [State.haltInput_of_asserted (by exact asserted)]
    exact held
  | pfailDeasserted | rstoPulseEnd | emptyWriteFrame =>
    cases next
    exact held
  | monitorTrip v =>
    cases next
    split <;> try split
    · exact settled.compareSupply asserted v
    all_goals exact held
  | monitorClear v =>
    cases next
    split <;> try split
    · exact held
    · exact settled.compareSupply asserted v
    · exact held
  | returnToNormal =>
    cases next
    rw [if_neg (by simp [asserted])]
    exact held
  | tick =>
    cases next
    rw [if_pos (by exact asserted)]
    exact held
  | readFrame f =>
    cases next
    rw [if_neg (by simp [State.addressed, asserted])]
    exact held
  | writeFrameNak addr data =>
    cases next
    rw [if_neg (by simp [State.addressed, asserted])]
    exact held
  | writeFrameAbandoned addr data =>
    cases next
    rw [State.writeFrame_of_asserted (by exact asserted)]
    exact unheard _
  | _ =>
    cases next
    unfold State.command
    rw [State.writeFrame_of_asserted (by exact asserted)]
    exact unheard _

theorem HeldInv.step {s t : State} (held : HeldInv s) (next : step s = .next t) : HeldInv t := by
  unfold Machine.step at next
  split at next
  case h_2 =>
    cases next
    unfold State.refclkPeriod
    dsimp only
    split
    · exact held
    case isFalse released => exact fun asserted => absurd asserted released
  case h_1 c rest _ =>
    intro asserted
    by_cases reset : ∃ cause begun bus, c = .hardwareReset cause begun bus
    · obtain ⟨cause, begun, bus, rfl⟩ := reset
      cases next
      exact ⟨rfl, rfl, rfl⟩
    · push Not at reset
      by_cases release : ∃ pins, c = .resetRelease pins
      · obtain ⟨pins, rfl⟩ := release
        have still : ({ s with pending := rest } : State).rsti = false := (exec_resetRelease_chips next).2.2.2 asserted
        cases next
        rw [if_neg (by simpa using still)] at asserted
        exact nomatch still.symm.trans asserted
      · have was := (exec_rsti reset next asserted).resolve_right release
        push Not at release
        exact HeldInv.exec_of_asserted (s := { s with pending := rest }) held was release next asserted

/-! ### The release -/

/-- The monitor at the release: tripped below 2.95 V, clear from 3.00 V (R153). -/
theorem Pwu.trippedAtRelease_eq (p : Pwu) (supply : Millivolts) : p.trippedAtRelease supply =
    decide (supply < 2950 ∨ (supply < 3000 ∧ (p.powerOn = false ∨ p.tripped = true))) := by
  rw [Pwu.trippedAtRelease, monitorAfter_of_level (level := 2950) rfl]
  split
  case isTrue below => simp [below]
  case isFalse above =>
    split
    case isTrue clears =>
      have clears : ¬supply < 3000 := Nat.not_lt.mpr clears
      simp [above, clears]
    case isFalse between =>
      have between : supply < 3000 := Nat.not_le.mp between
      cases powerOn : p.powerOn <;> cases tripped : p.tripped <;> simp [above, between]

/-- A USTB found asserted, answered RETRY. -/
def State.ustbRetried (s : State) : State :=
  { s with upu := { phase := .idle, beat := s.ustb.map (fun _ => { response := some .retry, data := none }) } }

/-- The release of a machine held by RSTI#: sampled, the header read posted, and a USTB answered RETRY. -/
theorem exec_resetRelease_of_held {s : State} (asserted : s.rsti = true) (held : HeldInv s) (p : ReleasePins) :
    exec (.resetRelease p) s = .next (s.settle.sampleRelease p).postHeaderRead.ustbRetried := by
  obtain ⟨idle, mpa, ec⟩ := held asserted
  have upu : (s.settle.sampleRelease p).upu = .reset := by
    unfold State.sampleRelease
    dsimp only
    split <;> exact congrArg (Upu.mk · none) idle
  have state : (s.settle.sampleRelease p).ec.state = .scanning := by
    unfold State.sampleRelease
    dsimp only
    split <;> (show s.ec.state = _; rw [ec]; rfl)
  rw [exec_resetRelease, execResetRelease]
  refine congrArg Host.Outcome.next ((if_pos asserted).trans ?_)
  exact State.findUstb_of_retry ((State.postHeaderRead_upu _).trans upu) (State.retryAtAcceptance_of_scanning
    ((congrArg Ec.state (State.postHeaderRead_ec _)).trans state))

/-- Settles O32: the machine held, and the release by the PWU's inputs. -/
theorem resetRelease : Obligations.ResetRelease := by
  refine ⟨fun s t held next => held.step next, fun p s => ⟨fun released => ?_, fun asserted held => ?_⟩⟩
  · exact congrArg Host.Outcome.next (if_neg (by simp [released]))
  · obtain ⟨idle, mpa, ec⟩ := held asserted
    have unread : s.ec.state = .scanning ∧ s.ec.headerRead = false := by rw [ec]; exact ⟨rfl, rfl⟩
    rw [exec_resetRelease_of_held asserted held]
    refine ⟨fun noPfail clear => ?_, fun halts => ?_⟩
    · have tripped : s.pwu.trippedAtRelease p.supply = false := by
        rw [Pwu.trippedAtRelease_eq]
        exact decide_eq_false clear
      have sampled : s.settle.sampleRelease p = { s.settle with
          rsti := false, ustb := p.ustb, mpa := { s.mpa with mspd := p.mspd }, ec := { s.ec with rcva := p.rcva }
          slk := { s.slk with la := p.la }
          rlu := { s.rlu with ckpt := { s.rlu.ckpt with pin := p.ckpt }, abrt := { s.rlu.abrt with pin := p.abrt } }
          pwu := { s.pwu with state := .normal, pfail := false, tripped := false, releaseCount := 0, powerOn := false } } := by
        unfold State.sampleRelease
        dsimp only [State.settle_pwu]
        rw [tripped, noPfail]
        rfl
      rw [sampled, State.postHeaderRead]
      exact congrArg (fun t : State => Host.Outcome.next t.ustbRetried) (if_pos ⟨unread.1, unread.2, rfl, rfl⟩)
    · have halt : (p.pfail || s.pwu.trippedAtRelease p.supply) = true := by
        rw [Pwu.trippedAtRelease_eq, Bool.or_eq_true, decide_eq_true_iff]
        exact halts
      have sampled : s.settle.sampleRelease p = { s.settle with
          rsti := false, ustb := p.ustb, mpa := { s.mpa with mspd := p.mspd }, ec := { s.ec with rcva := p.rcva }
          slk := { s.slk with la := p.la }
          rlu := { s.rlu with ckpt := { s.rlu.ckpt with pin := p.ckpt }, abrt := { s.rlu.abrt with pin := p.abrt } }
          pwu := { s.pwu with state := .halted, pfail := p.pfail, tripped := s.pwu.trippedAtRelease p.supply
                              releaseCount := 0, powerOn := false }
          sau := { s.sau with flags := s.sau.flags ||| 0b0001000000#10 } } := by
        unfold State.sampleRelease
        dsimp only [State.settle_pwu]
        rw [halt]
        rfl
      rw [sampled, State.postHeaderRead, Pwu.trippedAtRelease_eq]
      exact congrArg (fun t : State => Host.Outcome.next t.ustbRetried) (if_neg fun post => nomatch post.2.2.2)

/-! ### The end of a job seen by the PWU and the link reset -/

/-- What the link reset's acting leaves, block by block (R32). -/
theorem State.linkResetActs_eq {s : State} (released : s.rsti = false) : s.linkResetActs = { s with
      upu := { phase := .idle, beat := s.ustb.map (fun _ => { response := some .retry, data := none }) }
      mpa := { Mpa.reset s.mpa.mspd with ec := decide (s.pwu.state = .normal) }
      ec := .reset s.ec.rcva
      wju := { s.wju with jlt := .empty, sequence := 1 }
      tau := { s.tau with age := 0, running := false }
      rlu := s.rlu.linkReset
      slk := { s.slk with mailbox := .responseReady, response := [0x00], command := [] } } := by
  unfold State.linkResetActs
  rw [State.findUstb_of_retry (by rw [State.postHeaderRead_upu]; rfl)
    (State.retryAtAcceptance_of_scanning (by rw [State.postHeaderRead_ec]; rfl)), State.postHeaderRead_ustb]
  unfold State.postHeaderRead
  by_cases normal : s.pwu.state = .normal
  · rw [if_pos ⟨rfl, rfl, released, normal⟩, decide_eq_true normal]
    rfl
  · rw [if_neg fun post => normal post.2.2.2, decide_eq_false normal]
    rfl

/-- Settles O33: each wait by its conditions, and both at once. -/
theorem haltedEntryAndLinkReset : Obligations.HaltedEntryAndLinkReset := by
  intro s
  have due (reset : s.mpa.linkReset = true) (free : s.mpa.job = none) (released : s.rsti = false) :
      s.settle.linkResetDue = true := by simp [State.linkResetDue, reset, free, released]
  refine ⟨fun ignored => ?_, fun reset free released notHalting => ?_, fun reset free released halting => ?_,
    fun ignored => ?_, fun halting free released noReset => ?_⟩
  · refine congrArg Host.Outcome.next (if_neg fun due => ?_)
    simp only [State.linkResetDue, State.settle_mpa, State.settle_rsti, Bool.and_eq_true, Option.isNone_iff_eq_none,
      Bool.not_eq_true'] at due
    obtain ⟨⟨reset, free⟩, released⟩ := due
    simp_all
  · have still : (if s.settle.haltedDue then s.settle.enterHalted else s.settle) = s.settle :=
      if_neg (by simp [State.haltedDue, notHalting])
    refine congrArg Host.Outcome.next ((if_pos (due reset free released)).trans ?_)
    unfold State.atJobEnd
    rw [still]
    dsimp only
    rw [if_pos (due reset free released), State.linkResetActs_eq (s := s.settle) released]
    rfl
  · have haltedDue : s.settle.haltedDue = true := by simp [State.haltedDue, halting, free, released]
    have acted : s.settle.atJobEnd = s.settle.enterHalted.linkResetActs := by
      unfold State.atJobEnd
      rw [haltedDue]
      exact if_pos (due reset free released)
    have both := State.linkResetActs_eq (s := s.settle.enterHalted) released
    have notNormal : decide (s.pwu.state = .normal) = false := by simp [halting]
    rw [notNormal]
    refine ⟨congrArg Host.Outcome.next ((if_pos (due reset free released)).trans (acted.trans both)),
      congrArg Host.Outcome.next ((if_pos haltedDue).trans (acted.trans both))⟩
  · refine congrArg Host.Outcome.next (if_neg fun due => ?_)
    simp only [State.haltedDue, State.settle_mpa, State.settle_rsti, State.settle_pwu, Bool.and_eq_true,
      Option.isNone_iff_eq_none, Bool.not_eq_true', beq_iff_eq] at due
    obtain ⟨⟨halting, free⟩, released⟩ := due
    simp_all
  · have haltedDue : s.settle.haltedDue = true := by simp [State.haltedDue, halting, free, released]
    refine congrArg Host.Outcome.next ((if_pos haltedDue).trans ?_)
    unfold State.atJobEnd
    rw [haltedDue]
    exact if_neg (by simp [State.linkResetDue, State.enterHalted, noReset])

/-! ### Right after reset -/

theorem jlt_empty_getElem (i : Fin 16) (way : Fin 4) : Jlt.empty[i][way] = none := by
  simp [Jlt.empty]

/-- Settles O60: the invariants at the reset values, on a free port. -/
theorem resetIsInEveryInvariant : Obligations.ResetIsInEveryInvariant := by
  have free : State.reset.mpa.job = none := rfl
  have noJob {p : Job → Prop} : ∀ j, State.reset.mpa.job = some j → p j := fun _ job => nomatch job
  have ring : RingInv State.reset := ringInv_of_free free (ringSize_pos _) (ringSize_pos _) (ringSize_pos _)
  have jobs : JobInv State.reset := jobInv_of_free free
  have windows : WindowInv State.reset := fun i => by
    show (Vector.replicate 8 Window.reset)[i].base.toNat % _ = 0
    rw [Fin.getElem_fin, Vector.getElem_replicate]
    exact Nat.zero_mod _
  have upu : UpuInv State.reset := by simp [UpuInv, State.reset, Upu.reset, Mpa.reset]
  refine ⟨⟨rfl, rfl⟩, windows, ⟨nofun, nofun⟩, ⟨Nat.zero_le _, fun _ _ => rfl⟩, upu, ⟨ring, jobs, fun _ => rfl⟩,
    ⟨jobs, by simp [State.reset, Tau.reset, Ec.reset, EcState.isLive]⟩,
    ⟨jobs, Jlt.ordered_empty, Jlt.count_empty, fun j r job => nomatch job⟩, ?_, ⟨⟨rfl, rfl⟩, ring, jobs, nofun, noJob⟩,
    ⟨⟨rfl, rfl⟩, ring, jobs, fun _ => rfl, fun _ => rfl, fun _ i below => absurd below (Nat.not_lt_zero i), ?_, noJob⟩,
    fun i way l held => ?_, nofun⟩
  · exact ⟨jobs, nofun, rfl, rfl, rfl, fun _ => by
      simp [State.reset, Ec.reset, Sources.empty, Sources.isEmpty, Sources.onlyLine]⟩
  · exact fun span => nomatch span
  · exact nomatch (jlt_empty_getElem i way).symm.trans held

end Sys2Proof.Machine
end

