-- ==== Sys2Proof/Proofs/FormatsAndHeader.lean ====
section
/-! PROOFS. The header (R48, R52, R187), the words of a record (R188, R189), and a format cut by a hardware reset (R138, R139). -/

namespace Sys2Proof.Machine

/-! ### Fields of the header -/

theorem toNat_layoutCode (w : Word) : (layoutCode w).toNat = w.toNat / 256 % 16 := by
  rw [layoutCode, BitVec.extractLsb'_toNat, Nat.shiftRight_eq_div_pow]

theorem toNat_layoutVersion (w : Word) : (layoutVersion w).toNat = w.toNat % 256 := by
  rw [layoutVersion, BitVec.extractLsb'_toNat, Nat.shiftRight_zero]

theorem commitBase_eq (w : Word) : commitBase w = w.toNat % 4096 := by
  rw [commitBase, BitVec.extractLsb'_toNat, Nat.shiftRight_zero]

theorem toNat_commitEpoch (w : Word) : (commitEpoch w).toNat = w.toNat / 4096 % 524288 := by
  rw [commitEpoch, BitVec.extractLsb'_toNat, Nat.shiftRight_eq_div_pow]

theorem layoutVersion_eq_one_iff (w : Word) : layoutVersion w = 1 ↔ w.toNat % 256 = 1 := by
  rw [← BitVec.toNat_inj, toNat_layoutVersion]
  rfl

theorem headerTest_of_valid {layout commit complement : Word} (complementary : complement = ~~~layout)
    (version : layoutVersion layout = 1) {c : Fin 5} (code : (layoutCode layout).toNat = c.val)
    (inRing : commitBase commit < ringSize c) :
    headerTest layout commit complement = some (c, commitBase commit, commitEpoch commit) := by
  have small : (layoutCode layout).toNat < 5 := code ▸ c.isLt
  have same : (⟨(layoutCode layout).toNat, small⟩ : Fin 5) = c := Fin.ext code
  rw [headerTest, dif_pos small]
  dsimp only
  rw [same]
  exact if_pos ⟨complementary, version, inRing⟩

theorem headerTest_eq_some {layout commit complement : Word} {c : Fin 5} {base : Nat} {e : Epoch}
    (valid : headerTest layout commit complement = some (c, base, e)) :
    complement = ~~~layout ∧ layoutVersion layout = 1 ∧ (layoutCode layout).toNat = c.val ∧ base = commitBase commit ∧
      e = commitEpoch commit ∧ base < ringSize c := by
  unfold headerTest at valid
  split at valid
  · dsimp only at valid
    split at valid
    case isTrue tests =>
      cases valid
      exact ⟨tests.1, tests.2.1, rfl, rfl, rfl, tests.2.2⟩
    case isFalse => exact nomatch valid
  · exact nomatch valid

/-- Settles O47: the test read off the words' fields, in both directions. -/
theorem headerTest_iff_fields : Obligations.HeaderTest := by
  intro layout commit complement
  dsimp only
  refine ⟨fun ⟨complementary, version, code, base⟩ => ?_, fun invalid => ?_⟩
  · refine ⟨⟨_, Nat.lt_succ_of_le code⟩, commitEpoch commit, rfl, toNat_commitEpoch commit, ?_⟩
    rw [← commitBase_eq]
    exact headerTest_of_valid complementary ((layoutVersion_eq_one_iff _).mpr version) (toNat_layoutCode layout)
      (commitBase_eq commit ▸ base)
  · cases test : headerTest layout commit complement with
    | none => rfl
    | some header =>
      obtain ⟨c, base, e⟩ := header
      obtain ⟨complementary, version, code, rfl, rfl, inRing⟩ := headerTest_eq_some test
      rw [toNat_layoutCode] at code
      refine absurd ⟨complementary, (layoutVersion_eq_one_iff _).mp version, ?_, ?_⟩ invalid
      · rw [code]
        exact Nat.le_of_lt_succ c.isLt
      · rw [code, ← commitBase_eq]
        exact inRing

/-! ### The stored words -/

theorem toNat_layoutWord (c : Fin 5) : (layoutWord c).toNat = 1 + 256 * c.val := by
  have := c.isLt
  rw [layoutWord, BitVec.toNat_ofNat, Nat.mod_eq_of_lt (by omega)]
  omega

/-- A word of one leading bit, an epoch and a 12-bit field. -/
theorem toNat_epochWord (b : BitVec 1) (e : Epoch) {i : Nat} (small : i < 4096) :
    (b ++ e ++ BitVec.ofNat 12 i : Word).toNat = b.toNat * 2147483648 + e.toNat * 4096 + i := by
  have field : (BitVec.ofNat 12 i).toNat = i := by rw [BitVec.toNat_ofNat, Nat.mod_eq_of_lt small]
  rw [BitVec.toNat_append, BitVec.toNat_append, field, Nat.shiftLeft_eq, Nat.shiftLeft_eq, Nat.mul_comm (b.toNat),
    Nat.mul_comm (2 ^ 19 * b.toNat ||| e.toNat), ← Nat.two_pow_add_eq_or_of_lt e.isLt,
    ← Nat.two_pow_add_eq_or_of_lt (show i < 2 ^ 12 from small)]
  omega

theorem toNat_commitWord (e : Epoch) {base : Nat} (small : base < 4096) :
    (commitWord base e).toNat = e.toNat * 4096 + base := by
  rw [commitWord, toNat_epochWord 0#1 e small]
  simp

theorem commitBase_commitWord (e : Epoch) {base : Nat} (small : base < 4096) : commitBase (commitWord base e) = base := by
  rw [commitBase_eq, toNat_commitWord e small]
  omega

theorem commitEpoch_commitWord (e : Epoch) {base : Nat} (small : base < 4096) : commitEpoch (commitWord base e) = e := by
  have := e.isLt
  rw [← BitVec.toNat_inj, toNat_commitEpoch, toNat_commitWord e small]
  omega

theorem toNat_tagWord (e : Epoch) {i : Nat} (small : i < 4096) :
    (tagWord e i).toNat = 2147483648 + e.toNat * 4096 + i := by
  rw [tagWord, toNat_epochWord 1#1 e small]
  simp

theorem toNat_lineWord (l : Line) : (lineWord l).toNat = l.toNat := by
  have := l.isLt
  rw [lineWord, BitVec.toNat_setWidth, Nat.mod_eq_of_lt (by omega)]

theorem wordLine_lineWord (l : Line) : wordLine (lineWord l) = l := by
  have := l.isLt
  rw [wordLine, ← BitVec.toNat_inj, BitVec.toNat_setWidth, toNat_lineWord, Nat.mod_eq_of_lt (by omega)]

theorem toNat_stampWord (age : BitVec 16) (w : Fin 8) : (stampWord age w).toNat = age.toNat + 65536 * w.val := by
  have := w.isLt
  have field : (BitVec.ofNat 3 w.val).toNat = w.val := by rw [BitVec.toNat_ofNat, Nat.mod_eq_of_lt (by omega)]
  rw [stampWord, BitVec.toNat_append, BitVec.toNat_append, field, Nat.shiftLeft_eq, Nat.mul_comm _ (2 ^ 16),
    ← Nat.two_pow_add_eq_or_of_lt age.isLt]
  simp
  omega

theorem stampAge_stampWord (age : BitVec 16) (w : Fin 8) : stampAge (stampWord age w) = age := by
  have := age.isLt
  rw [← BitVec.toNat_inj, stampAge, BitVec.extractLsb'_toNat, toNat_stampWord, Nat.shiftRight_zero]
  omega

theorem stampWindow_stampWord (age : BitVec 16) (w : Fin 8) : (stampWindow (stampWord age w)).toNat = w.val := by
  have := age.isLt
  have := w.isLt
  rw [stampWindow, BitVec.extractLsb'_toNat, toNat_stampWord, Nat.shiftRight_eq_div_pow]
  omega

/-- The eight words an append writes are good for the epoch and index of its tag. -/
theorem classifySlot_append (e : Epoch) {i : Nat} (small : i < 4096) {r : RecordHead} (tag : r.tag = tagWord e i)
    (o0 o1 o2 o3 : Word) :
    classifySlot e i [r.tag, lineWord r.line, o0, o1, o2, o3, r.stamp, appendCheck r [o0, o1, o2, o3]] = .good := by
  have value : r.tag.toNat = 2147483648 + e.toNat * 4096 + i := by rw [tag, toNat_tagWord e small]
  have := e.isLt
  refine classifySlot_of_goodFor ⟨?_, ?_, ?_, rfl⟩
  · show 2147483648 ≤ r.tag.toNat
    omega
  · show r.tag.toNat / 4096 % 524288 = e.toNat
    omega
  · show r.tag.toNat % 4096 = i
    omega

theorem toNat_slotAddr {slot w : Nat} (inJournal : slot < 4096) (inSlot : w < 8) :
    (slotAddr slot w).toNat = 8 + 8 * slot + w := by
  rw [slotAddr, BitVec.toNat_ofNat, Nat.mod_eq_of_lt (by omega)]

/-- Settles O49: each word's fields by its own lemma. -/
theorem storedWords : Obligations.StoredWords :=
  ⟨toNat_layoutWord, fun e _ small => ⟨toNat_commitWord e small, commitBase_commitWord e small, commitEpoch_commitWord e small⟩,
    fun e _ small => toNat_tagWord e small, fun l => ⟨toNat_lineWord l, wordLine_lineWord l⟩,
    fun age w => ⟨toNat_stampWord age w, stampAge_stampWord age w, stampWindow_stampWord age w⟩,
    fun e _ _ o0 o1 o2 o3 small tag => classifySlot_append e small tag o0 o1 o2 o3,
    fun _ _ inJournal inSlot => toNat_slotAddr inJournal inSlot⟩

/-! ### A format cut between its writes -/

/-- The five writes of a format: word address and word, in order (R138). -/
def formatWrites (c : Fin 5) : List (JournalAddr × Word) :=
  [(layoutAddr, 0), (slotAddr 0 0, 0), (commitAddr, commitWord 0 0), (complementAddr, ~~~(layoutWord c)),
   (layoutAddr, layoutWord c)]

theorem formatOps_eq (c : Fin 5) : formatOps c = (formatWrites c).map fun w => .writeJournal w.1 w.2 := rfl

/-- Journal memory after the first k writes of a format. -/
def formatMem (c : Fin 5) (m : Memory) (k : Nat) : Memory :=
  ((formatWrites c).take k).foldl (fun m w => m.writeWord w.1.toNat 0xF w.2) m

/-- One write more. -/
theorem formatMem_succ (c : Fin 5) (m : Memory) {k : Nat} {a : JournalAddr} {w : Word}
    (next : (formatWrites c)[k]? = some (a, w)) :
    formatMem c m (k + 1) = (formatMem c m k).writeWord a.toNat 0xF w := by
  rw [formatMem, List.take_add_one, next, List.foldl_append]
  rfl

/-- A format job after k of its writes: still in progress below 5, completed at 5. -/
def FormatAt (c : Fin 5) (m : Memory) (k : Nat) (t : State) : Prop :=
  t.journalMem = formatMem c m k ∧
    (k < 5 → t.mpa.job = some { kind := .format c, todo := (formatOps c).drop k, reads := [] }) ∧
    (5 ≤ k → t.mpa.job = none ∧ t.ec.base = 0 ∧ t.ec.usage = 0 ∧ t.ec.epoch = 0 ∧ t.ec.code = c)

theorem formatOps_drop {c : Fin 5} {k : Nat} (more : k < 5) :
    ∃ a w, (formatWrites c)[k]? = some (a, w) ∧
    (formatOps c).drop k = .writeJournal a w :: (formatOps c).drop (k + 1) := by
  rw [formatOps_eq]
  interval_cases k <;> exact ⟨_, _, rfl, rfl⟩

theorem formatOps_drop_eq_nil_iff {c : Fin 5} {k : Nat} : (formatOps c).drop k = [] ↔ 5 ≤ k :=
  List.drop_eq_nil_iff

/-- The completion of a format leaves its code, base and epoch 0, and the port free. -/
theorem formatCompletes_ec (s : State) (c : Fin 5) (reads : List Word) :
    (s.jobEnds (.format c) reads).mpa.job = none ∧ (s.jobEnds (.format c) reads).ec.base = 0 ∧
      (s.jobEnds (.format c) reads).ec.usage = 0 ∧ (s.jobEnds (.format c) reads).ec.epoch = 0 ∧
      (s.jobEnds (.format c) reads).ec.code = c := by
  obtain ⟨t, ended, seen⟩ := s.endsSeen_jobEnds (.format c) reads
  have core := State.core_eq_of_view_eq seen
  generalize s.jobEnds (.format c) reads = u at core ⊢
  obtain ⟨job, -, code, base, usage, epoch, -⟩ := State.core_eq_iff.mp core
  rw [job, code, base, usage, epoch]
  refine ⟨ended.free, ?_⟩
  cases ended with
  | format =>
    have served := State.core_serve ({ s with
      mpa := { s.mpa with job := none }
      ec := { s.ec with code := c } }.openEpoch 0 0).emptyJlt.clearAge
    generalize State.serve _ = v at served ⊢
    rcases served with core | core | core
    all_goals
      obtain ⟨-, -, code, base, usage, epoch, -⟩ := State.core_eq_iff.mp core
      rw [code, base, usage, epoch]
      exact ⟨rfl, rfl, rfl, rfl⟩
  | up up => exact nomatch up

theorem State.jobEnds_journalMem (s : State) (k : JobKind) (reads : List Word) :
    (s.jobEnds k reads).journalMem = s.journalMem := State.journalMem_of_outer (State.outer_jobEnds s k reads)

/-- The completion of one more word operation, if one is still in progress. -/
theorem FormatAt.next {c : Fin 5} {m : Memory} {k : Nat} {s : State} (at_k : FormatAt c m k s) (bus : UpstreamBus) :
    ∃ t, exec (.wordOperationComplete bus) s = .next t ∧ FormatAt c m (min 5 (k + 1)) t := by
  obtain ⟨mem, running, ended⟩ := at_k
  by_cases more : k < 5
  · obtain ⟨a, w, write, drop⟩ := formatOps_drop (c := c) more
    have progress : InProgress s { kind := .format c, todo := (formatOps c).drop k, reads := [] } (.writeJournal a w)
        ((formatOps c).drop (k + 1)) := ⟨running more, drop⟩
    have written : s.journalMem.writeWord a.toNat 0xF w = formatMem c m (k + 1) := by rw [mem, formatMem_succ c m write]
    rw [Nat.min_eq_right more]
    by_cases last : (formatOps c).drop (k + 1) = []
    · have five : 5 ≤ k + 1 := formatOps_drop_eq_nil_iff.mp last
      rw [last] at progress
      refine ⟨_, exec_of_last_writeJournal bus progress nofun, ?_, fun below => absurd five (Nat.not_le.mpr below),
        fun _ => formatCompletes_ec _ c _⟩
      exact (State.jobEnds_journalMem _ _ _).trans written
    · refine ⟨_, exec_of_more_writeJournal bus progress nofun last, written, fun _ => rfl, fun five => ?_⟩
      exact absurd (formatOps_drop_eq_nil_iff.mpr five) last
  · have five : 5 ≤ k := Nat.not_lt.mp more
    obtain ⟨free, ec⟩ := ended five
    have completed : FormatAt c m (min 5 (k + 1)) s.settle := by
      have same : formatMem c m k = formatMem c m 5 := by
        rw [formatMem, formatMem, List.take_of_length_le (by exact five), List.take_of_length_le (by exact Nat.le_refl 5)]
      rw [Nat.min_eq_left (Nat.le_succ_of_le five)]
      exact ⟨mem.trans same, fun below => absurd below (Nat.lt_irrefl 5), fun _ => ⟨free, ec⟩⟩
    refine ⟨s.settle, ?_, completed⟩
    rw [exec_wordOperationComplete, execWordOperationComplete]
    simp only [show s.settle.mpa.job = none from free]
    rfl

/-- So many completions, so many writes, up to the fifth. -/
theorem FormatAt.afterOps {c : Fin 5} {m : Memory} (buses : List UpstreamBus) {k : Nat} {s : State}
    (at_k : FormatAt c m k s) (atMost : k ≤ 5) : FormatAt c m (min 5 (k + buses.length)) (s.afterOps buses) := by
  induction buses generalizing k s with
  | nil => rwa [List.length_nil, Nat.add_zero, Nat.min_eq_right atMost]
  | cons bus rest ih =>
    obtain ⟨t, next, after⟩ := at_k.next bus
    have steps : min 5 (min 5 (k + 1) + rest.length) = min 5 (k + (bus :: rest).length) := by
      rw [List.length_cons]
      omega
    unfold State.afterOps
    rw [next]
    exact steps ▸ ih after (Nat.min_le_left _ _)

theorem State.store_journalWrite (s : State) (a : JournalAddr) (w : Word) :
    s.store (journalWrite a w) = { s with journalMem := s.journalMem.writeWord a.toNat 0xF w } := rfl

/-- What a hardware reset under RSTI# leaves: the write in progress, if it had begun, completes (R33). -/
theorem FormatAt.cut {c : Fin 5} {m : Memory} {k : Nat} {s : State} (at_k : FormatAt c m k s) (atMost : k ≤ 5)
    (begun : Bool) (bus : UpstreamBus) : ∃ t, exec (.hardwareReset .pin begun bus) s = .next t ∧
      t.journalMem = formatMem c m (min 5 (k + if begun then 1 else 0)) := by
  obtain ⟨mem, running, ended⟩ := at_k
  refine ⟨_, rfl, ?_⟩
  show (State.cutJob (s.settle.present bus.ustb) .pin begun bus).journalMem = _
  cases begun with
  | false =>
    rw [State.cutJob_of_nothing (.inl rfl), if_neg (by simp), Nat.add_zero, Nat.min_eq_right atMost]
    exact mem
  | true =>
    rw [if_pos rfl]
    by_cases more : k < 5
    · obtain ⟨a, w, write, drop⟩ := formatOps_drop (c := c) more
      have cut : (s.settle.present bus.ustb).cutJob .pin true bus =
          (s.settle.present bus.ustb).store (journalWrite a w) :=
        State.cutJob_of_progress (s := s.settle.present bus.ustb) ⟨running more, drop⟩ .pin bus
      rw [cut, State.store_journalWrite, Nat.min_eq_right more, formatMem_succ c m write, ← mem]
      rfl
    · have five : k = 5 := Nat.le_antisymm atMost (Nat.not_lt.mp more)
      subst five
      rw [State.cutJob_of_nothing (s := s.settle.present bus.ustb) (.inr (ended (Nat.le_refl 5)).1)]
      exact mem

/-- With the layout word 0 the header is invalid. -/
theorem headerTest_zero (commit complement : Word) : headerTest 0 commit complement = none := by
  cases test : headerTest 0 commit complement with
  | none => rfl
  | some header =>
    obtain ⟨c, base, e⟩ := header
    have version := (headerTest_eq_some test).2.1
    exact absurd version (by decide)

/-- From the first write to the fourth the layout word stands at 0. -/
theorem formatMem_layout {c : Fin 5} {m : Memory} (wf : Memory.wf m = true) {k : Nat} (some : 1 ≤ k) (notAll : k ≤ 4) :
    (formatMem c m k).readWord 0 = 0 := by
  have first : (formatMem c m 1).readWord 0 = 0 := Memory.readWord_writeWord_same m 0 0 wf
  have step {k : Nat} {a : JournalAddr} {w : Word} (write : (formatWrites c)[k]? = Option.some (a, w))
      (other : 0 ≠ a.toNat) (h : (formatMem c m k).readWord 0 = 0) : (formatMem c m (k + 1)).readWord 0 = 0 := by
    rw [formatMem_succ c m write, Memory.readWord_writeWord_other _ _ _ _ _ other]
    exact h
  have second := step (k := 1) rfl (by decide) first
  have third := step (k := 2) rfl (by decide) second
  have fourth := step (k := 3) rfl (by decide) third
  interval_cases k
  · exact first
  · exact second
  · exact third
  · exact fourth

theorem formatMem_all (c : Fin 5) (m : Memory) : formatMem c m 5 =
    ((((m.writeWord 0 0xF 0).writeWord 8 0xF 0).writeWord 1 0xF (commitWord 0 0)).writeWord 2 0xF
      (~~~(layoutWord c))).writeWord 0 0xF (layoutWord c) := by
  have layout : layoutAddr.toNat = 0 := rfl
  have commit : commitAddr.toNat = 1 := rfl
  have complement : complementAddr.toNat = 2 := rfl
  have slot : (slotAddr 0 0).toNat = 8 := rfl
  simp only [formatMem, formatWrites, List.take, List.foldl_cons, List.foldl_nil, layout, commit, complement, slot]

/-- After the fifth write the header is that of the new code, and slot 0 is cleared. -/
theorem formatMem_five {c : Fin 5} {m : Memory} (wf : Memory.wf m = true) :
    (formatMem c m 5).readWord 0 = layoutWord c ∧ (formatMem c m 5).readWord 1 = commitWord 0 0 ∧
      (formatMem c m 5).readWord 2 = ~~~(layoutWord c) ∧ (formatMem c m 5).readWord 8 = 0 := by
  have wf1 := Memory.wf_writeWord m 0 0xF 0 wf
  have wf2 := Memory.wf_writeWord _ 8 0xF 0 wf1
  have wf3 := Memory.wf_writeWord _ 1 0xF (commitWord 0 0) wf2
  have wf4 := Memory.wf_writeWord _ 2 0xF (~~~(layoutWord c)) wf3
  rw [formatMem_all]
  refine ⟨Memory.readWord_writeWord_same _ _ _ wf4, ?_, ?_, ?_⟩
  · rw [Memory.readWord_writeWord_other _ _ _ _ _ (by decide), Memory.readWord_writeWord_other _ _ _ _ _ (by decide)]
    exact Memory.readWord_writeWord_same _ _ _ wf2
  · rw [Memory.readWord_writeWord_other _ _ _ _ _ (by decide)]
    exact Memory.readWord_writeWord_same _ _ _ wf3
  · rw [Memory.readWord_writeWord_other _ _ _ _ _ (by decide), Memory.readWord_writeWord_other _ _ _ _ _ (by decide),
      Memory.readWord_writeWord_other _ _ _ _ _ (by decide)]
    exact Memory.readWord_writeWord_same _ _ _ wf1

theorem headerTest_formatted (c : Fin 5) :
    headerTest (layoutWord c) (commitWord 0 0) (~~~(layoutWord c)) = some (c, 0, 0) := by
  have word := toNat_layoutWord c
  have := c.isLt
  have base := commitBase_commitWord 0 (base := 0) (by decide)
  have epoch := commitEpoch_commitWord 0 (base := 0) (by decide)
  have valid := headerTest_of_valid (layout := layoutWord c) (commit := commitWord 0 0) rfl
    ((layoutVersion_eq_one_iff _).mpr (by omega)) (c := c) (by rw [toNat_layoutCode]; omega)
    (by rw [base]; exact ringSize_pos c)
  rw [base, epoch] at valid
  exact valid

/-- Settles O50: the writes made by then, and what the header test finds in them. -/
theorem formatCutByReset : Obligations.FormatCutByReset := by
  intro s c buses begun bus ⟨_, wf⟩ job
  have start : FormatAt c s.journalMem 0 s := ⟨rfl, fun _ => job, fun five => absurd five (by decide)⟩
  have after := start.afterOps buses (Nat.zero_le 5)
  rw [Nat.zero_add] at after
  obtain ⟨t, next, mem⟩ := after.cut (Nat.min_le_left _ _) begun bus
  have made : min 5 (min 5 buses.length + if begun then 1 else 0) = min 5 (buses.length + if begun then 1 else 0) := by
    omega
  rw [made] at mem
  refine ⟨⟨t, next, ?_⟩, fun five => ?_⟩
  · dsimp only
    rw [mem]
    generalize min 5 (buses.length + if begun then 1 else 0) = k
    refine ⟨fun none => ?_, fun some notAll => ?_, fun all => ?_⟩
    · subst none
      rfl
    · rw [formatMem_layout wf some notAll, headerTest_zero]
    · subst all
      obtain ⟨layout, commit, complement, slot⟩ := formatMem_five (c := c) wf
      rw [layout, commit, complement, slot, headerTest_formatted]
      exact ⟨rfl, rfl⟩
  · rw [five, Nat.min_self] at after
    obtain ⟨-, base, usage, epoch, code⟩ := after.2.2 (Nat.le_refl 5)
    exact ⟨base, usage, epoch, code⟩

end Sys2Proof.Machine
end

