-- ==== Sys2Proof/Proofs/ServiceLink.lean ====
section
/-! PROOFS. The service link (chapter 11): frames, status, statistics, flags and windows, READ_RECORD and RESET. -/

namespace Sys2Proof.Machine

/-! ### Commands answered at once -/

/-- A command frame of the right length, its meaning over the received state. -/
theorem exec_of_command {s : State} {addr : BitVec 7} (ready : LinkReady s addr) {c : Instr} {code : Byte} {n : Nat}
    {args : List Byte} {k : State → State} (meaning : exec c s = .next (s.settle.command code n ⟨addr, args⟩ k))
    (length : args.length + 1 = n) (short : n ≤ 16) : exec c s = .next (k (s.received (code :: args))) := by
  rw [meaning, State.command_of_ready ready length short]

/-! ### READ_RECORD and RESET -/

theorem argValue_two (lo hi : Byte) : argValue [lo, hi] 0 2 = lo.toNat + 256 * hi.toNat := by
  simp [argValue, leValue]

/-- The state in which a granted record read is formed. -/
def State.lkGranted (s : State) : State := { s.settle with mpa := s.mpa.grant .lk }

theorem exec_jobGrant_of_lk {s : State} {offset : Nat} (grants : Grants s .lk)
    (waiting : s.slk.mailbox = .executing (.readRecord offset)) :
    exec .jobGrant s = .next (if offset < s.ec.usage then s.lkGranted.beginJob .readRecord (slotReads (s.ec.slotOf offset))
      else s.lkGranted.respond statusRefusedArg []) := by
  rw [exec_jobGrant, execJobGrant_of_grants grants]
  show Host.Outcome.next s.lkGranted.grantLk = _
  unfold State.grantLk
  rw [show s.lkGranted.slk.mailbox = _ from waiting]
  rfl

/-- Settles O26: the command, its grant, and its job. -/
theorem readRecordReadsTheSlot : Obligations.ReadRecordReadsTheSlot := by
  refine ⟨fun s addr lo hi ready => ?_, fun s offset grants waiting => ?_, fun s j a rest bus kind progress => ?_⟩
  · dsimp only
    rw [← argValue_two]
    have read := exec_of_command ready (c := .readRecord ⟨addr, [lo, hi]⟩) rfl rfl (by decide)
    refine ⟨fun below => read.trans (congrArg Host.Outcome.next (if_pos below)), fun above => ?_⟩
    exact read.trans (congrArg Host.Outcome.next (if_neg (Nat.not_lt.mpr above)))
  · rw [exec_jobGrant_of_lk grants waiting]
    exact ⟨fun below => congrArg Host.Outcome.next (if_pos below),
      fun above => congrArg Host.Outcome.next (if_neg (Nat.not_lt.mpr above))⟩
  · refine ⟨fun more => ?_, fun last => ?_⟩
    · rw [exec_op_of_more bus progress (by simp [kind]) more]
      rfl
    · subst last
      rw [exec_op_of_last bus progress (by simp [kind]), kind]
      show Host.Outcome.next ((s.readEnded bus).respond statusOk (recordPayload _)) = _
      simp only [recordPayload, wordLine, stampAge, stampWindow, BitVec.setWidth_eq_extractLsb' (show 20 ≤ 32 by decide),
        List.append_assoc]
      rfl

/-- Settles O44: with a transaction waiting, and without. -/
theorem resetCommandTaken : Obligations.ResetCommandTaken := by
  intro s addr ustb ready
  have taken := exec_of_command ready (c := .reset ⟨⟨addr, []⟩, ustb⟩) rfl rfl (by decide)
  refine ⟨fun t waiting => ?_, fun other => ?_⟩
  · rw [taken, State.retryWaiting_of_waiting (s := s.received [0x3F]) waiting]
    rfl
  · rw [taken, State.retryWaiting_of_not_waiting (s := s.received [0x3F]) other]
    rfl

/-! ### Read frames -/

theorem map_getD_eq_take (response : List Byte) (count : Nat) :
    (List.range count).map (fun k => response.getD k 0) = (response ++ List.replicate count 0x00).take count := by
  refine List.ext_getElem (by simp) fun k hk _ => ?_
  have small : k < count := by simpa using hk
  simp only [List.getElem_map, List.getElem_range, List.getElem_take, List.getElem_append, List.getElem_replicate,
    List.getD_eq_getElem?_getD]
  split
  case isTrue inside => rw [List.getElem?_eq_getElem inside]; rfl
  case isFalse past => rw [List.getElem?_eq_none (Nat.not_lt.mp past)]; rfl

/-- Settles O38: another address, no response ready, the response returned with or without its consumption. -/
theorem readFrameReturns : Obligations.ReadFrameReturns := by
  intro f s
  refine ⟨fun unheard => ?_, fun released addr => ?_⟩
  · refine congrArg Host.Outcome.next (if_neg fun heard => ?_)
    simp only [State.addressed, State.settle_rsti, State.settle_slk, Bool.and_eq_true, Bool.not_eq_true', beq_iff_eq] at heard
    rcases unheard with asserted | other
    · exact nomatch asserted.symm.trans heard.1
    · exact other heard.2
  · have heard : s.settle.addressed f.addr = true := by simp [State.addressed, released, addr]
    refine ⟨fun notReady => ?_, fun ready inTime => ⟨_, rfl, fun stop whole => ?_, fun notConsumed => ?_⟩⟩
    · refine congrArg Host.Outcome.next ((if_pos heard).trans (if_neg fun both => ?_))
      rcases notReady with busy | late
      · exact busy both.1
      · exact nomatch both.2.symm.trans late
    · rw [← map_getD_eq_take]
      exact congrArg Host.Outcome.next ((if_pos heard).trans ((if_pos ⟨ready, inTime⟩).trans (if_pos ⟨stop, whole⟩)))
    · rw [← map_getD_eq_take]
      refine congrArg Host.Outcome.next ((if_pos heard).trans ((if_pos ⟨ready, inTime⟩).trans (if_neg fun both => ?_)))
      rcases notConsumed with noStop | short
      · exact nomatch noStop.symm.trans both.1
      · exact absurd both.2 (Nat.not_le.mpr short)

/-! ### Status -/

theorem flagMaskBytes_eq (m : BitVec 10) : flagMaskBytes m = leBytes 2 m.toNat := by
  have low : m.setWidth 8 = BitVec.ofNat 8 m.toNat := (BitVec.ofNat_toNat 8 m).symm
  have high : (m.extractLsb' 8 2).setWidth 8 = BitVec.ofNat 8 (m.toNat / 256) := by
    have := m.isLt
    rw [← BitVec.toNat_inj, BitVec.toNat_setWidth, BitVec.extractLsb'_toNat, BitVec.toNat_ofNat, Nat.shiftRight_eq_div_pow]
    omega
  rw [flagMaskBytes, low, high]
  rfl

theorem powerByte_eq (s : State) : s.powerByte = BitVec.ofNat 8 ((match s.pwu.state with
      | .normal => 0
      | .halting => 1
      | .halted => 2) + 4 * s.pwu.pfail.toNat + 8 * s.pwu.tripped.toNat + 16 * s.ec.rcva.toNat
        + 32 * s.tau.running.toNat) := by
  unfold State.powerByte
  cases s.pwu.state <;> cases s.pwu.pfail <;> cases s.pwu.tripped <;> cases s.ec.rcva <;> cases s.tau.running <;> rfl

/-- Settles O40: the record, byte by byte. -/
theorem getStatusReports : Obligations.GetStatusReports := by
  intro s addr ready
  refine (exec_of_command ready (c := .getStatus ⟨addr, []⟩) rfl rfl (by decide)).trans ?_
  show Host.Outcome.next (s.replied 1 0x00 s.statusRecord) = _
  rw [State.statusRecord, powerByte_eq, flagMaskBytes_eq, flagMaskBytes_eq]
  rfl

/-! ### Statistics, flags and the alert -/

theorem State.alrt_iff (s : State) :
    s.alrt = true ↔ ∃ i < 10, s.sau.flags.getLsbD i = true ∧ s.sau.mask.getLsbD i = true := by
  have alert : s.alrt = true ↔ s.sau.flags &&& s.sau.mask ≠ 0#10 := by simp [State.alrt, Sau.alert]
  rw [alert]
  refine ⟨fun some => ?_, fun ⟨i, _, flag, enable⟩ none => ?_⟩
  · by_contra without
    push Not at without
    refine some (BitVec.eq_of_getLsbD_eq fun i inside => ?_)
    have off := without i inside
    rw [BitVec.getLsbD_and, BitVec.getLsbD_zero, Bool.and_eq_false_iff]
    cases flag : s.sau.flags.getLsbD i with
    | false => exact .inl rfl
    | true => exact .inr (eq_false_of_ne_true (off flag))
  · have both : (s.sau.flags &&& s.sau.mask).getLsbD i = true := by rw [BitVec.getLsbD_and, flag, enable]; rfl
    rw [none, BitVec.getLsbD_zero] at both
    exact nomatch both

theorem getLsbD_flagMaskOf (lo hi : Byte) {i : Nat} (inside : i < 10) :
    (flagMaskOf lo hi).getLsbD i = if i < 8 then lo.getLsbD i else hi.getLsbD (i - 8) := by
  rw [flagMaskOf, BitVec.getLsbD_setWidth, BitVec.getLsbD_append]
  simp [inside]

/-- Settles O43: each command's answer, and the flags after a clear. -/
theorem statisticsFlagsAndAlert : Obligations.StatisticsFlagsAndAlert := by
  refine ⟨State.alrt_iff, fun s addr ready => ⟨?_, ?_, fun lo hi => ?_, fun lo hi => ?_⟩⟩
  · exact exec_of_command ready (c := .getStats ⟨addr, []⟩) rfl rfl (by decide)
  · exact exec_of_command ready (c := .clearStats ⟨addr, []⟩) rfl rfl (by decide)
  · refine ⟨flagMaskOf lo hi, ?_, fun i => getLsbD_flagMaskOf lo hi⟩
    exact exec_of_command ready (c := .setAlertMask ⟨addr, [lo, hi]⟩) rfl rfl (by decide)
  · refine ⟨s.sau.flags &&& ~~~(flagMaskOf lo hi), ?_, fun i inside => ?_⟩
    · rw [← flagMaskBytes_eq]
      exact exec_of_command ready (c := .clearFlags ⟨addr, [lo, hi]⟩) rfl rfl (by decide)
    · rw [BitVec.getLsbD_and, BitVec.getLsbD_not, getLsbD_flagMaskOf lo hi inside, decide_eq_true inside, Bool.true_and]

/-! ### Codes of enumerated arguments -/

section
variable {α : Type} (p q r t : α) (x : Byte)

/-- A byte outside a list of codes is above them. -/
theorem le_toNat_of_ne_codes {x : Byte} (n : Nat) (other : ∀ k < n, x ≠ BitVec.ofNat 8 k) : n ≤ x.toNat := by
  by_contra below
  exact other x.toNat (Nat.not_le.mp below) (BitVec.ofNat_toNat 8 x).symm

theorem twoCodes_eq : (if x = 0 then some p else if x = 1 then some q else none) = [p, q][x.toNat]? := by
  by_cases zero : x = 0
  · subst zero
    rfl
  by_cases one : x = 1
  · subst one
    rfl
  · have above : 2 ≤ x.toNat := le_toNat_of_ne_codes 2 fun k small => by interval_cases k <;> assumption
    rw [if_neg zero, if_neg one, List.getElem?_eq_none above]

theorem threeCodes_eq : (if x = 0 then some p else if x = 1 then some q else if x = 2 then some r else none) =
    [p, q, r][x.toNat]? := by
  by_cases zero : x = 0
  · subst zero
    rfl
  by_cases one : x = 1
  · subst one
    rfl
  by_cases two : x = 2
  · subst two
    rfl
  · have above : 3 ≤ x.toNat := le_toNat_of_ne_codes 3 fun k small => by interval_cases k <;> assumption
    rw [if_neg zero, if_neg one, if_neg two, List.getElem?_eq_none above]

theorem fourCodes_eq : (if x = 0 then some p else if x = 1 then some q else if x = 2 then some r
    else if x = 3 then some t else none) = [p, q, r, t][x.toNat]? := by
  by_cases three : x = 3
  · subst three
    rfl
  by_cases zero : x = 0
  · subst zero
    rfl
  by_cases one : x = 1
  · subst one
    rfl
  by_cases two : x = 2
  · subst two
    rfl
  · have above : 4 ≤ x.toNat := le_toNat_of_ne_codes 4 fun k small => by interval_cases k <;> assumption
    rw [if_neg zero, if_neg one, if_neg two, if_neg three, List.getElem?_eq_none above]

/-- A byte below the number of codes names a value, whose code it is. -/
theorem exists_ofCode {ofCode : Byte → Option α} {code : α → Byte} {all : List α}
    (eq : ∀ b, ofCode b = all[b.toNat]?) (codes : all.map code = (List.range all.length).map (BitVec.ofNat 8)) {x : Byte}
    (small : x.toNat < all.length) : ∃ v, ofCode x = some v ∧ code v = x := by
  refine ⟨all[x.toNat], (eq x).trans (List.getElem?_eq_getElem small), ?_⟩
  have at_x : (all.map code)[x.toNat]? = ((List.range all.length).map (BitVec.ofNat 8))[x.toNat]? := by rw [codes]
  rw [List.getElem?_map, List.getElem?_map, List.getElem?_range small, List.getElem?_eq_getElem small] at at_x
  exact (Option.some.inj at_x).trans (BitVec.ofNat_toNat 8 x)

end

/-! ### Windows -/

theorem argValue_three (n m k b0 b1 b2 : Byte) :
    argValue [n, m, k, b0, b1, b2] 3 3 = b0.toNat + 256 * b1.toNat + 65536 * b2.toNat := by
  simp only [argValue, List.drop, List.take, leValue]
  omega

theorem WindowMode.ofCode_eq (b : Byte) : WindowMode.ofCode b = [.off, .opened, .journal, .guarded][b.toNat]? :=
  fourCodes_eq _ _ _ _ b

theorem WindowMode.ofCode_of_lt {m : Byte} (small : m.toNat < 4) : ∃ mode, WindowMode.ofCode m = some mode ∧ mode.code = m :=
  exists_ofCode WindowMode.ofCode_eq (by decide) small

theorem WindowMode.ofCode_of_ge {m : Byte} (large : ¬m.toNat < 4) : WindowMode.ofCode m = none :=
  (WindowMode.ofCode_eq m).trans (List.getElem?_eq_none (Nat.not_lt.mp large))

/-- The arguments of SET_WINDOW that are in range (R37). -/
def WindowArgsOk (n m k : Byte) (base : Nat) : Prop :=
  n.toNat < 8 ∧ m.toNat < 4 ∧ k.toNat < 17 ∧ base < 4194304 ∧ base % (64 * 2 ^ k.toNat) = 0

theorem windowArgs_of_ok {n m k b0 b1 b2 : Byte}
    (ok : WindowArgsOk n m k (b0.toNat + 256 * b1.toNat + 65536 * b2.toNat)) :
    ∃ (i : Fin 8) (w : Window), windowArgs [n, m, k, b0, b1, b2] = some (i, w) ∧ i.val = n.toNat ∧ w.mode.code = m ∧
      w.sizeCode.val = k.toNat ∧ w.base.toNat = b0.toNat + 256 * b1.toNat + 65536 * b2.toNat := by
  obtain ⟨number, modeSmall, size, base, aligned⟩ := ok
  obtain ⟨mode, ofCode, code⟩ := WindowMode.ofCode_of_lt modeSmall
  refine ⟨⟨n.toNat, number⟩, { mode := mode, sizeCode := ⟨k.toNat, size⟩, base := BitVec.ofNat 22 _ }, ?_, rfl, code, rfl,
    (BitVec.toNat_ofNat _ _).trans (Nat.mod_eq_of_lt base)⟩
  unfold windowArgs
  dsimp only
  rw [argValue_three, show WindowMode.ofCode (arg [n, m, k, b0, b1, b2] 1) = some mode from ofCode]
  exact (dif_pos ⟨number, size⟩).trans (if_pos ⟨base, aligned⟩)

theorem windowArgs_of_not_ok {n m k b0 b1 b2 : Byte}
    (notOk : ¬WindowArgsOk n m k (b0.toNat + 256 * b1.toNat + 65536 * b2.toNat)) :
    windowArgs [n, m, k, b0, b1, b2] = none := by
  unfold windowArgs
  dsimp only
  rw [argValue_three]
  by_cases modeSmall : m.toNat < 4
  · obtain ⟨mode, ofCode, -⟩ := WindowMode.ofCode_of_lt modeSmall
    rw [show WindowMode.ofCode (arg [n, m, k, b0, b1, b2] 1) = some mode from ofCode]
    dsimp only
    split
    case isTrue small =>
      exact if_neg fun base => notOk ⟨small.1, modeSmall, small.2, base.1, base.2⟩
    case isFalse => rfl
  · rw [show WindowMode.ofCode (arg [n, m, k, b0, b1, b2] 1) = none from WindowMode.ofCode_of_ge modeSmall]

/-- Settles O41: SET_WINDOW by its checks, GET_WINDOW by its number. -/
theorem windowCommands : Obligations.WindowCommands := by
  intro s addr n m k b0 b1 b2 ready
  have set := exec_of_command ready (c := .setWindow ⟨addr, [n, m, k, b0, b1, b2]⟩) rfl rfl (by decide)
  have get := exec_of_command ready (c := .getWindow ⟨addr, [n]⟩) rfl rfl (by decide)
  refine ⟨fun ok => ?_, fun notOk => ?_, fun i number => ?_, fun above => ?_⟩
  · obtain ⟨i, w, args, number, mode, size, base⟩ := windowArgs_of_ok ok
    refine ⟨i, w, number, mode, size, base, ?_⟩
    rw [set]
    dsimp only
    rw [args]
    rfl
  · rw [set]
    dsimp only
    rw [windowArgs_of_not_ok notOk]
    rfl
  · have small : n.toNat < 8 := number ▸ i.isLt
    refine get.trans (congrArg Host.Outcome.next ((dif_pos small).trans ?_))
    have entry : s.windows[n.toNat] = s.windows[i] := by simp [number]
    show (s.received [0x03, n]).respond statusOk (windowPayload s.windows[n.toNat]) = _
    rw [entry]
    rfl
  · exact get.trans (congrArg Host.Outcome.next (dif_neg (Nat.not_lt.mpr above)))

end Sys2Proof.Machine
end

