-- ==== Sys2Proof/Proofs/PolicyAndFrames.lean ====
section
/-! PROOFS. Frames that are no command, frames as bytes, and the policy commands (sections 11.2 and 11.3, R190). -/

namespace Sys2Proof.Machine

/-! ### Frames that are not taken -/

theorem Slk.toNat_address (l : Slk) : l.address.toNat = 0x58 + l.la.toNat := by
  have := l.la.isLt
  rw [Slk.address, BitVec.toNat_add, BitVec.toNat_setWidth]
  show (0x58 + l.la.toNat % 128) % 128 = _
  omega

theorem State.addressed_eq (s : State) (addr : BitVec 7) :
    s.addressed addr = decide (s.rsti = false ∧ addr = s.slk.address) := by
  rw [State.addressed, Bool.decide_and]
  cases s.rsti <;> rfl

/-- Every write frame with data bytes that ends in STOP is carried out by what becomes of it once collected. -/
theorem exec_of_encodeFrame {c : Instr} {addr : BitVec 7} {code : Byte} {args : List Byte} (wellFormed : c.wellFormed = true)
    (frame : encodeFrame c = some (addr, code :: args)) :
    ∃ k : State → State, ∀ s, exec c s = .next (s.settle.writeFrame addr (code :: args) k) := by
  cases c with
  | unknownCommandCode code f =>
    cases frame
    have unknown : knownCode code = false := by simpa [Instr.wellFormed] using wellFormed
    exact ⟨_, fun s => if_neg (by simp [unknown])⟩
  | emptyWriteFrame a => exact nomatch (Prod.mk.inj (Option.some.inj frame)).2
  | getStatus f | setWindow f | getWindow f | setPolicy f | getPolicy f | commit f | rollback f | discard f | format f
  | readRecord f | getStats f | clearStats f | setAlertMask f | clearFlags f | reset f =>
    cases frame
    exact ⟨_, fun s => rfl⟩
  | _ => exact nomatch frame

theorem State.writeFrame_of_unheard {s : State} {addr : BitVec 7} (unheard : s.rsti = true ∨ addr ≠ s.slk.address)
    (bytes : List Byte) (k : State → State) :
    s.settle.writeFrame addr bytes k = { s.settle with slk := { s.slk with acks := [false] } } := by
  refine if_neg fun heard => ?_
  rw [State.addressed_eq, decide_eq_true_iff] at heard
  rcases unheard with asserted | other
  · exact nomatch asserted.symm.trans heard.1
  · exact other heard.2

/-- A mailbox that refuses every data byte (R173). -/
def Mailbox.refuses (m : Mailbox) : Prop := m = .responseReady ∨ ∃ c, m = .executing c

theorem State.refuseBytes_eq (s : State) (bytes : List Byte) : s.refuseBytes bytes =
    { s with slk := { s.slk with acks := true :: List.replicate bytes.length false } } := by
  rw [State.refuseBytes, List.map_const']
  rfl

theorem State.writeFrame_of_refused {s : State} {addr : BitVec 7} (released : s.rsti = false) (heard : addr = s.slk.address)
    (busy : s.slk.mailbox.refuses) (bytes : List Byte) (k : State → State) :
    s.settle.writeFrame addr bytes k = s.settle.refuseBytes bytes := by
  have addressed : s.settle.addressed addr = true := by
    rw [State.addressed_eq]
    exact decide_eq_true ⟨released, heard⟩
  unfold State.writeFrame
  rw [if_pos addressed]
  rcases busy with ready | ⟨c, executing⟩
  · rw [show s.settle.slk.mailbox = _ from ready]
  · rw [show s.settle.slk.mailbox = _ from executing]

/-- A frame whose length is not its command's: REFUSED_ARG and LKERR. -/
theorem exec_of_wrong_length {s : State} {addr : BitVec 7} (ready : LinkReady s addr) {c : Instr} {code : Byte} {n : Nat}
    {args : List Byte} {k : State → State} (meaning : exec c s = .next (s.settle.command code n ⟨addr, args⟩ k))
    (wrong : args.length + 1 ≠ n) : exec c s = .next (s.settle.collect (code :: args)).refuseLength := by
  rw [meaning, State.command, State.writeFrame_collects ready, if_neg wrong]

/-- Settles O39: frames not heard, refused, abandoned, and of an unknown code or a wrong length. -/
theorem writeFramesNotTaken : Obligations.WriteFramesNotTaken := by
  intro s addr data args code supply ustb
  refine ⟨s.slk.toNat_address, ?_, fun unheard => ?_, fun released heard busy => ?_, fun ready => ?_⟩
  · rw [← State.addressed_eq]
    rfl
  · refine ⟨?_, ?_, fun c wellFormed frame => ?_⟩
    · exact congrArg Host.Outcome.next (State.writeFrame_of_unheard unheard _ _)
    · refine congrArg Host.Outcome.next (if_neg fun heard => ?_)
      rw [State.addressed_eq, decide_eq_true_iff] at heard
      rcases unheard with asserted | other
      · exact nomatch asserted.symm.trans heard.1
      · exact other heard.2
    · obtain ⟨k, meaning⟩ := exec_of_encodeFrame wellFormed frame
      rw [meaning, State.writeFrame_of_unheard unheard]
  · have refused (bytes : List Byte) (k : State → State) := State.writeFrame_of_refused released heard busy bytes k
    dsimp only
    refine ⟨?_, ?_, fun c wellFormed frame => ?_⟩
    · rw [exec_writeFrameAbandoned, execWriteFrameAbandoned, refused, State.refuseBytes_eq]
      rfl
    · have addressed : s.settle.addressed addr = true := by
        rw [State.addressed_eq]
        exact decide_eq_true ⟨released, heard⟩
      rw [exec_writeFrameNak, execWriteFrameNak]
      refine congrArg Host.Outcome.next ((if_pos addressed).trans (Eq.trans ?_ (s.settle.refuseBytes_eq data)))
      rcases busy with ready | ⟨c, executing⟩
      · rw [show s.settle.slk.mailbox = _ from ready]
      · rw [show s.settle.slk.mailbox = _ from executing]
    · obtain ⟨k, meaning⟩ := exec_of_encodeFrame wellFormed frame
      rw [meaning, refused, State.refuseBytes_eq]
      rfl
  · dsimp only
    refine ⟨?_, fun unknown => ?_, fun wrong => ?_, fun wrong => ?_, fun wrong => ?_, fun wrong => ?_, fun wrong => ?_⟩
    · rw [exec_writeFrameAbandoned, execWriteFrameAbandoned, State.writeFrame_collects ready]
      rfl
    · have unknown : knownCode code = false := by
        rw [knownCode, ← Bool.not_eq_true, List.contains_iff_mem]
        exact unknown
      rw [exec_unknownCommandCode, execUnknownCommandCode, unknown, if_neg (by simp), State.writeFrame_collects ready]
      rfl
    · have wrong : args.length + 1 ≠ 1 := fun h => wrong (Nat.succ.inj h)
      simp only [List.forall_mem_cons, List.not_mem_nil, false_imp_iff, implies_true, and_true]
      refine ⟨(exec_of_wrong_length ready (c := .getStatus ⟨addr, args⟩) rfl wrong).trans ?_,
        (exec_of_wrong_length ready (c := .getPolicy ⟨addr, args⟩) rfl wrong).trans ?_,
        (exec_of_wrong_length ready (c := .commit ⟨addr, args⟩) rfl wrong).trans ?_,
        (exec_of_wrong_length ready (c := .rollback ⟨addr, args⟩) rfl wrong).trans ?_,
        (exec_of_wrong_length ready (c := .discard ⟨addr, args⟩) rfl wrong).trans ?_,
        (exec_of_wrong_length ready (c := .getStats ⟨addr, args⟩) rfl wrong).trans ?_,
        (exec_of_wrong_length ready (c := .clearStats ⟨addr, args⟩) rfl wrong).trans ?_,
        (exec_of_wrong_length ready (c := .reset ⟨⟨addr, args⟩, ustb⟩) rfl wrong).trans ?_⟩
      all_goals rfl
    · have wrong : args.length + 1 ≠ 2 := fun h => wrong (Nat.succ.inj h)
      simp only [List.forall_mem_cons, List.not_mem_nil, false_imp_iff, implies_true, and_true]
      refine ⟨(exec_of_wrong_length ready (c := .getWindow ⟨addr, args⟩) rfl wrong).trans ?_,
        (exec_of_wrong_length ready (c := .format ⟨addr, args⟩) rfl wrong).trans ?_⟩
      all_goals rfl
    · have wrong : args.length + 1 ≠ 3 := fun h => wrong (Nat.succ.inj h)
      simp only [List.forall_mem_cons, List.not_mem_nil, false_imp_iff, implies_true, and_true]
      refine ⟨(exec_of_wrong_length ready (c := .readRecord ⟨addr, args⟩) rfl wrong).trans ?_,
        (exec_of_wrong_length ready (c := .setAlertMask ⟨addr, args⟩) rfl wrong).trans ?_,
        (exec_of_wrong_length ready (c := .clearFlags ⟨addr, args⟩) rfl wrong).trans ?_⟩
      all_goals rfl
    · exact (exec_of_wrong_length ready (c := .setWindow ⟨addr, args⟩) rfl fun h => wrong (Nat.succ.inj h)).trans rfl
    · exact (exec_of_wrong_length ready (c := .setPolicy ⟨addr, args⟩ supply) rfl fun h => wrong (Nat.succ.inj h)).trans rfl

/-! ### Frames as bytes -/

theorem leBytes_spec (n v : Nat) (small : v < 256 ^ n) : leValue (leBytes n v) = v ∧ (leBytes n v).length = n := by
  induction n generalizing v with
  | zero =>
    rw [pow_zero, Nat.lt_one_iff] at small
    subst small
    exact ⟨rfl, rfl⟩
  | succ n ih =>
    obtain ⟨value, length⟩ := ih (v / 256) (Nat.div_lt_of_lt_mul (by rw [← pow_succ']; exact small))
    refine ⟨?_, congrArg Nat.succ length⟩
    rw [leBytes, leValue, value, BitVec.toNat_ofNat]
    omega

/-- Settles O51: each row read back from its code, and values from their bytes. -/
theorem framesDecodeToTheirRows : Obligations.FramesDecodeToTheirRows := by
  refine ⟨fun c addr bytes v u wellFormed frame policy reset => ?_, leBytes_spec⟩
  cases c with
  | unknownCommandCode code f =>
    cases frame
    have unknown : knownCode code = false := by simpa [Instr.wellFormed] using wellFormed
    simp [knownCode, commandCodes] at unknown
    simp [decodeFrame, unknown]
  | setPolicy f w =>
    cases frame
    rw [policy f w rfl]
    rfl
  | reset f =>
    cases frame
    rw [← reset f rfl]
    rfl
  | emptyWriteFrame a | getStatus f | setWindow f | getWindow f | getPolicy f | commit f | rollback f | discard f
  | format f | readRecord f | getStats f | clearStats f | setAlertMask f | clearFlags f =>
    cases frame
    rfl
  | _ => exact nomatch frame

/-! ### Policy values -/

theorem FullPolicy.ofCode_eq (b : Byte) : FullPolicy.ofCode b = [.refuse, .autocommit][b.toNat]? := twoCodes_eq _ _ b

theorem TickDivider.ofCode_eq (b : Byte) : TickDivider.ofCode b = [.d32, .d256, .d2048, .d32768][b.toNat]? :=
  fourCodes_eq _ _ _ _ b

theorem AgeAction.ofCode_eq (b : Byte) : AgeAction.ofCode b = [.off, .alert, .commit, .rollback][b.toNat]? :=
  fourCodes_eq _ _ _ _ b

theorem FilterPeriod.ofCode_eq (b : Byte) : FilterPeriod.ofCode b = [.p1, .p8, .p64][b.toNat]? := threeCodes_eq _ _ _ b

theorem RstoWidth.ofCode_eq (b : Byte) : RstoWidth.ofCode b = [.w32, .w256, .w2048][b.toNat]? := threeCodes_eq _ _ _ b

theorem Threshold.ofCode_eq (b : Byte) : Threshold.ofCode b = [.off, .v285, .v295, .v305][b.toNat]? :=
  fourCodes_eq _ _ _ _ b

theorem watermarkOf_isSome (v : Nat) : (watermarkOf v).isSome = true ↔ v < 4096 := by
  unfold watermarkOf
  split
  case isTrue small => exact iff_of_true rfl small
  case isFalse large => exact iff_of_false nofun large

theorem ageLimitOf_isSome (v : Nat) : (ageLimitOf v).isSome = true ↔ v ≠ 0 := by
  unfold ageLimitOf
  split
  case isTrue zero => exact iff_of_false nofun (not_not_intro zero)
  case isFalse nonzero => exact iff_of_true rfl nonzero

/-- A value that is checked only when its select bit is 1. -/
theorem unselected_or_iff (bit ok : Bool) : (!bit || ok) = true ↔ ¬(bit = true ∧ ¬ok = true) := by
  cases bit <;> cases ok <;> simp

theorem getElem?_isSome_iff {α : Type} (l : List α) (i : Nat) : l[i]?.isSome = true ↔ i < l.length := by simp

/-- What a selected setting takes, and one not selected keeps. -/
theorem selected_getD {α : Type} {bit : Bool} {v : Option α} (old : α) {P : α → Prop}
    (ok : bit = true → ∃ x, v = some x ∧ P x) :
    if bit = true then P ((selected bit v).getD old) else (selected bit v).getD old = old := by
  unfold selected
  cases bit with
  | false => exact if_neg Bool.false_ne_true ▸ (rfl : (none : Option α).getD old = old)
  | true =>
    obtain ⟨x, rfl, holds⟩ := ok rfl
    exact if_pos rfl ▸ holds

section
variable (m p w0 w1 d l0 l1 a fp rw th : Byte)

/-- The argument bytes of SET_POLICY (R190). -/
def policyBytes : List Byte := [m, p, w0, w1, d, l0, l1, a, fp, rw, th]

/-- A selected value is out of range (R177). -/
def PolicyBad : Prop :=
  (m.getLsbD 0 = true ∧ 2 ≤ p.toNat) ∨ (m.getLsbD 1 = true ∧ 4096 ≤ w0.toNat + 256 * w1.toNat) ∨
    (m.getLsbD 2 = true ∧ 4 ≤ d.toNat) ∨ (m.getLsbD 3 = true ∧ l0.toNat + 256 * l1.toNat = 0) ∨
    (m.getLsbD 4 = true ∧ 4 ≤ a.toNat) ∨ (m.getLsbD 5 = true ∧ 3 ≤ fp.toNat) ∨ (m.getLsbD 6 = true ∧ 3 ≤ rw.toNat) ∨
    (m.getLsbD 7 = true ∧ 4 ≤ th.toNat)

theorem policyValues_eq : policyValues (policyBytes m p w0 w1 d l0 l1 a fp rw th) =
    { policy := FullPolicy.ofCode p, watermark := watermarkOf (w0.toNat + 256 * w1.toNat), divider := TickDivider.ofCode d
      limit := ageLimitOf (l0.toNat + 256 * l1.toNat), action := AgeAction.ofCode a, period := FilterPeriod.ofCode fp
      width := RstoWidth.ofCode rw, threshold := Threshold.ofCode th } := rfl

theorem policyAccepted_iff : policyAccepted m (policyValues (policyBytes m p w0 w1 d l0 l1 a fp rw th)) = true ↔
    ¬PolicyBad m p w0 w1 d l0 l1 a fp rw th := by
  rw [policyValues_eq, PolicyBad]
  unfold policyAccepted
  simp only [Bool.and_eq_true, unselected_or_iff, watermarkOf_isSome, ageLimitOf_isSome, FullPolicy.ofCode_eq,
    TickDivider.ofCode_eq, AgeAction.ofCode_eq, FilterPeriod.ofCode_eq, RstoWidth.ofCode_eq, Threshold.ofCode_eq,
    getElem?_isSome_iff, List.length_cons, List.length_nil, Nat.not_lt, not_or, and_assoc,
    not_not]

end

/-- The state after a SET_POLICY frame is received and its settings are written, before any compare. -/
theorem State.setPolicy_eq (s : State) (mask : Byte) (v : PolicyValues) {limit : BitVec 16}
    (eq : (selected (mask.getLsbD 3) v.limit).getD s.tau.limit = limit) : s.setPolicy mask v = { s with
      wju := { s.wju with policy := (selected (mask.getLsbD 0) v.policy).getD s.wju.policy
                          watermark := (selected (mask.getLsbD 1) v.watermark).getD s.wju.watermark }
      tau := { s.tau with divider := (selected (mask.getLsbD 2) v.divider).getD s.tau.divider
                          divCount := if mask.getLsbD 2 then 0 else s.tau.divCount
                          limit := limit
                          action := (selected (mask.getLsbD 4) v.action).getD s.tau.action
                          width := (selected (mask.getLsbD 6) v.width).getD s.tau.width }
      rlu := { s.rlu with period := (selected (mask.getLsbD 5) v.period).getD s.rlu.period
                          sampleCount := if mask.getLsbD 5 then 0 else s.rlu.sampleCount }
      pwu := { s.pwu with threshold := (selected (mask.getLsbD 7) v.threshold).getD s.pwu.threshold } } :=
  eq ▸ rfl

theorem selected_ageLimit (bit : Bool) (v : Nat) (old : BitVec 16) (inRange : ¬(bit = true ∧ v = 0)) :
    (selected bit (ageLimitOf v)).getD old = if bit = true then BitVec.ofNat 16 v else old := by
  unfold selected
  split
  case isTrue set => rw [ageLimitOf, if_neg fun zero => inRange ⟨set, zero⟩]; rfl
  case isFalse => rfl

theorem selected_watermark (bit : Bool) (v : Nat) (old : Fin 4096) (inRange : bit = true → v < 4096) :
    if bit = true then ((selected bit (watermarkOf v)).getD old).val = v else (selected bit (watermarkOf v)).getD old = old :=
  selected_getD (P := fun x => x.val = v) old fun set => ⟨⟨v, inRange set⟩, dif_pos _, rfl⟩

theorem respond_if_pos {bit : Bool} (set : bit = true) (t u : State) :
    (Host.Outcome.next ((if bit then t else u).respond 0x00 []) : Out State) = .next (t.respond 0x00 []) := by
  rw [if_pos set]

theorem respond_if_neg {bit : Bool} (unset : ¬bit = true) (t u : State) :
    (Host.Outcome.next ((if bit then t else u).respond 0x00 []) : Out State) = .next (u.respond 0x00 []) := by
  rw [if_neg unset]

/-- A threshold of off never trips, and clears. -/
theorem State.compareSupply_off {s : State} {v : Millivolts} (off : s.pwu.threshold = .off) :
    s.compareSupply v = { s with pwu := { s.pwu with tripped := false } } := by
  unfold State.compareSupply monitorAfter
  rw [off]
  rfl

/-- Settles O42: every selected value is checked, then all are written, and a threshold written compares at once. -/
theorem policyCommands : Obligations.PolicyCommands := by
  intro s addr m p w0 w1 d l0 l1 a fp rw th supply ready
  have set := exec_of_command ready (c := .setPolicy ⟨addr, policyBytes m p w0 w1 d l0 l1 a fp rw th⟩ supply) rfl rfl
    (by decide)
  refine ⟨fun bad => ?_, fun inRange => ?_, exec_of_command ready (c := .getPolicy ⟨addr, []⟩) rfl rfl (by decide)⟩
  · refine set.trans (congrArg Host.Outcome.next (if_neg ?_))
    exact fun accepted => (policyAccepted_iff m p w0 w1 d l0 l1 a fp rw th).mp accepted bad
  · have accepted := (policyAccepted_iff m p w0 w1 d l0 l1 a fp rw th).mpr inRange
    have inRangeOf {k n b : Nat} (h : ¬(m.getLsbD k = true ∧ n ≤ b)) (bit : m.getLsbD k = true) : b < n :=
      Nat.not_le.mp fun large => h ⟨bit, large⟩
    simp only [not_or] at inRange
    obtain ⟨okPolicy, okMark, okDivider, okLimit, okAction, okPeriod, okWidth, okThreshold⟩ := inRange
    replace set := set.trans (congrArg Host.Outcome.next (if_pos accepted))
    have without := fun unset => set.trans (respond_if_neg (bit := m.getLsbD 7) unset _ _)
    have compared := fun bit => set.trans (respond_if_pos (bit := m.getLsbD 7) bit _ _)
    have written := State.setPolicy_eq (s.received (0x04 :: policyBytes m p w0 w1 d l0 l1 a fp rw th)) m
      (policyValues (policyBytes m p w0 w1 d l0 l1 a fp rw th)) (selected_ageLimit _ _ s.tau.limit okLimit)
    rw [policyValues_eq] at written
    simp only [show arg (policyBytes m p w0 w1 d l0 l1 a fp rw th) 0 = m from rfl, policyValues_eq, written] at without compared
    refine ⟨(selected (m.getLsbD 0) (FullPolicy.ofCode p)).getD s.wju.policy,
      (selected (m.getLsbD 1) (watermarkOf (w0.toNat + 256 * w1.toNat))).getD s.wju.watermark,
      (selected (m.getLsbD 2) (TickDivider.ofCode d)).getD s.tau.divider,
      (selected (m.getLsbD 4) (AgeAction.ofCode a)).getD s.tau.action,
      (selected (m.getLsbD 5) (FilterPeriod.ofCode fp)).getD s.rlu.period,
      (selected (m.getLsbD 6) (RstoWidth.ofCode rw)).getD s.tau.width,
      (selected (m.getLsbD 7) (Threshold.ofCode th)).getD s.pwu.threshold, ?_⟩
    refine ⟨selected_getD _ fun bit => exists_ofCode FullPolicy.ofCode_eq (by decide) (inRangeOf okPolicy bit),
      selected_watermark _ _ _ fun bit => inRangeOf okMark bit,
      selected_getD _ fun bit => exists_ofCode TickDivider.ofCode_eq (by decide) (inRangeOf okDivider bit),
      selected_getD _ fun bit => exists_ofCode AgeAction.ofCode_eq (by decide) (inRangeOf okAction bit),
      selected_getD _ fun bit => exists_ofCode FilterPeriod.ofCode_eq (by decide) (inRangeOf okPeriod bit),
      selected_getD _ fun bit => exists_ofCode RstoWidth.ofCode_eq (by decide) (inRangeOf okWidth bit),
      selected_getD _ fun bit => exists_ofCode Threshold.ofCode_eq (by decide) (inRangeOf okThreshold bit), ?_⟩
    have received : (s.received (0x04 :: policyBytes m p w0 w1 d l0 l1 a fp rw th)).pwu = s.pwu := rfl
    rw [received] at without compared
    generalize (selected (m.getLsbD 7) (Threshold.ofCode th)).getD s.pwu.threshold = threshold at without compared ⊢
    refine ⟨without, fun bit off => ?_, fun level bit is => ?_⟩
    · exact (compared bit).trans (by rw [State.compareSupply_off off]; rfl)
    · have trip := tripLevel_eq is
      refine ⟨fun below clear => ?_, fun below tripped => ?_, fun clears => ?_, fun above notCleared => ?_⟩
      · exact (compared bit).trans (by rw [State.compareSupply_below trip below, if_neg (by simp [clear])]; rfl)
      · exact (compared bit).trans (by rw [State.compareSupply_below trip below, if_pos tripped]; rfl)
      · exact (compared bit).trans (by
          rw [State.compareSupply_from trip (Nat.le_of_add_right_le clears), if_pos clears]
          rfl)
      · exact (compared bit).trans (by rw [State.compareSupply_from trip above, if_neg (Nat.not_le.mpr notCleared)]; rfl)

end Sys2Proof.Machine
end

