-- ==== Sys2Proof/Proofs/JournalWrites.lean ====
section
/-! PROOFS. What the word operations of jobs leave in journal memory: the frame of O58 and O59. -/

namespace Sys2Proof.Machine

/-! ### The memories -/

theorem MemoryInv.of_eq {s t : State} (h : MemoryInv s) (data : t.dataMem = s.dataMem) (journal : t.journalMem = s.journalMem) :
    MemoryInv t := by
  unfold MemoryInv
  rw [data, journal]
  exact h

theorem MemoryInv.same {s t : State} (h : MemoryInv s) (core : t.core = s.core) : MemoryInv t := by
  obtain ⟨-, -, -, -, -, -, -, -, -, -, -, data, journal⟩ := State.core_eq_iff.mp core
  exact h.of_eq data journal

/-- No end of a job writes a memory. -/
theorem Ends.memories {s t : State} {k : JobKind} {reads : List Word} (ended : Ends s k reads t) :
    t.dataMem = s.dataMem ∧ t.journalMem = s.journalMem := by
  cases ended with
  | commit | scanServes | close | format | discard =>
    exact ⟨State.dataMem_of_outer (State.outer_serve _), State.journalMem_of_outer (State.outer_serve _)⟩
  | _ => exact ⟨rfl, rfl⟩

theorem memoryInv_tagMade {s : State} {j : Job} {a : JournalAddr} {tag : Word} {rest : List WordOp} {r : RecordHead}
    (_ : InProgress s j (.writeTag a tag) rest) (_ : j.kind = .append r) (h : MemoryInv s) :
    MemoryInv (s.tagMade j r a tag rest) :=
  ⟨h.1, Memory.wf_writeWord s.journalMem a.toNat 0xF tag h.2⟩

theorem memoryInv_kept : CommandsTo (fun _ => True) MemoryInv MemoryInv := CoreTo.commandsTo (unchanged := MemoryInv.same) {
  same := MemoryInv.same
  committing := fun _ _ h => h
  rollingBack := fun _ _ h => h
  formatting := fun _ _ h => h
  upGranted := fun _ _ h => h
  ecGranted := fun _ grant h => by cases grant <;> exact h
  lkGranted := fun _ _ h => h
  completed := completed_of_made_of_ends (G := MemoryInv) (fun h same => h.same (State.core_eq_of_view_eq same)) (fun h => h)
    (made_of_each MemoryInv.same memoryInv_tagMade
      (fun bus _ _ h => State.memoryInv_storeOp _ _ _ bus h))
    (fun _ ended h => h.of_eq ended.memories.1 ended.memories.2)
  ended := fun _ _ ended h => h.of_eq ended.memories.1 ended.memories.2
  reset := fun cause begun bus h => State.memoryInv_cutJob _ cause begun bus h }

/-! ### One word operation -/

section
variable (s : State) (j : Job) (op : WordOp) (rest : List WordOp) (bus : UpstreamBus)

theorem State.otherMade_job : (s.otherMade j op rest bus).mpa.job =
    some { j with todo := j.remaining op rest (s.readsAfter j op) s.ec, reads := s.readsAfter j op } := rfl

/-- An operation writes journal memory at its target alone. -/
theorem WordOp.write?_toJournal {w : MemWrite} (write : op.write? j bus = some w) :
    (w.toJournal = true ∧ ∃ a, op.journalTarget? = some a ∧ w.addr = a.toNat) ∨ w.toJournal = false := by
  cases op with
  | writeBeat | restoreWord => cases write; exact .inr rfl
  | writeJournal a | writeTag a | writeOld a => cases write; exact .inl ⟨rfl, a, rfl, rfl⟩
  | writeCheck a =>
    unfold WordOp.write? at write
    dsimp only at write
    split at write <;> cases write
    exact .inl ⟨rfl, a, rfl, rfl⟩
  | readOld | readBeat | readJournal => exact nomatch write

theorem State.otherMade_readWord {n : Nat} (untouched : ∀ a, op.journalTarget? = some a → n ≠ a.toNat) :
    (s.otherMade j op rest bus).journalMem.readWord n = s.journalMem.readWord n := by
  show (s.storeOp op j bus).journalMem.readWord n = _
  unfold State.storeOp
  split
  case h_2 => rfl
  case h_1 w write =>
    rcases op.write?_toJournal j bus write with ⟨toJournal, a, target, addr⟩ | toData
    · rw [State.store, if_pos toJournal, addr]
      exact Memory.readWord_writeWord_other _ _ _ _ _ (untouched a target)
    · rw [State.store, if_neg (by simp [toData])]

theorem State.otherMade_journalMem {a : JournalAddr} {w : Word} (write : op.write? j bus = some (journalWrite a w)) :
    (s.otherMade j op rest bus).journalMem = s.journalMem.writeWord a.toNat 0xF w := by
  show (s.storeOp op j bus).journalMem = _
  rw [State.storeOp, write]
  exact congrArg State.journalMem (s.store_journalWrite a w)

end

theorem restoreWrites_no_target {reads : List Word} {op : WordOp} (mem : op ∈ restoreWrites reads) : op.journalTarget? = none := by
  simp only [restoreWrites, List.mem_cons, List.not_mem_nil, or_false] at mem
  rcases mem with rfl | rfl | rfl | rfl <;> rfl

/-- What is left to be made was left before, or is a data write of a restore. -/
theorem Job.mem_remaining {j : Job} {op q : WordOp} {rest : List WordOp} {reads : List Word} {e : Ec}
    (mem : q ∈ j.remaining op rest reads e) : q ∈ rest ∨ q.journalTarget? = none := by
  unfold Job.remaining at mem
  split at mem
  · split at mem
    · exact .inr (restoreWrites_no_target mem)
    · exact .inl mem
  · exact .inl mem

theorem slotReads_no_target {slot : Nat} {op : WordOp} (mem : op ∈ slotReads slot) : op.journalTarget? = none := by
  rw [slotReads, List.mem_map] at mem
  obtain ⟨w, -, rfl⟩ := mem
  rfl

theorem headerOps_no_target {op : WordOp} (mem : op ∈ headerOps) : op.journalTarget? = none := by
  simp only [headerOps, List.mem_cons, List.not_mem_nil, or_false] at mem
  rcases mem with rfl | rfl | rfl <;> rfl

theorem Transaction.readOps_no_target {t : Transaction} {op : WordOp} (mem : op ∈ t.readOps) : op.journalTarget? = none := by
  unfold Transaction.readOps Transaction.beats at mem
  split at mem <;> simp only [markFirst, List.map_cons, List.map_nil, List.mem_cons, List.not_mem_nil, or_false] at mem
  · rcases mem with rfl | rfl | rfl | rfl <;> rfl
  · subst mem
    rfl

/-! ### Jobs whose last operation ends them -/

/-- The completion of a word operation where each operation made leads from G to H, a job that goes on from H to P,
and a job that has no operation left ends from H to P. -/
theorem completed_of_made {G H P : State → Prop} (unseen : ∀ {s t : State}, P s → t.view = s.view → P t)
    (made : ∀ {s : State} {j : Job} {op : WordOp} {rest : List WordOp} (bus : UpstreamBus), InProgress s j op rest →
      G s → H (s.opMade j op rest bus))
    (goesOn : ∀ {s : State} {j : Job}, s.mpa.job = some j → j.todo ≠ [] → H s → P s)
    (ends : ∀ {s t : State} {j : Job}, s.mpa.job = some j → j.todo = [] → Ends s j.kind j.reads t → H s → P t)
    {s : State} {j : Job} {op : WordOp} {rest : List WordOp} (bus : UpstreamBus) (progress : InProgress s j op rest)
    (h : G s) : P (s.completeOp j op rest bus) := by
  have after : H (s.opMade j op rest bus) := made bus progress h
  have job := s.opMade_job j op rest bus
  rw [State.completeOp_eq]
  split
  case isTrue last =>
    obtain ⟨u, ended, seen⟩ := (s.opMade j op rest bus).endsSeen_jobEnds j.kind (s.readsAfter j op)
    exact unseen (ends job (List.isEmpty_iff.mp last) ended after) seen
  case isFalse more => exact goesOn job (fun empty => more (List.isEmpty_iff.mpr empty)) after

/-! ### Slots -/

/-- Different indices of the ring are different slots. -/
theorem Ec.slotOf_injective {e : Ec} {i k : Nat} (hi : i < e.size) (hk : k < e.size) (same : e.slotOf i = e.slotOf k) :
    i = k := by
  have cancelled : i ≡ k [MOD e.size] := Nat.ModEq.add_left_cancel' e.base same
  rwa [Nat.ModEq, Nat.mod_eq_of_lt hi, Nat.mod_eq_of_lt hk] at cancelled

theorem Ec.slotOf_lt_journal (e : Ec) (i : Nat) : e.slotOf i < 4096 := Nat.lt_of_lt_of_le (e.slotOf_lt i) (ringSize_le _)

theorem Ec.size_le (e : Ec) : e.size ≤ 4096 := ringSize_le _

theorem slotWords_congr {m n : Memory} {slot : Nat} (same : ∀ w < 8, m.readWord (8 + 8 * slot + w) = n.readWord (8 + 8 * slot + w)) :
    slotWords m slot = slotWords n slot :=
  List.map_congr_left fun w mem => same w (List.mem_range.mp mem)

theorem take_slotWords_succ (m : Memory) (slot : Nat) {k : Nat} (more : k < 8) :
    (slotWords m slot).take (k + 1) = (slotWords m slot).take k ++ [m.readWord (8 + 8 * slot + k)] := by
  rw [slotWords, List.take_add_one, List.getElem?_map, List.getElem?_range more]
  rfl

theorem slotReads_drop {slot k : Nat} (more : k < 8) :
    (slotReads slot).drop k = .readJournal (slotAddr slot k) :: (slotReads slot).drop (k + 1) := by
  have inside : k < (slotReads slot).length := by simpa [slotReads] using more
  rw [List.drop_eq_getElem_cons inside]
  simp [slotReads]

theorem slotReads_drop_eq_nil_iff {slot k : Nat} : (slotReads slot).drop k = [] ↔ 8 ≤ k := by
  simp [slotReads]

end Sys2Proof.Machine
end

