-- ==== Sys2Proof/Proofs/CommitWord.lean ====
section
/-! PROOFS. The commit word (R48, R50, R61): the EC's base and epoch number are those in it whenever the EC holds a journal. -/

namespace Sys2Proof.Machine

/-! ### The parts of the invariant -/

/-- While the EC holds a journal its base and epoch number are those in the commit word. -/
def HoldsAgree (s : State) : Prop := s.ec.holdsJournal = true → CommitAgrees s

/-- Every job in progress has what is left of its plan. -/
def CommitPlans (s : State) : Prop := ∀ j, s.mpa.job = some j → CommitPlan s j

/-- What stands once a job's last word operation has completed: its commit word is written, or its header is read. -/
def CommitDone (s : State) (j : Job) : Prop :=
  match j.kind with
  | .commit base epoch _ | .discard base epoch _ => s.journalMem.readWord 1 = commitWord base epoch
  | .close epoch => s.journalMem.readWord 1 = commitWord s.ec.base epoch
  | .format _ => s.journalMem.readWord 1 = 0
  | .headerRead => j.reads = [s.journalMem.readWord 0, s.journalMem.readWord 1, s.journalMem.readWord 2]
  | .scanStep => s.ec.headerRead = true ∧ HoldsAgree s
  | .upRead | .upWrite _ | .append _ | .restore | .readRecord => HoldsAgree s

/-- A job whose operations are all made is done, and any other goes on by its plan. -/
def CommitLeft (s : State) (j : Job) : Prop := if j.todo = [] then CommitDone s j else HoldsAgree s ∧ CommitPlan s j

/-- The invariant with a word operation just made. -/
def CommitMade (s : State) : Prop := RingInv s ∧ JobInv s ∧ ∀ j, s.mpa.job = some j → CommitLeft s j

theorem commitLeft_of_last {s : State} {j : Job} (last : j.todo = []) (completed : CommitDone s j) : CommitLeft s j := by
  rw [CommitLeft, if_pos last]
  exact completed

theorem commitLeft_of_more {s : State} {j : Job} (more : j.todo ≠ []) (agree : HoldsAgree s) (plan : CommitPlan s j) :
    CommitLeft s j := by
  rw [CommitLeft, if_neg more]
  exact ⟨agree, plan⟩

theorem CommitAgrees.of_eq {s t : State} (h : CommitAgrees s) (base : t.ec.base = s.ec.base) (epoch : t.ec.epoch = s.ec.epoch)
    (word : t.journalMem.readWord 1 = s.journalMem.readWord 1) : CommitAgrees t := by
  unfold CommitAgrees
  rw [base, epoch, word]
  exact h

theorem HoldsAgree.of_eq {s t : State} (h : HoldsAgree s) (state : t.ec.state = s.ec.state) (read : t.ec.headerRead = s.ec.headerRead)
    (base : t.ec.base = s.ec.base) (epoch : t.ec.epoch = s.ec.epoch)
    (word : t.journalMem.readWord 1 = s.journalMem.readWord 1) : HoldsAgree t := by
  intro holds
  refine (h ?_).of_eq base epoch word
  unfold Ec.holdsJournal at holds ⊢
  rw [state, read] at holds
  exact holds

theorem holdsAgree_of_not_holds {s : State} (not : s.ec.holdsJournal = false) : HoldsAgree s :=
  fun holds => nomatch not.symm.trans holds

/-- The commit word as it was written for a new epoch. -/
theorem commitAgrees_of_word {s : State} {base : Nat} {e : Epoch} (small : base < 4096)
    (word : s.journalMem.readWord 1 = commitWord base e) (hb : s.ec.base = base) (he : s.ec.epoch = e) : CommitAgrees s := by
  unfold CommitAgrees
  rw [word, hb, he]
  exact ⟨commitBase_commitWord e small, commitEpoch_commitWord e small⟩

theorem CommitPlan.of_eq {s t : State} {j : Job} (plan : CommitPlan s j) (base : t.ec.base = s.ec.base)
    (read : t.ec.headerRead = s.ec.headerRead) (mem : t.journalMem = s.journalMem)
    (state : s.ec.state = .formatting → t.ec.state = .formatting) : CommitPlan t j := by
  unfold CommitPlan at plan ⊢
  rw [base, read, mem]
  cases kind : j.kind <;> rw [kind] at plan <;> try exact plan
  exact ⟨state plan.1, plan.2⟩

/-- What O58 says of a state, the memories, the ring and the EC state apart. -/
def CommitKept (s : State) : Prop := HoldsAgree s ∧ CommitPlans s

theorem CommitKept.same {s t : State} (h : CommitKept s) (core : t.core = s.core) : CommitKept t := by
  obtain ⟨agree, plans⟩ := h
  obtain ⟨job, state, -, base, -, epoch, -, read, -, -, -, -, journal⟩ := State.core_eq_iff.mp core
  exact ⟨agree.of_eq state read base epoch (by rw [journal]),
    fun j held => (plans j (job ▸ held)).of_eq base read journal fun h => state.trans h⟩

theorem commitKept_of_free {s : State} (free : s.mpa.job = none) (agree : HoldsAgree s) : CommitKept s :=
  ⟨agree, fun _ job => nomatch free.symm.trans job⟩

theorem CommitWordInv.kept {s : State} (h : CommitWordInv s) : CommitKept s := by
  obtain ⟨-, -, -, kept⟩ := h
  exact kept

theorem CommitWordInv.agree {s : State} (h : CommitWordInv s) : HoldsAgree s := h.kept.1

/-- A change of EC state out of one that is not FORMATTING. -/
theorem CommitKept.into {s t : State} (h : CommitKept s) (job : t.mpa.job = s.mpa.job) (base : t.ec.base = s.ec.base)
    (read : t.ec.headerRead = s.ec.headerRead) (mem : t.journalMem = s.journalMem) (state : s.ec.state ≠ .formatting)
    (agree : HoldsAgree t) : CommitKept t :=
  ⟨agree, fun j held => (h.2 j (job ▸ held)).of_eq base read mem fun h => absurd h state⟩

/-! ### Ends of jobs -/

theorem HoldsAgree.same {s t : State} (h : HoldsAgree s) (core : t.core = s.core) : HoldsAgree t := by
  obtain ⟨-, state, -, base, -, epoch, -, read, -, -, -, -, journal⟩ := State.core_eq_iff.mp core
  exact h.of_eq state read base epoch (by rw [journal])

theorem holdsAgree_serve {s : State} (agrees : CommitAgrees s) : HoldsAgree s.serve :=
  serve_of_each HoldsAgree.same (fun _ => agrees) (fun _ => agrees) (fun _ => agrees)

theorem holdsAgree_ends {s t : State} {j : Job} (job : s.mpa.job = some j) (last : j.todo = [])
    (ended : Ends s j.kind j.reads t) (h : CommitMade s) : HoldsAgree t := by
  obtain ⟨⟨inRing, -, -, values⟩, fits, left⟩ := h
  have values := values j job
  have fits := fits j job
  have completed := left j job
  rw [CommitLeft, if_pos last] at completed
  have small {b : Nat} (inRing : b < s.ec.size) : b < 4096 := Nat.lt_of_lt_of_le inRing s.ec.size_le
  have scanned (state : (s.ec.state == .scanning) = true) (read : s.ec.headerRead = true ∧ HoldsAgree s) : CommitAgrees s :=
    read.2 (by simp [Ec.holdsJournal, eq_of_beq state, read.1])
  unfold JobValues at values
  unfold CommitDone at completed
  generalize j.kind = k, j.reads = reads at ended values fits completed
  cases ended with
  | up isUp =>
    have agree : HoldsAgree s := by cases k <;> first | exact completed | exact nomatch isUp
    exact agree.of_eq rfl rfl rfl rfl rfl
  | readRecord | restored => exact HoldsAgree.of_eq completed rfl rfl rfl rfl rfl
  | header valid =>
    subst completed
    obtain ⟨-, -, -, base, epoch, -⟩ := headerTest_eq_some valid
    exact fun _ => ⟨base.symm, epoch.symm⟩
  | noHeader => exact holdsAgree_of_not_holds rfl
  | scanGood => exact HoldsAgree.of_eq completed.2 rfl rfl rfl rfl rfl
  | scanBreaks | scanRecovers | scanHolds => exact fun _ => scanned fits completed
  | scanServes => exact holdsAgree_serve (scanned fits completed)
  | restoreBreaks =>
    have rolling : s.ec.state = .rollingBack := by simpa [JobKind.fits] using fits
    exact fun _ => completed (by simp [Ec.holdsJournal, rolling])
  | commit | discard =>
    exact holdsAgree_serve (commitAgrees_of_word (small (values.1 ▸ s.ec.head_lt)) completed rfl rfl)
  | close => exact holdsAgree_serve (commitAgrees_of_word (small inRing) completed rfl rfl)
  | format =>
    refine holdsAgree_serve ?_
    unfold CommitAgrees
    show commitBase (s.journalMem.readWord 1) = 0 ∧ commitEpoch (s.journalMem.readWord 1) = 0
    rw [completed]
    decide

/-! ### Word operations -/

theorem slotAddr_ne_commitAddr {slot w : Nat} (inJournal : slot < 4096) (inSlot : w < 8) : slotAddr slot w ≠ commitAddr := by
  intro same
  have := congrArg BitVec.toNat same
  rw [toNat_slotAddr inJournal inSlot] at this
  exact absurd this (by simp [commitAddr]; omega)

/-- An operation that does not target the commit word leaves it. -/
theorem commitWord_otherMade (s : State) (j : Job) {op : WordOp} (rest : List WordOp) (bus : UpstreamBus)
    (elsewhere : op.journalTarget? ≠ some commitAddr) :
    (s.otherMade j op rest bus).journalMem.readWord 1 = s.journalMem.readWord 1 := by
  refine s.otherMade_readWord j op rest bus fun a target same => elsewhere ?_
  rw [target, Option.some.injEq, ← BitVec.toNat_inj, ← same]
  rfl

theorem HoldsAgree.otherMade {s : State} {j : Job} {op : WordOp} {rest : List WordOp} (bus : UpstreamBus) (h : HoldsAgree s)
    (elsewhere : op.journalTarget? ≠ some commitAddr) : HoldsAgree (s.otherMade j op rest bus) := by
  have ec := s.otherMade_ec j op rest bus
  exact h.of_eq (by rw [ec]) (by rw [ec]) (by rw [ec]) (by rw [ec]) (commitWord_otherMade s j rest bus elsewhere)

/-- A journal write of the commit word. -/
theorem commitWord_written {s : State} {j : Job} {w : Word} (rest : List WordOp) (bus : UpstreamBus) (wf : MemoryInv s) :
    (s.otherMade j (.writeJournal commitAddr w) rest bus).journalMem.readWord 1 = w := by
  rw [s.otherMade_journalMem j _ rest bus rfl]
  exact Memory.readWord_writeWord_same _ _ _ wf.2

/-- The commit word after one write of a format, the third being the one that sets it to 0. -/
theorem commitWord_formatWrite {s : State} {j : Job} {c : Fin 5} {k : Nat} {a : JournalAddr} {w : Word} (rest : List WordOp)
    (bus : UpstreamBus) (wf : MemoryInv s) (more : k < 5) (write : (formatWrites c)[k]? = some (a, w)) :
    (s.otherMade j (.writeJournal a w) rest bus).journalMem.readWord 1 =
      if k = 2 then 0 else s.journalMem.readWord 1 := by
  have elsewhere (other : a ≠ commitAddr) := commitWord_otherMade s j (op := .writeJournal a w) rest bus
    fun target => other (Option.some.inj target)
  interval_cases k <;> cases write
  · exact elsewhere (by decide)
  · exact elsewhere (by decide)
  · exact commitWord_written rest bus wf
  · exact elsewhere (by decide)
  · exact elsewhere (by decide)

/-- One word more of the header has been read. -/
theorem headerOps_drop {k : Nat} (more : k < 3) :
    headerOps.drop k = .readJournal (BitVec.ofNat 16 k) :: headerOps.drop (k + 1) := by
  interval_cases k <;> rfl

theorem headerOps_drop_eq_nil_iff {k : Nat} : headerOps.drop k = [] ↔ 3 ≤ k := List.drop_eq_nil_iff

theorem take_header_succ (m : Memory) {k : Nat} (more : k < 3) :
    [m.readWord 0, m.readWord 1, m.readWord 2].take (k + 1) =
      [m.readWord 0, m.readWord 1, m.readWord 2].take k ++ [m.readWord (BitVec.ofNat 16 k).toNat] := by
  interval_cases k <;> rfl

section
variable {s : State} {j : Job} {op : WordOp} {rest : List WordOp} (bus : UpstreamBus)

/-- The job once a word operation other than an append's tag write has been made. -/
def State.jobAfter (s : State) (j : Job) (op : WordOp) (rest : List WordOp) : Job :=
  { j with todo := j.remaining op rest (s.readsAfter j op) s.ec, reads := s.readsAfter j op }

theorem State.jobAfter_todo (notRestore : j.kind ≠ .restore) : (s.jobAfter j op rest).todo = rest :=
  Job.remaining_of_not_restore notRestore _ _ _ _

/-- What is left after a word operation that does not touch the commit word, in a job that never does. -/
theorem commitLeft_of_elsewhere (progress : InProgress s j op rest)
    (agree : HoldsAgree s) (elsewhere : ∀ q ∈ j.todo, q.journalTarget? ≠ some commitAddr)
    (completed : HoldsAgree (s.otherMade j op rest bus) → CommitDone (s.otherMade j op rest bus) (s.jobAfter j op rest))
    (plan : (∀ q ∈ (s.jobAfter j op rest).todo, q.journalTarget? ≠ some commitAddr) →
      CommitPlan (s.otherMade j op rest bus) (s.jobAfter j op rest)) :
    CommitLeft (s.otherMade j op rest bus) (s.jobAfter j op rest) := by
  obtain ⟨-, todo⟩ := progress
  rw [todo] at elsewhere
  have after : HoldsAgree (s.otherMade j op rest bus) := agree.otherMade bus (elsewhere op List.mem_cons_self)
  by_cases last : (s.jobAfter j op rest).todo = []
  · exact commitLeft_of_last last (completed after)
  · refine commitLeft_of_more last after (plan fun q mem => ?_)
    rcases Job.mem_remaining mem with left | none
    · exact elsewhere q (List.mem_cons_of_mem _ left)
    · rw [none]
      exact nofun

theorem commitLeft_format (progress : InProgress s j op rest) (wf : MemoryInv s) {c : Fin 5} (kind : j.kind = .format c)
    (plan : CommitPlan s j) : CommitLeft (s.otherMade j op rest bus) (s.jobAfter j op rest) := by
  have left : (s.jobAfter j op rest).todo = rest := State.jobAfter_todo (by simp [kind])
  have same : (s.jobAfter j op rest).kind = .format c := kind
  unfold CommitPlan at plan
  rw [kind] at plan
  obtain ⟨state, k, more, todo, cleared⟩ := plan
  obtain ⟨a, w, write, drop⟩ := formatOps_drop (c := c) more
  obtain ⟨rfl, rfl⟩ := List.cons.inj (progress.2.symm.trans (todo.trans drop))
  have word := commitWord_formatWrite (j := j) ((formatOps c).drop (k + 1)) bus wf more write
  have cleared' : 3 ≤ k + 1 → (s.otherMade j (.writeJournal a w) ((formatOps c).drop (k + 1)) bus).journalMem.readWord 1 = 0 := by
    intro third
    rw [word]
    split
    · rfl
    · exact cleared (by omega)
  have formatting : (s.otherMade j (.writeJournal a w) ((formatOps c).drop (k + 1)) bus).ec.state = .formatting := by
    rw [State.otherMade_ec, state]
  by_cases last : k + 1 < 5
  · refine commitLeft_of_more (by rw [left, ne_eq, formatOps_drop_eq_nil_iff]; omega)
      (holdsAgree_of_not_holds (by simp [Ec.holdsJournal, formatting])) ?_
    unfold CommitPlan
    rw [same]
    exact ⟨formatting, k + 1, last, left, cleared'⟩
  · refine commitLeft_of_last (by rw [left, formatOps_drop_eq_nil_iff]; omega) ?_
    unfold CommitDone
    rw [same]
    exact cleared' (by omega)

theorem commitLeft_headerRead (progress : InProgress s j op rest) (agree : HoldsAgree s) (kind : j.kind = .headerRead)
    (plan : CommitPlan s j) : CommitLeft (s.otherMade j op rest bus) (s.jobAfter j op rest) := by
  have left : (s.jobAfter j op rest).todo = rest := State.jobAfter_todo (by simp [kind])
  have same : (s.jobAfter j op rest).kind = .headerRead := kind
  unfold CommitPlan at plan
  rw [kind] at plan
  obtain ⟨k, more, todo, read⟩ := plan
  obtain ⟨rfl, rfl⟩ := List.cons.inj (progress.2.symm.trans (todo.trans (headerOps_drop more)))
  have mem (n : Nat) := s.otherMade_readWord j (.readJournal (BitVec.ofNat 16 k)) (headerOps.drop (k + 1)) bus (n := n) nofun
  have reads : (s.jobAfter j (.readJournal (BitVec.ofNat 16 k)) (headerOps.drop (k + 1))).reads =
      [s.journalMem.readWord 0, s.journalMem.readWord 1, s.journalMem.readWord 2].take (k + 1) := by
    rw [take_header_succ _ more, ← read]
    rfl
  by_cases last : k + 1 < 3
  · refine commitLeft_of_more (by rw [left, ne_eq, headerOps_drop_eq_nil_iff]; omega) (agree.otherMade bus nofun) ?_
    unfold CommitPlan
    rw [same]
    refine ⟨k + 1, last, left, ?_⟩
    rw [reads, mem, mem, mem]
  · refine commitLeft_of_last (by rw [left, headerOps_drop_eq_nil_iff]; omega) ?_
    unfold CommitDone
    rw [same]
    show _ = _
    rw [reads, mem, mem, mem, List.take_of_length_le (by simpa using last)]

/-- The last write of a commit, discard or close. -/
theorem commitLeft_close (progress : InProgress s j op rest) (wf : MemoryInv s) (inRing : s.ec.base < 4096)
    (agree : HoldsAgree s) {e : Epoch} (kind : j.kind = .close e) (plan : CommitPlan s j) :
    CommitLeft (s.otherMade j op rest bus) (s.jobAfter j op rest) := by
  have left : (s.jobAfter j op rest).todo = rest := State.jobAfter_todo (by simp [kind])
  have same : (s.jobAfter j op rest).kind = .close e := kind
  have ec := s.otherMade_ec j op rest bus
  unfold CommitPlan at plan
  rw [kind] at plan
  rcases plan with todo | todo <;> obtain ⟨rfl, rfl⟩ := List.cons.inj (progress.2.symm.trans todo)
  · refine commitLeft_of_more (by rw [left]; exact List.cons_ne_nil _ _) (agree.otherMade bus fun target =>
      slotAddr_ne_commitAddr inRing (by decide : 0 < 8) (Option.some.inj target)) ?_
    unfold CommitPlan
    rw [same, ec]
    exact .inr left
  · refine commitLeft_of_last left ?_
    unfold CommitDone
    rw [same, ec]
    exact commitWord_written [] bus wf

theorem commitLeft_commit (progress : InProgress s j op rest) (wf : MemoryInv s) {base : Nat} {e : Epoch} {n : Nat}
    (kind : j.kind = .commit base e n ∨ j.kind = .discard base e n) (plan : CommitPlan s j) :
    CommitLeft (s.otherMade j op rest bus) (s.jobAfter j op rest) := by
  have todo : j.todo = [.writeJournal commitAddr (commitWord base e)] := by
    unfold CommitPlan at plan
    rcases kind with kind | kind <;> rw [kind] at plan <;> exact plan
  obtain ⟨rfl, rfl⟩ := List.cons.inj (progress.2.symm.trans todo)
  have left : (s.jobAfter j (.writeJournal commitAddr (commitWord base e)) []).todo = [] :=
    State.jobAfter_todo (by rcases kind with kind | kind <;> simp [kind])
  have same : (s.jobAfter j (.writeJournal commitAddr (commitWord base e)) []).kind = j.kind := rfl
  refine commitLeft_of_last left ?_
  unfold CommitDone
  rw [same]
  rcases kind with kind | kind <;> rw [kind] <;> exact commitWord_written [] bus wf

theorem commitLeft_otherMade (progress : InProgress s j op rest) (h : CommitWordInv s) :
    CommitLeft (s.otherMade j op rest bus) (s.jobAfter j op rest) := by
  obtain ⟨wf, ⟨inRing, -⟩, -, agree, plans⟩ := h
  have plan := plans j progress.1
  have ec := s.otherMade_ec j op rest bus
  cases kind : j.kind with
  | commit => exact commitLeft_commit bus progress wf (.inl kind) plan
  | discard => exact commitLeft_commit bus progress wf (.inr kind) plan
  | close => exact commitLeft_close bus progress wf (Nat.lt_of_lt_of_le inRing s.ec.size_le) agree kind plan
  | format => exact commitLeft_format bus progress wf kind plan
  | headerRead => exact commitLeft_headerRead bus progress agree kind plan
  | scanStep =>
    have same : (s.jobAfter j op rest).kind = .scanStep := kind
    have plan' := plan
    unfold CommitPlan at plan'
    rw [kind] at plan'
    refine commitLeft_of_elsewhere bus progress agree plan'.2 (fun after => ?_) fun elsewhere => ?_
    · unfold CommitDone
      rw [same, ec]
      exact ⟨plan'.1, after⟩
    · unfold CommitPlan
      rw [same, ec]
      exact ⟨plan'.1, elsewhere⟩
  | upRead | upWrite | append | restore | readRecord =>
    have same : (s.jobAfter j op rest).kind = j.kind := rfl
    rw [kind] at same
    unfold CommitPlan at plan
    rw [kind] at plan
    refine commitLeft_of_elsewhere bus progress agree plan (fun after => ?_) fun elsewhere => ?_
    · unfold CommitDone
      rw [same]
      exact after
    · unfold CommitPlan
      rw [same]
      exact elsewhere

theorem commitLeft_tagMade {a : JournalAddr} {tag : Word} {r : RecordHead}
    (progress : InProgress s j (.writeTag a tag) rest) (kind : j.kind = .append r) (agree : HoldsAgree s) (plan : CommitPlan s j) :
    HoldsAgree (s.tagMade j r a tag rest) ∧ CommitLeft (s.tagMade j r a tag rest) { j with todo := rest } := by
  unfold CommitPlan at plan
  rw [kind, progress.2] at plan
  have word : (s.journalMem.writeWord a.toNat 0xF tag).readWord 1 = s.journalMem.readWord 1 := by
    refine Memory.readWord_writeWord_other _ _ _ _ _ fun same => plan _ List.mem_cons_self ?_
    rw [WordOp.journalTarget?, Option.some.injEq, ← BitVec.toNat_inj, ← same]
    rfl
  have after : HoldsAgree (s.tagMade j r a tag rest) := agree.of_eq rfl rfl rfl rfl word
  refine ⟨after, ?_⟩
  by_cases last : rest = []
  · refine commitLeft_of_last last ?_
    unfold CommitDone
    rw [kind]
    exact after
  · refine commitLeft_of_more last after ?_
    unfold CommitPlan
    rw [kind]
    exact fun q mem => plan q (List.mem_cons_of_mem _ mem)

end

/-! ### The invariant is kept -/

theorem CommitDone.same {s t : State} {j : Job} (h : CommitDone s j) (core : t.core = s.core) : CommitDone t j := by
  have agree : HoldsAgree s → HoldsAgree t := fun h => h.same core
  obtain ⟨-, -, -, base, -, -, -, read, -, -, -, -, journal⟩ := State.core_eq_iff.mp core
  unfold CommitDone at h ⊢
  rw [base, read, journal]
  cases kind : j.kind <;> rw [kind] at h <;> first | exact h | exact agree h | exact ⟨h.1, agree h.2⟩

/-- Every job in progress has what is left of it. -/
def CommitLefts (s : State) : Prop := ∀ j, s.mpa.job = some j → CommitLeft s j

theorem CommitLefts.same {s t : State} (h : CommitLefts s) (core : t.core = s.core) : CommitLefts t := by
  intro j job
  rw [(State.core_eq_iff.mp core).1] at job
  have left := h j job
  unfold CommitLeft at left ⊢
  split
  case isTrue last => exact CommitDone.same (by rwa [if_pos last] at left) core
  case isFalse more =>
    rw [if_neg more] at left
    obtain ⟨agree, plan⟩ := left
    obtain ⟨-, state, -, base, -, -, -, read, -, -, -, -, journal⟩ := State.core_eq_iff.mp core
    exact ⟨agree.same core, plan.of_eq base read journal fun h => state.trans h⟩

theorem commitLefts_opMade {s : State} {j : Job} {op : WordOp} {rest : List WordOp} (bus : UpstreamBus)
    (progress : InProgress s j op rest) (h : CommitWordInv s) : CommitLefts (s.opMade j op rest bus) := by
  refine made_of_each (G := CommitWordInv) CommitLefts.same (fun progress kind h i made => ?_) (fun bus progress _ h i made => ?_)
    bus progress h
  · cases made
    obtain ⟨-, -, -, agree, plans⟩ := h
    exact (commitLeft_tagMade progress kind agree (plans _ progress.1)).2
  · cases made
    exact commitLeft_otherMade bus progress h

theorem commitMade_opMade {s : State} {j : Job} {op : WordOp} {rest : List WordOp} (bus : UpstreamBus)
    (progress : InProgress s j op rest) (h : CommitWordInv s) : CommitMade (s.opMade j op rest bus) := by
  have lefts := commitLefts_opMade bus progress h
  obtain ⟨-, ring, fits, -⟩ := h
  exact ⟨made_of_each RingInv.same RingInv.tagMade RingInv.otherMade bus progress ring, fits.opMade bus progress, lefts⟩

/-- A job with nothing left to make is done: the plans that end with a write of the commit word have one left. -/
theorem commitDone_of_plan {s : State} {j : Job} (last : j.todo = []) (agree : HoldsAgree s) (plan : CommitPlan s j) :
    CommitDone s j := by
  unfold CommitPlan at plan
  unfold CommitDone
  rw [last] at plan
  cases kind : j.kind <;> rw [kind] at plan
  case commit | discard => exact nomatch plan
  case close => rcases plan with plan | plan <;> exact nomatch plan
  case format =>
    obtain ⟨-, k, more, empty, -⟩ := plan
    exact absurd (formatOps_drop_eq_nil_iff.mp empty.symm) (Nat.not_le.mpr more)
  case headerRead =>
    obtain ⟨k, more, empty, -⟩ := plan
    exact absurd (headerOps_drop_eq_nil_iff.mp empty.symm) (Nat.not_le.mpr more)
  case scanStep => exact ⟨plan.1, agree⟩
  all_goals exact agree

theorem commitMade_of_last {s : State} {j : Job} (job : s.mpa.job = some j) (last : j.todo = []) (h : CommitWordInv s) :
    CommitMade s := by
  obtain ⟨-, ring, fits, agree, plans⟩ := h
  refine ⟨ring, fits, fun i held => ?_⟩
  cases job.symm.trans held
  exact commitLeft_of_last last (commitDone_of_plan last agree (plans j job))

theorem CommitKept.beginJob {s : State} {k : JobKind} {ops : List WordOp} (agree : HoldsAgree s)
    (plan : CommitPlan (s.beginJob k ops) { kind := k, todo := ops, reads := [] }) : CommitKept (s.beginJob k ops) := by
  refine ⟨agree, fun j begun => ?_⟩
  cases begun
  exact plan

theorem appendOps_elsewhere {r : RecordHead} {next : Nat} (slot : r.slot < 4096) (inJournal : next < 4096) {op : WordOp}
    (mem : op ∈ appendOps r next) : op.journalTarget? ≠ some commitAddr := by
  have elsewhere {n w : Nat} (inJournal : n < 4096) (inSlot : w < 8) : some (slotAddr n w) ≠ some commitAddr :=
    fun same => slotAddr_ne_commitAddr inJournal inSlot (Option.some.inj same)
  simp only [appendOps, List.mem_cons, List.not_mem_nil, or_false] at mem
  rcases mem with rfl | rfl | rfl | rfl | rfl | rfl | rfl | rfl | rfl | rfl | rfl | rfl | rfl
  iterate 4 exact nofun
  · exact elsewhere inJournal (by decide)
  all_goals exact elsewhere slot (by decide)

theorem none_ne_commitAddr {op : WordOp} (none : op.journalTarget? = none) : op.journalTarget? ≠ some commitAddr := by
  rw [none]
  exact nofun

theorem commitKept_upGranted {s : State} {tr : Transaction} {kind : JobKind} {ops : List WordOp}
    (job : UpJob s tr kind ops) (h : CommitWordInv s) : CommitKept (s.beginJob kind ops) := by
  obtain ⟨-, -, -, agree, -⟩ := h
  have beats {op : WordOp} (mem : op ∈ tr.writeOps) := none_ne_commitAddr (Transaction.writeOps_beat mem).1
  cases job with
  | read => exact .beginJob agree fun _ mem => none_ne_commitAddr (Transaction.readOps_no_target mem)
  | write | hit => exact .beginJob agree fun _ => beats
  | append =>
    refine .beginJob agree fun op mem => ?_
    rcases List.mem_append.mp mem with record | beat
    · exact appendOps_elsewhere (s.ec.slotOf_lt_journal _) (s.ec.slotOf_lt_journal _) record
    · exact beats beat

theorem commitKept_ecGranted {s t : State} (grant : EcGrant s t) (h : CommitWordInv s) : CommitKept t := by
  obtain ⟨-, -, -, agree, plans⟩ := h
  cases grant with
  | nothing => exact ⟨agree, plans⟩
  | headerRead => exact .beginJob agree ⟨0, by decide, rfl, rfl⟩
  | scanStep _ read =>
    exact .beginJob agree ⟨read, fun _ mem => none_ne_commitAddr (slotReads_no_target mem)⟩
  | commit | discard => exact .beginJob agree rfl
  | close => exact .beginJob agree (.inl rfl)
  | restore => exact .beginJob agree fun _ mem => none_ne_commitAddr (slotReads_no_target mem)
  | format state => exact .beginJob agree ⟨state, 0, by decide, rfl, nofun⟩

theorem commitKept_goesOn {s : State} {j : Job} (job : s.mpa.job = some j) (more : j.todo ≠ []) (h : CommitMade s) :
    CommitKept s := by
  obtain ⟨-, -, lefts⟩ := h
  have left := lefts j job
  rw [CommitLeft, if_neg more] at left
  refine ⟨left.1, fun i held => ?_⟩
  cases job.symm.trans held
  exact left.2

theorem commitKept_led : CommandsTo (fun _ => True) CommitWordInv CommitKept :=
  CoreTo.commandsTo (unchanged := CommitKept.same) {
  same := fun h => h.kept.same
  committing := fun _ state h => h.kept.into rfl rfl rfl rfl (by simp [state])
    fun _ => h.agree (by simp [Ec.holdsJournal, state])
  rollingBack := fun _ state h => h.kept.into rfl rfl rfl rfl (by rcases state with s | s <;> simp [s])
    fun _ => h.agree (by rcases state with s | s <;> simp [Ec.holdsJournal, s])
  formatting := fun _ state h => h.kept.into rfl rfl rfl rfl
    (by rcases state with s | s | s | ⟨s, -⟩ <;> simp [s]) (holdsAgree_of_not_holds rfl)
  upGranted := fun _ job h => commitKept_upGranted job h
  ecGranted := fun _ grant h => commitKept_ecGranted grant h
  lkGranted := fun _ _ h => .beginJob h.agree fun _ mem => none_ne_commitAddr (slotReads_no_target mem)
  completed := completed_of_made (fun h same => h.same (State.core_eq_of_view_eq same)) commitMade_opMade
    commitKept_goesOn (fun job last ended h => commitKept_of_free ended.free (holdsAgree_ends job last ended h))
  ended := fun job last ended h => commitKept_of_free ended.free (holdsAgree_ends job last ended (commitMade_of_last job last h))
  reset := fun _ _ _ _ => commitKept_of_free rfl (holdsAgree_of_not_holds rfl) }

theorem commitWordInv_kept : CommandsTo (fun _ => True) CommitWordInv CommitWordInv :=
  (memoryInv_kept.mono fun h => h.1).and ((ringInv_kept.mono fun h => h.2.1).and
    ((jobInv_kept.mono fun h => h.2.2.1).and commitKept_led))

/-! ### A format before its third write -/

/-- The EC's base and epoch number are still those in the commit word in FORMATTING before a format's third write. -/
def FormatAgrees (s : State) : Prop := s.ec.state = .formatting → BeforeThirdWrite s → CommitAgrees s

theorem FormatAgrees.same {s t : State} (h : FormatAgrees s) (core : t.core = s.core) : FormatAgrees t := by
  obtain ⟨job, state, -, base, -, epoch, -, -, -, -, -, -, journal⟩ := State.core_eq_iff.mp core
  intro formatting before
  refine (h (state ▸ formatting) fun j c held => before j c (job.trans held)).of_eq base epoch (by rw [journal])

theorem formatAgrees_of_state {s : State} (other : s.ec.state ≠ .formatting) : FormatAgrees s :=
  fun formatting => absurd formatting other

/-- The EC holds a journal, or was taken to FORMATTING from a state in which it held one; either way it agrees. -/
def AgreesStill (s : State) : Prop := (s.ec.holdsJournal = true ∨ s.ec.state = .formatting) ∧ CommitAgrees s

theorem AgreesStill.same {s t : State} (h : AgreesStill s) (core : t.core = s.core) : AgreesStill t := by
  obtain ⟨-, state, -, base, -, epoch, -, read, -, -, -, -, journal⟩ := State.core_eq_iff.mp core
  obtain ⟨holds, agrees⟩ := h
  refine ⟨?_, agrees.of_eq base epoch (by rw [journal])⟩
  unfold Ec.holdsJournal at holds ⊢
  rw [state, read]
  exact holds

theorem agreesStill_moves : MovesTo (fun _ => True) AgreesStill AgreesStill := MovesOfCore.movesTo (unchanged := AgreesStill.same) {
  same := AgreesStill.same
  committing := fun _ _ h => ⟨.inl rfl, h.2⟩
  rollingBack := fun _ _ h => ⟨.inl rfl, h.2⟩
  formatting := fun _ _ h => ⟨.inr rfl, h.2⟩
  upGranted := fun _ _ h => h
  ecGranted := fun _ grant h => by cases grant <;> exact h
  lkGranted := fun _ _ h => h }

/-- Whatever ends in FORMATTING was there, and no format ends there. -/
theorem Ends.of_formatting {s t : State} {k : JobKind} {reads : List Word} (ended : Ends s k reads t)
    (fits : k.fits s.ec.state = true) (formatting : t.ec.state = .formatting) :
    s.ec.state = .formatting ∧ (∀ c, k ≠ .format c) ∧ (∀ b e n, k ≠ .commit b e n ∧ k ≠ .discard b e n) ∧
      t.ec.base = s.ec.base ∧ t.ec.epoch = s.ec.epoch := by
  have served {u : State} : u.serve.ec.state ≠ .formatting :=
    serve_of_each (P := fun u => u.ec.state ≠ .formatting)
      (fun h core => by rwa [(State.core_eq_iff.mp core).2.1]) nofun nofun nofun
  cases ended with
  | up isUp =>
    have other {q : JobKind} (notUp : q.isUp = false) : k ≠ q := by
      rintro rfl
      exact nomatch notUp.symm.trans isUp
    exact ⟨formatting, fun _ => other rfl, fun _ _ _ => ⟨other rfl, other rfl⟩, rfl, rfl⟩
  | readRecord | restored => exact ⟨formatting, nofun, fun _ _ _ => ⟨nofun, nofun⟩, rfl, rfl⟩
  | header | scanGood =>
    have state : s.ec.state = .formatting := formatting
    simp [JobKind.fits, state] at fits
  | noHeader | scanBreaks | scanRecovers | scanHolds | restoreBreaks => exact nomatch formatting
  | scanServes | commit | close | format | discard => exact absurd formatting served

/-- A commit or a discard has made its write. -/
def CommitWritten (s : State) : Prop :=
  ∃ j b e n, s.mpa.job = some j ∧ j.todo = [] ∧ (j.kind = .commit b e n ∨ j.kind = .discard b e n)

/-- A word operation just made leaves the agreement, unless it is the write of a commit or a discard. -/
def FormatMade (s : State) : Prop := JobInv s ∧ (FormatAgrees s ∨ CommitWritten s)

theorem formatAgrees_ends {s t : State} {j : Job} (job : s.mpa.job = some j) (ended : Ends s j.kind j.reads t)
    (h : FormatMade s) : FormatAgrees t := by
  obtain ⟨fits, made⟩ := h
  intro formatting before
  obtain ⟨state, noFormat, noCommit, base, epoch⟩ := ended.of_formatting (fits j job) formatting
  rcases made with agrees | ⟨i, b, e, n, held, -, kind⟩
  · refine (agrees state fun i c held kind => ?_).of_eq base epoch (by rw [ended.memories.2])
    cases job.symm.trans held
    exact absurd kind (noFormat c)
  · cases job.symm.trans held
    rcases kind with kind | kind
    · exact absurd kind (noCommit b e n).1
    · exact absurd kind (noCommit b e n).2

/-- The jobs that never write the commit word. -/
theorem CommitPlan.elsewhere {s : State} {j : Job} (plan : CommitPlan s j) (noFormat : ∀ c, j.kind ≠ .format c)
    (noClose : ∀ e, j.kind ≠ .close e) (noCommit : ∀ b e n, j.kind ≠ .commit b e n ∧ j.kind ≠ .discard b e n) :
    ∀ op ∈ j.todo, op.journalTarget? ≠ some commitAddr := by
  unfold CommitPlan at plan
  cases kind : j.kind <;> rw [kind] at plan noFormat noClose noCommit
  case commit => exact absurd rfl (noCommit _ _ _).1
  case discard => exact absurd rfl (noCommit _ _ _).2
  case close => exact absurd rfl (noClose _)
  case format => exact absurd rfl (noFormat _)
  case headerRead =>
    obtain ⟨k, -, todo, -⟩ := plan
    intro op mem
    rw [todo] at mem
    exact none_ne_commitAddr (headerOps_no_target (List.mem_of_mem_drop mem))
  case scanStep => exact plan.2
  all_goals exact plan

section
variable {s : State} {j : Job} {op : WordOp} {rest : List WordOp} (bus : UpstreamBus)

/-- Before its third write a format has not written the commit word. -/
theorem formatAgrees_formatWrite (progress : InProgress s j op rest) (agrees : CommitAgrees s) {c : Fin 5}
    (kind : j.kind = .format c) (wf : MemoryInv s) (plan : CommitPlan s j) : FormatAgrees (s.otherMade j op rest bus) := by
  intro _ before
  have ec := s.otherMade_ec j op rest bus
  have left : (s.jobAfter j op rest).todo = rest := State.jobAfter_todo (by simp [kind])
  have toMake : 3 ≤ (s.jobAfter j op rest).todo.length := before (s.jobAfter j op rest) c rfl kind
  unfold CommitPlan at plan
  rw [kind] at plan
  obtain ⟨-, k, more, todo, -⟩ := plan
  obtain ⟨a, w, write, drop⟩ := formatOps_drop (c := c) more
  obtain ⟨rfl, rfl⟩ := List.cons.inj (progress.2.symm.trans (todo.trans drop))
  rw [left, List.length_drop] at toMake
  have early : k ≠ 2 := by
    rintro rfl
    exact absurd toMake (by simp [formatOps])
  have word := commitWord_formatWrite (j := j) ((formatOps c).drop (k + 1)) bus wf more write
  rw [if_neg early] at word
  exact agrees.of_eq (by rw [ec]) (by rw [ec]) word

theorem formatMade_otherMade (progress : InProgress s j op rest) (h : CommitWordInv s) (agrees : CommitAgrees s) :
    FormatAgrees (s.otherMade j op rest bus) ∨ CommitWritten (s.otherMade j op rest bus) := by
  obtain ⟨wf, -, fits, -, plans⟩ := h
  have plan := plans j progress.1
  have fits := fits j progress.1
  have ec := s.otherMade_ec j op rest bus
  by_cases noCommit : ∀ b e n, j.kind ≠ .commit b e n ∧ j.kind ≠ .discard b e n
  · refine .inl ?_
    by_cases noFormat : ∀ c, j.kind ≠ .format c
    · by_cases noClose : ∀ e, j.kind ≠ .close e
      · have elsewhere := plan.elsewhere noFormat noClose noCommit op (by rw [progress.2]; exact List.mem_cons_self)
        exact fun _ _ => agrees.of_eq (by rw [ec]) (by rw [ec]) (commitWord_otherMade s j rest bus elsewhere)
      · push Not at noClose
        obtain ⟨e, kind⟩ := noClose
        have rolling : s.ec.state = .rollingBack := by simpa [kind, JobKind.fits] using fits
        exact formatAgrees_of_state (by rw [ec, rolling]; exact nofun)
    · push Not at noFormat
      obtain ⟨c, kind⟩ := noFormat
      exact formatAgrees_formatWrite bus progress agrees kind wf plan
  · have commits : ∃ b e n, j.kind = .commit b e n ∨ j.kind = .discard b e n := by
      by_contra none
      push Not at none
      exact noCommit none
    obtain ⟨b, e, n, kind⟩ := commits
    refine .inr ⟨_, b, e, n, rfl, ?_, kind⟩
    have todo : j.todo = [.writeJournal commitAddr (commitWord b e)] := by
      unfold CommitPlan at plan
      rcases kind with kind | kind <;> rw [kind] at plan <;> exact plan
    obtain ⟨-, rfl⟩ := List.cons.inj (progress.2.symm.trans todo)
    exact State.jobAfter_todo (by rcases kind with kind | kind <;> simp [kind])

theorem formatMade_opMade (progress : InProgress s j op rest) (h : CommitWordInv s ∧ AgreesStill s) :
    FormatMade (s.opMade j op rest bus) := by
  obtain ⟨-, -, fits, -⟩ := h.1
  refine ⟨fits.opMade bus progress, made_of_each (G := fun s => CommitWordInv s ∧ AgreesStill s)
    (P := fun t => FormatAgrees t ∨ CommitWritten t) ?_ ?_ (fun bus progress _ h => formatMade_otherMade bus progress h.1 h.2.2)
    bus progress h⟩
  · rintro u v (agrees | ⟨i, b, e, n, job, last, kind⟩) core
    · exact .inl (agrees.same core)
    · exact .inr ⟨i, b, e, n, (State.core_eq_iff.mp core).1.trans job, last, kind⟩
  · rintro u i a tag rest r progress kind ⟨⟨-, -, fits, -⟩, -⟩
    have live : u.ec.state.isLive = true := by simpa [kind, JobKind.fits] using fits i progress.1
    refine .inl (formatAgrees_of_state fun (formatting : u.ec.state = .formatting) => ?_)
    rw [formatting] at live
    exact nomatch live

end

theorem formatAgrees_jobs : JobsTo (fun s => CommitWordInv s ∧ AgreesStill s) FormatAgrees where
  completed := completed_of_made (fun h same => h.same (State.core_eq_of_view_eq same)) formatMade_opMade
    (fun {s j} job more h => by
      obtain ⟨-, agrees | ⟨i, b, e, n, held, last, -⟩⟩ := h
      · exact agrees
      · cases job.symm.trans held
        exact absurd last more)
    (fun job _ ended h => formatAgrees_ends job ended h)
  ended := by
    rintro s t j job last ended ⟨⟨-, -, fits, -⟩, -, agrees⟩
    exact formatAgrees_ends job ended ⟨fits, .inl fun _ _ => agrees⟩
  reset := fun _ _ _ _ => formatAgrees_of_state nofun

/-- Settles O58: commit, close, discard and format write the commit word for the base and epoch number they leave, a
header read takes them from it, no other job touches it, and a format leaves it until its third write. -/
theorem commitWordAgrees : Obligations.CommitWordAgrees := by
  intro s t h next
  refine ⟨commitWordInv_kept.step h next, fun formatting before held => ?_⟩
  have still : AgreesStill s := by
    rcases held with holds | ⟨state, agrees⟩
    · exact ⟨.inl holds, h.agree holds⟩
    · exact ⟨.inr state, agrees⟩
  have moves : MovesTo (fun _ => True) (fun s => CommitWordInv s ∧ AgreesStill s) (fun s => CommitWordInv s ∧ AgreesStill s) :=
    (commitWordInv_kept.toMovesTo.mono fun h => h.1).and (agreesStill_moves.mono fun h => h.2)
  exact moves.stepAny (fun h _ _ => h.2.2) (fun h same => h.same (State.core_eq_of_view_eq same)) formatAgrees_jobs
    ⟨h, still⟩ next formatting before

end Sys2Proof.Machine
end

