-- ==== Sys2Proof/Proofs/LiveSpan.lean ====
section
/-! PROOFS. The journal is what the EC takes it for (R54, R56, R60, R63): the live span, the cleared slot after it, and what is
left of the job that moves them. -/

namespace Sys2Proof.Machine

/-! ### The parts of the invariant -/

/-- What O59 says of the span: the end slot, the count of a scan, the records and the cleared slot after them. -/
def SpanInv (s : State) : Prop :=
  (s.ec.state.isLive = true ∨ s.ec.state = .scanning ∨ s.ec.state = .recoveryHold → s.ec.endSlot = s.ec.head) ∧
    (s.ec.state = .scanning → s.ec.usage = s.ec.scanCount) ∧
    (s.ec.state.hasSpan = true ∨ s.ec.state = .scanning → SpanGood s s.ec.usage) ∧
    (s.ec.state.hasSpan = true → TagClear s s.ec.endSlot)

/-- Every job in progress has what is left of its plan. -/
def JournalPlans (s : State) : Prop := ∀ j, s.mpa.job = some j → JournalPlan s j

/-- What O59 says of a state, the memories, the ring and the EC state apart. -/
def JournalKept (s : State) : Prop := SpanInv s ∧ JournalPlans s

theorem journalInv_iff {s : State} : JournalInv s ↔ MemoryInv s ∧ RingInv s ∧ JobInv s ∧ JournalKept s := by
  simp [JournalInv, JournalKept, SpanInv, JournalPlans, and_assoc]

theorem JournalInv.kept {s : State} (h : JournalInv s) : JournalKept s := by
  obtain ⟨-, -, -, kept⟩ := journalInv_iff.mp h
  exact kept

theorem JournalInv.span {s : State} (h : JournalInv s) : SpanInv s := h.kept.1

/-- What stands once a job's last word operation has completed: the slot the next epoch starts at is cleared, or the scanned
slot is read. -/
def JournalDone (s : State) (j : Job) : Prop :=
  match j.kind with
  | .commit base _ _ | .discard base _ _ => TagClear s base
  | .close _ => TagClear s s.ec.base
  | .format _ => TagClear s 0
  | .scanStep => j.reads = slotWords s.journalMem (s.ec.slotOf s.ec.scanCount)
  | .upRead | .upWrite _ | .append _ | .restore | .readRecord | .headerRead => True

/-- A job whose operations are all made is done, and any other goes on by its plan. -/
def JournalLeft (s : State) (j : Job) : Prop := if j.todo = [] then JournalDone s j else JournalPlan s j

/-- The invariant with a word operation just made. -/
def JournalMade (s : State) : Prop :=
  RingInv s ∧ JobInv s ∧ SpanInv s ∧ ∀ j, s.mpa.job = some j → JournalLeft s j

theorem journalLeft_of_last {s : State} {j : Job} (last : j.todo = []) (completed : JournalDone s j) : JournalLeft s j := by
  rw [JournalLeft, if_pos last]
  exact completed

theorem journalLeft_of_more {s : State} {j : Job} (more : j.todo ≠ []) (plan : JournalPlan s j) : JournalLeft s j := by
  rw [JournalLeft, if_neg more]
  exact plan

/-! ### The span -/

theorem SpanInv.same {s t : State} (h : SpanInv s) (core : t.core = s.core) : SpanInv t := by
  obtain ⟨-, state, code, base, usage, epoch, endSlot, -, scanCount, -, -, -, journal⟩ := State.core_eq_iff.mp core
  unfold SpanInv SpanGood TagClear Ec.head Ec.slotOf Ec.size at h ⊢
  rw [state, code, base, usage, epoch, endSlot, scanCount, journal]
  exact h

/-- The words the EC takes for the span stand, and a cleared end slot stays cleared. -/
def SpanKept (s t : State) : Prop :=
  (∀ i < s.ec.usage, slotWords t.journalMem (s.ec.slotOf i) = slotWords s.journalMem (s.ec.slotOf i)) ∧
    (TagClear s s.ec.endSlot → TagClear t s.ec.endSlot)

theorem SpanInv.of_kept {s t : State} (h : SpanInv s) (ec : t.ec = s.ec) (kept : SpanKept s t) : SpanInv t := by
  obtain ⟨atHead, count, good, cleared⟩ := h
  obtain ⟨words, clear⟩ := kept
  unfold SpanInv SpanGood
  rw [ec]
  refine ⟨atHead, count, fun state i below => ?_, fun state => clear (cleared state)⟩
  rw [words i below]
  exact good state i below

theorem hasSpan_of_isLive {e : EcState} (live : e.isLive = true) : e.hasSpan = true := by
  cases e <;> first | rfl | exact nomatch live

/-- In the other states O59 says nothing of the span. -/
theorem spanInv_of_state {s : State} (noSpan : s.ec.state.hasSpan = false) (notScanning : s.ec.state ≠ .scanning) : SpanInv s := by
  refine ⟨?_, fun h => absurd h notScanning, ?_, fun h => nomatch noSpan.symm.trans h⟩
  · rintro (live | scanning | held)
    · exact nomatch noSpan.symm.trans (hasSpan_of_isLive live)
    · exact absurd scanning notScanning
    · rw [held] at noSpan
      exact nomatch noSpan
  · rintro (span | scanning)
    · exact nomatch noSpan.symm.trans span
    · exact absurd scanning notScanning

/-- A span whose end slot is its head. -/
theorem spanInv_of_head {s : State} (atHead : s.ec.endSlot = s.ec.head) (notScanning : s.ec.state ≠ .scanning)
    (good : SpanGood s s.ec.usage) (clear : TagClear s s.ec.head) : SpanInv s :=
  ⟨fun _ => atHead, fun h => absurd h notScanning, fun _ => good, fun _ => atHead ▸ clear⟩

/-- In ROLLING_BACK the end slot stays where the rollback began. -/
theorem spanInv_of_rollingBack {s : State} (state : s.ec.state = .rollingBack) (good : SpanGood s s.ec.usage)
    (clear : TagClear s s.ec.endSlot) : SpanInv s := by
  unfold SpanInv
  rw [state]
  exact ⟨by simp [EcState.isLive], nofun, fun _ => good, fun _ => clear⟩

theorem spanGood_zero (s : State) : SpanGood s 0 := fun _ below => absurd below (Nat.not_lt_zero _)

/-- An empty span, its end slot at base. -/
theorem spanInv_of_base {s : State} (inRing : s.ec.base < s.ec.size) (usage : s.ec.usage = 0) (endSlot : s.ec.endSlot = s.ec.base)
    (scan : s.ec.state = .scanning → s.ec.scanCount = 0) (clear : s.ec.state.hasSpan = true → TagClear s s.ec.base) :
    SpanInv s := by
  refine ⟨fun _ => ?_, fun state => ?_, fun _ => ?_, fun state => ?_⟩
  · rw [Ec.head, usage, Ec.slotOf_zero inRing, endSlot]
  · rw [usage, scan state]
  · rw [usage]
    exact spanGood_zero s
  · rw [endSlot]
    exact clear state

/-- Serving with the end slot at head, whatever is served. -/
theorem spanInv_serve {s : State} (atHead : s.ec.endSlot = s.ec.head) (good : SpanGood s s.ec.usage) (clear : TagClear s s.ec.head) :
    SpanInv s.serve :=
  serve_of_each SpanInv.same (spanInv_of_head atHead nofun good clear) (spanInv_of_head atHead nofun good clear)
    (spanInv_of_head rfl nofun good clear)

/-- Serving at the start of an epoch. -/
theorem spanInv_serve_opened {s : State} (inRing : s.ec.base < s.ec.size) (usage : s.ec.usage = 0)
    (endSlot : s.ec.endSlot = s.ec.base) (clear : TagClear s s.ec.base) : SpanInv s.serve := by
  have head : s.ec.head = s.ec.base := by rw [Ec.head, usage, Ec.slotOf_zero inRing]
  refine spanInv_serve (endSlot.trans head.symm) ?_ (head ▸ clear)
  rw [usage]
  exact spanGood_zero s

/-! ### Ends of jobs -/

theorem tagClear_of_ending {s : State} {e : Epoch} {i slot : Nat} (ending : classifySlot e i (slotWords s.journalMem slot) = .ending) :
    TagClear s slot := by
  unfold classifySlot at ending
  dsimp only at ending
  split at ending
  case isTrue zero => exact zero
  case isFalse => split at ending <;> exact nomatch ending

theorem spanInv_ends {s t : State} {j : Job} (job : s.mpa.job = some j) (last : j.todo = [])
    (ended : Ends s j.kind j.reads t) (h : JournalMade s) : SpanInv t := by
  obtain ⟨⟨inRing, -, -, values⟩, fits, span, lefts⟩ := h
  have values := values j job
  have fits := fits j job
  have completed := lefts j job
  rw [JournalLeft, if_pos last] at completed
  unfold JobValues at values
  unfold JournalDone at completed
  have kept {u : State} (ec : u.ec = s.ec) (mem : u.journalMem = s.journalMem) : SpanInv u :=
    span.of_kept ec ⟨fun _ _ => by rw [mem], fun clear => by rwa [TagClear, mem]⟩
  have scanned (state : s.ec.state = .scanning) (ending : classifySlot s.ec.epoch s.ec.scanCount
      (slotWords s.journalMem (s.ec.slotOf s.ec.scanCount)) = .ending) :
      s.ec.endSlot = s.ec.head ∧ SpanGood s s.ec.usage ∧ TagClear s s.ec.head := by
    obtain ⟨atHead, count, good, -⟩ := span
    refine ⟨atHead (.inr (.inl state)), good (.inr state), ?_⟩
    rw [Ec.head, count state]
    exact tagClear_of_ending ending
  generalize j.kind = k, j.reads = reads at ended values fits completed
  cases ended with
  | up | readRecord => exact kept rfl rfl
  | header valid =>
    have scanning : s.ec.state = .scanning := by simpa [JobKind.fits] using fits
    refine spanInv_of_base (headerTest_base_lt valid) rfl rfl (fun _ => rfl) fun (state : s.ec.state.hasSpan = true) => ?_
    rw [scanning] at state
    exact nomatch state
  | noHeader | scanBreaks | restoreBreaks => exact spanInv_of_state rfl nofun
  | scanGood good =>
    have scanning : s.ec.state = .scanning := by simpa [JobKind.fits] using fits
    obtain ⟨-, count, spanGood, -⟩ := span
    refine ⟨fun _ => rfl, fun _ => rfl, fun _ i below => ?_, fun (state : s.ec.state.hasSpan = true) => ?_⟩
    · rcases Nat.lt_succ_iff_lt_or_eq.mp below with below | rfl
      · exact spanGood (.inr scanning) i (count scanning ▸ below)
      · rw [completed] at good
        exact good
    · rw [scanning] at state
      exact nomatch state
  | scanServes ending =>
    rw [completed] at ending
    obtain ⟨atHead, good, clear⟩ := scanned (eq_of_beq fits) ending
    exact spanInv_serve atHead good clear
  | scanRecovers ending =>
    rw [completed] at ending
    obtain ⟨-, good, clear⟩ := scanned (eq_of_beq fits) ending
    exact spanInv_of_head rfl nofun good clear
  | scanHolds ending =>
    rw [completed] at ending
    obtain ⟨atHead, good, clear⟩ := scanned (eq_of_beq fits) ending
    exact spanInv_of_head atHead nofun good clear
  | restored =>
    have rolling : s.ec.state = .rollingBack := by simpa [JobKind.fits] using fits
    obtain ⟨-, -, good, clear⟩ := span
    have hasSpan : s.ec.state.hasSpan = true := by rw [rolling]; rfl
    exact spanInv_of_rollingBack rolling (fun i below => good (.inl hasSpan) i (Nat.lt_of_lt_of_le below (Nat.sub_le _ _)))
      (clear hasSpan)
  | commit | discard => exact spanInv_serve_opened (values.1 ▸ s.ec.head_lt) rfl rfl completed
  | close => exact spanInv_serve_opened inRing rfl rfl completed
  | format => exact spanInv_serve_opened (ringSize_pos _) rfl rfl completed

/-! ### Writes to slots -/

section
variable {s : State} {j : Job} {op : WordOp} {rest : List WordOp} (bus : UpstreamBus)

/-- A write to one word of a slot leaves every other word of every slot. -/
theorem otherMade_otherWord {slot w n m : Nat} (target : op.journalTarget? = some (slotAddr slot w)) (inJournal : slot < 4096)
    (inSlot : w < 8) (other : n ≠ slot ∨ m ≠ w) (word : m < 8) :
    (s.otherMade j op rest bus).journalMem.readWord (8 + 8 * n + m) = s.journalMem.readWord (8 + 8 * n + m) := by
  refine s.otherMade_readWord j op rest bus fun a target' => ?_
  cases target.symm.trans target'
  rw [toNat_slotAddr inJournal inSlot]
  omega

theorem otherMade_otherSlot {slot w n : Nat} (target : op.journalTarget? = some (slotAddr slot w)) (inJournal : slot < 4096)
    (inSlot : w < 8) (other : n ≠ slot) :
    slotWords (s.otherMade j op rest bus).journalMem n = slotWords s.journalMem n :=
  slotWords_congr fun _ word => otherMade_otherWord bus target inJournal inSlot (.inl other) word

theorem tagClear_otherMade {slot w n : Nat} (target : op.journalTarget? = some (slotAddr slot w)) (inJournal : slot < 4096)
    (inSlot : w < 8) (other : n ≠ slot ∨ 0 ≠ w) (clear : TagClear s n) : TagClear (s.otherMade j op rest bus) n :=
  (otherMade_otherWord bus target inJournal inSlot other (by decide : 0 < 8)).trans clear

/-- A slot's tag word cleared. -/
theorem tagClear_cleared {slot : Nat} (inJournal : slot < 4096) (wf : MemoryInv s) :
    TagClear (s.otherMade j (.writeJournal (slotAddr slot 0) 0) rest bus) slot := by
  have addr : (slotAddr slot 0).toNat = 8 + 8 * slot := toNat_slotAddr inJournal (by decide)
  rw [TagClear, s.otherMade_journalMem j _ rest bus rfl, addr]
  exact Memory.readWord_writeWord_same _ _ _ wf.2

/-- Clearing a slot clears no other one's mark of an end. -/
theorem tagClear_of_clearing {slot n : Nat} (inJournal : slot < 4096) (wf : MemoryInv s) (clear : TagClear s n) :
    TagClear (s.otherMade j (.writeJournal (slotAddr slot 0) 0) rest bus) n := by
  by_cases same : n = slot
  · subst same
    exact tagClear_cleared bus inJournal wf
  · exact tagClear_otherMade bus rfl inJournal (by decide) (.inl same) clear

/-- A write to the header, or none, leaves the words of every slot. -/
theorem otherMade_outside (outside : ∀ a, op.journalTarget? = some a → a.toNat < 8) (n m : Nat) :
    (s.otherMade j op rest bus).journalMem.readWord (8 + 8 * n + m) = s.journalMem.readWord (8 + 8 * n + m) :=
  s.otherMade_readWord j op rest bus fun a target same => by
    have := outside a target
    omega

theorem TagClear.otherMade {n : Nat} (clear : TagClear s n) (outside : ∀ a, op.journalTarget? = some a → a.toNat < 8) :
    TagClear (s.otherMade j op rest bus) n := (otherMade_outside bus outside n 0).trans clear

theorem spanKept_otherMade (outside : ∀ a, op.journalTarget? = some a → a.toNat < 8) :
    SpanKept s (s.otherMade j op rest bus) :=
  ⟨fun _ _ => slotWords_congr fun m _ => otherMade_outside bus outside _ m, fun clear => clear.otherMade bus outside⟩

/-- A write to a slot outside the span that leaves the end slot's tag word. -/
theorem spanKept_otherMade_slot {slot w : Nat} (target : op.journalTarget? = some (slotAddr slot w))
    (inJournal : slot < 4096) (inSlot : w < 8) (outside : ∀ i < s.ec.usage, s.ec.slotOf i ≠ slot)
    (endKept : s.ec.endSlot ≠ slot ∨ 0 ≠ w) : SpanKept s (s.otherMade j op rest bus) :=
  ⟨fun i below => otherMade_otherSlot bus target inJournal inSlot (outside i below),
    fun clear => tagClear_otherMade bus target inJournal inSlot endKept clear⟩

theorem outside_of_none (none : op.journalTarget? = none) : ∀ a, op.journalTarget? = some a → a.toNat < 8 :=
  fun _ target => nomatch none.symm.trans target

end

/-! ### Appends -/

theorem appendOps_drop_read (r : RecordHead) (next : Nat) {k : Nat} (reading : k < 4) :
    ∃ a, (appendOps r next).drop k = .readOld a :: (appendOps r next).drop (k + 1) := by
  interval_cases k <;> exact ⟨_, rfl⟩

/-- The write of record word k − 4. -/
theorem appendOps_drop_record (r : RecordHead) (next : Nat) {k : Nat} (first : 5 ≤ k) (last : k < 12) :
    ∃ op, (appendOps r next).drop k = op :: (appendOps r next).drop (k + 1) ∧
      op.journalTarget? = some (slotAddr r.slot (k - 4)) ∧ op.isTag = false ∧ (∀ s, op.reads? s = none) ∧
      ∀ (j : Job) (bus : UpstreamBus), j.kind = .append r →
        op.write? j bus = some (journalWrite (slotAddr r.slot (k - 4)) (appendWord r j.reads (k - 4))) := by
  obtain below | rfl : k < 11 ∨ k = 11 := by omega
  · interval_cases k <;> exact ⟨_, rfl, rfl, rfl, fun _ => rfl, fun _ _ _ => rfl⟩
  · refine ⟨_, rfl, rfl, rfl, fun _ => rfl, fun j bus kind => ?_⟩
    rw [WordOp.write?, kind]
    rfl

/-- Where an append stands: reading, about to clear the slot after head, writing the record's words, or about to write its
tag. -/
theorem append_phases {k : Nat} (atMost : k ≤ 12) : k < 4 ∨ k = 4 ∨ (5 ≤ k ∧ k < 12) ∨ k = 12 := by omega

section
variable {s : State} {j : Job} {op : WordOp} {rest : List WordOp} (bus : UpstreamBus) {r : RecordHead}

theorem appendUnderWay_otherMade (progress : InProgress s j op rest) (kind : j.kind = .append r) (noTag : op.isTag = false)
    (wf : MemoryInv s) (live : s.ec.state.isLive = true) (span : SpanInv s) (append : AppendUnderWay s j r) :
    SpanKept s (s.otherMade j op rest bus) ∧ AppendUnderWay (s.otherMade j op rest bus) (s.jobAfter j op rest) r := by
  have ec := s.otherMade_ec j op rest bus
  have left : (s.jobAfter j op rest).todo = rest := State.jobAfter_todo (by simp [kind])
  have atHead : s.ec.endSlot = s.ec.head := span.1 (.inl live)
  obtain ⟨k, atMost, beats, beatsOk, todo, reads, room, slot, tag, cleared, written⟩ := append
  have headLt : s.ec.head < 4096 := s.ec.slotOf_lt_journal _
  have nextLt : s.ec.slotOf (s.ec.usage + 1) < 4096 := s.ec.slotOf_lt_journal _
  have different {i k : Nat} (hi : i ≤ s.ec.usage + 1) (hk : k ≤ s.ec.usage + 1) (ne : i ≠ k) : s.ec.slotOf i ≠ s.ec.slotOf k :=
    fun same => ne (Ec.slotOf_injective (by omega) (by omega) same)
  have next_ne_head : s.ec.slotOf (s.ec.usage + 1) ≠ s.ec.head := different (by omega) (by omega) (by omega)
  unfold AppendUnderWay
  rw [ec, left]
  rw [progress.2] at todo
  rcases append_phases atMost with reading | rfl | ⟨first, last⟩ | rfl
  · obtain ⟨a, drop⟩ := appendOps_drop_read r (s.ec.slotOf (s.ec.usage + 1)) reading
    rw [drop, List.cons_append, List.cons.injEq] at todo
    obtain ⟨rfl, rest_eq⟩ := todo
    refine ⟨spanKept_otherMade bus nofun, k + 1, by omega, beats, beatsOk, rest_eq, ?_, room, slot, tag, fun _ => by omega,
      fun m _ _ _ => by omega⟩
    show (j.reads ++ [_]).length = _
    rw [List.length_append, reads]
    simp only [List.length_cons, List.length_nil]
    omega
  · rw [show (appendOps r (s.ec.slotOf (s.ec.usage + 1))).drop 4 = .writeJournal (slotAddr (s.ec.slotOf (s.ec.usage + 1)) 0) 0 ::
        (appendOps r (s.ec.slotOf (s.ec.usage + 1))).drop 5 from rfl, List.cons_append, List.cons.injEq] at todo
    obtain ⟨rfl, rest_eq⟩ := todo
    refine ⟨spanKept_otherMade_slot bus rfl nextLt (by decide) (fun i below => different (by omega) (by omega) (by omega))
      (.inl (by rw [atHead]; exact next_ne_head.symm)), 5, by omega, beats, beatsOk, rest_eq, ?_, room, slot, tag,
      fun _ => tagClear_cleared bus nextLt wf, fun m _ _ _ => by omega⟩
    rw [State.jobAfter, State.readsAfter_of_write j s rfl, reads]
    rfl
  · obtain ⟨q, drop, target, -, noRead, write⟩ := appendOps_drop_record r (s.ec.slotOf (s.ec.usage + 1)) first last
    rw [drop, List.cons_append, List.cons.injEq] at todo
    obtain ⟨rfl, rest_eq⟩ := todo
    have reads' : (s.jobAfter j op rest).reads = j.reads := State.readsAfter_of_write j s (noRead s)
    have slotLt : r.slot < 4096 := slot ▸ headLt
    have word : k - 4 < 8 := by omega
    rw [reads']
    refine ⟨spanKept_otherMade_slot bus target slotLt word (fun i below => slot ▸ different (by omega) (by omega) (by omega))
      (.inr (by omega)), k + 1, by omega, beats, beatsOk, rest_eq, by omega, room, slot, tag,
      fun _ => tagClear_otherMade bus target slotLt word (.inl (slot ▸ next_ne_head)) (cleared first), fun m low high made => ?_⟩
    by_cases this : m = k - 4
    · subst this
      have addr : (slotAddr r.slot (k - 4)).toNat = 8 + 8 * r.slot + (k - 4) := toNat_slotAddr slotLt word
      rw [s.otherMade_journalMem j op rest bus (write j bus kind), addr]
      exact Memory.readWord_writeWord_same _ _ _ wf.2
    · rw [otherMade_otherWord bus target slotLt word (.inr this) (by omega)]
      exact written m low high (by omega)
  · exact absurd noTag (by
      rw [show (appendOps r (s.ec.slotOf (s.ec.usage + 1))).drop 12 = [.writeTag (slotAddr r.slot 0) r.tag] from rfl,
        List.singleton_append, List.cons.injEq] at todo
      obtain ⟨rfl, -⟩ := todo
      exact nofun)

/-- The eight words of a slot. -/
theorem slotWords_eq (m : Memory) (slot : Nat) : slotWords m slot =
    [m.readWord (8 + 8 * slot), m.readWord (8 + 8 * slot + 1), m.readWord (8 + 8 * slot + 2), m.readWord (8 + 8 * slot + 3),
     m.readWord (8 + 8 * slot + 4), m.readWord (8 + 8 * slot + 5), m.readWord (8 + 8 * slot + 6),
     m.readWord (8 + 8 * slot + 7)] := rfl

/-- The tag write makes the slot at head a good record of the live epoch. -/
theorem slotWords_tagged {m : Memory} (wf : Memory.wf m = true) {e : Epoch} {n : Nat} (small : n < 4096) (tag : r.tag = tagWord e n)
    {old : List Word} (reads : old.length = 4)
    (written : ∀ w, 1 ≤ w → w ≤ 7 → m.readWord (8 + 8 * r.slot + w) = appendWord r old w) :
    classifySlot e n (slotWords (m.writeWord (8 + 8 * r.slot) 0xF r.tag) r.slot) = .good ∧
      slotWord (slotWords (m.writeWord (8 + 8 * r.slot) 0xF r.tag) r.slot) 1 = lineWord r.line := by
  obtain ⟨o0, o1, o2, o3, rfl⟩ : ∃ o0 o1 o2 o3, old = [o0, o1, o2, o3] := by
    match old, reads with
    | [o0, o1, o2, o3], _ => exact ⟨o0, o1, o2, o3, rfl⟩
  have word (w : Nat) (low : 1 ≤ w) (high : w ≤ 7) :
      (m.writeWord (8 + 8 * r.slot) 0xF r.tag).readWord (8 + 8 * r.slot + w) = appendWord r [o0, o1, o2, o3] w := by
    rw [Memory.readWord_writeWord_other _ _ _ _ _ (by omega)]
    exact written w low high
  rw [slotWords_eq, Memory.readWord_writeWord_same _ _ _ wf, word 1 (by decide) (by decide), word 2 (by decide) (by decide),
    word 3 (by decide) (by decide), word 4 (by decide) (by decide), word 5 (by decide) (by decide),
    word 6 (by decide) (by decide), word 7 (by decide) (by decide)]
  exact ⟨classifySlot_append e small tag o0 o1 o2 o3, rfl⟩

/-- An append whose tag write is next has made every other write. -/
theorem AppendUnderWay.of_tag {a : JournalAddr} {tag : Word} (append : AppendUnderWay s j r)
    (todo : j.todo = .writeTag a tag :: rest) :
    a = slotAddr r.slot 0 ∧ tag = r.tag ∧ (∀ op ∈ rest, op.journalTarget? = none ∧ op.isTag = false) ∧ j.reads.length = 4 ∧
      s.ec.usage + 1 < s.ec.size ∧ r.slot = s.ec.head ∧ r.tag = tagWord s.ec.epoch s.ec.usage ∧
      TagClear s (s.ec.slotOf (s.ec.usage + 1)) ∧
      ∀ w, 1 ≤ w → w ≤ 7 → s.journalMem.readWord (8 + 8 * r.slot + w) = appendWord r j.reads w := by
  obtain ⟨k, atMost, beats, beatsOk, plan, reads, room, slot, tag, cleared, written⟩ := append
  rw [todo] at plan
  rcases append_phases atMost with reading | rfl | ⟨first, last⟩ | rfl
  · obtain ⟨b, drop⟩ := appendOps_drop_read r (s.ec.slotOf (s.ec.usage + 1)) reading
    rw [drop] at plan
    exact nomatch (List.cons.inj plan).1
  · exact nomatch (List.cons.inj plan).1
  · obtain ⟨q, drop, -, noTag, -⟩ := appendOps_drop_record r (s.ec.slotOf (s.ec.usage + 1)) first last
    rw [drop] at plan
    obtain ⟨rfl, -⟩ := List.cons.inj plan
    exact nomatch noTag
  · obtain ⟨write, rfl⟩ := List.cons.inj plan
    cases write
    exact ⟨rfl, rfl, beatsOk, reads, room, slot, tag, cleared (by decide), fun w low high => written w low high (by omega)⟩

/-- The tag write leaves the records of the span, adds the append's own, and finds the slot after it cleared. -/
theorem tagMade_words {a : JournalAddr} {tag : Word} (wf : MemoryInv s) (todo : j.todo = .writeTag a tag :: rest)
    (append : AppendUnderWay s j r) :
      (∀ i < s.ec.usage, slotWords (s.tagMade j r a tag rest).journalMem (s.ec.slotOf i) = slotWords s.journalMem (s.ec.slotOf i)) ∧
      classifySlot s.ec.epoch s.ec.usage (slotWords (s.tagMade j r a tag rest).journalMem s.ec.head) = .good ∧
      slotWord (slotWords (s.tagMade j r a tag rest).journalMem s.ec.head) 1 = lineWord r.line ∧
      TagClear (s.tagMade j r a tag rest) (s.ec.slotOf (s.ec.usage + 1)) := by
  obtain ⟨rfl, rfl, -, reads, room, slot, tag, cleared, written⟩ := append.of_tag todo
  have slotLt : r.slot < 4096 := slot ▸ s.ec.slotOf_lt_journal _
  have small : s.ec.usage < 4096 := by have := s.ec.size_le; omega
  have addr : (slotAddr r.slot 0).toNat = 8 + 8 * r.slot := toNat_slotAddr slotLt (by decide)
  have other {i : Nat} (hi : i ≤ s.ec.usage + 1) (ne : i ≠ s.ec.usage) : s.ec.slotOf i ≠ r.slot := fun same =>
    ne (Ec.slotOf_injective (by omega) (by omega) (same.trans slot))
  have mem : (s.tagMade j r (slotAddr r.slot 0) r.tag rest).journalMem = s.journalMem.writeWord (8 + 8 * r.slot) 0xF r.tag := by
    rw [← addr]
    rfl
  have word {n w : Nat} (ne : n ≠ r.slot) (inSlot : w < 8) :
      (s.journalMem.writeWord (8 + 8 * r.slot) 0xF r.tag).readWord (8 + 8 * n + w) = s.journalMem.readWord (8 + 8 * n + w) :=
    Memory.readWord_writeWord_other _ _ _ _ _ (by omega)
  obtain ⟨good, line⟩ := slotWords_tagged wf.2 small tag reads written
  rw [TagClear, mem, ← slot]
  exact ⟨fun i below => slotWords_congr fun w inSlot => word (other (by omega) (Nat.ne_of_lt below)) inSlot, good, line,
    (word (other le_rfl (by omega)) (by decide : 0 < 8)).trans cleared⟩

theorem spanInv_tagMade {a : JournalAddr} {tag : Word} (wf : MemoryInv s) (live : s.ec.state.isLive = true) (span : SpanInv s)
    (todo : j.todo = .writeTag a tag :: rest) (append : AppendUnderWay s j r) : SpanInv (s.tagMade j r a tag rest) := by
  obtain ⟨-, -, good, -⟩ := span
  obtain ⟨words, joined, -, clear⟩ := tagMade_words wf todo append
  refine spanInv_of_head rfl (fun state : s.ec.state = .scanning => by rw [state] at live; exact nomatch live) ?_ clear
  intro i below
  rcases Nat.lt_succ_iff_lt_or_eq.mp below with below | rfl
  · exact (congrArg (classifySlot s.ec.epoch i) (words i below)).trans (good (.inl (hasSpan_of_isLive live)) i below)
  · exact joined

end

/-! ### The other jobs -/

section
variable {s : State} {j : Job} {op : WordOp} {rest : List WordOp} (bus : UpstreamBus)

theorem layoutWords_outside {a : JournalAddr} {w : Word} (small : a.toNat < 8) :
    ∀ b, (WordOp.writeJournal a w).journalTarget? = some b → b.toNat < 8 := by
  rintro b target
  cases target
  exact small

theorem journalLeft_commit (progress : InProgress s j op rest) {base : Nat} {e : Epoch} {n : Nat}
    (kind : j.kind = .commit base e n ∨ j.kind = .discard base e n) (plan : JournalPlan s j) :
    SpanKept s (s.otherMade j op rest bus) ∧ JournalLeft (s.otherMade j op rest bus) (s.jobAfter j op rest) := by
  have planned : j.todo = [.writeJournal commitAddr (commitWord base e)] ∧ TagClear s base := by
    unfold JournalPlan at plan
    rcases kind with kind | kind <;> rw [kind] at plan <;> exact plan
  obtain ⟨todo, clear⟩ := planned
  obtain ⟨rfl, rfl⟩ := List.cons.inj (progress.2.symm.trans todo)
  have outside := layoutWords_outside (a := commitAddr) (w := commitWord base e) (by decide)
  have left : (s.jobAfter j (.writeJournal commitAddr (commitWord base e)) []).todo = [] :=
    State.jobAfter_todo (by rcases kind with kind | kind <;> simp [kind])
  have same : (s.jobAfter j (.writeJournal commitAddr (commitWord base e)) []).kind = j.kind := rfl
  refine ⟨spanKept_otherMade bus outside, journalLeft_of_last left ?_⟩
  unfold JournalDone
  rw [same]
  rcases kind with kind | kind <;> rw [kind] <;> exact clear.otherMade bus outside

theorem journalLeft_close (progress : InProgress s j op rest) (wf : MemoryInv s) (inRing : s.ec.base < 4096) {e : Epoch}
    (kind : j.kind = .close e) (plan : JournalPlan s j) :
    SpanKept s (s.otherMade j op rest bus) ∧ JournalLeft (s.otherMade j op rest bus) (s.jobAfter j op rest) := by
  have left : (s.jobAfter j op rest).todo = rest := State.jobAfter_todo (by simp [kind])
  have same : (s.jobAfter j op rest).kind = .close e := kind
  have ec := s.otherMade_ec j op rest bus
  unfold JournalPlan at plan
  rw [kind] at plan
  obtain ⟨usage, todo | ⟨todo, clear⟩⟩ := plan <;> obtain ⟨rfl, rfl⟩ := List.cons.inj (progress.2.symm.trans todo)
  · refine ⟨⟨fun i below => absurd below (by omega), tagClear_of_clearing bus inRing wf⟩,
      journalLeft_of_more (by rw [left]; exact List.cons_ne_nil _ _) ?_⟩
    unfold JournalPlan
    rw [same, ec]
    exact ⟨usage, .inr ⟨left, tagClear_cleared bus inRing wf⟩⟩
  · have outside := layoutWords_outside (a := commitAddr) (w := commitWord s.ec.base e) (by decide)
    refine ⟨spanKept_otherMade bus outside, journalLeft_of_last left ?_⟩
    unfold JournalDone
    rw [same, ec]
    exact clear.otherMade bus outside

/-- Slot 0 after one write of a format, the second being the one that clears it. -/
theorem tagClear_formatWrite {c : Fin 5} {k : Nat} {a : JournalAddr} {w : Word} (wf : MemoryInv s) (more : k < 5)
    (write : (formatWrites c)[k]? = some (a, w)) (cleared : 2 ≤ k → TagClear s 0) (second : 1 ≤ k) :
    TagClear (s.otherMade j (.writeJournal a w) rest bus) 0 := by
  interval_cases k <;> cases write
  · exact tagClear_cleared bus (by decide) wf
  all_goals exact (cleared (by decide)).otherMade bus (layoutWords_outside (by decide))

theorem journalLeft_format (progress : InProgress s j op rest) (wf : MemoryInv s) {c : Fin 5} (kind : j.kind = .format c)
    (plan : JournalPlan s j) :
    SpanInv (s.otherMade j op rest bus) ∧ s.ec.state = .formatting ∧
      JournalLeft (s.otherMade j op rest bus) (s.jobAfter j op rest) := by
  have left : (s.jobAfter j op rest).todo = rest := State.jobAfter_todo (by simp [kind])
  have same : (s.jobAfter j op rest).kind = .format c := kind
  have ec := s.otherMade_ec j op rest bus
  unfold JournalPlan at plan
  rw [kind] at plan
  obtain ⟨state, k, more, todo, cleared⟩ := plan
  obtain ⟨a, w, write, drop⟩ := formatOps_drop (c := c) more
  obtain ⟨rfl, rfl⟩ := List.cons.inj (progress.2.symm.trans (todo.trans drop))
  have clear (second : 1 ≤ k) := tagClear_formatWrite (j := j) (rest := (formatOps c).drop (k + 1)) bus wf more write cleared second
  refine ⟨spanInv_of_state (by rw [ec, state]; rfl) (by rw [ec, state]; exact nofun), state, ?_⟩
  by_cases last : k + 1 < 5
  · refine journalLeft_of_more (by rw [left, ne_eq, formatOps_drop_eq_nil_iff]; omega) ?_
    unfold JournalPlan
    rw [same, ec]
    exact ⟨state, k + 1, last, left, fun second => clear (by omega)⟩
  · refine journalLeft_of_last (by rw [left, formatOps_drop_eq_nil_iff]; omega) ?_
    unfold JournalDone
    rw [same]
    exact clear (by omega)

theorem journalLeft_scanStep (progress : InProgress s j op rest) (kind : j.kind = .scanStep)
    (plan : JournalPlan s j) :
    SpanKept s (s.otherMade j op rest bus) ∧ JournalLeft (s.otherMade j op rest bus) (s.jobAfter j op rest) := by
  have left : (s.jobAfter j op rest).todo = rest := State.jobAfter_todo (by simp [kind])
  have same : (s.jobAfter j op rest).kind = .scanStep := kind
  have ec := s.otherMade_ec j op rest bus
  unfold JournalPlan at plan
  rw [kind] at plan
  obtain ⟨k, more, todo, read⟩ := plan
  have slotLt : s.ec.slotOf s.ec.scanCount < 4096 := s.ec.slotOf_lt_journal _
  obtain ⟨rfl, rfl⟩ := List.cons.inj (progress.2.symm.trans (todo.trans (slotReads_drop more)))
  have outside := outside_of_none (op := .readJournal (slotAddr (s.ec.slotOf s.ec.scanCount) k)) rfl
  have words := slotWords_congr fun m (_ : m < 8) => otherMade_outside (s := s) (j := j)
    (rest := (slotReads (s.ec.slotOf s.ec.scanCount)).drop (k + 1)) bus outside (s.ec.slotOf s.ec.scanCount) m
  have reads : (s.jobAfter j (.readJournal (slotAddr (s.ec.slotOf s.ec.scanCount) k))
      ((slotReads (s.ec.slotOf s.ec.scanCount)).drop (k + 1))).reads =
      (slotWords s.journalMem (s.ec.slotOf s.ec.scanCount)).take (k + 1) := by
    rw [take_slotWords_succ _ _ more, ← read, ← toNat_slotAddr slotLt more]
    rfl
  refine ⟨spanKept_otherMade bus outside, ?_⟩
  by_cases last : k + 1 < 8
  · refine journalLeft_of_more (by rw [left, ne_eq, slotReads_drop_eq_nil_iff]; omega) ?_
    unfold JournalPlan
    rw [same, ec]
    exact ⟨k + 1, last, left, by rw [reads, words]⟩
  · refine journalLeft_of_last (by rw [left, slotReads_drop_eq_nil_iff]; omega) ?_
    unfold JournalDone
    rw [same, ec]
    show _ = slotWords _ _
    rw [reads, words, List.take_of_length_le (by simpa [slotWords] using last)]

theorem journalLeft_append (progress : InProgress s j op rest) (wf : MemoryInv s) (live : s.ec.state.isLive = true)
    (span : SpanInv s) {r : RecordHead} (kind : j.kind = .append r) (noTag : op.isTag = false) (plan : JournalPlan s j) :
    SpanKept s (s.otherMade j op rest bus) ∧ JournalLeft (s.otherMade j op rest bus) (s.jobAfter j op rest) := by
  have left : (s.jobAfter j op rest).todo = rest := State.jobAfter_todo (by simp [kind])
  have same : (s.jobAfter j op rest).kind = .append r := kind
  unfold JournalPlan at plan
  rw [kind] at plan
  have after : SpanKept s (s.otherMade j op rest bus) ∧ JournalPlan (s.otherMade j op rest bus) (s.jobAfter j op rest) := by
    unfold JournalPlan
    rw [same]
    rcases plan with append | beats
    · obtain ⟨span', append'⟩ := appendUnderWay_otherMade bus progress kind noTag wf live span append
      exact ⟨span', .inl append'⟩
    · rw [progress.2] at beats
      refine ⟨spanKept_otherMade bus (outside_of_none (beats op List.mem_cons_self).1), .inr fun q mem => ?_⟩
      rw [left] at mem
      exact beats q (List.mem_cons_of_mem _ mem)
  refine ⟨after.1, ?_⟩
  by_cases last : (s.jobAfter j op rest).todo = []
  · refine journalLeft_of_last last ?_
    unfold JournalDone
    rw [same]
    trivial
  · exact journalLeft_of_more last after.2

theorem journalLeft_otherMade (progress : InProgress s j op rest) (other : op.isTag = false ∨ ∀ r, j.kind ≠ .append r)
    (h : JournalInv s) : SpanInv (s.otherMade j op rest bus) ∧
      (s.ec.state ≠ .formatting → SpanKept s (s.otherMade j op rest bus)) ∧
      JournalLeft (s.otherMade j op rest bus) (s.jobAfter j op rest) := by
  obtain ⟨wf, ⟨inRing, -⟩, fits, span, plans⟩ := journalInv_iff.mp h
  have plan := plans j progress.1
  have fits := fits j progress.1
  have of_kept (h : SpanKept s (s.otherMade j op rest bus) ∧ JournalLeft (s.otherMade j op rest bus) (s.jobAfter j op rest)) :
      SpanInv (s.otherMade j op rest bus) ∧ (s.ec.state ≠ .formatting → SpanKept s (s.otherMade j op rest bus)) ∧
        JournalLeft (s.otherMade j op rest bus) (s.jobAfter j op rest) :=
    ⟨span.of_kept (s.otherMade_ec j op rest bus) h.1, fun _ => h.1, h.2⟩
  cases kind : j.kind with
  | commit => exact of_kept (journalLeft_commit bus progress (.inl kind) plan)
  | discard => exact of_kept (journalLeft_commit bus progress (.inr kind) plan)
  | close => exact of_kept (journalLeft_close bus progress wf (Nat.lt_of_lt_of_le inRing s.ec.size_le) kind plan)
  | format =>
    obtain ⟨after, state, left⟩ := journalLeft_format bus progress wf kind plan
    exact ⟨after, fun other => absurd state other, left⟩
  | scanStep => exact of_kept (journalLeft_scanStep bus progress kind plan)
  | append r =>
    rw [kind] at fits
    exact of_kept (journalLeft_append bus progress wf fits span kind (other.resolve_right fun no => no r kind) plan)
  | upRead | upWrite | headerRead | restore | readRecord =>
    have same : (s.jobAfter j op rest).kind = j.kind := rfl
    rw [kind] at same
    unfold JournalPlan at plan
    rw [kind, progress.2] at plan
    refine of_kept ⟨spanKept_otherMade bus (outside_of_none (plan op List.mem_cons_self)), ?_⟩
    by_cases last : (s.jobAfter j op rest).todo = []
    · refine journalLeft_of_last last ?_
      unfold JournalDone
      rw [same]
      trivial
    · refine journalLeft_of_more last ?_
      unfold JournalPlan
      rw [same]
      exact fun q mem => (Job.mem_remaining mem).elim (fun left => plan q (List.mem_cons_of_mem _ left)) id

theorem journalLeft_tagMade {a : JournalAddr} {tag : Word} {r : RecordHead} (progress : InProgress s j (.writeTag a tag) rest)
    (kind : j.kind = .append r) (h : JournalInv s) :
    SpanInv (s.tagMade j r a tag rest) ∧ JournalLeft (s.tagMade j r a tag rest) { j with todo := rest } := by
  obtain ⟨wf, -, fits, span, plans⟩ := journalInv_iff.mp h
  have live : s.ec.state.isLive = true := by simpa [kind, JobKind.fits] using fits j progress.1
  have plan := plans j progress.1
  unfold JournalPlan at plan
  rw [kind] at plan
  rcases plan with append | beats
  · obtain ⟨-, -, beats, -⟩ := append.of_tag progress.2
    refine ⟨spanInv_tagMade wf live span progress.2 append, ?_⟩
    by_cases last : rest = []
    · refine journalLeft_of_last last ?_
      unfold JournalDone
      rw [kind]
      trivial
    · refine journalLeft_of_more last ?_
      unfold JournalPlan
      rw [kind]
      exact .inr beats
  · have noTag : true = false := (beats (.writeTag a tag) (progress.2 ▸ List.mem_cons_self)).2
    exact nomatch noTag

end

/-! ### The invariant is kept -/

theorem JournalDone.same {s t : State} {j : Job} (h : JournalDone s j) (core : t.core = s.core) : JournalDone t j := by
  obtain ⟨-, -, code, base, -, -, -, -, scanCount, -, -, -, journal⟩ := State.core_eq_iff.mp core
  unfold JournalDone TagClear Ec.slotOf Ec.size at h ⊢
  rw [code, base, scanCount, journal]
  exact h

/-- A plan speaks of the EC's copy of the journal and of journal memory; a format's plan asks for FORMATTING. -/
theorem JournalPlan.of_eq {s t : State} {j : Job} (plan : JournalPlan s j) (code : t.ec.code = s.ec.code)
    (base : t.ec.base = s.ec.base) (usage : t.ec.usage = s.ec.usage) (epoch : t.ec.epoch = s.ec.epoch)
    (scanCount : t.ec.scanCount = s.ec.scanCount) (mem : t.journalMem = s.journalMem)
    (state : s.ec.state = .formatting → t.ec.state = .formatting) : JournalPlan t j := by
  unfold JournalPlan AppendUnderWay TagClear Ec.head Ec.slotOf Ec.size at plan ⊢
  rw [code, base, usage, epoch, scanCount, mem]
  cases kind : j.kind <;> rw [kind] at plan <;> try exact plan
  exact ⟨state plan.1, plan.2⟩

theorem JournalKept.same {s t : State} (h : JournalKept s) (core : t.core = s.core) : JournalKept t := by
  obtain ⟨job, state, code, base, usage, epoch, -, -, scanCount, -, -, -, journal⟩ := State.core_eq_iff.mp core
  exact ⟨h.1.same core, fun j held =>
    (h.2 j (job ▸ held)).of_eq code base usage epoch scanCount journal fun formatting => state.trans formatting⟩

/-- What is left of the job once a word operation has been made, with the span. -/
def JournalLefts (s : State) : Prop := SpanInv s ∧ ∀ j, s.mpa.job = some j → JournalLeft s j

theorem JournalLefts.same {s t : State} (h : JournalLefts s) (core : t.core = s.core) : JournalLefts t := by
  refine ⟨h.1.same core, fun j held => ?_⟩
  obtain ⟨job, state, code, base, usage, epoch, -, -, scanCount, -, -, -, journal⟩ := State.core_eq_iff.mp core
  have left := h.2 j (job ▸ held)
  unfold JournalLeft at left ⊢
  split
  case isTrue last => exact JournalDone.same (by rwa [if_pos last] at left) core
  case isFalse more =>
    rw [if_neg more] at left
    exact left.of_eq code base usage epoch scanCount journal fun formatting => state.trans formatting

theorem journalMade_opMade {s : State} {j : Job} {op : WordOp} {rest : List WordOp} (bus : UpstreamBus)
    (progress : InProgress s j op rest) (h : JournalInv s) : JournalMade (s.opMade j op rest bus) := by
  have lefts : JournalLefts (s.opMade j op rest bus) := by
    refine made_of_each (G := JournalInv) JournalLefts.same ?_ ?_ bus progress h
    · intro u i a tag rest r progress kind hu
      obtain ⟨span, left⟩ := journalLeft_tagMade progress kind hu
      exact ⟨span, fun k made => by cases made; exact left⟩
    · intro u i op rest bus progress other hu
      obtain ⟨span, -, left⟩ := journalLeft_otherMade bus progress other hu
      exact ⟨span, fun k made => by cases made; exact left⟩
  obtain ⟨-, ring, fits, -⟩ := journalInv_iff.mp h
  exact ⟨made_of_each RingInv.same RingInv.tagMade RingInv.otherMade bus progress ring, fits.opMade bus progress, lefts⟩

/-- A job with nothing left to make is done: the plans that end with a journal write have one left. -/
theorem journalDone_of_plan {s : State} {j : Job} (last : j.todo = []) (plan : JournalPlan s j) : JournalDone s j := by
  unfold JournalPlan at plan
  unfold JournalDone
  rw [last] at plan
  cases kind : j.kind <;> rw [kind] at plan
  case commit | discard => exact nomatch plan.1
  case close => rcases plan with ⟨-, plan | ⟨plan, -⟩⟩ <;> exact nomatch plan
  case format =>
    obtain ⟨-, k, more, empty, -⟩ := plan
    exact absurd (formatOps_drop_eq_nil_iff.mp empty.symm) (Nat.not_le.mpr more)
  case scanStep =>
    obtain ⟨k, more, empty, -⟩ := plan
    exact absurd (slotReads_drop_eq_nil_iff.mp empty.symm) (Nat.not_le.mpr more)
  all_goals trivial

theorem journalMade_of_last {s : State} {j : Job} (job : s.mpa.job = some j) (last : j.todo = []) (h : JournalInv s) :
    JournalMade s := by
  obtain ⟨-, ring, fits, span, plans⟩ := journalInv_iff.mp h
  refine ⟨ring, fits, span, fun i held => ?_⟩
  cases job.symm.trans held
  exact journalLeft_of_last last (journalDone_of_plan last (plans j job))

theorem journalKept_goesOn {s : State} {j : Job} (job : s.mpa.job = some j) (more : j.todo ≠ []) (h : JournalMade s) :
    JournalKept s := by
  obtain ⟨-, -, span, lefts⟩ := h
  refine ⟨span, fun i held => ?_⟩
  cases job.symm.trans held
  have left := lefts j job
  rwa [JournalLeft, if_neg more] at left

theorem journalKept_of_free {s : State} (free : s.mpa.job = none) (span : SpanInv s) : JournalKept s :=
  ⟨span, fun _ job => nomatch free.symm.trans job⟩

/-- A change of EC state out of one that is not FORMATTING. -/
theorem JournalKept.into {s t : State} (h : JournalKept s) (span : SpanInv t) (job : t.mpa.job = s.mpa.job)
    (code : t.ec.code = s.ec.code) (base : t.ec.base = s.ec.base) (usage : t.ec.usage = s.ec.usage)
    (epoch : t.ec.epoch = s.ec.epoch) (scanCount : t.ec.scanCount = s.ec.scanCount) (mem : t.journalMem = s.journalMem)
    (state : s.ec.state ≠ .formatting) : JournalKept t :=
  ⟨span, fun j held => (h.2 j (job ▸ held)).of_eq code base usage epoch scanCount mem fun h => absurd h state⟩

/-- In ACTIVE, COMMITTING and RECOVERY_HOLD the span ends at head. -/
theorem SpanInv.atHead {s : State} (h : SpanInv s) (state : s.ec.state.isLive = true ∨ s.ec.state = .recoveryHold) :
    s.ec.endSlot = s.ec.head ∧ SpanGood s s.ec.usage ∧ TagClear s s.ec.head := by
  obtain ⟨atHead, -, good, clear⟩ := h
  have hasSpan : s.ec.state.hasSpan = true := by
    rcases state with live | held
    · exact hasSpan_of_isLive live
    · rw [held]
      rfl
  have atHead := atHead (state.imp_right .inr)
  exact ⟨atHead, good (.inl hasSpan), atHead ▸ clear hasSpan⟩

theorem JournalKept.beginJob {s : State} {k : JobKind} {ops : List WordOp} (span : SpanInv s)
    (plan : JournalPlan (s.beginJob k ops) { kind := k, todo := ops, reads := [] }) : JournalKept (s.beginJob k ops) := by
  refine ⟨span, fun j begun => ?_⟩
  cases begun
  exact plan

theorem journalKept_upGranted {s : State} {tr : Transaction} {kind : JobKind} {ops : List WordOp}
    (job : UpJob s tr kind ops) (span : SpanInv s) : JournalKept (s.beginJob kind ops) := by
  cases job with
  | read => exact .beginJob span fun _ mem => Transaction.readOps_no_target mem
  | write | hit => exact .beginJob span fun _ mem => (Transaction.writeOps_beat mem).1
  | append _ _ room =>
    exact .beginJob span (.inl ⟨0, Nat.zero_le _, tr.writeOps, fun _ mem => Transaction.writeOps_beat mem, rfl, rfl, room, rfl, rfl,
      nofun, fun _ _ _ made => absurd made (by omega)⟩)

theorem journalKept_ecGranted {s t : State} (grant : EcGrant s t) (h : JournalKept s) : JournalKept t := by
  obtain ⟨span, plans⟩ := h
  cases grant with
  | nothing => exact ⟨span, plans⟩
  | headerRead => exact .beginJob span fun _ mem => headerOps_no_target mem
  | scanStep => exact .beginJob span ⟨0, by decide, rfl, rfl⟩
  | commit state =>
    obtain ⟨-, -, clear⟩ := span.atHead (.inl (by rw [state]; rfl))
    exact .beginJob span ⟨rfl, clear⟩
  | discard state =>
    obtain ⟨-, -, clear⟩ := span.atHead (.inr state)
    exact .beginJob span ⟨rfl, clear⟩
  | close _ walked => exact .beginJob span ⟨walked, .inl rfl⟩
  | restore => exact .beginJob span fun _ mem => slotReads_no_target mem
  | format state => exact .beginJob span ⟨state, 0, by decide, rfl, nofun⟩

theorem journalKept_led : CommandsTo (fun _ => True) JournalInv JournalKept :=
  CoreTo.commandsTo (unchanged := JournalKept.same) {
  same := fun h => h.kept.same
  committing := by
    intro s _ state h
    obtain ⟨atHead, good, clear⟩ := h.span.atHead (.inl (by rw [state]; rfl))
    exact h.kept.into (spanInv_of_head atHead nofun good clear) rfl rfl rfl rfl rfl rfl rfl (by simp [state])
  rollingBack := by
    intro s _ state h
    obtain ⟨-, good, clear⟩ := h.span.atHead (state.imp_left fun active => by rw [active]; rfl)
    exact h.kept.into (spanInv_of_head rfl nofun good clear) rfl rfl rfl rfl rfl rfl rfl (by rcases state with s | s <;> simp [s])
  formatting := fun _ state h => h.kept.into (spanInv_of_state rfl nofun) rfl rfl rfl rfl rfl rfl rfl
    (by rcases state with s | s | s | ⟨s, -⟩ <;> simp [s])
  upGranted := fun _ job h => journalKept_upGranted job h.span
  ecGranted := fun _ grant h => journalKept_ecGranted grant h.kept
  lkGranted := fun _ _ h => .beginJob h.span fun _ mem => slotReads_no_target mem
  completed := completed_of_made (fun h same => h.same (State.core_eq_of_view_eq same)) journalMade_opMade journalKept_goesOn
    (fun job last ended h => journalKept_of_free ended.free (spanInv_ends job last ended h))
  ended := fun job last ended h => journalKept_of_free ended.free (spanInv_ends job last ended (journalMade_of_last job last h))
  reset := fun _ _ _ _ => journalKept_of_free rfl (spanInv_of_base (ringSize_pos _) rfl rfl (fun _ => rfl) nofun) }

theorem journalInv_kept : CommandsTo (fun _ => True) JournalInv JournalInv := by
  have kept : CommandsTo (fun _ => True) JournalInv (fun s => MemoryInv s ∧ RingInv s ∧ JobInv s ∧ JournalKept s) :=
    (memoryInv_kept.mono fun h => (journalInv_iff.mp h).1).and ((ringInv_kept.mono fun h => (journalInv_iff.mp h).2.1).and
      ((jobInv_kept.mono fun h => (journalInv_iff.mp h).2.2.1).and journalKept_led))
  rwa [← funext fun s => propext (@journalInv_iff s)] at kept

/-- Settles O59: an append's words go to the slot at head with the next one cleared, its tag write makes the record good, a
restore takes the last record off, and every other job leaves the slots of the span alone. -/
theorem journalHoldsTheLiveSpan : Obligations.JournalHoldsTheLiveSpan := fun _ _ h next => journalInv_kept.step h next

end Sys2Proof.Machine
end

