-- ==== Sys2Proof/Proofs/JltRecords.lean ====
section
/-! PROOFS. Every line held in the JLT has a record of the live epoch in the span (R70). -/

namespace Sys2Proof.Machine

/-! ### Tables without entries -/

theorem Jlt.getElem_eq_none {t : Jlt} (none : t.count = 0) (i : Fin 16) (way : Fin 4) : t[i][way] = Option.none := by
  have set : (t[i].toList).countP Option.isSome = 0 := by
    refine Nat.eq_zero_of_le_zero (none ▸ List.single_le_sum (fun _ _ => Nat.zero_le _) _ (List.mem_map_of_mem ?_))
    simp
  rw [List.countP_eq_zero] at set
  simpa using set t[i][way] (by simp)

theorem jltRecords_of_count_eq_zero {s : State} (none : s.wju.jlt.count = 0) : JltRecordsInv s := by
  intro i way l held
  exact nomatch (s.wju.jlt.getElem_eq_none none i way).symm.trans held

theorem JltRecordsInv.same {s t : State} (h : JltRecordsInv s) (core : t.core = s.core) : JltRecordsInv t := by
  obtain ⟨-, -, code, base, usage, epoch, -, -, -, jlt, -, -, journal⟩ := State.core_eq_iff.mp core
  unfold JltRecordsInv Ec.slotOf Ec.size at h ⊢
  rw [code, base, usage, epoch, jlt, journal]
  exact h

theorem jltRecords_serve {s : State} (none : s.wju.jlt.count = 0) : JltRecordsInv s.serve :=
  serve_of_each JltRecordsInv.same (jltRecords_of_count_eq_zero none) (jltRecords_of_count_eq_zero none)
    (jltRecords_of_count_eq_zero Jlt.count_empty)

/-- In every state but ACTIVE and COMMITTING the table holds no entry. -/
theorem JltInv.count_eq_zero {s : State} (h : JltInv s) (state : s.ec.state.isLive = false) : s.wju.jlt.count = 0 := by
  obtain ⟨-, -, counted, -⟩ := h
  exact JltCounted.count_eq_zero counted (.inl state)

/-! ### Ends of jobs -/

theorem jltRecords_ends {s t : State} {j : Job} (job : s.mpa.job = some j) (ended : Ends s j.kind j.reads t)
    (h : JltInv s) (records : JltRecordsInv s) : JltRecordsInv t := by
  have fits := h.1 j job
  have idle := h.count_eq_zero
  generalize j.kind = k, j.reads = reads at ended fits
  have scanning (state : (s.ec.state == .scanning) = true) : s.wju.jlt.count = 0 := idle (by rw [eq_of_beq state]; rfl)
  have rolling (state : (s.ec.state == .rollingBack) = true) : s.wju.jlt.count = 0 := idle (by rw [eq_of_beq state]; rfl)
  cases ended with
  | up | readRecord => exact records
  | header | noHeader | scanGood | scanBreaks | scanHolds => exact jltRecords_of_count_eq_zero (scanning fits)
  | scanServes => exact jltRecords_serve (scanning fits)
  | scanRecovers => exact jltRecords_of_count_eq_zero Jlt.count_empty
  | restored | restoreBreaks => exact jltRecords_of_count_eq_zero (rolling fits)
  | close => exact jltRecords_serve (rolling fits)
  | format | commit | discard => exact jltRecords_serve Jlt.count_empty

/-! ### Word operations -/

/-- The tag write joins the record of the line it puts in the table. -/
theorem jltRecords_tagMade {s : State} {j : Job} {a : JournalAddr} {tag : Word} {rest : List WordOp} {r : RecordHead}
    (progress : InProgress s j (.writeTag a tag) rest) (kind : j.kind = .append r) (journal : JournalInv s)
    (records : JltRecordsInv s) : JltRecordsInv (s.tagMade j r a tag rest) := by
  obtain ⟨wf, -, -, -, plans⟩ := journalInv_iff.mp journal
  have plan := plans j progress.1
  unfold JournalPlan at plan
  rw [kind] at plan
  have append : AppendUnderWay s j r := plan.resolve_right fun beats => by
    have noTag : true = false := (beats (.writeTag a tag) (progress.2 ▸ List.mem_cons_self)).2
    exact nomatch noTag
  obtain ⟨words, good, line, -⟩ := tagMade_words wf progress.2 append
  obtain ⟨way', put, -⟩ := s.wju.insert_jlt r.line
  intro i way l held
  have held : (s.wju.insert r.line).jlt[i][way] = some l := held
  rw [put, Jlt.getElem_getElem_put] at held
  split at held
  · cases held
    exact ⟨s.ec.usage, Nat.lt_succ_self _, good, (congrArg wordLine line).trans (wordLine_lineWord r.line)⟩
  · obtain ⟨n, below, goodBefore, lineBefore⟩ := records i way l held
    rw [← words n below] at goodBefore lineBefore
    exact ⟨n, Nat.lt_succ_of_lt below, goodBefore, lineBefore⟩

theorem jltRecords_otherMade {s : State} {j : Job} {op : WordOp} {rest : List WordOp} (bus : UpstreamBus)
    (progress : InProgress s j op rest) (other : op.isTag = false ∨ ∀ r, j.kind ≠ .append r) (h : JltInv s)
    (journal : JournalInv s) (records : JltRecordsInv s) : JltRecordsInv (s.otherMade j op rest bus) := by
  have wju : (s.otherMade j op rest bus).wju = s.wju := by simp [State.otherMade]
  by_cases formatting : s.ec.state = .formatting
  · refine jltRecords_of_count_eq_zero ?_
    rw [wju]
    exact h.count_eq_zero (by rw [formatting]; rfl)
  · obtain ⟨-, kept, -⟩ := journalLeft_otherMade bus progress other journal
    obtain ⟨words, -⟩ := kept formatting
    unfold JltRecordsInv
    rw [State.otherMade_ec, wju]
    intro i way l held
    obtain ⟨n, below, good, line⟩ := records i way l held
    rw [← words n below] at good line
    exact ⟨n, below, good, line⟩

/-! ### The invariants together -/

/-- The JLT and the journal, and the record of each line held. -/
def RecordsTogether (s : State) : Prop := JltInv s ∧ JournalInv s ∧ JltRecordsInv s

theorem RecordsTogether.records {s : State} (h : RecordsTogether s) : JltRecordsInv s := h.2.2

theorem jltRecords_made {s : State} {j : Job} {op : WordOp} {rest : List WordOp} (bus : UpstreamBus)
    (progress : InProgress s j op rest) (h : RecordsTogether s) :
    JltInv (s.opMade j op rest bus) ∧ JltRecordsInv (s.opMade j op rest bus) :=
  ⟨jltInv_opMade bus progress h.1, made_of_each (G := RecordsTogether) JltRecordsInv.same
    (fun progress kind ⟨_, journal, records⟩ => jltRecords_tagMade progress kind journal records)
    (fun bus progress other ⟨jlt, journal, records⟩ => jltRecords_otherMade bus progress other jlt journal records)
    bus progress h⟩

theorem jltRecords_led : CommandsTo (fun _ => True) RecordsTogether JltRecordsInv :=
  CoreTo.commandsTo (unchanged := JltRecordsInv.same) {
  same := fun h => h.records.same
  committing := fun _ _ h => h.records
  rollingBack := fun _ _ _ => jltRecords_of_count_eq_zero Jlt.count_empty
  formatting := by
    rintro s - state ⟨⟨-, -, counted, -⟩, -⟩
    refine jltRecords_of_count_eq_zero (JltCounted.count_eq_zero (s := s) counted ?_)
    rcases state with state | state | state | ⟨-, usage⟩
    · exact .inl (by rw [state]; rfl)
    · exact .inl (by rw [state]; rfl)
    · exact .inl (by rw [state]; rfl)
    · exact .inr usage
  upGranted := fun _ _ h => h.records
  ecGranted := fun _ grant h => by cases grant <;> exact h.records
  lkGranted := fun _ _ h => h.records
  completed := completed_of_made (H := fun s => JltInv s ∧ JltRecordsInv s)
    (fun h same => h.same (State.core_eq_of_view_eq same)) jltRecords_made
    (fun _ _ h => h.2) (fun job _ ended h => jltRecords_ends job ended h.1 h.2)
  ended := fun job _ ended h => jltRecords_ends job ended h.1 h.records
  reset := fun _ _ _ _ => jltRecords_of_count_eq_zero Jlt.count_empty }

theorem recordsTogether_kept : CommandsTo (fun _ => True) RecordsTogether RecordsTogether :=
  (jltInv_kept.mono fun h => h.1).and ((journalInv_kept.mono fun h => h.2.1).and jltRecords_led)

/-- Settles O56: the tag write puts one line, which missed, in the table, and its record in the span; whatever leaves ACTIVE
and COMMITTING, or moves the span, empties the table. -/
theorem jltStaysOrdered : Obligations.JltStaysOrdered := fun _ _ next jlt =>
  ⟨jltInv_kept.step jlt next, fun journal records => (recordsTogether_kept.step ⟨jlt, journal, records⟩ next).records⟩

end Sys2Proof.Machine
end

