-- ==== Sys2Proof/Proofs/SourceSets.lean ====
section
/-! PROOFS. The sets of sources fit the EC state (R89, R94, R95, R103, R107, R112). -/

namespace Sys2Proof.Machine

/-! ### Sets of sources -/

theorem Sources.isEmpty_iff {x : Sources} : x.isEmpty = true ↔ x = .empty := by
  obtain ⟨line, link, age, full, recovery⟩ := x
  simp [Sources.isEmpty, Sources.empty, and_assoc]

theorem Sources.isEmpty_eq_false_iff {x : Sources} : x.isEmpty = false ↔ x ≠ .empty := by
  rw [← Bool.not_eq_true, Sources.isEmpty_iff]

theorem Sources.of_ne_empty (x : Source) : Sources.of x ≠ .empty := by cases x <;> decide

theorem Sources.of_recovery {x : Source} (other : x ≠ .recovery) : (Sources.of x).recovery = false := by
  cases x <;> first | rfl | exact absurd rfl other

theorem Sources.add_ne_empty (s : Sources) (x : Source) : s.add x ≠ .empty := by
  rw [← Sources.isEmpty_eq_false_iff]
  cases x <;> simp [Sources.add, Sources.union, Sources.of, Sources.empty, Sources.isEmpty]

theorem Sources.add_recovery {s : Sources} {x : Source} (other : x ≠ .recovery) : (s.add x).recovery = s.recovery := by
  simp [Sources.add, Sources.union, Sources.of_recovery other]

theorem Sources.add_full {s : Sources} {x : Source} (other : x ≠ .full) : (s.add x).full = s.full := by
  cases x <;> first | exact absurd rfl other | simp [Sources.add, Sources.union, Sources.of, Sources.empty]

theorem Sources.onlyLine_add_line {s : Sources} (only : s.onlyLine = true) : (s.add .line).onlyLine = true := by
  obtain ⟨link, age, full, recovery⟩ := (Sources.onlyLine_iff s).mp only
  simp [Sources.onlyLine, Sources.add, Sources.union, Sources.of, Sources.empty, link, age, full, recovery]

/-! ### The sets that each EC state may hold -/

/-- What O57 says of the in-progress set, the slots and the origin while no link reset awaits action, state by state. -/
def Ec.SetsFit (e : Ec) : Prop :=
  match e.state with
  | .unformatted | .active | .recoveryHold =>
    e.origin = none ∧ e.inProgress = .empty ∧ e.commitSlot = .empty ∧ e.rollbackSlot = .empty
  | .scanning => e.origin = none ∧ e.inProgress = .empty ∧ e.commitSlot.onlyLine = true ∧ e.rollbackSlot.onlyLine = true
  | .committing => e.origin = none ∧ e.inProgress ≠ .empty ∧ e.inProgress.recovery = false ∧ e.commitSlot = .empty
  | .rollingBack => e.inProgress ≠ .empty ∧ e.rollbackSlot = .empty ∧
      (e.origin = some .live ∧ e.inProgress.recovery = false ∨
        e.origin = some .recovery ∧ e.inProgress.recovery = true ∧ e.commitSlot.onlyLine = true)
  | .formatting => e.inProgress = .empty
  | .broken => e.inProgress = .empty ∧ e.commitSlot = .empty ∧ e.rollbackSlot = .empty

/-- The requests that wait: those deferred are of posted kinds, RECOVERY waits in no slot and FULL not in the rollback slot. -/
def Ec.WaitsFit (e : Ec) : Prop :=
  (∀ r ∈ e.deferred, r.posted = true) ∧ e.commitSlot.recovery = false ∧ e.rollbackSlot.recovery = false ∧
    e.rollbackSlot.full = false

theorem Ec.setsFit_iff (e : Ec) : e.SetsFit ↔
    (e.inProgress.isEmpty = false ↔ e.state = .committing ∨ e.state = .rollingBack) ∧
    (e.commitSlot.isEmpty = false → e.state = .scanning ∨ e.state = .rollingBack ∨ e.state = .formatting) ∧
    (e.rollbackSlot.isEmpty = false → e.state = .scanning ∨ e.state = .committing ∨ e.state = .formatting) ∧
    (e.state = .scanning → e.commitSlot.onlyLine = true ∧ e.rollbackSlot.onlyLine = true) ∧
    (e.origin = some .recovery → e.commitSlot.onlyLine = true ∨ e.state = .formatting) ∧
    (e.inProgress.recovery = true ↔ e.state = .rollingBack ∧ e.origin = some .recovery) ∧
    (e.state = .rollingBack → e.origin ≠ none) ∧
    (e.origin ≠ none → e.state = .rollingBack ∨ e.state = .broken ∨ e.state = .formatting) := by
  have empty : Sources.empty.recovery = false := rfl
  have only : Sources.empty.onlyLine = true := rfl
  simp only [Sources.isEmpty_eq_false_iff]
  unfold Ec.SetsFit
  have origins : e.origin = none ∨ e.origin = some .live ∨ e.origin = some .recovery := by
    cases e.origin with
    | none => exact .inl rfl
    | some o => cases o <;> simp
  -- in each state the clauses that name another one are void, and what is left is propositional
  cases e.state <;> grind

/-- What O57 says of a state, the EC state and its job apart. -/
def SetsKept (s : State) : Prop := s.ec.WaitsFit ∧ (s.mpa.linkReset = false → s.ec.SetsFit)

theorem ecSetsInv_iff {s : State} : EcSetsInv s ↔ JobInv s ∧ SetsKept s := by
  rw [SetsKept, Ec.setsFit_iff]
  simp only [EcSetsInv, Ec.WaitsFit, and_assoc]

theorem EcSetsInv.kept {s : State} (h : EcSetsInv s) : SetsKept s := (ecSetsInv_iff.mp h).2

theorem EcSetsInv.waits {s : State} (h : EcSetsInv s) : s.ec.WaitsFit := h.kept.1

theorem SetsKept.same {s t : State} (h : SetsKept s) (same : t.view = s.view) : SetsKept t := by
  obtain ⟨-, -, -, linkReset, ec, -⟩ := State.view_eq_iff.mp same
  unfold SetsKept
  rw [linkReset, ec]
  exact h

/-- The state and the sets of the EC unchanged. -/
theorem SetsKept.of_eq {s t : State} (h : SetsKept s) (linkReset : t.mpa.linkReset = s.mpa.linkReset)
    (state : t.ec.state = s.ec.state) (origin : t.ec.origin = s.ec.origin) (inProgress : t.ec.inProgress = s.ec.inProgress)
    (commitSlot : t.ec.commitSlot = s.ec.commitSlot) (rollbackSlot : t.ec.rollbackSlot = s.ec.rollbackSlot)
    (deferred : t.ec.deferred = s.ec.deferred) : SetsKept t := by
  unfold SetsKept Ec.WaitsFit Ec.SetsFit
  rw [linkReset, state, origin, inProgress, commitSlot, rollbackSlot, deferred]
  exact h

/-! ### Taking requests -/

theorem commit_posted {x : Source} (wanted : (EcRequest.commit x).posted = true) : x ≠ .recovery := by
  simpa [EcRequest.posted] using wanted

theorem rollback_posted {x : Source} (wanted : (EcRequest.rollback x).posted = true) : x ≠ .recovery ∧ x ≠ .full := by
  simpa [EcRequest.posted] using wanted

theorem Ec.SetsFit.held {e : Ec} (h : e.SetsFit) {x : Source} (state : e.state = .formatting ∨
    e.state = .rollingBack ∧ e.origin ≠ some .recovery ∨ x = .line ∧ (e.state = .scanning ∨ e.state = .rollingBack)) :
    Ec.SetsFit { e with commitSlot := e.commitSlot.add x } := by
  unfold Ec.SetsFit at h ⊢
  rcases state with state | ⟨state, origin⟩ | ⟨rfl, state | state⟩ <;> simp only [state] at h ⊢
  · exact h
  · obtain ⟨nonempty, rollbackSlot, live | ⟨recovery, -⟩⟩ := h
    · exact ⟨nonempty, rollbackSlot, .inl live⟩
    · exact absurd recovery origin
  · obtain ⟨origin, inProgress, commitSlot, rollbackSlot⟩ := h
    exact ⟨origin, inProgress, Sources.onlyLine_add_line commitSlot, rollbackSlot⟩
  · obtain ⟨nonempty, rollbackSlot, live | ⟨origin, recovery, commitSlot⟩⟩ := h
    · exact ⟨nonempty, rollbackSlot, .inl live⟩
    · exact ⟨nonempty, rollbackSlot, .inr ⟨origin, recovery, Sources.onlyLine_add_line commitSlot⟩⟩

theorem Ec.SetsFit.heldRollback {e : Ec} (h : e.SetsFit) {x : Source} (state : e.state = .committing ∨ e.state = .formatting ∨
    x = .line ∧ e.state = .scanning) : Ec.SetsFit { e with rollbackSlot := e.rollbackSlot.add x } := by
  unfold Ec.SetsFit at h ⊢
  rcases state with state | state | ⟨rfl, state⟩ <;> simp only [state] at h ⊢
  · exact h
  · exact h
  · obtain ⟨origin, inProgress, commitSlot, rollbackSlot⟩ := h
    exact ⟨origin, inProgress, commitSlot, Sources.onlyLine_add_line rollbackSlot⟩

/-- A posted source joins a commit or a rollback in progress. -/
theorem Ec.SetsFit.joined {e : Ec} (h : e.SetsFit) {x : Source} (other : x ≠ .recovery)
    (state : e.state = .committing ∨ e.state = .rollingBack) : Ec.SetsFit { e with inProgress := e.inProgress.add x } := by
  unfold Ec.SetsFit at h ⊢
  have recovery := Sources.add_recovery (s := e.inProgress) other
  rcases state with state | state <;> simp only [state, recovery] at h ⊢
  · obtain ⟨origin, -, noRecovery, commitSlot⟩ := h
    exact ⟨origin, Sources.add_ne_empty _ x, noRecovery, commitSlot⟩
  · obtain ⟨-, rollbackSlot, origin⟩ := h
    exact ⟨Sources.add_ne_empty _ x, rollbackSlot, origin⟩

/-- Outside commits and rollbacks nothing is in progress. -/
theorem Ec.SetsFit.inProgress_eq {e : Ec} (h : e.SetsFit) (state : e.state ≠ .committing ∧ e.state ≠ .rollingBack) :
    e.inProgress = .empty := by
  obtain ⟨notCommitting, notRolling⟩ := state
  unfold Ec.SetsFit at h
  cases state : e.state <;> simp only [state] at h notCommitting notRolling
  case committing => exact absurd rfl notCommitting
  case rollingBack => exact absurd rfl notRolling
  case formatting => exact h
  case broken => exact h.1
  all_goals exact h.2.1

/-- In ACTIVE and RECOVERY_HOLD nothing is held. -/
theorem Ec.SetsFit.nothing_held {e : Ec} (h : e.SetsFit) (state : e.state = .active ∨ e.state = .recoveryHold) :
    e.origin = none ∧ e.commitSlot = .empty ∧ e.rollbackSlot = .empty := by
  unfold Ec.SetsFit at h
  rcases state with state | state <;> simp only [state] at h <;> exact ⟨h.1, h.2.2⟩

theorem setsKept_taken {s t : State} {r : EcRequest} (wanted : r.posted = true) (taken : Take r s t) (h : SetsKept s) :
    SetsKept t := by
  obtain ⟨waits, sets⟩ := h
  have ⟨deferred, commitRecovery, rollbackRecovery, rollbackFull⟩ := waits
  cases taken with
  | unseen same => exact SetsKept.same ⟨waits, sets⟩ same
  | @commit x _ state =>
    refine ⟨waits, fun acts => ?_⟩
    obtain ⟨origin, commitSlot, -⟩ := (sets acts).nothing_held (.inl state)
    exact ⟨origin, Sources.of_ne_empty x, Sources.of_recovery (commit_posted wanted), commitSlot⟩
  | joinCommit state => exact ⟨waits, fun acts => (sets acts).joined (commit_posted wanted) (.inl state)⟩
  | holdCommit state =>
    exact ⟨⟨deferred, (Sources.add_recovery (commit_posted wanted)).trans commitRecovery, rollbackRecovery, rollbackFull⟩,
      fun acts => (sets acts).held state⟩
  | @rollback x _ state =>
    refine ⟨waits, fun acts => ?_⟩
    obtain ⟨-, -, rollbackSlot⟩ := (sets acts).nothing_held (.inl state)
    exact ⟨Sources.of_ne_empty x, rollbackSlot, .inl ⟨rfl, Sources.of_recovery (rollback_posted wanted).1⟩⟩
  | recover state =>
    refine ⟨waits, fun acts => ?_⟩
    obtain ⟨-, commitSlot, rollbackSlot⟩ := (sets acts).nothing_held (.inr state)
    exact ⟨Sources.add_ne_empty _ _, rollbackSlot, .inr ⟨rfl, rfl, (congrArg Sources.onlyLine commitSlot).trans rfl⟩⟩
  | joinRollback state => exact ⟨waits, fun acts => (sets acts).joined (rollback_posted wanted).1 (.inr state)⟩
  | holdRollback state =>
    obtain ⟨noRecovery, notFull⟩ := rollback_posted wanted
    exact ⟨⟨deferred, commitRecovery, (Sources.add_recovery noRecovery).trans rollbackRecovery,
      (Sources.add_full notFull).trans rollbackFull⟩, fun acts => (sets acts).heldRollback state⟩
  | format state =>
    refine ⟨waits, fun acts => (sets acts).inProgress_eq ?_⟩
    rcases state with state | state | state | ⟨state, -⟩ <;> rw [state] <;> exact ⟨nofun, nofun⟩

/-! ### Ends of jobs -/

/-- Whatever is served, its sets fit: serving looks at the slots alone (R103). -/
theorem setsKept_serve {s : State} (waits : s.ec.WaitsFit) : SetsKept s.serve := by
  have ⟨deferred, commitRecovery, rollbackRecovery, rollbackFull⟩ := waits
  have served := s.served_serve
  generalize s.serve = t at served ⊢
  cases served with
  | nothing nothing =>
    refine ⟨waits, fun acts => ?_⟩
    rcases nothing with awaits | ⟨noRollback, noCommit⟩
    · exact nomatch awaits.symm.trans acts
    · exact ⟨rfl, rfl, Sources.isEmpty_iff.mp noCommit, Sources.isEmpty_iff.mp noRollback⟩
  | rollback acts held =>
    exact ⟨⟨deferred, commitRecovery, rfl, rfl⟩,
      fun _ => ⟨Sources.isEmpty_eq_false_iff.mp held, rfl, .inl ⟨rfl, rollbackRecovery⟩⟩⟩
  | commit acts noRollback held =>
    exact ⟨⟨deferred, rfl, rollbackRecovery, rollbackFull⟩,
      fun _ => ⟨rfl, Sources.isEmpty_eq_false_iff.mp held, commitRecovery, rfl⟩⟩

theorem setsKept_ends {s t : State} {j : Job} (job : s.mpa.job = some j) (ended : Ends s j.kind j.reads t)
    (h : EcSetsInv s) : SetsKept t := by
  obtain ⟨fits, waits, sets⟩ := ecSetsInv_iff.mp h
  have kept := h.kept
  have ⟨deferred, commitRecovery, rollbackRecovery, rollbackFull⟩ := waits
  have fits := fits j job
  generalize j.kind = k, j.reads = reads at ended fits
  have scanning (state : (s.ec.state == .scanning) = true) (acts : s.mpa.linkReset = false) : s.ec.origin = none ∧
      s.ec.inProgress = .empty ∧ s.ec.commitSlot.onlyLine = true ∧ s.ec.rollbackSlot.onlyLine = true := by
    have fit := sets acts
    simpa only [Ec.SetsFit, eq_of_beq state] using fit
  cases ended with
  | up | readRecord | header | scanGood | restored => exact kept.of_eq rfl rfl rfl rfl rfl rfl rfl
  | noHeader | scanHolds =>
    refine ⟨⟨deferred, rfl, rfl, rfl⟩, fun acts => ?_⟩
    obtain ⟨origin, inProgress, -⟩ := scanning fits acts
    exact ⟨origin, inProgress, rfl, rfl⟩
  | scanBreaks =>
    refine ⟨⟨deferred, rfl, rfl, rfl⟩, fun acts => ?_⟩
    obtain ⟨-, inProgress, -⟩ := scanning fits acts
    exact ⟨inProgress, rfl, rfl⟩
  | scanRecovers =>
    refine ⟨⟨deferred, commitRecovery, rfl, rfl⟩, fun acts => ?_⟩
    obtain ⟨-, -, commitSlot, -⟩ := scanning fits acts
    refine ⟨fun empty => ?_, rfl, .inr ⟨rfl, rfl, commitSlot⟩⟩
    exact nomatch congrArg Sources.recovery empty
  | restoreBreaks =>
    refine ⟨⟨deferred, rfl, rollbackRecovery, rollbackFull⟩, fun acts => ?_⟩
    have fit := sets acts
    simp only [Ec.SetsFit, eq_of_beq fits] at fit
    exact ⟨rfl, rfl, fit.2.1⟩
  | scanServes | commit | close | format | discard => exact setsKept_serve waits

/-! ### The invariant is kept -/

theorem setsKept_opMade {s : State} {j : Job} {op : WordOp} {rest : List WordOp} (bus : UpstreamBus) (h : SetsKept s) :
    SetsKept (s.opMade j op rest bus) := by
  rcases s.opMade_cases j op rest bus with ⟨a, tag, r, -, -, view⟩ | ⟨-, view⟩
  · have tagged : SetsKept (s.tagMade j r a tag rest) := h.of_eq rfl rfl rfl rfl rfl rfl rfl
    exact tagged.same view
  · have ec := s.otherMade_ec j op rest bus
    have mpa : (s.otherMade j op rest bus).mpa.linkReset = s.mpa.linkReset := by simp [State.otherMade]
    exact SetsKept.same (h.of_eq mpa (by rw [ec]) (by rw [ec]) (by rw [ec]) (by rw [ec]) (by rw [ec]) (by rw [ec])) view

theorem setsKept_led : CommandsTo (fun r => r.posted = true) EcSetsInv SetsKept where
  posted wanted := wanted
  waits h mem := h.waits.1 _ mem
  unseen h same := h.kept.same same
  answered _ h := h.kept
  accepted _ h := h.kept
  dropped _ _ h := h.kept
  awaitsReset h := ⟨h.waits, nofun⟩
  straps _ h := h.kept
  taken wanted _ taken h := setsKept_taken wanted taken h.kept
  deferred := by
    intro s r wanted h
    obtain ⟨⟨deferred, slots⟩, sets⟩ := h.kept
    refine ⟨⟨fun q mem => ?_, slots⟩, sets⟩
    rcases List.mem_append.mp mem with before | last
    · exact deferred q before
    · rw [List.mem_singleton.mp last]
      exact wanted
  cleared h := by
    obtain ⟨⟨-, slots⟩, sets⟩ := h.kept
    exact ⟨⟨nofun, slots⟩, sets⟩
  upGranted _ _ _ h := h.kept
  ecGranted _ grant h := by cases grant <;> exact h.kept
  lkGranted _ _ h := h.kept
  completed := completed_of_made_of_ends (G := EcSetsInv) (fun h same => h.same same) (fun h => h.kept)
    (fun bus progress h => ecSetsInv_iff.mpr ⟨h.1.opMade bus progress, setsKept_opMade bus h.kept⟩) setsKept_ends
  ended job _ ended h := setsKept_ends job ended h
  reset _ _ _ _ := ⟨⟨nofun, rfl, rfl, rfl⟩, fun _ => ⟨rfl, rfl, rfl, rfl⟩⟩

/-- A narrower choice of the requests that reach the EC. -/
theorem CommandsTo.restrict {G P : State → Prop} {ok : EcRequest → Prop} (lead : CommandsTo (fun _ => True) G P)
    (posted : ∀ {r : EcRequest}, r.posted = true → ok r)
    (waits : ∀ {s : State} {r : EcRequest}, G s → r ∈ s.ec.deferred → ok r) : CommandsTo ok G P :=
  { lead with posted := posted, waits := waits, taken := fun _ => lead.taken trivial, deferred := fun _ => lead.deferred trivial }

theorem ecSetsInv_kept : CommandsTo (fun r => r.posted = true) EcSetsInv EcSetsInv := by
  have jobs : CommandsTo (fun r => r.posted = true) EcSetsInv JobInv :=
    (jobInv_kept.mono fun h => h.1).restrict id fun h mem => h.waits.1 _ mem
  have kept := jobs.and setsKept_led
  rwa [← funext fun s => propext (@ecSetsInv_iff s)] at kept

/-- Settles O57: a set is formed, joined, held and served only as the state allows, and no request of source RECOVERY, and no
rollback of source FULL, is ever posted. -/
theorem sourceSetsFitTheState : Obligations.SourceSetsFitTheState := fun _ _ h next => ecSetsInv_kept.step h next

end Sys2Proof.Machine
end

