-- ==== Sys2Proof/Proofs/EpochAndUsage.lean ====
section
/-! PROOFS. The steps of the epoch number and of usage (O46). -/

namespace Sys2Proof.Machine

/-! ### Moves -/

/-- The epoch number and usage are these. -/
def CountsAre (e : Epoch) (n : Nat) (s : State) : Prop := s.ec.epoch = e ∧ s.ec.usage = n

theorem CountsAre.same {e : Epoch} {n : Nat} {s t : State} (h : CountsAre e n s) (core : t.core = s.core) : CountsAre e n t := by
  obtain ⟨-, -, -, -, usage, epoch, -⟩ := State.core_eq_iff.mp core
  exact ⟨epoch.trans h.1, usage.trans h.2⟩

theorem countsAre_moves (e : Epoch) (n : Nat) : MovesTo (fun _ => True) (CountsAre e n) (CountsAre e n) :=
  MovesOfCore.movesTo (unchanged := CountsAre.same) {
  same := CountsAre.same
  committing := fun _ _ h => h
  rollingBack := fun _ _ h => h
  formatting := fun _ _ h => h
  upGranted := fun _ _ h => h
  ecGranted := fun _ grant h => by cases grant <;> exact h
  lkGranted := fun _ _ h => h }

/-- Counted on, or scanned anew. -/
def CountsOrReset (e : Epoch) (n : Nat) (s : State) : Prop :=
  CountsAre e n s ∨ s.ec.state = .scanning ∧ s.ec.epoch = 0 ∧ s.ec.usage = 0

theorem CountsOrReset.same {e : Epoch} {n : Nat} {s t : State} (h : CountsOrReset e n s) (view : t.view = s.view) :
    CountsOrReset e n t := by
  have core := State.core_eq_of_view_eq view
  obtain ⟨-, state, -, -, usage, epoch, -⟩ := State.core_eq_iff.mp core
  refine h.imp (fun h => h.same core) fun ⟨hs, he, hu⟩ => ⟨state.trans hs, epoch.trans he, usage.trans hu⟩

/-! ### Word operations -/

/-- How the epoch number may change at a word operation of a job. -/
def EpochStep (old new : Epoch) (k : JobKind) : Prop :=
  new = old ∨ k = .headerRead ∨ ((∃ f, k = .format f) ∧ new = 0) ∨
    (((∃ b e n, k = .commit b e n ∨ k = .discard b e n) ∨ ∃ e, k = .close e) ∧ new = old + 1)

/-- How usage may change at a word operation of a job. -/
def UsageStep (old new : Nat) (k : JobKind) : Prop :=
  new ≤ old ∨ new = old + 1 ∧ ((∃ r, k = .append r) ∨ k = .scanStep)

theorem State.serve_counts (s : State) : s.serve.ec.epoch = s.ec.epoch ∧ s.serve.ec.usage = s.ec.usage := by
  have served := s.served_serve
  generalize s.serve = t at served ⊢
  cases served <;> exact ⟨rfl, rfl⟩

/-- The epoch number with which a commit, a discard or a close ends. -/
def Opens (k : JobKind) (e : Epoch) : Prop := (∃ b n, k = .commit b e n ∨ k = .discard b e n) ∨ k = .close e

theorem JobValues.opens {e : Ec} {j : Job} (values : JobValues e j) {next : Epoch} (opens : Opens j.kind next) :
    next = e.epoch + 1 := by
  unfold JobValues at values
  rcases opens with ⟨b, n, kind | kind⟩ | kind <;> rw [kind] at values
  · exact values.2.1
  · exact values.2.1
  · exact values

theorem Ends.counts {s t : State} {k : JobKind} {reads : List Word} (ended : Ends s k reads t)
    (opens : ∀ {e}, Opens k e → e = s.ec.epoch + 1) (scanned : k = .scanStep → s.ec.usage = s.ec.scanCount) :
    EpochStep s.ec.epoch t.ec.epoch k ∧ UsageStep s.ec.usage t.ec.usage k := by
  have served (u : State) := u.serve_counts
  have emptied {n : Nat} (none : n = 0) {k : JobKind} : UsageStep s.ec.usage n k := .inl (none.le.trans (Nat.zero_le _))
  cases ended with
  | up | readRecord | noHeader | scanBreaks | scanRecovers | scanHolds | restoreBreaks => exact ⟨.inl rfl, .inl le_rfl⟩
  | header => exact ⟨.inr (.inl rfl), emptied rfl⟩
  | scanGood => exact ⟨.inl rfl, .inr ⟨by rw [scanned rfl], .inr rfl⟩⟩
  | scanServes => exact ⟨.inl (served _).1, .inl (served _).2.le⟩
  | restored => exact ⟨.inl rfl, .inl (Nat.sub_le _ _)⟩
  | @commit _ b e n =>
    have next := opens (.inl ⟨b, n, .inl rfl⟩)
    exact ⟨.inr (.inr (.inr ⟨.inl ⟨b, e, n, .inl rfl⟩, (served _).1.trans next⟩)), emptied (served _).2⟩
  | @discard _ b e n =>
    have next := opens (.inl ⟨b, n, .inr rfl⟩)
    exact ⟨.inr (.inr (.inr ⟨.inl ⟨b, e, n, .inr rfl⟩, (served _).1.trans next⟩)), emptied (served _).2⟩
  | @close _ e =>
    exact ⟨.inr (.inr (.inr ⟨.inr ⟨e, rfl⟩, (served _).1.trans (opens (.inr rfl))⟩)), emptied (served _).2⟩
  | @format _ f => exact ⟨.inr (.inr (.inl ⟨⟨f, rfl⟩, (served _).1⟩)), emptied (served _).2⟩

/-- The epoch number stays and usage rises at an append's tag write only. -/
theorem State.opMade_counts (s : State) (j : Job) (op : WordOp) (rest : List WordOp) (bus : UpstreamBus) :
    (s.opMade j op rest bus).ec = s.ec ∨ (∃ r, j.kind = .append r) ∧ (s.opMade j op rest bus).ec.epoch = s.ec.epoch ∧
      (s.opMade j op rest bus).ec.usage = s.ec.usage + 1 := by
  rcases s.opMade_cases j op rest bus with ⟨a, tag, r, -, kind, view⟩ | ⟨-, view⟩
  · obtain ⟨-, -, -, -, ec, -⟩ := State.view_eq_iff.mp view
    exact .inr ⟨⟨r, kind⟩, by rw [ec]; rfl, by rw [ec]; rfl⟩
  · obtain ⟨-, -, -, -, ec, -⟩ := State.view_eq_iff.mp view
    exact .inl (ec.trans (s.otherMade_ec j op rest bus))

theorem State.completeOp_counts {s : State} {j : Job} (op : WordOp) (rest : List WordOp) (bus : UpstreamBus)
    (values : JobValues s.ec j) (scanned : j.kind = .scanStep → s.ec.usage = s.ec.scanCount) :
    EpochStep s.ec.epoch (s.completeOp j op rest bus).ec.epoch j.kind ∧
      UsageStep s.ec.usage (s.completeOp j op rest bus).ec.usage j.kind := by
  have made := s.opMade_counts j op rest bus
  rw [State.completeOp_eq]
  split
  case isFalse =>
    rcases made with same | ⟨append, epoch, usage⟩
    · rw [same]
      exact ⟨.inl rfl, .inl le_rfl⟩
    · exact ⟨.inl epoch, .inr ⟨usage, .inl append⟩⟩
  case isTrue =>
    obtain ⟨u, ended, seen⟩ := (s.opMade j op rest bus).endsSeen_jobEnds j.kind (s.readsAfter j op)
    obtain ⟨-, -, -, -, ec, -⟩ := State.view_eq_iff.mp seen
    rw [ec]
    rcases made with same | ⟨⟨r, kind⟩, epoch, usage⟩
    · have counts := ended.counts (fun opens => by rw [same]; exact values.opens opens) (fun kind => by rw [same]; exact scanned kind)
      rwa [same] at counts
    · rw [kind] at ended ⊢
      cases ended
      exact ⟨.inl epoch, .inr ⟨usage, .inl ⟨r, rfl⟩⟩⟩

theorem exec_wordOperationComplete_counts {s t : State} {bus : UpstreamBus} (ring : RingInv s) (fits : JobInv s)
    (scan : s.ec.state = .scanning → s.ec.usage = s.ec.scanCount) (next : exec (.wordOperationComplete bus) s = .next t) :
    t.ec = s.ec ∨ ∃ j, s.mpa.job = some j ∧ EpochStep s.ec.epoch t.ec.epoch j.kind ∧ UsageStep s.ec.usage t.ec.usage j.kind := by
  obtain ⟨-, -, -, values⟩ := ring
  have scanned {j : Job} (job : s.mpa.job = some j) (kind : j.kind = .scanStep) : s.ec.usage = s.ec.scanCount := by
    have fits := fits j job
    rw [kind] at fits
    exact scan (eq_of_beq fits)
  cases next
  split
  · exact .inl rfl
  case h_2 j job =>
    refine .inr ⟨j, job, ?_⟩
    dsimp only
    split
    case h_1 =>
      obtain ⟨u, ended, seen⟩ := (s.settle.present bus.ustb).endsSeen_jobEnds j.kind j.reads
      obtain ⟨-, -, -, -, ec, -⟩ := State.view_eq_iff.mp seen
      rw [ec]
      exact ended.counts (fun opens => (values j job).opens opens) (scanned job)
    case h_2 op rest _ => exact State.completeOp_counts (s := s.settle.present bus.ustb) op rest bus (values j job) (scanned job)

/-- Every other command leaves both, or is a reset. -/
theorem exec_other_counts {c : Instr} {s t : State} (other : ∀ bus, c ≠ .wordOperationComplete bus)
    (next : exec c s = .next t) : CountsOrReset s.ec.epoch s.ec.usage t := by
  have moves := countsAre_moves s.ec.epoch s.ec.usage
  have here : CountsAre s.ec.epoch s.ec.usage s := ⟨rfl, rfl⟩
  by_cases reset : ∃ cause begun bus, c = .hardwareReset cause begun bus
  · obtain ⟨cause, begun, bus, rfl⟩ := reset
    cases next
    exact .inr ⟨rfl, rfl, rfl⟩
  · by_cases acts : c = .linkResetActs ∨ c = .haltedEntry
    · exact moves.execAtJobEnd .inl CountsOrReset.same (fun _ _ _ _ => .inr ⟨rfl, rfl, rfl⟩) acts here next
    · push Not at reset acts
      exact .inl (moves.exec ⟨other, reset, acts.1, acts.2⟩ here next)

/-- Settles O46: moves leave epoch number and usage, a reset sets both to 0, and a word operation changes them at the end of
its job, or at an append's tag write. -/
theorem epochAndUsageSteps : Obligations.EpochAndUsageSteps := by
  intro c s t ring fits scan next
  by_cases word : ∃ bus, c = .wordOperationComplete bus
  · obtain ⟨bus, rfl⟩ := word
    rcases exec_wordOperationComplete_counts ring fits scan next with same | ⟨j, job, epoch, usage⟩
    · rw [same]
      exact ⟨.inl rfl, fun more => absurd more (Nat.lt_irrefl _)⟩
    · refine ⟨epoch.imp_right fun step => .inr ⟨bus, j, rfl, job, step⟩, fun more => ?_⟩
      obtain ⟨one, kind⟩ := usage.resolve_left (Nat.not_le.mpr more)
      exact ⟨one, bus, j, rfl, job, kind⟩
  · push Not at word
    rcases exec_other_counts word next with ⟨epoch, usage⟩ | ⟨state, epoch, usage⟩
    · exact ⟨.inl epoch, fun more => absurd more (by omega)⟩
    · exact ⟨.inr (.inl ⟨state, epoch⟩), fun more => absurd more (by omega)⟩

end Sys2Proof.Machine
end
